-- ==== Sys2Proof/Word.lean ====
section
/-! DEFINITION. The word types of the decode-and-recover block (spec/00_scope.md R7, spec/10_state.md section 2). -/

namespace Sys2Proof

/-- A byte of IBUF, of a packet or of an 8-bit register (R7, R34). -/
abbrev Byte := BitVec 8

/-- A 16-bit quantity: a LEN field (R80), an RTP sequence number (R7), a record's field id (R90). -/
abbrev Half := BitVec 16

/-- A 32-bit quantity: a command word (R80), a host register (R82), a record's index (R90). -/
abbrev Word := BitVec 32

/-- A 64-bit quantity: RESULT (R7, R35), a record's value (R90), a `ue` field of ParserState (R40). -/
abbrev Long := BitVec 64

end Sys2Proof
end

