-- ==== Sys2Proof/Syntax.lean ====
section
/-! DEFINITION. The commands of the block: one constructor for each row of spec/opcode_table.json
(spec/30_encoding.md R85), with the operand fields of its format (R97, R98). -/

namespace Sys2Proof

/-- The thirteen commands (R85). `len` is the LEN field, `n` the N field of the command word (R80, R98). -/
inductive Instr where
  /-- 0x01, format I: load the BitReader (R120). -/
  | brInit (len : Half)
  /-- 0x02, format B: read `n` bits (R121). -/
  | brRead (n : Byte)
  /-- 0x03, format Z: read 8 bits (R123). -/
  | brReadByte
  /-- 0x04, format Z: read an unsigned Exp-Golomb code (R122). -/
  | brReadUe
  /-- 0x10, format P: one H.264 RTP payload (R160). -/
  | h264Payload (len : Half)
  /-- 0x11, format P: one H.264 NAL unit (R166). -/
  | h264Nal (len : Half)
  /-- 0x20, format P: one AV1 RTP payload (R230). -/
  | av1Payload (len : Half)
  /-- 0x21, format P: a stream of whole OBUs (R233). -/
  | av1Obus (len : Half)
  /-- 0x22, format P: one leb128 value (R234). -/
  | av1Leb128 (len : Half)
  /-- 0x30, format P: the layout of one Opus packet (R280). -/
  | opusPacket (len : Half)
  /-- 0x40, format P: insert one media packet (R310). -/
  | fecMedia (len : Half)
  /-- 0x41, format P: decode, store and use one FlexFEC payload (R312). -/
  | fecPacket (len : Half)
  /-- 0x42, format P: decode a FlexFEC mask alone (R320). -/
  | fecMask (len : Half)
deriving DecidableEq, Repr

end Sys2Proof
end

