-- ==== Sys2Proof/Decode.lean ====
section
/-! DEFINITION. From a command word to a command and back (spec/30_encoding.md R80, R81, R85, R97 to R101). -/

namespace Sys2Proof

/-- Why a word is not the word of any row of the opcode table (R81). -/
inductive DecodeError where
  /-- OPC is not in the table of R85. -/
  | unknownOpcode (opc : Byte)
  /-- N ≠ 0 for a command other than BR_READ. -/
  | nonzeroN (opc : Byte)
  /-- LEN ≠ 0 for BR_READ, BR_READ_BYTE or BR_READ_UE. -/
  | nonzeroLen (opc : Byte)
deriving DecidableEq, Repr

/-- `OPC`: bits 7:0 of a command word (R80). -/
def opcField (w : Word) : Byte := w.extractLsb 7 0

/-- `N`: bits 15:8 of a command word (R80). -/
def nField (w : Word) : Byte := w.extractLsb 15 8

/-- `LEN`: bits 31:16 of a command word (R80). -/
def lenField (w : Word) : Half := w.extractLsb 31 16

/-- Formats I and P: LEN is the operand, N must be 0 (R97, R81). -/
def decodeLen (w : Word) (mk : Half → Instr) : Except DecodeError Instr :=
  if nField w = 0 then .ok (mk (lenField w)) else .error (.nonzeroN (opcField w))

/-- Format B: N is the operand, LEN must be 0 (R97, R81). -/
def decodeN (w : Word) (mk : Byte → Instr) : Except DecodeError Instr :=
  if lenField w = 0 then .ok (mk (nField w)) else .error (.nonzeroLen (opcField w))

/-- Format Z: no operand, N and LEN must be 0 (R97, R81). -/
def decodeZ (w : Word) (i : Instr) : Except DecodeError Instr :=
  if nField w = 0 then (if lenField w = 0 then .ok i else .error (.nonzeroLen (opcField w)))
  else .error (.nonzeroN (opcField w))

/-- The decoder: total on 32-bit words, one case for each row of R85, every other word rejected by name. A BR_READ
word is decoded whatever its N is, as its opcode row matches it; N > 64 is judged by the command itself (R121). -/
def decode (w : Word) : Except DecodeError Instr :=
  match opcField w with
  | 0x01#8 => decodeLen w .brInit
  | 0x02#8 => decodeN w .brRead
  | 0x03#8 => decodeZ w .brReadByte
  | 0x04#8 => decodeZ w .brReadUe
  | 0x10#8 => decodeLen w .h264Payload
  | 0x11#8 => decodeLen w .h264Nal
  | 0x20#8 => decodeLen w .av1Payload
  | 0x21#8 => decodeLen w .av1Obus
  | 0x22#8 => decodeLen w .av1Leb128
  | 0x30#8 => decodeLen w .opusPacket
  | 0x40#8 => decodeLen w .fecMedia
  | 0x41#8 => decodeLen w .fecPacket
  | 0x42#8 => decodeLen w .fecMask
  | opc => .error (.unknownOpcode opc)

/-- The opcode of a command (R85); also the `opcode` of the description it pushes (R89). -/
def Instr.opcode : Instr → Byte
  | .brInit _ => 0x01
  | .brRead _ => 0x02
  | .brReadByte => 0x03
  | .brReadUe => 0x04
  | .h264Payload _ => 0x10
  | .h264Nal _ => 0x11
  | .av1Payload _ => 0x20
  | .av1Obus _ => 0x21
  | .av1Leb128 _ => 0x22
  | .opusPacket _ => 0x30
  | .fecMedia _ => 0x40
  | .fecPacket _ => 0x41
  | .fecMask _ => 0x42

/-- The N field of a command's word: BR_READ's operand, 0 for every other command (R80, R101). -/
def Instr.nOperand : Instr → Byte
  | .brInit _ => 0
  | .brRead n => n
  | .brReadByte => 0
  | .brReadUe => 0
  | .h264Payload _ => 0
  | .h264Nal _ => 0
  | .av1Payload _ => 0
  | .av1Obus _ => 0
  | .av1Leb128 _ => 0
  | .opusPacket _ => 0
  | .fecMedia _ => 0
  | .fecPacket _ => 0
  | .fecMask _ => 0

/-- The LEN field of a command's word: 0 for BR_READ, BR_READ_BYTE and BR_READ_UE (R80, R81). -/
def Instr.lenOperand : Instr → Half
  | .brInit len => len
  | .brRead _ => 0
  | .brReadByte => 0
  | .brReadUe => 0
  | .h264Payload len => len
  | .h264Nal len => len
  | .av1Payload len => len
  | .av1Obus len => len
  | .av1Leb128 len => len
  | .opusPacket len => len
  | .fecMedia len => len
  | .fecPacket len => len
  | .fecMask len => len

/-- The encoder: `OPC | (N << 8) | (LEN << 16)` (R80, R101). -/
def encode (i : Instr) : Word := i.lenOperand ++ i.nOperand ++ i.opcode

/-- The command the decoder reads from a table row's word. A command is one 32-bit register write (R80, R100), so
there is no byte order to lay out (R66); bits above `nbits` are 0. -/
def decodeTableWord (nbits w : Nat) : Option Instr :=
  match decode (BitVec.ofNat 32 (w % 2 ^ nbits)) with
  | .ok i => some i
  | .error _ => none

end Sys2Proof
end

