-- ==== Sys2Proof/Config.lean ====
section
/-! DEFINITION. Implementation parameters (spec/00_scope.md R6, spec/92_eei_decisions.md "Open parameters"). -/

namespace Sys2Proof

/-- The OPEN parameters of R6, fixed when an instance is configured (R390). The three capacities are integers
≥ 1, so each is held less one and no value of this type breaks the bound. -/
structure Params where
  /-- `MEDIA_CAP` − 1 (R6, R44). -/
  mediaCapMinus1 : Nat
  /-- `FEC_CAP` − 1 (R6, R45). -/
  fecCapMinus1 : Nat
  /-- `DESC_DEPTH` − 1 (R6, R39). -/
  descDepthMinus1 : Nat
  /-- `H264_EPB_STRIP` (R6, R162). -/
  epbStrip : Bool
deriving DecidableEq, Repr, Inhabited

/-- `MEDIA_CAP`: capacity of the media-packet store (R6). -/
def Params.mediaCap (p : Params) : Nat := p.mediaCapMinus1 + 1

/-- `FEC_CAP`: capacity of the FEC-packet store (R6). -/
def Params.fecCap (p : Params) : Nat := p.fecCapMinus1 + 1

/-- `DESC_DEPTH`: capacity of the description queue (R6). -/
def Params.descDepth (p : Params) : Nat := p.descDepthMinus1 + 1

/-- The parameters an instance happens to be configured with: the spec leaves them OPEN (R6), so this constant has
no body and nothing can be proved of its value. DESIGN CHOICE, safe (notes/assumptions/2.md). -/
opaque Config.params : Params

/-- `IBUF_SIZE` (R6, R38). -/
def Config.ibufSize : Nat := 65536

/-- `BR_MAX_READ`: the largest `n` of a fixed-width read (R6, R81). -/
def Config.brMaxRead : Nat := 64

/-- `LEB128_MAX_BYTES` (R6, R134). -/
def Config.leb128MaxBytes : Nat := 8

/-- `MASK_BITS`: the largest FlexFEC flexible mask (R6, R318). -/
def Config.maskBits : Nat := 109

end Sys2Proof
end

