-- ==== Sys2Proof/Machine/State.lean ====
section
/-! DEFINITION. The whole state of one instance (spec/10_state.md), its reset value (R48), and the reasons a step can
stop. -/

namespace Sys2Proof.Machine

/-- One record of a description: `(field, u, i, j, k, value)` (R90). -/
structure Record where
  field : Half
  u : Word
  i : Word
  j : Word
  k : Word
  value : Long
deriving DecidableEq, Repr

/-- What one parser command outputs: `(opcode, status, records)` (R89). -/
structure Description where
  opcode : Byte
  status : Byte
  records : List Record
deriving DecidableEq, Repr

/-- The SPS part of the H.264 ParserState, with the widths of R40. -/
structure SpsPart where
  separateColourPlaneFlag : BitVec 1
  frameMbsOnlyFlag : BitVec 1
  picOrderCntType : Long
  deltaPicOrderAlwaysZeroFlag : BitVec 1
  log2MaxFrameNum : BitVec 5
  log2MaxPicOrderCntLsb : BitVec 5
  chromaFormatIdc : Long
  picWidthInMbsMinus1 : Long
  picHeightInMapUnitsMinus1 : Long
deriving DecidableEq, Repr

/-- The PPS part of the H.264 ParserState, with the widths of R41. -/
structure PpsPart where
  entropyCodingModeFlag : BitVec 1
  redundantPicCntPresentFlag : BitVec 1
  numSliceGroupsMinus1 : Long
  sliceGroupMapType : Long
  bottomFieldPicOrderInFramePresentFlag : BitVec 1
  sliceGroupChangeRateMinus1 : Long
  numRefIdxL0DefaultActiveMinus1 : Long
  numRefIdxL1DefaultActiveMinus1 : Long
  weightedPredFlag : BitVec 1
  weightedBipredIdc : BitVec 2
  deblockingFilterControlPresentFlag : BitVec 1
deriving DecidableEq, Repr

/-- The H.264 ParserState: the two validity bits (R42) and the two parts (R40, R41). -/
structure H264State where
  spsValid : Bool
  ppsValid : Bool
  sps : SpsPart
  pps : PpsPart
deriving DecidableEq, Repr

/-- An entry of MEDIA (`seq`, `bytes`; R44) or of FEC (`key`, `bytes`; R45). -/
structure StoreEntry where
  key : Half
  bytes : List Byte
deriving DecidableEq, Repr

/-- A FlexFEC store: entries oldest first (R44, R45). -/
abbrev Store := List StoreEntry

/-- IBUF as the list of its bytes that differ from 0x00, addresses strictly rising (R38, R48;
notes/assumptions/9.md). -/
abbrev Memory := List Host.Cell

/-- One atomic action of the host (R60; notes/assumptions/1.md). -/
inductive HostAction where
  /-- `MemWrite(addr, n, v)`: write the bytes `v` at IBUF index `addr` (R61). -/
  | memWrite (addr : Nat) (v : List Byte)
  /-- The same write, given the host byte address of the address map (R69; notes/assumptions/13.md). -/
  | busWrite (addr : Nat) (v : List Byte)
  /-- A register write of `width` bytes at `addr` (R62). A write to CMD starts a command (R80). -/
  | regWrite (addr : Nat) (width : Nat) (v : Word)
  /-- A register read of `width` bytes at `addr` (R62). -/
  | regRead (addr : Nat) (width : Nat)
  /-- `PopDesc` (R63). -/
  | popDesc
  /-- The whole-instance reset (R390, R393; notes/assumptions/12.md). -/
  | reset
deriving DecidableEq, Repr

/-- What the last host action that returns something returned (notes/assumptions/3.md). -/
inductive Reply where
  /-- No read and no pop has run since reset. -/
  | none
  /-- The 32-bit value of a register read (R62, R66). -/
  | word (v : Word)
  /-- The result of PopDesc: a description, or none when DQ was empty (R63). -/
  | desc (d : Option Description)
deriving DecidableEq, Repr

/-- The state of one instance. The fields from `ibuf` to `fec` are the spec's (spec/10_state.md R32 to R45); `cfg`,
`host` and `reply` are the model's own (notes/assumptions/1.md to 3.md). CMD has no storage: it reads 0 (R48). -/
structure State where
  /-- `IBUF` (R38). -/
  ibuf : Memory
  /-- `ARG` (R36). -/
  arg : Word
  /-- `STATUS` (R34). -/
  status : Byte
  /-- `RESULT` (R35). -/
  result : Long
  /-- `RESULT2` (R35). -/
  result2 : Word
  /-- `BR_DATA` (R32). -/
  brData : List Byte
  /-- `BR_BITLEN` (R32). -/
  brBitlen : Nat
  /-- `BR_POS` (R32, R33). -/
  brPos : Nat
  /-- `DQ`, head first (R39). -/
  dq : List Description
  /-- `DROP_CNT` (R39). -/
  dropCnt : Word
  /-- The H.264 ParserState (R40 to R42). -/
  h264 : H264State
  /-- `MEDIA` (R44). -/
  media : Store
  /-- `FEC` (R45). -/
  fec : Store
  /-- The OPEN parameters this instance is configured with (R6, R390); no step changes them. -/
  cfg : Params
  /-- The host actions still to come, oldest first. -/
  host : List HostAction
  /-- What the last register read or PopDesc returned. -/
  reply : Reply
deriving DecidableEq, Repr

/-- A step of this block ends in no fault: every command completes with a status code, whatever its input (R360), and
a host access without a move is a refusal (R62). So the type has no constructor. -/
inductive Fault where
deriving DecidableEq, Repr

/-- Why a step has no transition. None of these is raised by a command: the spec completes every command (R360). -/
inductive Refusal where
  /-- Raised by no arm of `exec`: every command of the opcode table has its meaning. Safe. -/
  | notModelled (mnemonic : String)
  /-- Raised by a host register access that is sub-word, misaligned, unmapped or to a reserved register (R62, R82,
  93 I4: "refuse"). Safe: the model stops where the spec gives no move. -/
  | registerAccess (addr : Nat) (width : Nat)
  /-- Raised by a host write of `n` bytes at IBUF index `addr` that passes byte 65535 (R61, 93 I4: "refuse"). Safe. -/
  | ibufWrite (addr : Nat) (n : Nat)
  /-- Raised by a host byte write at a host address outside the IBUF window (R69, 93 I4: "refuse"). Safe. -/
  | busAddress (addr : Nat)
deriving DecidableEq, Repr

/-- The reset value of the SPS part: every field 0 (R48). -/
def SpsPart.reset : SpsPart :=
  { separateColourPlaneFlag := 0, frameMbsOnlyFlag := 0, picOrderCntType := 0, deltaPicOrderAlwaysZeroFlag := 0,
    log2MaxFrameNum := 0, log2MaxPicOrderCntLsb := 0, chromaFormatIdc := 0, picWidthInMbsMinus1 := 0,
    picHeightInMapUnitsMinus1 := 0 }

/-- The reset value of the PPS part: every field 0 (R48). -/
def PpsPart.reset : PpsPart :=
  { entropyCodingModeFlag := 0, redundantPicCntPresentFlag := 0, numSliceGroupsMinus1 := 0, sliceGroupMapType := 0,
    bottomFieldPicOrderInFramePresentFlag := 0, sliceGroupChangeRateMinus1 := 0,
    numRefIdxL0DefaultActiveMinus1 := 0, numRefIdxL1DefaultActiveMinus1 := 0, weightedPredFlag := 0,
    weightedBipredIdc := 0, deblockingFilterControlPresentFlag := 0 }

/-- The reset value of the H.264 ParserState (R48). -/
def H264State.reset : H264State :=
  { spsValid := false, ppsValid := false, sps := SpsPart.reset, pps := PpsPart.reset }

/-- The instance right after reset: the table of R48, idle (R391), with the parameters it was configured with
(R390). -/
def State.reset : State :=
  { ibuf := [], arg := 0, status := 0, result := 0, result2 := 0, brData := [], brBitlen := 0, brPos := 0, dq := [],
    dropCnt := 0, h264 := H264State.reset, media := [], fec := [], cfg := Config.params, host := [], reply := .none }

end Sys2Proof.Machine
end

