-- ==== Sys2Proof/Machine/Memory.lean ====
section
/-! DEFINITION. The named operations over IBUF (spec/20_memory.md R61, R68, spec/10_state.md R38, R48). -/

namespace Sys2Proof.Machine

/-- What an IBUF byte reads as when no cell lists it: the reset contents 0x00 (R48). -/
def Memory.unlisted : Byte := 0

/-- The canonical form: addresses strictly rising and inside IBUF, no cell equal to what an unlisted byte reads as. -/
abbrev Memory.wf (m : Memory) : Prop :=
  m.Pairwise (fun c d => c.1 < d.1) ∧ ∀ c ∈ m, c.1 < Config.ibufSize ∧ c.2 ≠ Memory.unlisted

/-- The byte of IBUF at index `a` (R38). -/
def Memory.read (m : Memory) (a : Nat) : Byte :=
  match m with
  | [] => Memory.unlisted
  | c :: rest => if c.1 = a then c.2 else Memory.read rest a

/-- IBUF with the byte at index `a` set to `v`, in canonical form. -/
def Memory.write (m : Memory) (a : Nat) (v : Byte) : Memory :=
  match m with
  | [] => if v = Memory.unlisted then [] else [(a, v)]
  | c :: rest =>
    if c.1 < a then c :: Memory.write rest a v
    else if c.1 = a then (if v = Memory.unlisted then rest else (a, v) :: rest)
    else if v = Memory.unlisted then c :: rest else (a, v) :: c :: rest

/-- `MemRead(a, n)`: the `n` bytes of IBUF from index `a` (R10). -/
def Memory.readBytes (m : Memory) (a n : Nat) : List Byte :=
  match n with
  | 0 => []
  | k + 1 => m.read a :: Memory.readBytes m (a + 1) k

/-- `MemWrite(a, |v|, v)`: the bytes `v` written at IBUF indices `a` to `a + |v| − 1` (R10, R61). -/
def Memory.writeBytes (m : Memory) (a : Nat) (v : List Byte) : Memory :=
  match v with
  | [] => m
  | b :: rest => Memory.writeBytes (m.write a b) (a + 1) rest

end Sys2Proof.Machine
end

