-- ==== Sys2Proof/Machine/Operands.lean ====
section
/-! DEFINITION. Every operand form of the commands (spec/30_encoding.md R98) and the byte-string notation of
spec/00_scope.md R9. -/

namespace Sys2Proof.Machine

/-- The LEN operand: the snapshot `MemRead(0, LEN)` of IBUF that a command reads (R10, R68, R98). -/
def State.input (s : State) (len : Half) : List Byte := s.ibuf.readBytes 0 len.toNat

/-- The ARG operand: BR_INIT's bit length, unsigned (R36, R98). -/
def State.argOperand (s : State) : Nat := s.arg.toNat

/-- The N operand: the `n` of `readBits(n)`, zero-extended (R98). -/
def nOperand (n : Byte) : Nat := n.toNat

/-- `S[i]` as an unsigned value; the rules read it only for `i < |S|`. -/
def byteAt (S : List Byte) (i : Nat) : Nat := (S.getD i 0).toNat

/-- The `n` bytes of `S` at `i`, most significant first: `BE16`, `BE24`, `BE32` and `BE64` for n = 2, 3, 4, 8
(R9, R64). -/
def beAt (S : List Byte) (i n : Nat) : Nat :=
  match n with
  | 0 => 0
  | m + 1 => 256 * beAt S i m + byteAt S (i + m)

/-- `S[a .. a+n)` (R9). -/
def slice (S : List Byte) (a n : Nat) : List Byte := (S.drop a).take n

/-- `v[hi:lo]` of an unsigned value (R8). -/
def fieldOf (v hi lo : Nat) : Nat := v / 2 ^ lo % 2 ^ (hi + 1 - lo)

end Sys2Proof.Machine
end

