-- ==== Sys2Proof/Machine/Bits.lean ====
section
/-! DEFINITION. The bit-stream primitives every command reads its input with (spec/40_bitreader.md section 2). -/

namespace Sys2Proof.Machine

/-- A reader `(D, L, p)`: byte string, bit length, cursor (R125). -/
structure Reader where
  data : List Byte
  len : Nat
  pos : Nat
deriving DecidableEq, Repr

/-- The two ways a primitive fails (R127). -/
inductive ReadFail where
  /-- The read would cross the bit length. -/
  | oob
  /-- An Exp-Golomb code with 64 or more leading zeros (R129). -/
  | malformed
deriving DecidableEq, Repr

/-- `Reader(S)`: a private reader over a whole byte string (R125). -/
def Reader.ofBytes (S : List Byte) : Reader := { data := S, len := 8 * S.length, pos := 0 }

/-- `bit(D, q)`: the bit at stream position `q`, MSB first (R8, R126). -/
def bit (D : List Byte) (q : Nat) : Nat := ((D.getD (q / 8) 0).toNat >>> (7 - q % 8)) &&& 1

/-- `bits(D, p, n)`: the `n` bits from position `p`, the first the most significant (R126). -/
def bits (D : List Byte) (p n : Nat) : Nat :=
  match n with
  | 0 => 0
  | m + 1 => 2 * bits D p m + bit D (p + m)

/-- The number of 0 bits from position `p` before the first 1 bit, looking at `avail` bits at most. -/
def zeroRun (D : List Byte) (p avail : Nat) : Nat :=
  match avail with
  | 0 => 0
  | m + 1 => if bit D p = 0 then zeroRun D (p + 1) m + 1 else 0

/-- `u(n)`, also AV1's `f(n)` (R128). -/
def Reader.u (n : Nat) (r : Reader) : Except ReadFail (Nat × Reader) :=
  if r.pos + n > r.len then .error .oob
  else .ok (bits r.data r.pos n, { r with pos := r.pos + n })

/-- `ue()`, unsigned Exp-Golomb (R129). -/
def Reader.ue (r : Reader) : Except ReadFail (Nat × Reader) :=
  let k := zeroRun r.data r.pos (r.len - r.pos)
  if r.pos + k = r.len then .error .oob
  else if k ≥ 64 then .error .malformed
  else if r.pos + 2 * k + 1 > r.len then .error .oob
  else .ok (2 ^ k - 1 + bits r.data (r.pos + k + 1) k, { r with pos := r.pos + 2 * k + 1 })

/-- `se_code()`: `ue()`, the codeNum unchanged (R130, R131). -/
def Reader.seCode (r : Reader) : Except ReadFail (Nat × Reader) := r.ue

/-- `se_val(k)`: the signed value of a codeNum, used by the scaling lists only (R132). -/
def seVal (k : Nat) : Int := if k % 2 = 1 then ((k + 1) / 2 : Nat) else -((k / 2 : Nat) : Int)

/-- `uvlc()` (R133). The zeros are counted first; a reader whose cursor moved before a failure is discarded (R127), so
this is the loop of the rule. -/
def Reader.uvlc (r : Reader) : Except ReadFail (Nat × Reader) :=
  let lz := zeroRun r.data r.pos (r.len - r.pos)
  if r.pos + lz ≥ r.len then .error .oob
  else
    let r1 := { r with pos := r.pos + lz + 1 }
    if lz ≥ 32 then .ok (2 ^ 32 - 1, r1)
    else match r1.u lz with
      | .error e => .error e
      | .ok (v, r2) => .ok (v + 2 ^ lz - 1, r2)

/-- The passes of `leb128()` from byte `i` on, `fuel` of them at most (R134). -/
def Reader.leb128From (fuel i value : Nat) (r : Reader) : Except ReadFail ((Nat × Nat) × Reader) :=
  match fuel with
  | 0 => .ok ((value, i), r)
  | f + 1 =>
    match r.u 8 with
    | .error e => .error e
    | .ok (b, r1) =>
      let value1 := value ||| ((b &&& 0x7F) <<< (7 * i))
      if b < 0x80 then .ok ((value1, i + 1), r1) else Reader.leb128From f (i + 1) value1 r1

/-- `leb128()`: the value and the number of bytes consumed, at most 8 (R134). -/
def Reader.leb128 (r : Reader) : Except ReadFail ((Nat × Nat) × Reader) :=
  Reader.leb128From Config.leb128MaxBytes 0 0 r

/-- The greatest position below `n` that holds a 1 bit. -/
def lastOne (D : List Byte) (n : Nat) : Option Nat :=
  match n with
  | 0 => none
  | m + 1 => if bit D m = 1 then some m else lastOne D m

/-- `more_rbsp_data()` (R135). -/
def Reader.moreRbspData (r : Reader) : Bool :=
  match lastOne r.data r.len with
  | none => false
  | some q => decide (r.pos < q)

/-- `byte_pos()` (R137). -/
def Reader.bytePos (r : Reader) : Nat := r.pos / 8

/-- `aligned()` (R137). -/
def Reader.aligned (r : Reader) : Bool := decide (r.pos % 8 = 0)

/-- `epb_strip` after `z` zero bytes in a row (R136). -/
def epbStripFrom (z : Nat) (B : List Byte) : List Byte :=
  match B with
  | [] => []
  | x :: rest =>
    if z ≥ 2 ∧ x = 0x03 then epbStripFrom 0 rest
    else x :: epbStripFrom (if x = 0x00 then z + 1 else 0) rest

/-- `epb_strip(B)`: removal of emulation-prevention bytes (R136). -/
def epbStrip (B : List Byte) : List Byte := epbStripFrom 0 B

end Sys2Proof.Machine
end

