-- ==== Sys2Proof/Machine/Fields.lean ====
section
/-! DEFINITION. The 16-bit field ids of output records (spec/30_encoding.md R92 to R96), and the codes some records
carry as values (R87, R88). A field id is a number that the host reads in a record (R90), so each name is a constant. -/

namespace Sys2Proof.Machine

/-! Common field ids (R92). -/

/-- `error` (R92). -/
def Field.error : Half := 0x0001

/-- `not_decoded` (R92). -/
def Field.notDecoded : Half := 0x0002

/-- `customize_subtype` (R92). -/
def Field.customizeSubtype : Half := 0x0003

/-- `customize_keyframe` (R92). -/
def Field.customizeKeyframe : Half := 0x0004

/-! H.264 field ids (R93). -/

/-- `nal_forbidden_zero_bit` (R93). -/
def Field.nalForbiddenZeroBit : Half := 0x0100

/-- `nal_ref_idc` (R93). -/
def Field.nalRefIdc : Half := 0x0101

/-- `nal_unit_type` (R93). -/
def Field.nalUnitType : Half := 0x0102

/-- `nalu_size` (R93). -/
def Field.naluSize : Half := 0x0103

/-- `nal_length` (R93). -/
def Field.nalLength : Half := 0x0104

/-- `fu_start_bit` (R93). -/
def Field.fuStartBit : Half := 0x0105

/-- `fu_end_bit` (R93). -/
def Field.fuEndBit : Half := 0x0106

/-- `fu_reserved_bit` (R93). -/
def Field.fuReservedBit : Half := 0x0107

/-- `fu_nal_unit_type` (R93). -/
def Field.fuNalUnitType : Half := 0x0108

/-- `fu_fragment_length` (R93). -/
def Field.fuFragmentLength : Half := 0x0109

/-- `frame_key` (R93). -/
def Field.frameKey : Half := 0x010A

/-- `profile_idc` (R93). -/
def Field.profileIdc : Half := 0x0110

/-- `constraint_set0_flag` (R93). -/
def Field.constraintSet0Flag : Half := 0x0111

/-- `constraint_set1_flag` (R93). -/
def Field.constraintSet1Flag : Half := 0x0112

/-- `constraint_set2_flag` (R93). -/
def Field.constraintSet2Flag : Half := 0x0113

/-- `constraint_set3_flag` (R93). -/
def Field.constraintSet3Flag : Half := 0x0114

/-- `constraint_set4_flag` (R93). -/
def Field.constraintSet4Flag : Half := 0x0115

/-- `constraint_set5_flag` (R93). -/
def Field.constraintSet5Flag : Half := 0x0116

/-- `reserved_zero_2bits` (R93). -/
def Field.reservedZero2bits : Half := 0x0117

/-- `level_idc` (R93). -/
def Field.levelIdc : Half := 0x0118

/-- `seq_parameter_set_id` (R93). -/
def Field.seqParameterSetId : Half := 0x0119

/-- `chroma_format_idc` (R93). -/
def Field.chromaFormatIdc : Half := 0x011A

/-- `separate_colour_plane_flag` (R93). -/
def Field.separateColourPlaneFlag : Half := 0x011B

/-- `bit_depth_luma_minus8` (R93). -/
def Field.bitDepthLumaMinus8 : Half := 0x011C

/-- `bit_depth_chroma_minus8` (R93). -/
def Field.bitDepthChromaMinus8 : Half := 0x011D

/-- `qpprime_y_zero_transform_bypass_flag` (R93). -/
def Field.qpprimeYZeroTransformBypassFlag : Half := 0x011E

/-- `seq_scaling_matrix_present_flag` (R93). -/
def Field.seqScalingMatrixPresentFlag : Half := 0x011F

/-- `seq_scaling_list_present_flag` (R93). -/
def Field.seqScalingListPresentFlag : Half := 0x0120

/-- `delta_scale` (R93). -/
def Field.deltaScale : Half := 0x0121

/-- `log2_max_frame_num_minus4` (R93). -/
def Field.log2MaxFrameNumMinus4 : Half := 0x0122

/-- `pic_order_cnt_type` (R93). -/
def Field.picOrderCntType : Half := 0x0123

/-- `log2_max_pic_order_cnt_lsb_minus4` (R93). -/
def Field.log2MaxPicOrderCntLsbMinus4 : Half := 0x0124

/-- `delta_pic_order_always_zero_flag` (R93). -/
def Field.deltaPicOrderAlwaysZeroFlag : Half := 0x0125

/-- `offset_for_non_ref_pic` (R93). -/
def Field.offsetForNonRefPic : Half := 0x0126

/-- `offset_for_top_to_bottom_field` (R93). -/
def Field.offsetForTopToBottomField : Half := 0x0127

/-- `num_ref_frames_in_pic_order_cnt_cycle` (R93). -/
def Field.numRefFramesInPicOrderCntCycle : Half := 0x0128

/-- `offset_for_ref_frame` (R93). -/
def Field.offsetForRefFrame : Half := 0x0129

/-- `max_num_ref_frames` (R93). -/
def Field.maxNumRefFrames : Half := 0x012A

/-- `gaps_in_frame_num_value_allowed_flag` (R93). -/
def Field.gapsInFrameNumValueAllowedFlag : Half := 0x012B

/-- `pic_width_in_mbs_minus1` (R93). -/
def Field.picWidthInMbsMinus1 : Half := 0x012C

/-- `pic_height_in_map_units_minus1` (R93). -/
def Field.picHeightInMapUnitsMinus1 : Half := 0x012D

/-- `frame_mbs_only_flag` (R93). -/
def Field.frameMbsOnlyFlag : Half := 0x012E

/-- `mb_adaptive_frame_field_flag` (R93). -/
def Field.mbAdaptiveFrameFieldFlag : Half := 0x012F

/-- `direct_8x8_inference_flag` (R93). -/
def Field.direct8x8InferenceFlag : Half := 0x0130

/-- `frame_cropping_flag` (R93). -/
def Field.frameCroppingFlag : Half := 0x0131

/-- `frame_crop_left_offset` (R93). -/
def Field.frameCropLeftOffset : Half := 0x0132

/-- `frame_crop_right_offset` (R93). -/
def Field.frameCropRightOffset : Half := 0x0133

/-- `frame_crop_top_offset` (R93). -/
def Field.frameCropTopOffset : Half := 0x0134

/-- `frame_crop_bottom_offset` (R93). -/
def Field.frameCropBottomOffset : Half := 0x0135

/-- `vui_parameters_present_flag` (R93). -/
def Field.vuiParametersPresentFlag : Half := 0x0136

/-- `pic_parameter_set_id` (R93). -/
def Field.picParameterSetId : Half := 0x0140

/-- `pps_seq_parameter_set_id` (R93). -/
def Field.ppsSeqParameterSetId : Half := 0x0141

/-- `entropy_coding_mode_flag` (R93). -/
def Field.entropyCodingModeFlag : Half := 0x0142

/-- `bottom_field_pic_order_in_frame_present_flag` (R93). -/
def Field.bottomFieldPicOrderInFramePresentFlag : Half := 0x0143

/-- `num_slice_groups_minus1` (R93). -/
def Field.numSliceGroupsMinus1 : Half := 0x0144

/-- `slice_group_map_type` (R93). -/
def Field.sliceGroupMapType : Half := 0x0145

/-- `run_length_minus1` (R93). -/
def Field.runLengthMinus1 : Half := 0x0146

/-- `top_left` (R93). -/
def Field.topLeft : Half := 0x0147

/-- `bottom_right` (R93). -/
def Field.bottomRight : Half := 0x0148

/-- `slice_group_change_direction_flag` (R93). -/
def Field.sliceGroupChangeDirectionFlag : Half := 0x0149

/-- `slice_group_change_rate_minus1` (R93). -/
def Field.sliceGroupChangeRateMinus1 : Half := 0x014A

/-- `pic_size_in_map_units_minus1` (R93). -/
def Field.picSizeInMapUnitsMinus1 : Half := 0x014B

/-- `slice_group_id` (R93). -/
def Field.sliceGroupId : Half := 0x014C

/-- `num_ref_idx_l0_default_active_minus1` (R93). -/
def Field.numRefIdxL0DefaultActiveMinus1 : Half := 0x014D

/-- `num_ref_idx_l1_default_active_minus1` (R93). -/
def Field.numRefIdxL1DefaultActiveMinus1 : Half := 0x014E

/-- `weighted_pred_flag` (R93). -/
def Field.weightedPredFlag : Half := 0x014F

/-- `weighted_bipred_idc` (R93). -/
def Field.weightedBipredIdc : Half := 0x0150

/-- `pic_init_qp_minus26` (R93). -/
def Field.picInitQpMinus26 : Half := 0x0151

/-- `pic_init_qs_minus26` (R93). -/
def Field.picInitQsMinus26 : Half := 0x0152

/-- `chroma_qp_index_offset` (R93). -/
def Field.chromaQpIndexOffset : Half := 0x0153

/-- `deblocking_filter_control_present_flag` (R93). -/
def Field.deblockingFilterControlPresentFlag : Half := 0x0154

/-- `constrained_intra_pred_flag` (R93). -/
def Field.constrainedIntraPredFlag : Half := 0x0155

/-- `redundant_pic_cnt_present_flag` (R93). -/
def Field.redundantPicCntPresentFlag : Half := 0x0156

/-- `first_mb_in_slice` (R93). -/
def Field.firstMbInSlice : Half := 0x0160

/-- `slice_type` (R93). -/
def Field.sliceType : Half := 0x0161

/-- `slice_type_class` (R93). -/
def Field.sliceTypeClass : Half := 0x0162

/-- `slice_pic_parameter_set_id` (R93). -/
def Field.slicePicParameterSetId : Half := 0x0163

/-- `colour_plane_id` (R93). -/
def Field.colourPlaneId : Half := 0x0164

/-- `frame_num` (R93). -/
def Field.frameNum : Half := 0x0165

/-- `field_pic_flag` (R93). -/
def Field.fieldPicFlag : Half := 0x0166

/-- `bottom_field_flag` (R93). -/
def Field.bottomFieldFlag : Half := 0x0167

/-- `idr_pic_id` (R93). -/
def Field.idrPicId : Half := 0x0168

/-- `pic_order_cnt_lsb` (R93). -/
def Field.picOrderCntLsb : Half := 0x0169

/-- `delta_pic_order_cnt_bottom` (R93). -/
def Field.deltaPicOrderCntBottom : Half := 0x016A

/-- `delta_pic_order_cnt` (R93). -/
def Field.deltaPicOrderCnt : Half := 0x016B

/-- `redundant_pic_cnt` (R93). -/
def Field.redundantPicCnt : Half := 0x016C

/-- `direct_spatial_mv_pred_flag` (R93). -/
def Field.directSpatialMvPredFlag : Half := 0x016D

/-- `num_ref_idx_active_override_flag` (R93). -/
def Field.numRefIdxActiveOverrideFlag : Half := 0x016E

/-- `num_ref_idx_l0_active_minus1` (R93). -/
def Field.numRefIdxL0ActiveMinus1 : Half := 0x016F

/-- `num_ref_idx_l1_active_minus1` (R93). -/
def Field.numRefIdxL1ActiveMinus1 : Half := 0x0170

/-- `ref_pic_list_modification_flag` (R93). -/
def Field.refPicListModificationFlag : Half := 0x0171

/-- `modification_of_pic_nums_idc` (R93). -/
def Field.modificationOfPicNumsIdc : Half := 0x0172

/-- `abs_diff_pic_num_minus1` (R93). -/
def Field.absDiffPicNumMinus1 : Half := 0x0173

/-- `rplm_long_term_pic_num` (R93). -/
def Field.rplmLongTermPicNum : Half := 0x0174

/-- `luma_log2_weight_denom` (R93). -/
def Field.lumaLog2WeightDenom : Half := 0x0175

/-- `chroma_log2_weight_denom` (R93). -/
def Field.chromaLog2WeightDenom : Half := 0x0176

/-- `luma_weight_flag` (R93). -/
def Field.lumaWeightFlag : Half := 0x0177

/-- `luma_weight` (R93). -/
def Field.lumaWeight : Half := 0x0178

/-- `luma_offset` (R93). -/
def Field.lumaOffset : Half := 0x0179

/-- `chroma_weight_flag` (R93). -/
def Field.chromaWeightFlag : Half := 0x017A

/-- `chroma_weight` (R93). -/
def Field.chromaWeight : Half := 0x017B

/-- `chroma_offset` (R93). -/
def Field.chromaOffset : Half := 0x017C

/-- `no_output_of_prior_pics_flag` (R93). -/
def Field.noOutputOfPriorPicsFlag : Half := 0x017D

/-- `long_term_reference_flag` (R93). -/
def Field.longTermReferenceFlag : Half := 0x017E

/-- `adaptive_ref_pic_marking_mode_flag` (R93). -/
def Field.adaptiveRefPicMarkingModeFlag : Half := 0x017F

/-- `memory_management_control_operation` (R93). -/
def Field.memoryManagementControlOperation : Half := 0x0180

/-- `difference_of_pic_nums_minus1` (R93). -/
def Field.differenceOfPicNumsMinus1 : Half := 0x0181

/-- `mmco_long_term_pic_num` (R93). -/
def Field.mmcoLongTermPicNum : Half := 0x0182

/-- `long_term_frame_idx` (R93). -/
def Field.longTermFrameIdx : Half := 0x0183

/-- `max_long_term_frame_idx_plus1` (R93). -/
def Field.maxLongTermFrameIdxPlus1 : Half := 0x0184

/-- `cabac_init_idc` (R93). -/
def Field.cabacInitIdc : Half := 0x0185

/-- `slice_qp_delta` (R93). -/
def Field.sliceQpDelta : Half := 0x0186

/-- `sp_for_switch_flag` (R93). -/
def Field.spForSwitchFlag : Half := 0x0187

/-- `slice_qs_delta` (R93). -/
def Field.sliceQsDelta : Half := 0x0188

/-- `disable_deblocking_filter_idc` (R93). -/
def Field.disableDeblockingFilterIdc : Half := 0x0189

/-- `slice_alpha_c0_offset_div2` (R93). -/
def Field.sliceAlphaC0OffsetDiv2 : Half := 0x018A

/-- `slice_beta_offset_div2` (R93). -/
def Field.sliceBetaOffsetDiv2 : Half := 0x018B

/-- `slice_group_change_cycle` (R93). -/
def Field.sliceGroupChangeCycle : Half := 0x018C

/-! AV1 field ids (R94). -/

/-- `agg_z` (R94). -/
def Field.aggZ : Half := 0x0200

/-- `agg_y` (R94). -/
def Field.aggY : Half := 0x0201

/-- `agg_w` (R94). -/
def Field.aggW : Half := 0x0202

/-- `agg_n` (R94). -/
def Field.aggN : Half := 0x0203

/-- `agg_reserved` (R94). -/
def Field.aggReserved : Half := 0x0204

/-- `obu_element_length` (R94). -/
def Field.obuElementLength : Half := 0x0205

/-- `obu_forbidden_bit` (R94). -/
def Field.obuForbiddenBit : Half := 0x0206

/-- `obu_type` (R94). -/
def Field.obuType : Half := 0x0207

/-- `obu_extension_flag` (R94). -/
def Field.obuExtensionFlag : Half := 0x0208

/-- `obu_has_size_field` (R94). -/
def Field.obuHasSizeField : Half := 0x0209

/-- `obu_reserved_1bit` (R94). -/
def Field.obuReserved1bit : Half := 0x020A

/-- `temporal_id` (R94). -/
def Field.temporalId : Half := 0x020B

/-- `spatial_id` (R94). -/
def Field.spatialId : Half := 0x020C

/-- `extension_header_reserved_3bits` (R94). -/
def Field.extensionHeaderReserved3bits : Half := 0x020D

/-- `obu_size` (R94). -/
def Field.obuSize : Half := 0x020E

/-- `obu_payload_length` (R94). -/
def Field.obuPayloadLength : Half := 0x020F

/-- `leb128_value` (R94). -/
def Field.leb128Value : Half := 0x0210

/-- `leb128_bytes` (R94). -/
def Field.leb128Bytes : Half := 0x0211

/-- `seq_profile` (R94). -/
def Field.seqProfile : Half := 0x0220

/-- `still_picture` (R94). -/
def Field.stillPicture : Half := 0x0221

/-- `reduced_still_picture_header` (R94). -/
def Field.reducedStillPictureHeader : Half := 0x0222

/-- `timing_info_present_flag` (R94). -/
def Field.timingInfoPresentFlag : Half := 0x0223

/-- `num_units_in_display_tick` (R94). -/
def Field.numUnitsInDisplayTick : Half := 0x0224

/-- `time_scale` (R94). -/
def Field.timeScale : Half := 0x0225

/-- `equal_picture_interval` (R94). -/
def Field.equalPictureInterval : Half := 0x0226

/-- `num_ticks_per_picture_minus_1` (R94). -/
def Field.numTicksPerPictureMinus1 : Half := 0x0227

/-- `decoder_model_info_present_flag` (R94). -/
def Field.decoderModelInfoPresentFlag : Half := 0x0228

/-- `buffer_delay_length_minus_1` (R94). -/
def Field.bufferDelayLengthMinus1 : Half := 0x0229

/-- `num_units_in_decoding_tick` (R94). -/
def Field.numUnitsInDecodingTick : Half := 0x022A

/-- `buffer_removal_time_length_minus_1` (R94). -/
def Field.bufferRemovalTimeLengthMinus1 : Half := 0x022B

/-- `frame_presentation_time_length_minus_1` (R94). -/
def Field.framePresentationTimeLengthMinus1 : Half := 0x022C

/-- `initial_display_delay_present_flag` (R94). -/
def Field.initialDisplayDelayPresentFlag : Half := 0x022D

/-- `operating_points_cnt_minus_1` (R94). -/
def Field.operatingPointsCntMinus1 : Half := 0x022E

/-- `operating_point_idc` (R94). -/
def Field.operatingPointIdc : Half := 0x022F

/-- `seq_level_idx` (R94). -/
def Field.seqLevelIdx : Half := 0x0230

/-- `seq_tier` (R94). -/
def Field.seqTier : Half := 0x0231

/-- `decoder_model_present_for_this_op` (R94). -/
def Field.decoderModelPresentForThisOp : Half := 0x0232

/-- `decoder_buffer_delay` (R94). -/
def Field.decoderBufferDelay : Half := 0x0233

/-- `encoder_buffer_delay` (R94). -/
def Field.encoderBufferDelay : Half := 0x0234

/-- `low_delay_mode_flag` (R94). -/
def Field.lowDelayModeFlag : Half := 0x0235

/-- `initial_display_delay_present_for_this_op` (R94). -/
def Field.initialDisplayDelayPresentForThisOp : Half := 0x0236

/-- `initial_display_delay_minus_1` (R94). -/
def Field.initialDisplayDelayMinus1 : Half := 0x0237

/-- `frame_width_bits_minus_1` (R94). -/
def Field.frameWidthBitsMinus1 : Half := 0x0238

/-- `frame_height_bits_minus_1` (R94). -/
def Field.frameHeightBitsMinus1 : Half := 0x0239

/-- `max_frame_width_minus_1` (R94). -/
def Field.maxFrameWidthMinus1 : Half := 0x023A

/-- `max_frame_height_minus_1` (R94). -/
def Field.maxFrameHeightMinus1 : Half := 0x023B

/-- `frame_id_numbers_present_flag` (R94). -/
def Field.frameIdNumbersPresentFlag : Half := 0x023C

/-- `delta_frame_id_length_minus_2` (R94). -/
def Field.deltaFrameIdLengthMinus2 : Half := 0x023D

/-- `additional_frame_id_length_minus_1` (R94). -/
def Field.additionalFrameIdLengthMinus1 : Half := 0x023E

/-- `use_128x128_superblock` (R94). -/
def Field.use128x128Superblock : Half := 0x023F

/-- `enable_filter_intra` (R94). -/
def Field.enableFilterIntra : Half := 0x0240

/-- `enable_intra_edge_filter` (R94). -/
def Field.enableIntraEdgeFilter : Half := 0x0241

/-- `enable_interintra_compound` (R94). -/
def Field.enableInterintraCompound : Half := 0x0242

/-- `enable_masked_compound` (R94). -/
def Field.enableMaskedCompound : Half := 0x0243

/-- `enable_warped_motion` (R94). -/
def Field.enableWarpedMotion : Half := 0x0244

/-- `enable_dual_filter` (R94). -/
def Field.enableDualFilter : Half := 0x0245

/-- `enable_order_hint` (R94). -/
def Field.enableOrderHint : Half := 0x0246

/-- `enable_jnt_comp` (R94). -/
def Field.enableJntComp : Half := 0x0247

/-- `enable_ref_frame_mvs` (R94). -/
def Field.enableRefFrameMvs : Half := 0x0248

/-- `seq_choose_screen_content_tools` (R94). -/
def Field.seqChooseScreenContentTools : Half := 0x0249

/-- `seq_force_screen_content_tools` (R94). -/
def Field.seqForceScreenContentTools : Half := 0x024A

/-- `seq_choose_integer_mv` (R94). -/
def Field.seqChooseIntegerMv : Half := 0x024B

/-- `seq_force_integer_mv` (R94). -/
def Field.seqForceIntegerMv : Half := 0x024C

/-- `order_hint_bits_minus_1` (R94). -/
def Field.orderHintBitsMinus1 : Half := 0x024D

/-- `enable_superres` (R94). -/
def Field.enableSuperres : Half := 0x024E

/-- `enable_cdef` (R94). -/
def Field.enableCdef : Half := 0x024F

/-- `enable_restoration` (R94). -/
def Field.enableRestoration : Half := 0x0250

/-- `high_bitdepth` (R94). -/
def Field.highBitdepth : Half := 0x0251

/-- `twelve_bit` (R94). -/
def Field.twelveBit : Half := 0x0252

/-- `mono_chrome` (R94). -/
def Field.monoChrome : Half := 0x0253

/-- `color_description_present_flag` (R94). -/
def Field.colorDescriptionPresentFlag : Half := 0x0254

/-- `color_primaries` (R94). -/
def Field.colorPrimaries : Half := 0x0255

/-- `transfer_characteristics` (R94). -/
def Field.transferCharacteristics : Half := 0x0256

/-- `matrix_coefficients` (R94). -/
def Field.matrixCoefficients : Half := 0x0257

/-- `color_range` (R94). -/
def Field.colorRange : Half := 0x0258

/-- `subsampling_x` (R94). -/
def Field.subsamplingX : Half := 0x0259

/-- `subsampling_y` (R94). -/
def Field.subsamplingY : Half := 0x025A

/-- `chroma_sample_position` (R94). -/
def Field.chromaSamplePosition : Half := 0x025B

/-- `separate_uv_delta_q` (R94). -/
def Field.separateUvDeltaQ : Half := 0x025C

/-- `film_grain_params_present` (R94). -/
def Field.filmGrainParamsPresent : Half := 0x025D

/-! Opus field ids (R95). -/

/-- `toc_config` (R95). -/
def Field.tocConfig : Half := 0x0300

/-- `toc_stereo` (R95). -/
def Field.tocStereo : Half := 0x0301

/-- `toc_code` (R95). -/
def Field.tocCode : Half := 0x0302

/-- `opus_mode` (R95). -/
def Field.opusMode : Half := 0x0303

/-- `opus_bandwidth` (R95). -/
def Field.opusBandwidth : Half := 0x0304

/-- `opus_frame_size_x10` (R95). -/
def Field.opusFrameSizeX10 : Half := 0x0305

/-- `frame_count_vbr` (R95). -/
def Field.frameCountVbr : Half := 0x0306

/-- `frame_count_padding_flag` (R95). -/
def Field.frameCountPaddingFlag : Half := 0x0307

/-- `frame_count_m` (R95). -/
def Field.frameCountM : Half := 0x0308

/-- `padding_length` (R95). -/
def Field.paddingLength : Half := 0x0309

/-- `frame_length` (R95). -/
def Field.frameLength : Half := 0x030A

/-- `frame_offset` (R95). -/
def Field.frameOffset : Half := 0x030B

/-- `frame_count` (R95). -/
def Field.frameCount : Half := 0x030C

/-! FlexFEC field ids (R96). -/

/-- `fec_r` (R96). -/
def Field.fecR : Half := 0x0400

/-- `fec_f` (R96). -/
def Field.fecF : Half := 0x0401

/-- `fec_p_recovery` (R96). -/
def Field.fecPRecovery : Half := 0x0402

/-- `fec_x_recovery` (R96). -/
def Field.fecXRecovery : Half := 0x0403

/-- `fec_cc_recovery` (R96). -/
def Field.fecCcRecovery : Half := 0x0404

/-- `fec_m_recovery` (R96). -/
def Field.fecMRecovery : Half := 0x0405

/-- `fec_pt_recovery` (R96). -/
def Field.fecPtRecovery : Half := 0x0406

/-- `fec_length_recovery` (R96). -/
def Field.fecLengthRecovery : Half := 0x0407

/-- `fec_ts_recovery` (R96). -/
def Field.fecTsRecovery : Half := 0x0408

/-- `fec_ssrc_count` (R96). -/
def Field.fecSsrcCount : Half := 0x0409

/-- `fec_reserved` (R96). -/
def Field.fecReserved : Half := 0x040A

/-- `fec_protected_ssrc` (R96). -/
def Field.fecProtectedSsrc : Half := 0x040B

/-- `fec_sn_base` (R96). -/
def Field.fecSnBase : Half := 0x040C

/-- `fec_k` (R96). -/
def Field.fecK : Half := 0x040D

/-- `fec_mask_tier` (R96). -/
def Field.fecMaskTier : Half := 0x040E

/-- `fec_header_length` (R96). -/
def Field.fecHeaderLength : Half := 0x040F

/-- `fec_protected_seq` (R96). -/
def Field.fecProtectedSeq : Half := 0x0410

/-- `fec_key` (R96). -/
def Field.fecKey : Half := 0x0411

/-- `fec_lost_seq` (R96). -/
def Field.fecLostSeq : Half := 0x0412

/-- `recovered_length` (R96). -/
def Field.recoveredLength : Half := 0x0413

/-- `recovered_packet_byte` (R96). -/
def Field.recoveredPacketByte : Half := 0x0414

/-- `fec_L` (R96). -/
def Field.fecL : Half := 0x0415

/-- `fec_D` (R96). -/
def Field.fecD : Half := 0x0416

/-- `rtx_p` (R96). -/
def Field.rtxP : Half := 0x0417

/-- `rtx_x` (R96). -/
def Field.rtxX : Half := 0x0418

/-- `rtx_cc` (R96). -/
def Field.rtxCc : Half := 0x0419

/-- `rtx_m` (R96). -/
def Field.rtxM : Half := 0x041A

/-- `rtx_pt` (R96). -/
def Field.rtxPt : Half := 0x041B

/-- `rtx_sequence_number` (R96). -/
def Field.rtxSequenceNumber : Half := 0x041C

/-- `rtx_timestamp` (R96). -/
def Field.rtxTimestamp : Half := 0x041D

/-- `rtx_ssrc` (R96). -/
def Field.rtxSsrc : Half := 0x041E

/-- `repair_payload_length` (R96). -/
def Field.repairPayloadLength : Half := 0x041F

/-- `media_seq` (R96). -/
def Field.mediaSeq : Half := 0x0420

/-- `media_length` (R96). -/
def Field.mediaLength : Half := 0x0421

/-- `fec_key_hit` (R96). -/
def Field.fecKeyHit : Half := 0x0422

/-- `media_evicted` (R96). -/
def Field.mediaEvicted : Half := 0x0423

/-- `fec_evicted` (R96). -/
def Field.fecEvicted : Half := 0x0424

/-- `recovery_missing_count` (R96). -/
def Field.recoveryMissingCount : Half := 0x0425


/-- The region codes a `not_decoded` record carries (R87). -/
inductive Region where
  /-- 1: H.264 VUI parameters (R174). -/
  | vui
  /-- 2: H.264 NAL unit recorded opaque (R165, R167). -/
  | opaqueNal
  /-- 3: H.264 FU-A fragment without a parsed header (R164). -/
  | fuaFragment
  /-- 4: AV1 OBU body other than a sequence header (R237). -/
  | obuBody
  /-- 5: AV1 OBU fragment, a Z or Y continuation (R232, R237). -/
  | obuFragment
  /-- 6: H.264 PPS data after `redundant_pic_cnt_present_flag` (R184). -/
  | ppsExtension
deriving DecidableEq, Repr

/-- The value of a `not_decoded` record (R87). -/
def Region.code : Region → Nat
  | .vui => 1
  | .opaqueNal => 2
  | .fuaFragment => 3
  | .obuBody => 4
  | .obuFragment => 5
  | .ppsExtension => 6

/-- The subtypes of R88. No command emits `rtx`. -/
inductive Subtype where
  | audio
  | video
  | rtx
  | fec
deriving DecidableEq, Repr

/-- The value of a `customize_subtype` record (R88). -/
def Subtype.code : Subtype → Nat
  | .audio => 0
  | .video => 1
  | .rtx => 2
  | .fec => 3

end Sys2Proof.Machine
end

