-- ==== Sys2Proof/Machine/Flags.lean ====
section
/-! DEFINITION. The flag-like state (spec/10_state.md R37): status codes (spec/30_encoding.md R86) and the H264_VALID
word (R82). The block has no condition codes. -/

namespace Sys2Proof.Machine

/-- The completion codes of a command (R86). -/
inductive Status where
  | ok
  | outOfBounds
  | truncated
  | malformed
  | outOfOrderState
  | recoveryUnavailable
  | illegalCommand
deriving DecidableEq, Repr

/-- `STATUS.CODE` of a completion (R86). -/
def Status.code : Status → Byte
  | .ok => 0
  | .outOfBounds => 1
  | .truncated => 2
  | .malformed => 3
  | .outOfOrderState => 4
  | .recoveryUnavailable => 5
  | .illegalCommand => 6

/-- The H264_VALID register: `sps_valid` in bit 0, `pps_valid` in bit 1, the other bits 0 (R82, R42). -/
def H264State.validWord (h : H264State) : Word :=
  (if h.spsValid then 1 else 0) + (if h.ppsValid then 2 else 0)

end Sys2Proof.Machine
end

