-- ==== Sys2Proof/Machine/Ops.lean ====
section
/-! DEFINITION. What commands share: the writes of registers and queue, the completion of a command, `raise`, and the
primitives of the parsers' pseudocode (spec/00_scope.md R10, spec/60_exceptions.md section 2). The block has no trap
entry and no return (R367): completing with a status code (R362) is what takes their place. -/

namespace Sys2Proof.Machine

/-- STATUS ← the code of `st` (R34). -/
def State.withStatus (s : State) (st : Status) : State := { s with status := st.code }

/-- RESULT ← `v` (R35). -/
def State.withResult (s : State) (v : Nat) : State := { s with result := BitVec.ofNat 64 v }

/-- RESULT and RESULT2 ← the pair `r` (R35, R234). -/
def State.withResults (s : State) (r : Long × Word) : State := { s with result := r.1, result2 := r.2 }

/-- BR_POS ← `p` (R33). -/
def State.withBrPos (s : State) (p : Nat) : State := { s with brPos := p }

/-- BR_DATA, BR_BITLEN and BR_POS of a newly loaded BitReader (R120). -/
def State.withBitReader (s : State) (D : List Byte) (L : Nat) : State :=
  { s with brData := D, brBitlen := L, brPos := 0 }

/-- The H.264 ParserState ← `h` (R40 to R42). -/
def State.withH264 (s : State) (h : H264State) : State := { s with h264 := h }

/-- MEDIA ← `m` (R44). -/
def State.withMedia (s : State) (m : Store) : State := { s with media := m }

/-- FEC ← `f` (R45). -/
def State.withFec (s : State) (f : Store) : State := { s with fec := f }

/-- A push to DQ: into a full queue, the oldest description is discarded first and DROP_CNT counts it, modulo 2^32
(R39). -/
def State.pushDesc (s : State) (d : Description) : State :=
  if s.cfg.descDepth ≤ s.dq.length then { s with dq := s.dq.tail ++ [d], dropCnt := s.dropCnt + 1 }
  else { s with dq := s.dq ++ [d] }

/-- An illegal command word: STATUS ← ILLEGAL_COMMAND and nothing else (R81, R364). -/
def State.illegalCommand (s : State) : State := s.withStatus .illegalCommand

/-- The record `(error, 0, 0, 0, 0, S)` that ends a failed command's description (R362). -/
def errorRecord (st : Status) : Record :=
  { field := Field.error, u := 0, i := 0, j := 0, k := 0, value := st.code.setWidth 64 }

/-- The records of a description: those emitted, and after a raise the `error` record (R89, R362). -/
def closeRecords (st : Status) (recs : List Record) : List Record :=
  if st = .ok then recs else recs ++ [errorRecord st]

/-- Completion of a parser command: STATUS is set and one description is pushed (R362, R39). -/
def State.complete (s : State) (opc : Byte) (st : Status) (recs : List Record) : State :=
  (s.withStatus st).pushDesc { opcode := opc, status := st.code, records := closeRecords st recs }

/-- What a running parser command holds (R46): the state it may commit to, its reader, the unit index in force and the
records emitted so far. -/
structure Ctx (σ : Type) where
  env : σ
  rd : Reader
  unit : Nat
  recs : List Record

/-- A parser procedure: it returns a value, or raises a status and keeps what was emitted and committed before
(R362). `σ` is the state the command may commit to. -/
abbrev Parse (σ α : Type) := EStateM Status (Ctx σ) α

/-- The start of a parser command: no record, unit 0, no reader yet (R46, R90). -/
def Ctx.start {σ : Type} (env : σ) : Ctx σ := { env := env, rd := Reader.ofBytes [], unit := 0, recs := [] }

/-- `raise S` (R10, R362). -/
def raise {σ α : Type} (st : Status) : Parse σ α := fun c => .error st c

/-- `emit(f, v, i, j, k)`: append the record at the unit index in force (R10, R90). -/
def emit {σ : Type} (f : Half) (v : Nat) (i j k : Nat := 0) : Parse σ Unit := fun c =>
  .ok () { c with recs := c.recs ++ [{ field := f, u := BitVec.ofNat 32 c.unit, i := BitVec.ofNat 32 i,
                                       j := BitVec.ofNat 32 j, k := BitVec.ofNat 32 k, value := BitVec.ofNat 64 v }] }

/-- `u <- n`: set the unit index (R90). -/
def setUnit {σ : Type} (n : Nat) : Parse σ Unit := fun c => .ok () { c with unit := n }

/-- Use a new reader from here on (R125). -/
def setReader {σ : Type} (r : Reader) : Parse σ Unit := fun c => .ok () { c with rd := r }

/-- The reader in use. -/
def getReader {σ : Type} : Parse σ Reader := fun c => .ok c.rd c

/-- The state the command may commit to, as committed so far. -/
def getEnv {σ : Type} : Parse σ σ := fun c => .ok c.env c

/-- A commit point (R362). -/
def commit {σ : Type} (e : σ) : Parse σ Unit := fun c => .ok () { c with env := e }

/-- A primitive read in a parser command: OOB raises TRUNCATED, MALFORMED raises MALFORMED (R127). -/
def liftRead {σ α : Type} (p : Reader → Except ReadFail (α × Reader)) : Parse σ α := fun c =>
  match p c.rd with
  | .ok (a, r) => .ok a { c with rd := r }
  | .error .oob => .error .truncated c
  | .error .malformed => .error .malformed c

/-- Read a value with `p`, then emit it: the record of a syntax element (R91). -/
def fieldOfRead {σ : Type} (p : Reader → Except ReadFail (Nat × Reader)) (f : Half) (i j k : Nat := 0) : Parse σ Nat := do
  let v ← liftRead p
  emit f v i j k
  pure v

/-- `v <- u(n); emit(f, v, i, j, k)` (R128, R91). -/
def fieldU {σ : Type} (f : Half) (n : Nat) (i j k : Nat := 0) : Parse σ Nat := fieldOfRead (Reader.u n) f i j k

/-- `v <- ue(); emit(f, v, i, j, k)` (R129, R91). -/
def fieldUe {σ : Type} (f : Half) (i j k : Nat := 0) : Parse σ Nat := fieldOfRead Reader.ue f i j k

/-- `v <- se_code(); emit(f, v, i, j, k)`: the codeNum is recorded (R130, R131). -/
def fieldSe {σ : Type} (f : Half) (i j k : Nat := 0) : Parse σ Nat := fieldOfRead Reader.seCode f i j k

/-- `for i in start .. start + count − 1: body(i)`. -/
def forRange {σ : Type} (count start : Nat) (body : Nat → Parse σ Unit) : Parse σ Unit :=
  match count with
  | 0 => pure ()
  | n + 1 => do
    body start
    forRange n (start + 1) body

/-- `n <- start; repeat: stop <- body(n); n <- n + 1 until stop`, for a body that reads at least one bit on each pass.
`fuel` is more than the bits left, so the data end first, with TRUNCATED (R139, R400; notes/assumptions/7.md). -/
def repeatUntil {σ : Type} (fuel start : Nat) (body : Nat → Parse σ Bool) : Parse σ Unit :=
  match fuel with
  | 0 => raise .truncated
  | f + 1 => do
    let stop ← body start
    if stop then pure () else repeatUntil f (start + 1) body

/-- One more than the bits left in the reader: more passes than any loop that reads on each pass can make (R139). -/
def readerFuel (r : Reader) : Nat := r.len - r.pos + 1

/-- The least `v` with `2^v · rate ≥ target`, from `v` on, `fuel` candidates at most. -/
def leastShift (fuel v rate target : Nat) : Nat :=
  match fuel with
  | 0 => v
  | f + 1 => if target ≤ 2 ^ v * rate then v else leastShift f (v + 1) rate target

/-- Run a parser command over the state it may commit to, then complete it: every commit it reached is kept, whether
it raised or not (R362, R368). -/
def runParser {σ : Type} (opc : Byte) (s : State) (env : σ) (put : State → σ → State) (p : Parse σ Unit) : State :=
  match p (Ctx.start env) with
  | .ok _ c => (put s c.env).complete opc .ok c.recs
  | .error st c => (put s c.env).complete opc st c.recs

/-- The commit of a parser that keeps no state across commands. -/
def putNothing (s : State) (_ : Unit) : State := s

end Sys2Proof.Machine
end

