-- ==== Sys2Proof/Machine/Av1Seq.lean ====
section
/-! DEFINITION. The AV1 sequence header OBU (spec/42_av1.md section 3). `prof` is seq_profile, `red`
reduced_still_picture_header. It writes no state (R253). -/

namespace Sys2Proof.Machine

/-- `decoder_model_info()`; returns nbd (R243). -/
def seqDecoderModelInfo : Parse Unit Nat := do
  let b ← fieldU Field.bufferDelayLengthMinus1 5
  let _ ← fieldU Field.numUnitsInDecodingTick 32
  let _ ← fieldU Field.bufferRemovalTimeLengthMinus1 5
  let _ ← fieldU Field.framePresentationTimeLengthMinus1 5
  pure (b + 1)

/-- The timing info of `full_ops()`; returns dmi, and nbd where dmi = 1 (R242). -/
def seqTimingInfo : Parse Unit (Nat × Nat) := do
  let ti ← fieldU Field.timingInfoPresentFlag 1
  if ti = 1 then
    let _ ← fieldU Field.numUnitsInDisplayTick 32
    let _ ← fieldU Field.timeScale 32
    let eq ← fieldU Field.equalPictureInterval 1
    if eq = 1 then
      let _ ← fieldOfRead Reader.uvlc Field.numTicksPerPictureMinus1
    else pure ()
    let dmi ← fieldU Field.decoderModelInfoPresentFlag 1
    if dmi = 1 then
      let nbd ← seqDecoderModelInfo
      pure (1, nbd)
    else pure (0, 0)
  else pure (0, 0)

/-- One operating point (R244). -/
def seqOperatingPoint (dmi nbd idd i : Nat) : Parse Unit Unit := do
  let _ ← fieldU Field.operatingPointIdc 12 i
  let lv ← fieldU Field.seqLevelIdx 5 i
  if lv > 7 then
    let _ ← fieldU Field.seqTier 1 i
  else pure ()
  if dmi = 1 then
    let dm ← fieldU Field.decoderModelPresentForThisOp 1 i
    if dm = 1 then
      let _ ← fieldU Field.decoderBufferDelay nbd i
      let _ ← fieldU Field.encoderBufferDelay nbd i
      let _ ← fieldU Field.lowDelayModeFlag 1 i
    else pure ()
  else pure ()
  if idd = 1 then
    let p ← fieldU Field.initialDisplayDelayPresentForThisOp 1 i
    if p = 1 then
      let _ ← fieldU Field.initialDisplayDelayMinus1 4 i
    else pure ()
  else pure ()

/-- `full_ops()` (R242 to R244). -/
def seqFullOps : Parse Unit Unit := do
  let (dmi, nbd) ← seqTimingInfo
  let idd ← fieldU Field.initialDisplayDelayPresentFlag 1
  let cnt ← fieldU Field.operatingPointsCntMinus1 5
  forRange (cnt + 1) 0 (seqOperatingPoint dmi nbd idd)

/-- `reduced_ops()` (R241). -/
def seqReducedOps : Parse Unit Unit := do
  let _ ← fieldU Field.seqLevelIdx 5 0

/-- Frame size (R245). -/
def seqFrameSize : Parse Unit Unit := do
  let wb ← fieldU Field.frameWidthBitsMinus1 4
  let hb ← fieldU Field.frameHeightBitsMinus1 4
  let _ ← fieldU Field.maxFrameWidthMinus1 (wb + 1)
  let _ ← fieldU Field.maxFrameHeightMinus1 (hb + 1)

/-- Frame id numbers (R246). -/
def seqFrameId (red : Nat) : Parse Unit Unit := do
  if red = 0 then
    let fid ← fieldU Field.frameIdNumbersPresentFlag 1
    if fid = 1 then
      let _ ← fieldU Field.deltaFrameIdLengthMinus2 4
      let _ ← fieldU Field.additionalFrameIdLengthMinus1 3
    else pure ()
  else pure ()

/-- Coding tool flags; returns enable_order_hint, 0 when absent (R247). -/
def seqTools (red : Nat) : Parse Unit Nat := do
  let _ ← fieldU Field.use128x128Superblock 1
  let _ ← fieldU Field.enableFilterIntra 1
  let _ ← fieldU Field.enableIntraEdgeFilter 1
  if red = 0 then
    let _ ← fieldU Field.enableInterintraCompound 1
    let _ ← fieldU Field.enableMaskedCompound 1
    let _ ← fieldU Field.enableWarpedMotion 1
    let _ ← fieldU Field.enableDualFilter 1
    let oh ← fieldU Field.enableOrderHint 1
    if oh = 1 then
      let _ ← fieldU Field.enableJntComp 1
      let _ ← fieldU Field.enableRefFrameMvs 1
    else pure ()
    pure oh
  else pure 0

/-- Screen content, integer MV and order hint bits (R248). -/
def seqScreenContent (red oh : Nat) : Parse Unit Unit := do
  if red = 0 then
    let ch ← fieldU Field.seqChooseScreenContentTools 1
    let fsct ← (if ch = 1 then pure 2 else fieldU Field.seqForceScreenContentTools 1)
    if fsct > 0 then
      let ci ← fieldU Field.seqChooseIntegerMv 1
      if ci = 0 then
        let _ ← fieldU Field.seqForceIntegerMv 1
      else pure ()
    else pure ()
    if oh = 1 then
      let _ ← fieldU Field.orderHintBitsMinus1 3
    else pure ()
  else pure ()

/-- Superres, CDEF and restoration (R249). -/
def seqFilters : Parse Unit Unit := do
  let _ ← fieldU Field.enableSuperres 1
  let _ ← fieldU Field.enableCdef 1
  let _ ← fieldU Field.enableRestoration 1

/-- Bit depth and monochrome; returns `(bd, mono)` (R250). -/
def seqBitDepth (prof : Nat) : Parse Unit (Nat × Nat) := do
  let hbd ← fieldU Field.highBitdepth 1
  let bd ← (if prof = 2 ∧ hbd = 1 then do
      let tw ← fieldU Field.twelveBit 1
      pure (if tw = 1 then 12 else 10)
    else pure (if hbd = 1 then 10 else 8))
  let mono ← (if prof ≠ 1 then fieldU Field.monoChrome 1 else pure 0)
  pure (bd, mono)

/-- The colour description; returns `(cp, tc, mc)`, 2 where absent (R251). -/
def seqColourDescription : Parse Unit (Nat × Nat × Nat) := do
  let cd ← fieldU Field.colorDescriptionPresentFlag 1
  if cd = 1 then
    let cp ← fieldU Field.colorPrimaries 8
    let tc ← fieldU Field.transferCharacteristics 8
    let mc ← fieldU Field.matrixCoefficients 8
    pure (cp, tc, mc)
  else pure (2, 2, 2)

/-- The subsampling; returns `(sx, sy)` (R252). -/
def seqSubsampling (prof bd : Nat) : Parse Unit (Nat × Nat) := do
  if prof = 0 then pure (1, 1)
  else if prof = 1 then pure (0, 0)
  else if bd = 12 then
    let sx ← fieldU Field.subsamplingX 1
    if sx = 1 then
      let sy ← fieldU Field.subsamplingY 1
      pure (sx, sy)
    else pure (sx, 0)
  else pure (1, 0)

/-- Range and subsampling (R252). -/
def seqColourRange (prof bd mono cp tc mc : Nat) : Parse Unit Unit := do
  if mono = 1 then
    let _ ← fieldU Field.colorRange 1
  else if cp = 1 ∧ tc = 13 ∧ mc = 0 then pure ()
  else
    let _ ← fieldU Field.colorRange 1
    let (sx, sy) ← seqSubsampling prof bd
    if sx = 1 ∧ sy = 1 then
      let _ ← fieldU Field.chromaSamplePosition 2
    else pure ()

/-- `color_config()` (R250 to R253). -/
def seqColourConfig (prof : Nat) : Parse Unit Unit := do
  let (bd, mono) ← seqBitDepth prof
  let (cp, tc, mc) ← seqColourDescription
  seqColourRange prof bd mono cp tc mc
  if mono = 0 then
    let _ ← fieldU Field.separateUvDeltaQ 1
  else pure ()

/-- `seq_header(Reader(P))` on the reader in use (R240 to R253). -/
def seqHeader : Parse Unit Unit := do
  let prof ← fieldU Field.seqProfile 3
  let _ ← fieldU Field.stillPicture 1
  let red ← fieldU Field.reducedStillPictureHeader 1
  if red = 1 then seqReducedOps else seqFullOps
  seqFrameSize
  seqFrameId red
  let oh ← seqTools red
  seqScreenContent red oh
  seqFilters
  seqColourConfig prof
  let _ ← fieldU Field.filmGrainParamsPresent 1

end Sys2Proof.Machine
end

