-- ==== Sys2Proof/Machine/Av1.lean ====
section
/-! DEFINITION. The AV1 commands: aggregation header, OBU elements, OBU header, leb128 (spec/42_av1.md sections 1 and 2).
The parser keeps no state across commands, but for RESULT and RESULT2 of AV1_LEB128. -/

namespace Sys2Proof.Machine

/-- `agg_header(a)`: emits five records, returns `(Z, Y, W, N)` (R231). -/
def aggHeader (a : Nat) : Parse Unit (Nat × Nat × Nat × Nat) := do
  emit Field.aggZ (fieldOf a 7 7)
  emit Field.aggY (fieldOf a 6 6)
  emit Field.aggW (fieldOf a 5 4)
  emit Field.aggN (fieldOf a 3 3)
  emit Field.aggReserved (fieldOf a 2 0)
  pure (fieldOf a 7 7, fieldOf a 6 6, fieldOf a 5 4, fieldOf a 3 3)

/-- The OBU header and extension; returns obu_type and obu_has_size_field (R235). -/
def obuHeader : Parse Unit (Nat × Nat) := do
  let _ ← fieldU Field.obuForbiddenBit 1
  let t ← fieldU Field.obuType 4
  let x ← fieldU Field.obuExtensionFlag 1
  let hs ← fieldU Field.obuHasSizeField 1
  let _ ← fieldU Field.obuReserved1bit 1
  if x = 1 then
    let _ ← fieldU Field.temporalId 3
    let _ ← fieldU Field.spatialId 2
    let _ ← fieldU Field.extensionHeaderReserved3bits 3
  else pure ()
  pure (t, hs)

/-- `obu_extent(r, E, hs, complete)`; returns `(hdr, sz)` (R236). -/
def obuExtent (E : List Byte) (hs : Nat) (complete : Bool) : Parse Unit (Nat × Nat) := do
  if hs = 1 then
    let (sz, _) ← liftRead Reader.leb128
    emit Field.obuSize sz
    let r ← getReader
    if r.bytePos + sz > E.length then
      if complete then raise .truncated else pure (r.bytePos, E.length - r.bytePos)
    else pure (r.bytePos, sz)
  else
    let r ← getReader
    pure (r.bytePos, E.length - r.bytePos)

/-- `obu_body(P, t, sz, complete)` (R237). -/
def obuBody (P : List Byte) (t sz : Nat) (complete : Bool) : Parse Unit Unit := do
  if complete = false then emit Field.notDecoded Region.obuFragment.code
  else if t = 1 then
    setReader (Reader.ofBytes P)
    seqHeader
  else if sz > 0 then emit Field.notDecoded Region.obuBody.code
  else pure ()

/-- `parse_obu(E, complete)`: returns the number of bytes the OBU occupies (R235). -/
def parseObu (E : List Byte) (complete : Bool) : Parse Unit Nat := do
  setReader (Reader.ofBytes E)
  let (t, hs) ← obuHeader
  let (hdr, sz) ← obuExtent E hs complete
  emit Field.obuPayloadLength sz
  obuBody (slice E hdr sz) t sz complete
  pure (hdr + sz)

/-- The length of element `el` at `pos`: a leb128 value, or the rest of the payload for the last of W > 0 elements.
Returns `(L, pos)` (R232). -/
def elementLength (S : List Byte) (W el pos : Nat) : Parse Unit (Nat × Nat) := do
  if W = 0 ∨ el + 1 < W then
    setReader (Reader.ofBytes (S.drop pos))
    let (L, nb) ← liftRead Reader.leb128
    emit Field.obuElementLength L
    pure (L, pos + nb)
  else pure (S.length - pos, pos)

/-- The passes of `elements(S, Z, Y, W)` from element `el` at `pos`. A pass with W = 0 consumes at least one byte and
there are at most three with W > 0, so `fuel` = `S.length + 4` passes are enough (R232, R400;
notes/assumptions/7.md). DEDUCED, unsafe: a first element of length 0 with Z = 1 is a continuation, as the pseudocode of
R232 says, and not TRUNCATED, as its corner case says of every element of length 0 (notes/assumptions/20.md). -/
def elementsFrom (S : List Byte) (Z Y W fuel pos el : Nat) : Parse Unit Unit :=
  match fuel with
  | 0 => raise .truncated
  | f + 1 =>
    if W = 0 ∧ pos = S.length then setUnit 0
    else if W > 0 ∧ el = W then setUnit 0
    else if pos = S.length then raise .truncated
    else do
      setUnit el
      let (L, p) ← elementLength S W el pos
      if p + L > S.length then raise .truncated
      else do
        let last := if W = 0 then p + L = S.length else el + 1 = W
        if el = 0 ∧ Z = 1 then emit Field.notDecoded Region.obuFragment.code
        else do
          let _ ← parseObu (slice S p L) (!decide (last ∧ Y = 1))
        elementsFrom S Z Y W f (p + L) (el + 1)

/-- `elements(S, Z, Y, W)` (R232). -/
def elements (S : List Byte) (Z Y W : Nat) : Parse Unit Unit := elementsFrom S Z Y W (S.length + 4) 1 0

/-- The procedure of AV1_PAYLOAD over the payload `S` (R230, R254). -/
def av1PayloadProc (S : List Byte) : Parse Unit Unit := do
  if S.length < 1 then raise .truncated
  else
    emit Field.customizeSubtype Subtype.video.code
    let (Z, Y, W, N) ← aggHeader (byteAt S 0)
    if N = 1 then emit Field.customizeKeyframe 1 else pure ()
    elements S Z Y W

/-- The passes of AV1_OBUS from OBU `el` at `pos`. Each consumes at least one byte, so `fuel` = `S.length + 1` passes
are enough (R233; notes/assumptions/7.md). -/
def obusFrom (S : List Byte) (fuel pos el : Nat) : Parse Unit Unit :=
  match fuel with
  | 0 => raise .truncated
  | f + 1 =>
    if pos < S.length then do
      setUnit el
      let n ← parseObu (S.drop pos) true
      obusFrom S f (pos + n) (el + 1)
    else pure ()

/-- The procedure of AV1_OBUS over the stream `S` (R233). -/
def av1ObusProc (S : List Byte) : Parse Unit Unit := do
  emit Field.customizeSubtype Subtype.video.code
  obusFrom S (S.length + 1) 0 0

/-- The procedure of AV1_LEB128 over the bytes `S`; it commits `(RESULT, RESULT2)` at its end (R234). -/
def av1Leb128Proc (S : List Byte) : Parse (Long × Word) Unit := do
  setReader (Reader.ofBytes S)
  let (v, n) ← liftRead Reader.leb128
  emit Field.leb128Value v
  emit Field.leb128Bytes n
  commit (BitVec.ofNat 64 v, BitVec.ofNat 32 n)

/-- `AV1_PAYLOAD len` (R230). -/
def execAv1Payload (len : Half) (s : State) : Host.Outcome State Fault Refusal :=
  .next (runParser (Instr.av1Payload len).opcode s () putNothing (av1PayloadProc (s.input len)))

/-- `AV1_OBUS len` (R233). -/
def execAv1Obus (len : Half) (s : State) : Host.Outcome State Fault Refusal :=
  .next (runParser (Instr.av1Obus len).opcode s () putNothing (av1ObusProc (s.input len)))

/-- `AV1_LEB128 len` (R234). -/
def execAv1Leb128 (len : Half) (s : State) : Host.Outcome State Fault Refusal :=
  .next (runParser (Instr.av1Leb128 len).opcode s (s.result, s.result2) State.withResults
    (av1Leb128Proc (s.input len)))

end Sys2Proof.Machine
end

