-- ==== Sys2Proof/Machine/BitReader.lean ====
section
/-! DEFINITION. The BitReader commands (spec/40_bitreader.md section 1). They push no description, and when one fails it
writes only STATUS (R124). -/

namespace Sys2Proof.Machine

/-- The reader `(BR_DATA, BR_BITLEN, BR_POS)` (R125). -/
def State.brReader (s : State) : Reader := { data := s.brData, len := s.brBitlen, pos := s.brPos }

/-- The end of a BitReader read: on success RESULT, BR_POS and STATUS are written, on failure STATUS alone (R122,
R124, R127). -/
def State.finishRead (s : State) (out : Except ReadFail (Nat × Reader)) : State :=
  match out with
  | .ok (v, r) => ((s.withResult v).withBrPos r.pos).withStatus .ok
  | .error .oob => s.withStatus .outOfBounds
  | .error .malformed => s.withStatus .malformed

/-- `BR_INIT len` (R120; ARG > 8·LEN is illegal, R81). -/
def execBrInit (len : Half) (s : State) : Host.Outcome State Fault Refusal :=
  if s.argOperand > 8 * len.toNat then .next s.illegalCommand
  else .next (((s.withBitReader (s.input len) s.argOperand).withResult 0).withStatus .ok)

/-- `BR_READ n` (R121; n > 64 is illegal, R81). -/
def execBrRead (n : Byte) (s : State) : Host.Outcome State Fault Refusal :=
  if nOperand n > Config.brMaxRead then .next s.illegalCommand
  else .next (s.finishRead (s.brReader.u (nOperand n)))

/-- `BR_READ_BYTE`: exactly `BR_READ 8`, at any bit position (R123). -/
def execBrReadByte (s : State) : Host.Outcome State Fault Refusal :=
  .next (s.finishRead (s.brReader.u 8))

/-- `BR_READ_UE` (R122). -/
def execBrReadUe (s : State) : Host.Outcome State Fault Refusal :=
  .next (s.finishRead s.brReader.ue)

end Sys2Proof.Machine
end

