-- ==== Sys2Proof/Machine/FlexFec.lean ====
section
/-! DEFINITION. The FlexFEC commands: stores, header variants, mask and recovery (spec/44_flexfec.md). All records are at
unit 0; sequence numbers are 16-bit, so their sums are modulo 2^16 (R328). -/

namespace Sys2Proof.Machine

/-- The store has an entry with this key (R311, R322). -/
def Store.has (st : Store) (key : Half) : Bool := st.any (fun e => e.key == key)

/-- The store without its entry of this key. -/
def Store.remove (st : Store) (key : Half) : Store := st.filter (fun e => !(e.key == key))

/-- The bytes of the entry with this key; empty when there is none. -/
def Store.bytesOf (st : Store) (key : Half) : List Byte :=
  match st with
  | [] => []
  | e :: rest => if e.key = key then e.bytes else Store.bytesOf rest key

/-- `store_put(store, cap, key, bytes, evname)` on the store the command may commit to (R311). -/
def storePut (cap : Nat) (key : Half) (bytes : List Byte) (evname : Half) : Parse Store Unit := do
  let st ← getEnv
  if st.has key then commit (st.remove key ++ [{ key := key, bytes := bytes }])
  else if st.length = cap then
    match st with
    | [] => commit [{ key := key, bytes := bytes }]
    | oldest :: rest => do
      emit evname oldest.key.toNat
      commit (rest ++ [{ key := key, bytes := bytes }])
  else commit (st ++ [{ key := key, bytes := bytes }])

/-- The procedure of FEC_MEDIA over the packet `m`; it commits to MEDIA and looks `fec` up (R310). -/
def fecMediaProc (cfg : Params) (fec : Store) (m : List Byte) : Parse Store Unit := do
  if m.length < 12 then raise .malformed
  else
    let seq := BitVec.ofNat 16 (beAt m 2 2)
    emit Field.mediaSeq seq.toNat
    emit Field.mediaLength m.length
    if fec.has seq then emit Field.fecKeyHit seq.toNat else pure ()
    storePut cfg.mediaCap seq m Field.mediaEvicted

/-- `r1f1(F)`: the retransmission-style header (R314). -/
def fecR1F1 (F : List Byte) : Parse Store Unit := do
  if F.length < 12 then raise .truncated
  else
    emit Field.rtxP (fieldOf (byteAt F 0) 5 5)
    emit Field.rtxX (fieldOf (byteAt F 0) 4 4)
    emit Field.rtxCc (fieldOf (byteAt F 0) 3 0)
    emit Field.rtxM (fieldOf (byteAt F 1) 7 7)
    emit Field.rtxPt (fieldOf (byteAt F 1) 6 0)
    emit Field.rtxSequenceNumber (beAt F 2 2)
    emit Field.rtxTimestamp (beAt F 4 4)
    emit Field.rtxSsrc (beAt F 8 4)
    emit Field.repairPayloadLength (F.length - 12)

/-- `common_r0(F)`: the fields shared by R0F0 and R0F1 (R315). -/
def fecCommonR0 (F : List Byte) : Parse Store Unit := do
  if F.length < 20 then raise .truncated
  else
    emit Field.fecPRecovery (fieldOf (byteAt F 0) 5 5)
    emit Field.fecXRecovery (fieldOf (byteAt F 0) 4 4)
    emit Field.fecCcRecovery (fieldOf (byteAt F 0) 3 0)
    emit Field.fecMRecovery (fieldOf (byteAt F 1) 7 7)
    emit Field.fecPtRecovery (fieldOf (byteAt F 1) 6 0)
    emit Field.fecLengthRecovery (beAt F 2 2)
    emit Field.fecTsRecovery (beAt F 4 4)
    emit Field.fecSsrcCount (byteAt F 8)
    emit Field.fecReserved (beAt F 9 3)
    emit Field.fecProtectedSsrc (beAt F 12 4)

/-- `r0f1(F)`: the fixed L/D header after `common_r0` (R316). -/
def fecR0F1 (F : List Byte) : Parse Store Unit := do
  emit Field.fecSnBase (beAt F 16 2)
  emit Field.fecL (byteAt F 18)
  emit Field.fecD (byteAt F 19)
  emit Field.fecHeaderLength 20
  emit Field.repairPayloadLength (F.length - 20)

/-- The offsets a tier's mask word selects: `first + j` for each set bit `j`, counted from the most significant of its
`width` mask bits (R317, R318). -/
def maskOffsets (first width mask : Nat) : List Nat :=
  ((List.range width).filter (fun j => mask.testBit (width - 1 - j))).map (fun j => first + j)

/-- One tier: the `n`-byte word at `at_`, its K bit and mask recorded at index `tier`; returns K and the tier's offsets
(R317, R318). -/
def fecMaskTier {σ : Type} (F : List Byte) (tier at_ n first : Nat) : Parse σ (Nat × List Nat) := do
  let w := beAt F at_ n
  let width := 8 * n - 1
  emit Field.fecK (w / 2 ^ width) tier
  emit Field.fecMaskTier (w % 2 ^ width) tier
  pure (w / 2 ^ width, maskOffsets first width (w % 2 ^ width))

/-- Tiers 2 and 3: the offsets beyond tier 1 and the header length (R318). K = 1 ends the mask; the K bit of tier 3 is
recorded and ignored. -/
def fecLaterTiers {σ : Type} (F : List Byte) : Parse σ (List Nat × Nat) := do
  if F.length < 24 then raise .truncated
  else
    let (k2, offs2) ← fecMaskTier F 1 20 4 15
    if k2 = 0 then
      if F.length < 32 then raise .truncated
      else
        let (_, offs3) ← fecMaskTier F 2 24 8 46
        pure (offs2 ++ offs3, 32)
    else pure (offs2, 24)

/-- The `fec_protected_seq` records from number `n` on (R319). -/
def fecEmitSeqs {σ : Type} (n : Nat) (seqs : List Half) : Parse σ Unit :=
  match seqs with
  | [] => pure ()
  | q :: rest => do
    emit Field.fecProtectedSeq q.toNat n
    fecEmitSeqs (n + 1) rest

/-- `parse_mask(F)`: the protected sequence numbers, the header length and the key (R317 to R319). -/
def fecParseMask {σ : Type} (F : List Byte) : Parse σ (List Half × Nat × Half) := do
  if F.length < 20 then raise .truncated
  else
    let base := BitVec.ofNat 16 (beAt F 16 2)
    emit Field.fecSnBase base.toNat
    let (k1, offs1) ← fecMaskTier F 0 18 2 0
    let (offs, H) ← (if k1 = 0 then do
        let (later, H) ← fecLaterTiers F
        pure (offs1 ++ later, H)
      else pure (offs1, 20))
    emit Field.fecHeaderLength H
    if offs.isEmpty then raise .malformed
    else
      let seqs := offs.map (fun o => base + BitVec.ofNat 16 o)
      fecEmitSeqs 0 seqs
      let key := seqs.getLastD 0
      emit Field.fecKey key.toNat
      pure (seqs, H, key)

/-- Bytewise exclusive or of two equally long strings. -/
def xorBytes (a b : List Byte) : List Byte := List.zipWith (fun x y => x ^^^ y) a b

/-- What a media packet adds to the header XOR: bytes 0 and 1, its payload length as 16 bits, bytes 4 to 7 (R331,
R323). -/
def mediaHeader (m : List Byte) : List Byte :=
  slice m 0 2 ++ [BitVec.ofNat 8 ((m.length - 12) / 256), BitVec.ofNat 8 (m.length - 12)] ++ slice m 4 4

/-- The recovered header: `F[0..8)` XORed with every present packet's (R323). -/
def recoverHeader (F : List Byte) (present : List (List Byte)) : List Byte :=
  present.foldl (fun h m => xorBytes h (mediaHeader m)) (slice F 0 8)

/-- Byte `j` of the recovered payload; a byte past the end of a packet counts as 0 (R324). -/
def recoverPayloadByte (F : List Byte) (H : Nat) (present : List (List Byte)) (j : Nat) : Byte :=
  present.foldl (fun b m => b ^^^ m.getD (12 + j) 0) (F.getD (H + j) 0)

/-- The recovered packet from the recovered header, the lost sequence number and the payload length `Y` (R324,
R325). -/
def recoverPacket (F : List Byte) (H : Nat) (present : List (List Byte)) (lost : Half) (Y : Nat) : List Byte :=
  let hdr := recoverHeader F present
  [(hdr.getD 0 0 &&& 0x3F) ||| 0x80, hdr.getD 1 0] ++
    [lost.extractLsb 15 8, lost.extractLsb 7 0] ++
    slice hdr 4 4 ++ slice F 12 4 ++ (List.range Y).map (recoverPayloadByte F H present)

/-- The `recovered_packet_byte` records from byte `n` on (R326). -/
def fecEmitBytes {σ : Type} (n : Nat) (pkt : List Byte) : Parse σ Unit :=
  match pkt with
  | [] => pure ()
  | b :: rest => do
    emit Field.recoveredPacketByte b.toNat n
    fecEmitBytes (n + 1) rest

/-- The protected sequence numbers that MEDIA has no entry for, in order (R322). -/
def missingSeqs (media : Store) (seqs : List Half) : List Half := seqs.filter (fun q => !(media.has q))

/-- `recover(F, seqs, H)` (R322 to R326). -/
def fecRecover (media : Store) (F : List Byte) (seqs : List Half) (H : Nat) : Parse Store Unit := do
  let missing := missingSeqs media seqs
  emit Field.recoveryMissingCount missing.length
  match missing with
  | [] => pure ()
  | [lost] => do
    emit Field.fecLostSeq lost.toNat
    let present := (seqs.filter (fun q => !(q == lost))).map media.bytesOf
    let Y := beAt (recoverHeader F present) 2 2
    if H + Y > F.length then raise .malformed
    else
      emit Field.recoveredLength (12 + Y)
      fecEmitBytes 0 (recoverPacket F H present lost Y)
  | _ :: _ :: _ => raise .recoveryUnavailable

/-- The R0F0 part of FEC_PACKET: mask, store step, recovery (R312, R321). -/
def fecR0F0 (cfg : Params) (media : Store) (F : List Byte) : Parse Store Unit := do
  let (seqs, H, key) ← fecParseMask F
  emit Field.repairPayloadLength (F.length - H)
  storePut cfg.fecCap key F Field.fecEvicted
  fecRecover media F seqs H

/-- The procedure of FEC_PACKET over the payload `F`; it commits to FEC and looks `media` up (R312, R313). -/
def fecPacketProc (cfg : Params) (media : Store) (F : List Byte) : Parse Store Unit := do
  if F.length < 1 then raise .truncated
  else
    emit Field.customizeSubtype Subtype.fec.code
    let R := fieldOf (byteAt F 0) 7 7
    let Fb := fieldOf (byteAt F 0) 6 6
    emit Field.fecR R
    emit Field.fecF Fb
    if R = 1 ∧ Fb = 0 then raise .malformed
    else if R = 1 then fecR1F1 F
    else
      fecCommonR0 F
      if Fb = 1 then fecR0F1 F else fecR0F0 cfg media F

/-- The procedure of FEC_MASK over the bytes `F` (R320). -/
def fecMaskProc (F : List Byte) : Parse Unit Unit := do
  let _ ← fecParseMask F
  pure ()

/-- `FEC_MEDIA len` (R310). -/
def execFecMedia (len : Half) (s : State) : Host.Outcome State Fault Refusal :=
  .next (runParser (Instr.fecMedia len).opcode s s.media State.withMedia (fecMediaProc s.cfg s.fec (s.input len)))

/-- `FEC_PACKET len` (R312). -/
def execFecPacket (len : Half) (s : State) : Host.Outcome State Fault Refusal :=
  .next (runParser (Instr.fecPacket len).opcode s s.fec State.withFec (fecPacketProc s.cfg s.media (s.input len)))

/-- `FEC_MASK len` (R320). -/
def execFecMask (len : Half) (s : State) : Host.Outcome State Fault Refusal :=
  .next (runParser (Instr.fecMask len).opcode s () putNothing (fecMaskProc (s.input len)))

end Sys2Proof.Machine
end

