-- ==== Sys2Proof/Machine/H264Pps.lean ====
section
/-! DEFINITION. The H.264 picture parameter set (spec/41_h264.md section 3). -/

namespace Sys2Proof.Machine

/-- The PPS identifiers and entropy fields; returns entropy_coding_mode_flag, the bottom-field flag and
num_slice_groups_minus1 (R181). -/
def ppsStart : Parse H264State (Nat × Nat × Nat) := do
  let _ ← fieldUe Field.picParameterSetId
  let _ ← fieldUe Field.ppsSeqParameterSetId
  let ent ← fieldU Field.entropyCodingModeFlag 1
  let bot ← fieldU Field.bottomFieldPicOrderInFramePresentFlag 1
  let ng ← fieldUe Field.numSliceGroupsMinus1
  pure (ent, bot, ng)

/-- The width of a slice_group_id: the least `w` with `2^w ≥ num_slice_groups_minus1 + 1` (R182). A `ue` value is
below 2^64, so 65 candidates are enough. -/
def sliceGroupIdWidth (ng : Nat) : Nat := leastShift 65 0 1 (ng + 1)

/-- The fields of slice_group_map_type `mt`; returns slice_group_change_rate_minus1, 0 when absent (R182, R185). -/
def ppsMapFields (ng mt : Nat) : Parse H264State Nat := do
  if mt = 0 then
    forRange (ng + 1) 0 (fun i => do
      let _ ← fieldUe Field.runLengthMinus1 i)
    pure 0
  else if mt = 2 then
    forRange ng 0 (fun i => do
      let _ ← fieldUe Field.topLeft i
      let _ ← fieldUe Field.bottomRight i)
    pure 0
  else if mt = 3 ∨ mt = 4 ∨ mt = 5 then
    let _ ← fieldU Field.sliceGroupChangeDirectionFlag 1
    fieldUe Field.sliceGroupChangeRateMinus1
  else if mt = 6 then
    let ps ← fieldUe Field.picSizeInMapUnitsMinus1
    forRange (ps + 1) 0 (fun i => do
      let _ ← fieldU Field.sliceGroupId (sliceGroupIdWidth ng) i)
    pure 0
  else pure 0

/-- The slice-group map; returns slice_group_map_type and slice_group_change_rate_minus1 (R182). -/
def ppsSliceGroups (ng : Nat) : Parse H264State (Nat × Nat) := do
  if ng > 0 then
    let mt ← fieldUe Field.sliceGroupMapType
    let rate ← ppsMapFields ng mt
    pure (mt, rate)
  else pure (0, 0)

/-- The PPS extension tag (R184). -/
def ppsExtension : Parse H264State Unit := do
  let r ← getReader
  if r.moreRbspData then emit Field.notDecoded Region.ppsExtension.code else pure ()

/-- `pps_commit(t)`: the whole PPS part and pps_valid (R185). -/
def ppsCommit (t : PpsPart) : Parse H264State Unit := do
  let e ← getEnv
  commit { e with pps := t, ppsValid := true }

/-- The reads of `pps(r)` after the parse-order check; returns the part to commit (R181 to R184). -/
def ppsFields : Parse H264State PpsPart := do
  let (ent, bot, ng) ← ppsStart
  let (mt, rate) ← ppsSliceGroups ng
  let l0 ← fieldUe Field.numRefIdxL0DefaultActiveMinus1
  let l1 ← fieldUe Field.numRefIdxL1DefaultActiveMinus1
  let wp ← fieldU Field.weightedPredFlag 1
  let wb ← fieldU Field.weightedBipredIdc 2
  let _ ← fieldSe Field.picInitQpMinus26
  let _ ← fieldSe Field.picInitQsMinus26
  let _ ← fieldSe Field.chromaQpIndexOffset
  let db ← fieldU Field.deblockingFilterControlPresentFlag 1
  let _ ← fieldU Field.constrainedIntraPredFlag 1
  let red ← fieldU Field.redundantPicCntPresentFlag 1
  ppsExtension
  pure { entropyCodingModeFlag := BitVec.ofNat 1 ent, redundantPicCntPresentFlag := BitVec.ofNat 1 red,
         numSliceGroupsMinus1 := BitVec.ofNat 64 ng, sliceGroupMapType := BitVec.ofNat 64 mt,
         bottomFieldPicOrderInFramePresentFlag := BitVec.ofNat 1 bot,
         sliceGroupChangeRateMinus1 := BitVec.ofNat 64 rate,
         numRefIdxL0DefaultActiveMinus1 := BitVec.ofNat 64 l0,
         numRefIdxL1DefaultActiveMinus1 := BitVec.ofNat 64 l1, weightedPredFlag := BitVec.ofNat 1 wp,
         weightedBipredIdc := BitVec.ofNat 2 wb, deblockingFilterControlPresentFlag := BitVec.ofNat 1 db }

/-- `pps(r)` on the reader in use: OUT_OF_ORDER_STATE before any bit when no SPS has been parsed (R180 to R185). -/
def ppsProc : Parse H264State Unit := do
  let e ← getEnv
  if e.spsValid then
    let t ← ppsFields
    ppsCommit t
  else raise .outOfOrderState

end Sys2Proof.Machine
end

