-- ==== Sys2Proof/Machine/H264Slice.lean ====
section
/-! DEFINITION. The H.264 slice header (spec/41_h264.md section 4). `S` and `P` are the SPS and PPS parts of ParserState,
`c` the slice_type class (0 P, 1 B, 2 I, 3 SP, 4 SI), `nri` and `t` the NAL unit's nal_ref_idc and nal_unit_type. -/

namespace Sys2Proof.Machine

/-- The start of the slice header; returns the class `c` (R191). -/
def sliceStart : Parse H264State Nat := do
  let _ ← fieldUe Field.firstMbInSlice
  let st ← fieldUe Field.sliceType
  if st > 9 then raise .malformed
  else
    emit Field.sliceTypeClass (st % 5)
    let _ ← fieldUe Field.slicePicParameterSetId
    pure (st % 5)

/-- Colour plane, frame number and field flags; returns field_pic_flag, 0 when absent (R192). -/
def sliceFrame (S : SpsPart) : Parse H264State Nat := do
  if S.separateColourPlaneFlag = 1 then
    let _ ← fieldU Field.colourPlaneId 2
  else pure ()
  let _ ← fieldU Field.frameNum S.log2MaxFrameNum.toNat
  if S.frameMbsOnlyFlag = 0 then
    let field ← fieldU Field.fieldPicFlag 1
    if field = 1 then
      let _ ← fieldU Field.bottomFieldFlag 1
    else pure ()
    pure field
  else pure 0

/-- IDR id, picture order count and redundant count (R193). -/
def slicePoc (S : SpsPart) (P : PpsPart) (t field : Nat) : Parse H264State Unit := do
  if t = 5 then
    let _ ← fieldUe Field.idrPicId
  else pure ()
  if S.picOrderCntType = 0 then
    let _ ← fieldU Field.picOrderCntLsb S.log2MaxPicOrderCntLsb.toNat
    if P.bottomFieldPicOrderInFramePresentFlag = 1 ∧ field = 0 then
      let _ ← fieldSe Field.deltaPicOrderCntBottom
    else pure ()
  else pure ()
  if S.picOrderCntType = 1 ∧ S.deltaPicOrderAlwaysZeroFlag = 0 then
    let _ ← fieldSe Field.deltaPicOrderCnt 0
    if P.bottomFieldPicOrderInFramePresentFlag = 1 ∧ field = 0 then
      let _ ← fieldSe Field.deltaPicOrderCnt 1
    else pure ()
  else pure ()
  if P.redundantPicCntPresentFlag = 1 then
    let _ ← fieldUe Field.redundantPicCnt
  else pure ()

/-- The B direct flag and the reference-index override; returns `(n0, n1)` (R194). -/
def sliceRefIdx (P : PpsPart) (c : Nat) : Parse H264State (Nat × Nat) := do
  if c = 1 then
    let _ ← fieldU Field.directSpatialMvPredFlag 1
  else pure ()
  let n0 := P.numRefIdxL0DefaultActiveMinus1.toNat
  let n1 := P.numRefIdxL1DefaultActiveMinus1.toNat
  if c = 0 ∨ c = 3 ∨ c = 1 then
    let ov ← fieldU Field.numRefIdxActiveOverrideFlag 1
    if ov = 1 then
      let m0 ← fieldUe Field.numRefIdxL0ActiveMinus1
      if c = 1 then
        let m1 ← fieldUe Field.numRefIdxL1ActiveMinus1
        pure (m0, m1)
      else pure (m0, n1)
    else pure (n0, n1)
  else pure (n0, n1)

/-- One pass of `rplm_loop(L)`; true at idc = 3 (R196). -/
def rplmEntry (L n : Nat) : Parse H264State Bool := do
  let idc ← fieldUe Field.modificationOfPicNumsIdc L n
  if idc = 0 ∨ idc = 1 then
    let _ ← fieldUe Field.absDiffPicNumMinus1 L n
  else if idc = 2 then
    let _ ← fieldUe Field.rplmLongTermPicNum L n
  else pure ()
  pure (decide (idc = 3))

/-- `rplm_loop(L)` (R196). -/
def rplmLoop (L : Nat) : Parse H264State Unit := do
  let r ← getReader
  repeatUntil (readerFuel r) 0 (rplmEntry L)

/-- The modification flag of list `L` and its loop (R195). -/
def rplmList (L : Nat) : Parse H264State Unit := do
  let f ← fieldU Field.refPicListModificationFlag 1 L
  if f = 1 then rplmLoop L else pure ()

/-- Reference picture list modification (R195). -/
def sliceRplm (c : Nat) : Parse H264State Unit := do
  if c ≠ 2 ∧ c ≠ 4 then rplmList 0 else pure ()
  if c = 1 then rplmList 1 else pure ()

/-- The chroma weight and offset of component `j` (R197). -/
def chromaWeightEntry (L i j : Nat) : Parse H264State Unit := do
  let _ ← fieldSe Field.chromaWeight L i j
  let _ ← fieldSe Field.chromaOffset L i j

/-- One pass of the weight table over reference `i` of list `L` (R197). -/
def weightEntry (cat L i : Nat) : Parse H264State Unit := do
  let lf ← fieldU Field.lumaWeightFlag 1 L i
  if lf = 1 then
    let _ ← fieldSe Field.lumaWeight L i
    let _ ← fieldSe Field.lumaOffset L i
  else pure ()
  if cat ≠ 0 then
    let cf ← fieldU Field.chromaWeightFlag 1 L i
    if cf = 1 then forRange 2 0 (chromaWeightEntry L i) else pure ()
  else pure ()

/-- `cat`: ChromaArrayType (R197). -/
def chromaArrayType (S : SpsPart) : Nat := if S.separateColourPlaneFlag = 1 then 0 else S.chromaFormatIdc.toNat

/-- The prediction weight table, when present (R197). -/
def slicePredWeight (S : SpsPart) (P : PpsPart) (c n0 n1 : Nat) : Parse H264State Unit := do
  if (P.weightedPredFlag = 1 ∧ (c = 0 ∨ c = 3)) ∨ (P.weightedBipredIdc = 1 ∧ c = 1) then
    let _ ← fieldUe Field.lumaLog2WeightDenom
    if chromaArrayType S ≠ 0 then
      let _ ← fieldUe Field.chromaLog2WeightDenom
    else pure ()
    forRange (n0 + 1) 0 (weightEntry (chromaArrayType S) 0)
    if c = 1 then forRange (n1 + 1) 0 (weightEntry (chromaArrayType S) 1) else pure ()
  else pure ()

/-- One memory_management_control_operation; true at 0 (R198). -/
def mmcoEntry (n : Nat) : Parse H264State Bool := do
  let op ← fieldUe Field.memoryManagementControlOperation n
  if op = 1 ∨ op = 3 then
    let _ ← fieldUe Field.differenceOfPicNumsMinus1 n
  else pure ()
  if op = 2 then
    let _ ← fieldUe Field.mmcoLongTermPicNum n
  else pure ()
  if op = 3 ∨ op = 6 then
    let _ ← fieldUe Field.longTermFrameIdx n
  else pure ()
  if op = 4 then
    let _ ← fieldUe Field.maxLongTermFrameIdxPlus1 n
  else pure ()
  pure (decide (op = 0))

/-- Decoded reference picture marking, when nal_ref_idc ≠ 0 (R198). -/
def sliceMarking (nri t : Nat) : Parse H264State Unit := do
  if nri ≠ 0 then
    if t = 5 then
      let _ ← fieldU Field.noOutputOfPriorPicsFlag 1
      let _ ← fieldU Field.longTermReferenceFlag 1
    else
      let a ← fieldU Field.adaptiveRefPicMarkingModeFlag 1
      if a = 1 then
        let r ← getReader
        repeatUntil (readerFuel r) 0 mmcoEntry
      else pure ()
  else pure ()

/-- CABAC, QP, SP/SI and deblocking fields (R199). -/
def sliceQp (P : PpsPart) (c : Nat) : Parse H264State Unit := do
  if P.entropyCodingModeFlag = 1 ∧ c ≠ 2 ∧ c ≠ 4 then
    let _ ← fieldUe Field.cabacInitIdc
  else pure ()
  let _ ← fieldSe Field.sliceQpDelta
  if c = 3 ∨ c = 4 then
    if c = 3 then
      let _ ← fieldU Field.spForSwitchFlag 1
    else pure ()
    let _ ← fieldSe Field.sliceQsDelta
  else pure ()
  if P.deblockingFilterControlPresentFlag = 1 then
    let d ← fieldUe Field.disableDeblockingFilterIdc
    if d ≠ 1 then
      let _ ← fieldSe Field.sliceAlphaC0OffsetDiv2
      let _ ← fieldSe Field.sliceBetaOffsetDiv2
    else pure ()
  else pure ()

/-- The width of slice_group_change_cycle: the least `v` with `2^v · rate ≥ pic + rate` (R200). The 64-bit fields make
`pic + rate` at most 2^128 + 2^64, so 130 candidates are enough. -/
def changeCycleWidth (S : SpsPart) (P : PpsPart) : Nat :=
  let pic := (S.picWidthInMbsMinus1.toNat + 1) * (S.picHeightInMapUnitsMinus1.toNat + 1)
  let rate := P.sliceGroupChangeRateMinus1.toNat + 1
  leastShift 130 0 rate (pic + rate)

/-- The slice group change cycle (R200, R176). -/
def sliceChangeCycle (S : SpsPart) (P : PpsPart) : Parse H264State Unit := do
  if 0 < P.numSliceGroupsMinus1.toNat ∧ 3 ≤ P.sliceGroupMapType.toNat ∧ P.sliceGroupMapType.toNat ≤ 5 then
    if changeCycleWidth S P > 32 then raise .malformed
    else
      let _ ← fieldU Field.sliceGroupChangeCycle (changeCycleWidth S P)
  else pure ()

/-- `slice_header(r, NRI, T)` on the reader in use: OUT_OF_ORDER_STATE before any bit when either validity bit is 0;
it commits nothing (R190 to R201). -/
def sliceHeader (nri t : Nat) : Parse H264State Unit := do
  let e ← getEnv
  if e.spsValid ∧ e.ppsValid then
    let c ← sliceStart
    let field ← sliceFrame e.sps
    slicePoc e.sps e.pps t field
    let (n0, n1) ← sliceRefIdx e.pps c
    sliceRplm c
    slicePredWeight e.sps e.pps c n0 n1
    sliceMarking nri t
    sliceQp e.pps c
    sliceChangeCycle e.sps e.pps
  else raise .outOfOrderState

end Sys2Proof.Machine
end

