-- ==== Sys2Proof/Machine/H264Sps.lean ====
section
/-! DEFINITION. The H.264 sequence parameter set (spec/41_h264.md section 2). -/

namespace Sys2Proof.Machine

/-- The profiles with the high-profile block (R171). -/
def highProfiles : List Nat := [100, 110, 122, 244, 44, 83, 86, 118, 128, 138, 139, 134]

/-- The start of `sps(r)`; returns profile_idc (R170). -/
def spsStart : Parse H264State Nat := do
  let prof ← fieldU Field.profileIdc 8
  let _ ← fieldU Field.constraintSet0Flag 1
  let _ ← fieldU Field.constraintSet1Flag 1
  let _ ← fieldU Field.constraintSet2Flag 1
  let _ ← fieldU Field.constraintSet3Flag 1
  let _ ← fieldU Field.constraintSet4Flag 1
  let _ ← fieldU Field.constraintSet5Flag 1
  let _ ← fieldU Field.reservedZero2bits 2
  let _ ← fieldU Field.levelIdc 8
  let _ ← fieldUe Field.seqParameterSetId
  pure prof

/-- The rest of `scaling_list(i, size)` from position `j`, `count` positions left (R172). -/
def scalingListFrom (i count j last next : Nat) : Parse H264State Unit :=
  match count with
  | 0 => pure ()
  | n + 1 =>
    if next = 0 then scalingListFrom i n (j + 1) last 0
    else do
      let k ← fieldSe Field.deltaScale i j
      let next1 := (((last : Int) + seVal k + 256) % 256).toNat
      scalingListFrom i n (j + 1) (if next1 = 0 then last else next1) next1

/-- `scaling_list(i, size)` (R172). -/
def scalingList (i size : Nat) : Parse H264State Unit := scalingListFrom i size 0 8 8

/-- One pass of the scaling-matrix loop (R171). -/
def spsScalingEntry (i : Nat) : Parse H264State Unit := do
  let f ← fieldU Field.seqScalingListPresentFlag 1 i
  if f = 1 then scalingList i (if i < 6 then 16 else 64) else pure ()

/-- The high-profile block; returns chroma_format_idc and separate_colour_plane_flag, 1 and 0 when absent (R171,
R175). -/
def spsHighProfile (prof : Nat) : Parse H264State (Nat × Nat) := do
  if prof ∈ highProfiles then
    let cf ← fieldUe Field.chromaFormatIdc
    let sep ← (if cf = 3 then fieldU Field.separateColourPlaneFlag 1 else pure 0)
    let _ ← fieldUe Field.bitDepthLumaMinus8
    let _ ← fieldUe Field.bitDepthChromaMinus8
    let _ ← fieldU Field.qpprimeYZeroTransformBypassFlag 1
    let sm ← fieldU Field.seqScalingMatrixPresentFlag 1
    if sm = 1 then forRange (if cf ≠ 3 then 8 else 12) 0 spsScalingEntry else pure ()
    pure (cf, sep)
  else pure (1, 0)

/-- A `log2_..._minus4` field: MALFORMED above 12, otherwise the value plus 4 (R173, R176). -/
def spsLog2 (f : Half) : Parse H264State Nat := do
  let v ← fieldUe f
  if v > 12 then raise .malformed else pure (v + 4)

/-- The picture-order-count fields after pic_order_cnt_type; returns log2_max_pic_order_cnt_lsb and
delta_pic_order_always_zero_flag, 0 when absent (R173, R175). -/
def spsPoc (poc : Nat) : Parse H264State (Nat × Nat) := do
  if poc = 0 then
    let lsb ← spsLog2 Field.log2MaxPicOrderCntLsbMinus4
    pure (lsb, 0)
  else if poc = 1 then
    let z ← fieldU Field.deltaPicOrderAlwaysZeroFlag 1
    let _ ← fieldSe Field.offsetForNonRefPic
    let _ ← fieldSe Field.offsetForTopToBottomField
    let n ← fieldUe Field.numRefFramesInPicOrderCntCycle
    forRange n 0 (fun i => do
      let _ ← fieldSe Field.offsetForRefFrame i)
    pure (0, z)
  else pure (0, 0)

/-- The frame-cropping offsets (R174). -/
def spsCropping (fc : Nat) : Parse H264State Unit := do
  if fc = 1 then
    let _ ← fieldUe Field.frameCropLeftOffset
    let _ ← fieldUe Field.frameCropRightOffset
    let _ ← fieldUe Field.frameCropTopOffset
    let _ ← fieldUe Field.frameCropBottomOffset
  else pure ()

/-- The picture-size part of the SPS remainder; returns the width, the height and frame_mbs_only_flag (R174). -/
def spsSize : Parse H264State (Nat × Nat × Nat) := do
  let _ ← fieldUe Field.maxNumRefFrames
  let _ ← fieldU Field.gapsInFrameNumValueAllowedFlag 1
  let w ← fieldUe Field.picWidthInMbsMinus1
  let h ← fieldUe Field.picHeightInMapUnitsMinus1
  let fm ← fieldU Field.frameMbsOnlyFlag 1
  pure (w, h, fm)

/-- The end of the SPS remainder, through vui_parameters_present_flag (R174). -/
def spsEnd (fm : Nat) : Parse H264State Unit := do
  if fm = 0 then
    let _ ← fieldU Field.mbAdaptiveFrameFieldFlag 1
  else pure ()
  let _ ← fieldU Field.direct8x8InferenceFlag 1
  let fc ← fieldU Field.frameCroppingFlag 1
  spsCropping fc
  let vui ← fieldU Field.vuiParametersPresentFlag 1
  if vui = 1 then emit Field.notDecoded Region.vui.code else pure ()

/-- `sps_commit(t)`: the whole SPS part and sps_valid; the PPS part and pps_valid stay (R175). -/
def spsCommit (t : SpsPart) : Parse H264State Unit := do
  let e ← getEnv
  commit { e with sps := t, spsValid := true }

/-- The reads of `sps(r)`; returns the part to commit (R170 to R175). -/
def spsFields : Parse H264State SpsPart := do
  let prof ← spsStart
  let (cf, sep) ← spsHighProfile prof
  let lfn ← spsLog2 Field.log2MaxFrameNumMinus4
  let poc ← fieldUe Field.picOrderCntType
  let (lsb, z) ← spsPoc poc
  let (w, h, fm) ← spsSize
  spsEnd fm
  pure { separateColourPlaneFlag := BitVec.ofNat 1 sep, frameMbsOnlyFlag := BitVec.ofNat 1 fm,
         picOrderCntType := BitVec.ofNat 64 poc, deltaPicOrderAlwaysZeroFlag := BitVec.ofNat 1 z,
         log2MaxFrameNum := BitVec.ofNat 5 lfn, log2MaxPicOrderCntLsb := BitVec.ofNat 5 lsb,
         chromaFormatIdc := BitVec.ofNat 64 cf, picWidthInMbsMinus1 := BitVec.ofNat 64 w,
         picHeightInMapUnitsMinus1 := BitVec.ofNat 64 h }

/-- `sps(r)` on the reader in use (R170 to R175). -/
def spsProc : Parse H264State Unit := do
  let t ← spsFields
  spsCommit t

end Sys2Proof.Machine
end

