-- ==== Sys2Proof/Machine/H264.lean ====
section
/-! DEFINITION. The H.264 commands and packetisation: NAL dispatch, STAP-A, FU-A (spec/41_h264.md section 1). `epb` is the
OPEN parameter H264_EPB_STRIP. -/

namespace Sys2Proof.Machine

/-- `nal_header(h)`: emits three records, returns `(nal_ref_idc, nal_unit_type)` (R161). -/
def nalHeader (h : Nat) : Parse H264State (Nat × Nat) := do
  emit Field.nalForbiddenZeroBit (fieldOf h 7 7)
  emit Field.nalRefIdc (fieldOf h 6 5)
  emit Field.nalUnitType (fieldOf h 4 0)
  pure (fieldOf h 6 5, fieldOf h 4 0)

/-- The bytes a NAL body is parsed from, with emulation-prevention bytes removed or not (R162). -/
def nalBody (epb : Bool) (B : List Byte) : List Byte := if epb then epbStrip B else B

/-- `rbsp(B)` (R162). -/
def rbsp (epb : Bool) (B : List Byte) : List Byte := nalBody epb (B.drop 1)

/-- The keyframe records of an IDR NAL unit, before its slice header is parsed (R168). -/
def markKeyframe (t : Nat) : Parse H264State Unit := do
  if t = 5 then
    emit Field.frameKey 1
    emit Field.customizeKeyframe 1
  else pure ()

/-- `parse_nal(B)` at the unit in force, with `|B| ≥ 1` (R167, R169). -/
def parseNal (epb : Bool) (B : List Byte) : Parse H264State Unit := do
  let (nri, t) ← nalHeader (byteAt B 0)
  setReader (Reader.ofBytes (rbsp epb B))
  if t = 7 then spsProc
  else if t = 8 then ppsProc
  else if t = 1 ∨ t = 5 then do
    markKeyframe t
    sliceHeader nri t
  else do
    emit Field.nalLength B.length
    emit Field.notDecoded Region.opaqueNal.code

/-- The passes of `stap_a(S)` from byte `pos`, `k` sub-NALs done. Each pass consumes at least three bytes, so `fuel` =
`S.length + 1` passes reach the end (R163, R400; notes/assumptions/7.md). -/
def stapAFrom (epb : Bool) (S : List Byte) (fuel pos k : Nat) : Parse H264State Unit :=
  match fuel with
  | 0 => raise .truncated
  | f + 1 =>
    if pos < S.length then
      if pos + 2 > S.length then raise .truncated
      else do
        setUnit (k + 1)
        emit Field.naluSize (beAt S pos 2)
        if beAt S pos 2 = 0 then raise .malformed
        else if pos + 2 + beAt S pos 2 > S.length then raise .truncated
        else do
          parseNal epb (slice S (pos + 2) (beAt S pos 2))
          stapAFrom epb S f (pos + 2 + beAt S pos 2) (k + 1)
    else setUnit 0

/-- `stap_a(S)` (R163). -/
def stapA (epb : Bool) (S : List Byte) : Parse H264State Unit := stapAFrom epb S (S.length + 1) 1 0

/-- `fu_a(S, NRI)` (R164). -/
def fuA (epb : Bool) (S : List Byte) (nri : Nat) : Parse H264State Unit := do
  if S.length < 2 then raise .truncated
  else
    let fh := byteAt S 1
    emit Field.fuStartBit (fieldOf fh 7 7)
    emit Field.fuEndBit (fieldOf fh 6 6)
    emit Field.fuReservedBit (fieldOf fh 5 5)
    emit Field.fuNalUnitType (fieldOf fh 4 0)
    emit Field.fuFragmentLength (S.length - 2)
    if fieldOf fh 7 7 = 1 ∧ (fieldOf fh 4 0 = 1 ∨ fieldOf fh 4 0 = 5) then
      markKeyframe (fieldOf fh 4 0)
      setReader (Reader.ofBytes (nalBody epb (S.drop 2)))
      sliceHeader nri (fieldOf fh 4 0)
    else emit Field.notDecoded Region.fuaFragment.code

/-- `opaque_single(S)` (R165). -/
def opaqueSingle (S : List Byte) : Parse H264State Unit := do
  emit Field.nalLength S.length
  emit Field.notDecoded Region.opaqueNal.code

/-- The procedure of H264_PAYLOAD over the payload `S` (R160). -/
def h264PayloadProc (epb : Bool) (S : List Byte) : Parse H264State Unit := do
  if S.length < 1 then raise .truncated
  else
    emit Field.customizeSubtype Subtype.video.code
    let (nri, t) ← nalHeader (byteAt S 0)
    if t = 24 then stapA epb S
    else if t = 28 then fuA epb S nri
    else opaqueSingle S

/-- The procedure of H264_NAL over the NAL unit `B` (R166). -/
def h264NalProc (epb : Bool) (B : List Byte) : Parse H264State Unit := do
  if B.length < 1 then raise .truncated
  else
    emit Field.customizeSubtype Subtype.video.code
    parseNal epb B

/-- `H264_PAYLOAD len` (R160). -/
def execH264Payload (len : Half) (s : State) : Host.Outcome State Fault Refusal :=
  .next (runParser (Instr.h264Payload len).opcode s s.h264 State.withH264
    (h264PayloadProc s.cfg.epbStrip (s.input len)))

/-- `H264_NAL len` (R166). -/
def execH264Nal (len : Half) (s : State) : Host.Outcome State Fault Refusal :=
  .next (runParser (Instr.h264Nal len).opcode s s.h264 State.withH264
    (h264NalProc s.cfg.epbStrip (s.input len)))

end Sys2Proof.Machine
end

