-- ==== Sys2Proof/Machine/Opus.lean ====
section
/-! DEFINITION. OPUS_PACKET: the TOC byte and the frame layout of an Opus packet (spec/43_opus.md). `S` is the packet,
`S.length` the rules' N, and a frame is `(offset, length)`. The parser keeps no state across packets. -/

namespace Sys2Proof.Machine

/-- `toc(t)`: emits the three TOC fields and returns `(config, code)` (R281). -/
def opusToc (t : Nat) : Parse Unit (Nat × Nat) := do
  emit Field.tocConfig (fieldOf t 7 3)
  emit Field.tocStereo (fieldOf t 2 2)
  emit Field.tocCode (fieldOf t 1 0)
  pure (fieldOf t 7 3, fieldOf t 1 0)

/-- `mode(cfg)`: 0 SILK, 1 Hybrid, 2 CELT (R282). -/
def opusMode (cfg : Nat) : Nat := if cfg < 12 then 0 else if cfg < 16 then 1 else 2

/-- `bandwidth(cfg)`: 0 NB, 1 MB, 2 WB, 3 SWB, 4 FB (R282). -/
def opusBandwidth (cfg : Nat) : Nat :=
  if cfg < 4 then 0
  else if cfg < 8 then 1
  else if cfg < 12 then 2
  else if cfg < 14 then 3
  else if cfg < 16 then 4
  else if cfg < 20 then 0
  else if cfg < 24 then 2
  else if cfg < 28 then 3
  else 4

/-- `size(cfg)`: the frame duration in units of 0.1 ms (R282). -/
def opusFrameSize (cfg : Nat) : Nat :=
  if cfg < 12 then [100, 200, 400, 600].getD (cfg % 4) 0
  else if cfg < 16 then [100, 200].getD (cfg % 2) 0
  else [25, 50, 100, 200].getD (cfg % 4) 0

/-- `config_info(cfg)` (R282). -/
def opusConfigInfo (cfg : Nat) : Parse Unit Unit := do
  emit Field.opusMode (opusMode cfg)
  emit Field.opusBandwidth (opusBandwidth cfg)
  emit Field.opusFrameSizeX10 (opusFrameSize cfg)

/-- `sd(pos)`: a self-delimited frame length, `(length, bytes used)` (R283). -/
def opusSd (S : List Byte) (pos : Nat) : Parse Unit (Nat × Nat) :=
  if pos ≥ S.length then raise .truncated
  else if byteAt S pos ≤ 251 then pure (byteAt S pos, 1)
  else if pos + 1 ≥ S.length then raise .truncated
  else pure (byteAt S pos + 4 * byteAt S (pos + 1), 2)

/-- `code0()` (R284). -/
def opusCode0 (S : List Byte) : Parse Unit (List (Nat × Nat)) := pure [(1, S.length - 1)]

/-- `code1()` (R285). -/
def opusCode1 (S : List Byte) : Parse Unit (List (Nat × Nat)) :=
  if (S.length - 1) % 2 = 1 then raise .malformed
  else pure [(1, (S.length - 1) / 2), (1 + (S.length - 1) / 2, (S.length - 1) / 2)]

/-- `code2()` (R286). -/
def opusCode2 (S : List Byte) : Parse Unit (List (Nat × Nat)) := do
  let (l1, k) ← opusSd S 1
  if l1 > S.length - 1 - k then raise .malformed
  else pure [(1 + k, l1), (1 + k + l1, S.length - 1 - k - l1)]

/-- The passes of `padding(pos)`: `(P, pos)` at the end (R288). Each pass moves `pos` on, so `S.length + 1` of them
reach the end of the packet (notes/assumptions/7.md). -/
def opusPaddingFrom (S : List Byte) (fuel pos P : Nat) : Parse Unit (Nat × Nat) :=
  match fuel with
  | 0 => raise .truncated
  | f + 1 =>
    if pos ≥ S.length then raise .truncated
    else if byteAt S pos = 255 then opusPaddingFrom S f (pos + 1) (P + 254)
    else pure (P + byteAt S pos, pos + 1)

/-- `padding(pos)` with the padding flag `p`: `(P, pos)` (R288). -/
def opusPadding (S : List Byte) (p pos : Nat) : Parse Unit (Nat × Nat) :=
  if p = 1 then opusPaddingFrom S (S.length + 1) pos 0 else pure (0, pos)

/-- Frames laid end to end from offset `o` (R289, R290). -/
def opusLayFrames (o : Nat) (lens : List Nat) : List (Nat × Nat) :=
  match lens with
  | [] => []
  | l :: rest => (o, l) :: opusLayFrames (o + l) rest

/-- `cbr(pos, P, M)` (R289). -/
def opusCbr (S : List Byte) (pos P M : Nat) : Parse Unit (List (Nat × Nat)) :=
  if pos + P > S.length then raise .malformed
  else if (S.length - pos - P) % M ≠ 0 then raise .malformed
  else pure (opusLayFrames pos (List.replicate M ((S.length - pos - P) / M)))

/-- `n` self-delimited lengths from `pos`: the lengths and the position after them (R290). -/
def opusSdList (S : List Byte) (n pos : Nat) : Parse Unit (List Nat × Nat) :=
  match n with
  | 0 => pure ([], pos)
  | m + 1 => do
    let (l, k) ← opusSd S pos
    let (ls, pos1) ← opusSdList S m (pos + k)
    pure (l :: ls, pos1)

/-- `vbr(pos, P, M)` (R290). -/
def opusVbr (S : List Byte) (pos P M : Nat) : Parse Unit (List (Nat × Nat)) := do
  let (lens, o) ← opusSdList S (M - 1) pos
  if o + P > S.length then raise .malformed
  else if lens.sum > S.length - o - P then raise .malformed
  else pure (opusLayFrames o (lens ++ [S.length - o - P - lens.sum]))

/-- `code3()` (R287). -/
def opusCode3 (S : List Byte) : Parse Unit (List (Nat × Nat)) := do
  if S.length < 2 then raise .truncated
  else
    let v := fieldOf (byteAt S 1) 7 7
    let p := fieldOf (byteAt S 1) 6 6
    let M := fieldOf (byteAt S 1) 5 0
    emit Field.frameCountVbr v
    emit Field.frameCountPaddingFlag p
    emit Field.frameCountM M
    if M = 0 then raise .malformed
    else
      let (P, pos) ← opusPadding S p 2
      emit Field.paddingLength P
      if v = 0 then opusCbr S pos P M else opusVbr S pos P M

/-- The records of the frames from number `n` on (R291). -/
def opusEmitFrom (n : Nat) (frames : List (Nat × Nat)) : Parse Unit Unit :=
  match frames with
  | [] => pure ()
  | (o, l) :: rest => do
    setUnit n
    emit Field.frameOffset o
    emit Field.frameLength l
    opusEmitFrom (n + 1) rest

/-- `emit_frames(frames)` (R291). -/
def opusEmitFrames (frames : List (Nat × Nat)) : Parse Unit Unit := do
  emit Field.frameCount frames.length
  opusEmitFrom 0 frames
  setUnit 0

/-- The frame layout of packing code `c` (R280). -/
def opusFrames (S : List Byte) (c : Nat) : Parse Unit (List (Nat × Nat)) :=
  if c = 0 then opusCode0 S
  else if c = 1 then opusCode1 S
  else if c = 2 then opusCode2 S
  else opusCode3 S

/-- The procedure of OPUS_PACKET over the packet `S` (R280). -/
def opusPacketProc (S : List Byte) : Parse Unit Unit := do
  if S.length < 1 then raise .truncated
  else
    emit Field.customizeSubtype Subtype.audio.code
    let (cfg, c) ← opusToc (byteAt S 0)
    opusConfigInfo cfg
    let frames ← opusFrames S c
    opusEmitFrames frames

/-- `OPUS_PACKET len` (R280). -/
def execOpusPacket (len : Half) (s : State) : Host.Outcome State Fault Refusal :=
  .next (runParser (Instr.opusPacket len).opcode s () putNothing (opusPacketProc (s.input len)))

end Sys2Proof.Machine
end

