-- ==== Sys2Proof/Machine/Dispatch.lean ====
section
/-! DEFINITION. One arm for each command of the opcode table (spec/30_encoding.md R85). -/

namespace Sys2Proof.Machine

/-- The meaning of a decoded command. -/
def exec (i : Instr) (s : State) : Host.Outcome State Fault Refusal :=
  match i with
  | .brInit len => Sys2Proof.Machine.execBrInit len s
  | .brRead n => Sys2Proof.Machine.execBrRead n s
  | .brReadByte => Sys2Proof.Machine.execBrReadByte s
  | .brReadUe => Sys2Proof.Machine.execBrReadUe s
  | .h264Payload len => Sys2Proof.Machine.execH264Payload len s
  | .h264Nal len => Sys2Proof.Machine.execH264Nal len s
  | .av1Payload len => Sys2Proof.Machine.execAv1Payload len s
  | .av1Obus len => Sys2Proof.Machine.execAv1Obus len s
  | .av1Leb128 len => Sys2Proof.Machine.execAv1Leb128 len s
  | .opusPacket len => Sys2Proof.Machine.execOpusPacket len s
  | .fecMedia len => Sys2Proof.Machine.execFecMedia len s
  | .fecPacket len => Sys2Proof.Machine.execFecPacket len s
  | .fecMask len => Sys2Proof.Machine.execFecMask len s

end Sys2Proof.Machine
end

