-- ==== Sys2Proof/Machine/Registers.lean ====
section
/-! DEFINITION. The register block as the host sees it (spec/30_encoding.md R82, spec/20_memory.md R62, R66). -/

namespace Sys2Proof.Machine

/-- The registers of R82. -/
inductive Reg where
  | cmd
  | arg
  | status
  | resultLo
  | resultHi
  | result2
  | brPos
  | brBitlen
  | dropCnt
  | dqCount
  | h264Valid
  | mediaCount
  | fecCount
deriving DecidableEq, Repr

/-- The register at a byte address; none at a reserved, misaligned or unmapped address (R82, R62). -/
def Reg.ofAddr (addr : Nat) : Option Reg :=
  if addr = 0x000 then some .cmd
  else if addr = 0x004 then some .arg
  else if addr = 0x008 then some .status
  else if addr = 0x00C then some .resultLo
  else if addr = 0x010 then some .resultHi
  else if addr = 0x014 then some .result2
  else if addr = 0x018 then some .brPos
  else if addr = 0x01C then some .brBitlen
  else if addr = 0x020 then some .dropCnt
  else if addr = 0x024 then some .dqCount
  else if addr = 0x028 then some .h264Valid
  else if addr = 0x02C then some .mediaCount
  else if addr = 0x030 then some .fecCount
  else none

/-- The register a host access of `width` bytes at `addr` reaches: whole 32-bit words only (R62). -/
def Reg.target (addr width : Nat) : Option Reg := if width = 4 then Reg.ofAddr addr else none

/-- The 32-bit value a register reads as; narrower registers are zero-extended (R66, R82). Reading changes nothing
(R68). DESIGN CHOICE, unsafe: with 2^32 or more descriptions waiting, which R6 and R82 leave open, DQ_COUNT reads as
their number modulo 2^32 (notes/assumptions/18.md). -/
def State.readReg (s : State) (r : Reg) : Word :=
  match r with
  | .cmd => 0
  | .arg => s.arg
  | .status => s.status.setWidth 32
  | .resultLo => s.result.extractLsb 31 0
  | .resultHi => s.result.extractLsb 63 32
  | .result2 => s.result2
  | .brPos => BitVec.ofNat 32 (s.brPos % 2 ^ 20)
  | .brBitlen => BitVec.ofNat 32 (s.brBitlen % 2 ^ 20)
  | .dropCnt => s.dropCnt
  | .dqCount => BitVec.ofNat 32 s.dq.length
  | .h264Valid => s.h264.validWord
  | .mediaCount => BitVec.ofNat 32 s.media.length
  | .fecCount => BitVec.ofNat 32 s.fec.length

/-- What a register write stores: ARG takes the value, a write to a read-only register is ignored (R62, R82). A write
to CMD stores nothing; it starts a command, which `step` runs (R80). -/
def State.writeReg (s : State) (r : Reg) (v : Word) : State :=
  match r with
  | .arg => { s with arg := v }
  | .cmd => s
  | .status => s
  | .resultLo => s
  | .resultHi => s
  | .result2 => s
  | .brPos => s
  | .brBitlen => s
  | .dropCnt => s
  | .dqCount => s
  | .h264Valid => s
  | .mediaCount => s
  | .fecCount => s

end Sys2Proof.Machine
end

