-- ==== Sys2Proof/Machine/HostActions.lean ====
section
/-! DEFINITION. The host's actions other than a CMD write (spec/20_memory.md R60 to R63, R69, spec/70_reset_and_hazards.md
R390), and the pseudo-instructions of spec/30_encoding.md R101. -/

namespace Sys2Proof.Machine

/-- The state without its oldest pending host action, which the step performs. -/
def State.withHost (s : State) (rest : List HostAction) : State := { s with host := rest }

/-- The value an action returns to the host. -/
def State.withReply (s : State) (r : Reply) : State := { s with reply := r }

/-- IBUF ← `m`. -/
def State.withIbuf (s : State) (m : Memory) : State := { s with ibuf := m }

/-- `MemWrite(addr, |v|, v)`: inside IBUF it writes, past its end it has no move (R61). -/
def hostMemWrite (addr : Nat) (v : List Byte) (s : State) : Host.Outcome State Fault Refusal :=
  if addr + v.length ≤ Config.ibufSize then .next (s.withIbuf (s.ibuf.writeBytes addr v))
  else .refused (.ibufWrite addr v.length)

/-- The first host byte address of the IBUF window: IBUF byte `i` is at `0x10000 + i` (R69). -/
def ibufBase : Nat := 0x10000

/-- A byte write at a host address: `MemWrite` in the IBUF window, no move elsewhere (R69, R62). -/
def hostBusWrite (addr : Nat) (v : List Byte) (s : State) : Host.Outcome State Fault Refusal :=
  if ibufBase ≤ addr ∧ addr < ibufBase + Config.ibufSize then hostMemWrite (addr - ibufBase) v s
  else .refused (.busAddress addr)

/-- A register read: the register's value is returned and nothing else changes (R62, R68). -/
def hostRegRead (addr width : Nat) (s : State) : Host.Outcome State Fault Refusal :=
  match Reg.target addr width with
  | some r => .next (s.withReply (.word (s.readReg r)))
  | none => .refused (.registerAccess addr width)

/-- `PopDesc`: remove and return the head of DQ; with DQ empty, return none and change nothing (R63). -/
def hostPopDesc (s : State) : State :=
  match s.dq with
  | [] => s.withReply (.desc none)
  | d :: rest => { s with dq := rest, reply := .desc (some d) }

/-- The whole-instance reset: every piece of state to its value of R48, the parameters as configured (R390). The host
actions still to come stay: they are the host's (notes/assumptions/12.md). -/
def hostReset (s : State) : State := { State.reset with cfg := s.cfg, host := s.host }

/-- The CMD register's address (R82). -/
def cmdAddr : Nat := 0x000

/-- The ARG register's address (R82). -/
def argAddr : Nat := 0x004

/-- The host action that issues a command: its word written to CMD (R80, R101). -/
def asmCmd (i : Instr) : HostAction := .regWrite cmdAddr 4 (encode i)

/-- `BR_LOAD [bytes], bitlen` (R101). DESIGN CHOICE, safe: for more than 65535 bytes, for which R80 has no command word,
LEN is `|bytes|` modulo 2^16 (notes/assumptions/19.md). -/
def asmBrLoad (bytes : List Byte) (bitlen : Word) : List HostAction :=
  [.memWrite 0 bytes, .regWrite argAddr 4 bitlen, asmCmd (.brInit (BitVec.ofNat 16 bytes.length))]

/-- `PARSE <PARSER>, [bytes]` (R101). For more than 65535 bytes, as `asmBrLoad` (notes/assumptions/19.md). -/
def asmParse (mk : Half → Instr) (bytes : List Byte) : List HostAction :=
  [.memWrite 0 bytes, asmCmd (mk (BitVec.ofNat 16 bytes.length))]

end Sys2Proof.Machine
end

