-- ==== Sys2Proof/Machine/Step.lean ====
section
/-! DEFINITION. One step: the oldest pending host action, a command at a CMD write (spec/20_memory.md R60, R70,
spec/60_exceptions.md R366). -/

namespace Sys2Proof.Machine

/-- A word written to CMD: the command it decodes to, or an illegal command (R80, R81, R364). -/
def command (w : Word) (s : State) : Host.Outcome State Fault Refusal :=
  match decode w with
  | .ok i => exec i s
  | .error _ => .next s.illegalCommand

/-- A register write: a command at CMD, a stored value or nothing elsewhere, no move without a register (R62, R80). -/
def hostRegWrite (addr width : Nat) (v : Word) (s : State) : Host.Outcome State Fault Refusal :=
  match Reg.target addr width with
  | some .cmd => command v s
  | some r => .next (s.writeReg r v)
  | none => .refused (.registerAccess addr width)

/-- One host action (R60). -/
def perform (a : HostAction) (s : State) : Host.Outcome State Fault Refusal :=
  match a with
  | .memWrite addr v => hostMemWrite addr v s
  | .busWrite addr v => hostBusWrite addr v s
  | .regWrite addr width v => hostRegWrite addr width v s
  | .regRead addr width => hostRegRead addr width s
  | .popDesc => .next (hostPopDesc s)
  | .reset => .next (hostReset s)

/-- One step of the instance: the oldest pending host action is performed, atomically and completely (R70); with none
pending the block is idle and nothing changes (R391). -/
def step (s : State) : Host.Outcome State Fault Refusal :=
  match s.host with
  | [] => .next s
  | a :: rest => perform a (s.withHost rest)

/-- `s` with the host about to write the word `w` to CMD: the next step runs its command. The block loads no program of
its own, so this stands for the host's issuing of a command (notes/assumptions/1.md). -/
def State.withFetchWord (s : State) (nbits w : Nat) : State :=
  s.withHost (.regWrite cmdAddr 4 (BitVec.ofNat 32 (w % 2 ^ nbits)) :: s.host)

end Sys2Proof.Machine
end

