-- ==== Sys2Proof/Safety.lean ====
section
/-! DEFINITION. The terms the statements use: the invariants of a run, and spec-level readings of a rule that are written
apart from the machine (the bits of a byte string, the illegal words, the end of a command, the bits of a syntax
element). -/

namespace Sys2Proof.Safety

open Sys2Proof.Machine

/-! ## Invariants -/

/-- `BR_POS ≤ BR_BITLEN ≤ 8·|BR_DATA|`, and BR_DATA has at most 65535 bytes (R32). -/
def BitReaderInv (s : State) : Prop :=
  s.brPos ≤ s.brBitlen ∧ s.brBitlen ≤ 8 * s.brData.length ∧ s.brData.length ≤ 65535

/-- DQ holds at most DESC_DEPTH descriptions (R39). -/
def QueueInv (s : State) : Prop := s.dq.length ≤ s.cfg.descDepth

/-- A store holds at most `cap` entries, no two with one key (R44, R45, R311). -/
def StoreInv (cap : Nat) (st : Store) : Prop := st.length ≤ cap ∧ (st.map (·.key)).Nodup

/-- MEDIA: bounded, and each entry a whole RTP packet of 12 to 65535 bytes under its own sequence number (R44). -/
def MediaInv (s : State) : Prop :=
  StoreInv s.cfg.mediaCap s.media ∧
    ∀ e ∈ s.media, 12 ≤ e.bytes.length ∧ e.bytes.length ≤ 65535 ∧ e.key.toNat = beAt e.bytes 2 2

/-- FEC: bounded, and each entry an R0F0 payload with its whole header (R45, R315). -/
def FecInv (s : State) : Prop :=
  StoreInv s.cfg.fecCap s.fec ∧ ∀ e ∈ s.fec, 20 ≤ e.bytes.length ∧ e.bytes.length ≤ 65535

/-- ParserState: a part is at its reset value until its validity bit is set, pps_valid comes after sps_valid, and a
committed SPS has the ranges of R40. -/
def ParserInv (h : H264State) : Prop :=
  (h.ppsValid = true → h.spsValid = true) ∧
  (h.spsValid = false → h.sps = SpsPart.reset) ∧
  (h.ppsValid = false → h.pps = PpsPart.reset) ∧
  (h.spsValid = true → 4 ≤ h.sps.log2MaxFrameNum.toNat ∧ h.sps.log2MaxFrameNum.toNat ≤ 16 ∧
    (h.sps.log2MaxPicOrderCntLsb.toNat = 0 ∨
      4 ≤ h.sps.log2MaxPicOrderCntLsb.toNat ∧ h.sps.log2MaxPicOrderCntLsb.toNat ≤ 16) ∧
    (h.sps.picOrderCntType = 0 → 4 ≤ h.sps.log2MaxPicOrderCntLsb.toNat))

/-- A waiting description: its status is one a parser command can have, and a failure ends with the error record
(R86, R89). -/
def DescInv (d : Description) : Prop :=
  d.status ∈ [0, 2, 3, 4, 5] ∧
    (d.status ≠ 0 → ∃ front, d.records = front ++ [⟨Field.error, 0, 0, 0, 0, d.status.setWidth 64⟩])

/-- Everything the spec says of every reachable state. -/
structure Inv (s : State) : Prop where
  memory : s.ibuf.wf
  bitReader : BitReaderInv s
  queue : QueueInv s
  media : MediaInv s
  fec : FecInv s
  parser : ParserInv s.h264
  status : s.status.toNat ≤ 6
  descs : ∀ d ∈ s.dq, DescInv d

/-! ## Words -/

/-- The opcodes of R85. -/
def opcodes : List Nat := [0x01, 0x02, 0x03, 0x04, 0x10, 0x11, 0x20, 0x21, 0x22, 0x30, 0x40, 0x41, 0x42]

/-- The illegal words of R81, from the word's value: OPC = w mod 2^8, N = w / 2^8 mod 2^8, LEN = w / 2^16. -/
def IllegalWord (w arg : Word) : Prop :=
  w.toNat % 256 ∉ opcodes ∨
  (w.toNat / 256 % 256 ≠ 0 ∧ w.toNat % 256 ≠ 0x02) ∨
  (w.toNat / 256 % 256 > 64 ∧ w.toNat % 256 = 0x02) ∨
  (w.toNat / 65536 ≠ 0 ∧ w.toNat % 256 ∈ [0x02, 0x03, 0x04]) ∨
  (w.toNat % 256 = 0x01 ∧ arg.toNat > 8 * (w.toNat / 65536))

/-- The codes R361 lets each command complete with, as a legal word. -/
def statusCodes : Instr → List Byte
  | .brInit _ => [0]
  | .brRead _ => [0, 1]
  | .brReadByte => [0, 1]
  | .brReadUe => [0, 1, 3]
  | .h264Payload _ => [0, 2, 3, 4]
  | .h264Nal _ => [0, 2, 3, 4]
  | .av1Payload _ => [0, 2]
  | .av1Obus _ => [0, 2]
  | .av1Leb128 _ => [0, 2]
  | .opusPacket _ => [0, 2, 3]
  | .fecMedia _ => [0, 3]
  | .fecPacket _ => [0, 2, 3, 5]
  | .fecMask _ => [0, 2, 3]

/-- The parser commands: every command that pushes a description (R39, format P of R97). -/
def isParser : Instr → Bool
  | .brInit _ => false
  | .brRead _ => false
  | .brReadByte => false
  | .brReadUe => false
  | .h264Payload _ => true
  | .h264Nal _ => true
  | .av1Payload _ => true
  | .av1Obus _ => true
  | .av1Leb128 _ => true
  | .opusPacket _ => true
  | .fecMedia _ => true
  | .fecPacket _ => true
  | .fecMask _ => true

/-! ## The end of a command -/

/-- The record `(f, u, i, j, k, v)` (R90). -/
def mkRec (f : Half) (v : Nat) (u i j k : Nat := 0) : Record :=
  ⟨f, BitVec.ofNat 32 u, BitVec.ofNat 32 i, BitVec.ofNat 32 j, BitVec.ofNat 32 k, BitVec.ofNat 64 v⟩

/-- `s` after a parser command of opcode `opc` that changed nothing else: STATUS, DQ and DROP_CNT (R362, R39). -/
def finished (s : State) (opc code : Byte) (recs : List Record) : State :=
  { s with
    status := code
    dq := (if s.dq.length < s.cfg.descDepth then s.dq else s.dq.drop 1) ++ [⟨opc, code, recs⟩]
    dropCnt := if s.dq.length < s.cfg.descDepth then s.dropCnt else s.dropCnt + 1 }

/-! ## Bits and bytes -/

/-- The input of a command with length field `len`, read byte by byte (R38, R68). -/
def inputBytes (s : State) (len : Half) : List Byte := (List.range len.toNat).map (fun a => s.ibuf.read a)

/-- Bit position `q` of a byte string: bit `7 − q mod 8` of byte `q div 8` (R8). -/
def streamBit (D : List Byte) (q : Nat) : Bool := (D.getD (q / 8) 0).getLsbD (7 - q % 8)

/-- The sum of R126: the `n` bits from `p`, the first the most significant. -/
def bitsSum (D : List Byte) (p n : Nat) : Nat :=
  ((List.range n).map (fun j => (streamBit D (p + j)).toNat * 2 ^ (n - 1 - j))).sum

/-- The bits `l` stand in `D` at position `p` and lie inside its first `L` bits. -/
def BitsAt (D : List Byte) (L p : Nat) (l : List Bool) : Prop :=
  p + l.length ≤ L ∧ ∀ j < l.length, streamBit D (p + j) = l.getD j false

/-- The `n`-bit binary form of `v`, most significant bit first. -/
def natBits (n v : Nat) : List Bool := (List.range n).map (fun j => v.testBit (n - 1 - j))

/-- `enc(v)`: the Exp-Golomb code of `v` (R138). -/
def ueBits (v : Nat) : List Bool :=
  List.replicate (Nat.log2 (v + 1)) false ++ true :: natBits (Nat.log2 (v + 1)) (v + 1 - 2 ^ Nat.log2 (v + 1))

/-- A syntax element or derived record of a parser: what it contributes to the bits read and to the records. -/
inductive Elem where
  /-- `emit(f, u(n), i, j, k)` with value `v` (R128). -/
  | u (f : Half) (n v : Nat) (i j k : Nat := 0)
  /-- `emit(f, ue(), i, j, k)` or the same of `se_code()`, with codeNum `v`, or of `uvlc()` with a value below 2^32 − 1
  (R129, R130, R133). -/
  | ue (f : Half) (v : Nat) (i j k : Nat := 0)
  /-- `emit(f, uvlc())` with the capped value 2^32 − 1, coded as `zeros` zeros and a 1 bit (R133). -/
  | capped (f : Half) (zeros : Nat)
  /-- A record of a derived value, no bits (R91). -/
  | derived (f : Half) (v : Nat)
deriving DecidableEq, Repr

/-- The bits an element is read from. -/
def Elem.bits : Elem → List Bool
  | .u _ n v _ _ _ => natBits n v
  | .ue _ v _ _ _ => ueBits v
  | .capped _ z => List.replicate z false ++ [true]
  | .derived _ _ => []

/-- The record an element emits at unit `un` (R90). -/
def Elem.recordAt (un : Nat) : Elem → Record
  | .u f _ v i j k => mkRec f v un i j k
  | .ue f v i j k => mkRec f v un i j k
  | .capped f _ => mkRec f (2 ^ 32 - 1) un
  | .derived f v => mkRec f v un

/-- The record an element emits at unit 0. -/
def Elem.record (e : Elem) : Record := e.recordAt 0

/-- An element's value fits its coding. -/
def Elem.fits : Elem → Prop
  | .u _ n v _ _ _ => n ≤ 64 ∧ v < 2 ^ n
  | .ue _ v _ _ _ => v < 2 ^ 64 - 1
  | .capped _ z => 32 ≤ z
  | .derived _ _ => True

/-- The bits of a list of elements, in order. -/
def elemBits (l : List Elem) : List Bool := l.flatMap Elem.bits

/-- The bytes `D` are the start of the bits of `elems`, and end inside the element that follows `front`. -/
def CutAfter (D : List Byte) (elems front : List Elem) : Prop :=
  ∃ e back, elems = front ++ e :: back ∧ (elemBits front).length ≤ 8 * D.length ∧
    8 * D.length < (elemBits front).length + e.bits.length ∧
    ∀ q < 8 * D.length, streamBit D q = (elemBits elems).getD q false

/-- The bytes `D` carry `front` and then, where an Exp-Golomb element stands, at least 64 zeros: up to a 1 bit, which R129
calls MALFORMED (`code` = 3), or to the end of the bytes, which is TRUNCATED (`code` = 2). -/
def LongCodeAfter (D : List Byte) (elems front : List Elem) (code : Byte) : Prop :=
  ∃ (f : Half) (v i j k : Nat) (back : List Elem) (n : Nat), elems = front ++ .ue f v i j k :: back ∧ 64 ≤ n ∧
    (code = 3 ∧ BitsAt D (8 * D.length) 0 (elemBits front ++ List.replicate n false ++ [true]) ∨
      code = 2 ∧ (elemBits front).length + n = 8 * D.length ∧
        BitsAt D (8 * D.length) 0 (elemBits front ++ List.replicate n false))

/-- A `u(n)` element without index. -/
def eu (f : Half) (n v : Nat) : Elem := .u f n v

/-- A `ue` or `se_code` element without index. -/
def eg (f : Half) (v : Nat) : Elem := .ue f v

/-- Some elements, if a condition holds. -/
def when (b : Bool) (l : List Elem) : List Elem := if b then l else []

end Sys2Proof.Safety
end

