-- ==== Sys2Proof/Safety/Av1Syntax.lean ====
section
/-! DEFINITION. AV1 sequence headers as a writer of the bit stream has them: the values of their syntax elements, and from
them the elements in stream order (spec/42_av1.md R240 to R253, spec/30_encoding.md R94). -/

namespace Sys2Proof.Safety

open Sys2Proof.Machine

/-- One operating point (R244). -/
structure SeqOpSyntax where
  idc : Nat
  level : Nat
  tier : Nat
  modelPresent : Nat
  decoderDelay : Nat
  encoderDelay : Nat
  lowDelay : Nat
  displayPresent : Nat
  displayDelay : Nat
deriving DecidableEq, Repr

/-- The syntax elements of a sequence header; `ticksZeros` counts the leading zeros of a ticksPerPicture at its cap. -/
structure SeqSyntax where
  profile : Nat
  stillPicture : Nat
  reduced : Nat
  reducedLevel : Nat
  timingInfo : Nat
  unitsDisplayTick : Nat
  timeScale : Nat
  equalInterval : Nat
  ticksPerPicture : Nat
  ticksZeros : Nat
  decoderModel : Nat
  bufferDelayLength : Nat
  unitsDecodingTick : Nat
  removalTimeLength : Nat
  presentationTimeLength : Nat
  displayDelayPresent : Nat
  ops : List SeqOpSyntax
  widthBits : Nat
  heightBits : Nat
  width : Nat
  height : Nat
  frameIds : Nat
  deltaFrameId : Nat
  additionalFrameId : Nat
  superblock128 : Nat
  filterIntra : Nat
  intraEdge : Nat
  interintra : Nat
  masked : Nat
  warped : Nat
  dualFilter : Nat
  orderHint : Nat
  jntComp : Nat
  refFrameMvs : Nat
  chooseScreen : Nat
  forceScreen : Nat
  chooseIntegerMv : Nat
  forceIntegerMv : Nat
  orderHintBits : Nat
  superres : Nat
  cdef : Nat
  restoration : Nat
  highBitdepth : Nat
  twelveBit : Nat
  monoChrome : Nat
  colourDescription : Nat
  primaries : Nat
  transfer : Nat
  matrix : Nat
  colourRange : Nat
  subsamplingX : Nat
  subsamplingY : Nat
  chromaPosition : Nat
  separateUvDeltaQ : Nat
  filmGrain : Nat
deriving DecidableEq, Repr

/-- decoder_model_info_present_flag, 0 when absent (R242). -/
def SeqSyntax.dmi (x : SeqSyntax) : Bool := x.timingInfo = 1 ∧ x.decoderModel = 1

/-- The elements of operating point number `i` (R244). -/
def SeqOpSyntax.elems (x : SeqSyntax) (i : Nat) (o : SeqOpSyntax) : List Elem :=
  [.u Field.operatingPointIdc 12 o.idc i, .u Field.seqLevelIdx 5 o.level i] ++
  when (o.level > 7) [.u Field.seqTier 1 o.tier i] ++
  when x.dmi
    ([.u Field.decoderModelPresentForThisOp 1 o.modelPresent i] ++
      when (o.modelPresent = 1)
        [.u Field.decoderBufferDelay (x.bufferDelayLength + 1) o.decoderDelay i,
          .u Field.encoderBufferDelay (x.bufferDelayLength + 1) o.encoderDelay i,
          .u Field.lowDelayModeFlag 1 o.lowDelay i]) ++
  when (x.displayDelayPresent = 1)
    ([.u Field.initialDisplayDelayPresentForThisOp 1 o.displayPresent i] ++
      when (o.displayPresent = 1) [.u Field.initialDisplayDelayMinus1 4 o.displayDelay i])

/-- Timing info and operating points of a full header (R242 to R244). -/
def SeqSyntax.opElems (x : SeqSyntax) : List Elem :=
  [eu Field.timingInfoPresentFlag 1 x.timingInfo] ++
  when (x.timingInfo = 1)
    ([eu Field.numUnitsInDisplayTick 32 x.unitsDisplayTick, eu Field.timeScale 32 x.timeScale,
        eu Field.equalPictureInterval 1 x.equalInterval] ++
      when (x.equalInterval = 1)
        [if x.ticksPerPicture = 2 ^ 32 - 1 then .capped Field.numTicksPerPictureMinus1 x.ticksZeros
          else eg Field.numTicksPerPictureMinus1 x.ticksPerPicture] ++
      [eu Field.decoderModelInfoPresentFlag 1 x.decoderModel] ++
      when (x.decoderModel = 1)
        [eu Field.bufferDelayLengthMinus1 5 x.bufferDelayLength, eu Field.numUnitsInDecodingTick 32 x.unitsDecodingTick,
          eu Field.bufferRemovalTimeLengthMinus1 5 x.removalTimeLength,
          eu Field.framePresentationTimeLengthMinus1 5 x.presentationTimeLength]) ++
  [eu Field.initialDisplayDelayPresentFlag 1 x.displayDelayPresent,
    eu Field.operatingPointsCntMinus1 5 (x.ops.length - 1)] ++
  (x.ops.mapIdx (fun i o => o.elems x i)).flatten

/-- mono_chrome, 0 when absent (R250). -/
def SeqSyntax.mono (x : SeqSyntax) : Bool := x.profile ≠ 1 ∧ x.monoChrome = 1

/-- BitDepth = 12 (R250). -/
def SeqSyntax.depth12 (x : SeqSyntax) : Bool := x.profile = 2 ∧ x.highBitdepth = 1 ∧ x.twelveBit = 1

/-- The sRGB case of R252. -/
def SeqSyntax.srgb (x : SeqSyntax) : Bool :=
  x.colourDescription = 1 ∧ x.primaries = 1 ∧ x.transfer = 13 ∧ x.matrix = 0

/-- subsampling_x and subsampling_y are both 1, read or inferred (R252). -/
def SeqSyntax.sub420 (x : SeqSyntax) : Bool :=
  x.profile = 0 ∨ (x.profile ≠ 1 ∧ x.depth12 ∧ x.subsamplingX = 1 ∧ x.subsamplingY = 1)

/-- `color_config()` (R250 to R253). -/
def SeqSyntax.colourElems (x : SeqSyntax) : List Elem :=
  [eu Field.highBitdepth 1 x.highBitdepth] ++
  when (x.profile = 2 ∧ x.highBitdepth = 1) [eu Field.twelveBit 1 x.twelveBit] ++
  when (x.profile ≠ 1) [eu Field.monoChrome 1 x.monoChrome] ++
  [eu Field.colorDescriptionPresentFlag 1 x.colourDescription] ++
  when (x.colourDescription = 1)
    [eu Field.colorPrimaries 8 x.primaries, eu Field.transferCharacteristics 8 x.transfer,
      eu Field.matrixCoefficients 8 x.matrix] ++
  when (x.mono ∨ ¬ x.srgb) [eu Field.colorRange 1 x.colourRange] ++
  when (¬ x.mono ∧ ¬ x.srgb)
    (when (x.profile ≠ 0 ∧ x.profile ≠ 1 ∧ x.depth12)
        ([eu Field.subsamplingX 1 x.subsamplingX] ++
          when (x.subsamplingX = 1) [eu Field.subsamplingY 1 x.subsamplingY]) ++
      when x.sub420 [eu Field.chromaSamplePosition 2 x.chromaPosition]) ++
  when (¬ x.mono) [eu Field.separateUvDeltaQ 1 x.separateUvDeltaQ]

/-- seq_force_screen_content_tools is above 0, read or inferred (R248). -/
def SeqSyntax.screen (x : SeqSyntax) : Bool := x.chooseScreen = 1 ∨ x.forceScreen > 0

/-- The elements in the order of R240 to R253. -/
def SeqSyntax.elems (x : SeqSyntax) : List Elem :=
  [eu Field.seqProfile 3 x.profile, eu Field.stillPicture 1 x.stillPicture,
    eu Field.reducedStillPictureHeader 1 x.reduced] ++
  (if x.reduced = 1 then [eu Field.seqLevelIdx 5 x.reducedLevel] else x.opElems) ++
  [eu Field.frameWidthBitsMinus1 4 x.widthBits, eu Field.frameHeightBitsMinus1 4 x.heightBits,
    eu Field.maxFrameWidthMinus1 (x.widthBits + 1) x.width,
    eu Field.maxFrameHeightMinus1 (x.heightBits + 1) x.height] ++
  when (x.reduced = 0)
    ([eu Field.frameIdNumbersPresentFlag 1 x.frameIds] ++
      when (x.frameIds = 1)
        [eu Field.deltaFrameIdLengthMinus2 4 x.deltaFrameId,
          eu Field.additionalFrameIdLengthMinus1 3 x.additionalFrameId]) ++
  [eu Field.use128x128Superblock 1 x.superblock128, eu Field.enableFilterIntra 1 x.filterIntra,
    eu Field.enableIntraEdgeFilter 1 x.intraEdge] ++
  when (x.reduced = 0)
    ([eu Field.enableInterintraCompound 1 x.interintra, eu Field.enableMaskedCompound 1 x.masked,
        eu Field.enableWarpedMotion 1 x.warped, eu Field.enableDualFilter 1 x.dualFilter,
        eu Field.enableOrderHint 1 x.orderHint] ++
      when (x.orderHint = 1) [eu Field.enableJntComp 1 x.jntComp, eu Field.enableRefFrameMvs 1 x.refFrameMvs] ++
      [eu Field.seqChooseScreenContentTools 1 x.chooseScreen] ++
      when (x.chooseScreen ≠ 1) [eu Field.seqForceScreenContentTools 1 x.forceScreen] ++
      when x.screen
        ([eu Field.seqChooseIntegerMv 1 x.chooseIntegerMv] ++
          when (x.chooseIntegerMv = 0) [eu Field.seqForceIntegerMv 1 x.forceIntegerMv]) ++
      when (x.orderHint = 1) [eu Field.orderHintBitsMinus1 3 x.orderHintBits]) ++
  [eu Field.enableSuperres 1 x.superres, eu Field.enableCdef 1 x.cdef, eu Field.enableRestoration 1 x.restoration] ++
  x.colourElems ++
  [eu Field.filmGrainParamsPresent 1 x.filmGrain]

/-- Every value fits its coding, a full header has 1 to 32 operating points, and the uvlc value is at most its cap. -/
def SeqSyntax.fits (x : SeqSyntax) : Prop :=
  (∀ e ∈ x.elems, e.fits) ∧ (x.reduced = 0 → 1 ≤ x.ops.length ∧ x.ops.length ≤ 32) ∧
    (x.equalInterval = 1 → x.ticksPerPicture ≤ 2 ^ 32 - 1)

end Sys2Proof.Safety
end

