-- ==== Sys2Proof/Safety/H264Syntax.lean ====
section
/-! DEFINITION. H.264 parameter sets and slice headers as a writer of the bit stream has them: the values of their syntax
elements, and from them the elements in stream order (spec/41_h264.md R170 to R200, spec/30_encoding.md R93). The
statements say that the parsers read such a stream back. -/

namespace Sys2Proof.Safety

open Sys2Proof.Machine

/-- `se_val(k)` (R132). -/
def seSigned (k : Nat) : Int := if k % 2 = 1 then ((k + 1) / 2 : Nat) else -((k / 2 : Nat) : Int)

/-- `next` of R172 after the first `n` of the codes `ks`: as long as it is not 0, `last` equals it, so each code adds its
signed value to 8, modulo 256. -/
def scaleAfter (ks : List Nat) (n : Nat) : Int := (8 + ((ks.take n).map seSigned).sum) % 256

/-- `ks` are the codes a scaling list of `size` entries carries: they end where `next` reaches 0 or the list is full
(R172). -/
def scalingListEnds (size : Nat) (ks : List Nat) : Prop :=
  ks.length ≤ size ∧ (∀ n < ks.length, scaleAfter ks n ≠ 0) ∧ (ks.length = size ∨ scaleAfter ks ks.length = 0)

/-- The elements of entry `i` of the scaling matrix: the present flag, and the codes of a list that is present (R171,
R172). -/
def scalingListElems (i : Nat) (l : Option (List Nat)) : List Elem :=
  match l with
  | none => [.u Field.seqScalingListPresentFlag 1 0 i]
  | some ks => .u Field.seqScalingListPresentFlag 1 1 i :: ks.mapIdx (fun j k => .ue Field.deltaScale k i j)

/-- The syntax elements of an SPS; an entry of `scalingLists` is a list that is present or absent. -/
structure SpsSyntax where
  profileIdc : Nat
  constraintFlags : Nat
  reservedBits : Nat
  levelIdc : Nat
  id : Nat
  chromaFormatIdc : Nat
  separateColourPlane : Nat
  bitDepthLuma : Nat
  bitDepthChroma : Nat
  qpprime : Nat
  scalingMatrix : Nat
  scalingLists : List (Option (List Nat))
  log2FrameNum : Nat
  pocType : Nat
  log2PocLsb : Nat
  deltaAlwaysZero : Nat
  offsetNonRef : Nat
  offsetTopBottom : Nat
  offsetsRefFrame : List Nat
  maxNumRefFrames : Nat
  gapsAllowed : Nat
  width : Nat
  height : Nat
  frameMbsOnly : Nat
  mbAdaptive : Nat
  direct8x8 : Nat
  cropping : Nat
  cropLeft : Nat
  cropRight : Nat
  cropTop : Nat
  cropBottom : Nat
  vui : Nat
deriving DecidableEq, Repr

/-- The elements in the order of R170, R171, R173 and R174. -/
def SpsSyntax.elems (x : SpsSyntax) : List Elem :=
  [eu Field.profileIdc 8 x.profileIdc,
    eu Field.constraintSet0Flag 1 (x.constraintFlags / 32 % 2),
    eu Field.constraintSet1Flag 1 (x.constraintFlags / 16 % 2),
    eu Field.constraintSet2Flag 1 (x.constraintFlags / 8 % 2),
    eu Field.constraintSet3Flag 1 (x.constraintFlags / 4 % 2),
    eu Field.constraintSet4Flag 1 (x.constraintFlags / 2 % 2),
    eu Field.constraintSet5Flag 1 (x.constraintFlags % 2),
    eu Field.reservedZero2bits 2 x.reservedBits, eu Field.levelIdc 8 x.levelIdc,
    eg Field.seqParameterSetId x.id] ++
  when (x.profileIdc ∈ [100, 110, 122, 244, 44, 83, 86, 118, 128, 138, 139, 134])
    ([eg Field.chromaFormatIdc x.chromaFormatIdc] ++
      when (x.chromaFormatIdc = 3) [eu Field.separateColourPlaneFlag 1 x.separateColourPlane] ++
      [eg Field.bitDepthLumaMinus8 x.bitDepthLuma, eg Field.bitDepthChromaMinus8 x.bitDepthChroma,
        eu Field.qpprimeYZeroTransformBypassFlag 1 x.qpprime,
        eu Field.seqScalingMatrixPresentFlag 1 x.scalingMatrix] ++
      when (x.scalingMatrix = 1) (x.scalingLists.mapIdx scalingListElems).flatten) ++
  [eg Field.log2MaxFrameNumMinus4 x.log2FrameNum, eg Field.picOrderCntType x.pocType] ++
  when (x.pocType = 0) [eg Field.log2MaxPicOrderCntLsbMinus4 x.log2PocLsb] ++
  when (x.pocType = 1)
    ([eu Field.deltaPicOrderAlwaysZeroFlag 1 x.deltaAlwaysZero, eg Field.offsetForNonRefPic x.offsetNonRef,
        eg Field.offsetForTopToBottomField x.offsetTopBottom,
        eg Field.numRefFramesInPicOrderCntCycle x.offsetsRefFrame.length] ++
      x.offsetsRefFrame.mapIdx (fun i v => .ue Field.offsetForRefFrame v i)) ++
  [eg Field.maxNumRefFrames x.maxNumRefFrames, eu Field.gapsInFrameNumValueAllowedFlag 1 x.gapsAllowed,
    eg Field.picWidthInMbsMinus1 x.width, eg Field.picHeightInMapUnitsMinus1 x.height,
    eu Field.frameMbsOnlyFlag 1 x.frameMbsOnly] ++
  when (x.frameMbsOnly = 0) [eu Field.mbAdaptiveFrameFieldFlag 1 x.mbAdaptive] ++
  [eu Field.direct8x8InferenceFlag 1 x.direct8x8, eu Field.frameCroppingFlag 1 x.cropping] ++
  when (x.cropping = 1)
    [eg Field.frameCropLeftOffset x.cropLeft, eg Field.frameCropRightOffset x.cropRight,
      eg Field.frameCropTopOffset x.cropTop, eg Field.frameCropBottomOffset x.cropBottom] ++
  [eu Field.vuiParametersPresentFlag 1 x.vui] ++
  when (x.vui = 1) [.derived Field.notDecoded 1]

/-- A scaling matrix that is present has 8 lists, or 12 for chroma_format_idc = 3; the first six have 16 entries, the
others 64 (R171, R172). -/
def SpsSyntax.scalingFits (x : SpsSyntax) : Prop :=
  x.scalingMatrix = 1 → x.scalingLists.length = (if x.chromaFormatIdc = 3 then 12 else 8) ∧
    ∀ i < 12, ∀ ks ∈ x.scalingLists[i]?.join, scalingListEnds (if i < 6 then 16 else 64) ks

/-- Every value fits its coding, the scaling lists end where they must, and the two log2 fields pass the checks of
R173. -/
def SpsSyntax.fits (x : SpsSyntax) : Prop :=
  (∀ e ∈ x.elems, e.fits) ∧ x.scalingFits ∧ x.log2FrameNum ≤ 12 ∧ (x.pocType = 0 → x.log2PocLsb ≤ 12)

/-- The SPS part that R175 commits: the values read, the defaults where a field is absent. -/
def SpsSyntax.part (x : SpsSyntax) : SpsPart :=
  let high := x.profileIdc ∈ [100, 110, 122, 244, 44, 83, 86, 118, 128, 138, 139, 134]
  { separateColourPlaneFlag :=
      if high ∧ x.chromaFormatIdc = 3 then BitVec.ofNat 1 x.separateColourPlane else 0
    frameMbsOnlyFlag := BitVec.ofNat 1 x.frameMbsOnly
    picOrderCntType := BitVec.ofNat 64 x.pocType
    deltaPicOrderAlwaysZeroFlag := if x.pocType = 1 then BitVec.ofNat 1 x.deltaAlwaysZero else 0
    log2MaxFrameNum := BitVec.ofNat 5 (x.log2FrameNum + 4)
    log2MaxPicOrderCntLsb := if x.pocType = 0 then BitVec.ofNat 5 (x.log2PocLsb + 4) else 0
    chromaFormatIdc := if high then BitVec.ofNat 64 x.chromaFormatIdc else 1
    picWidthInMbsMinus1 := BitVec.ofNat 64 x.width
    picHeightInMapUnitsMinus1 := BitVec.ofNat 64 x.height }

/-- The syntax elements of a PPS. -/
structure PpsSyntax where
  id : Nat
  spsId : Nat
  entropyCodingMode : Nat
  bottomField : Nat
  numSliceGroups : Nat
  mapType : Nat
  runLengths : List Nat
  rectangles : List (Nat × Nat)
  changeDirection : Nat
  changeRate : Nat
  sliceGroupIds : List Nat
  numRefIdxL0 : Nat
  numRefIdxL1 : Nat
  weightedPred : Nat
  weightedBipred : Nat
  picInitQp : Nat
  picInitQs : Nat
  chromaQpOffset : Nat
  deblockingControl : Nat
  constrainedIntra : Nat
  redundantPicCnt : Nat
deriving DecidableEq, Repr

/-- The elements in the order of R181 to R183. -/
def PpsSyntax.elems (x : PpsSyntax) : List Elem :=
  [eg Field.picParameterSetId x.id, eg Field.ppsSeqParameterSetId x.spsId,
    eu Field.entropyCodingModeFlag 1 x.entropyCodingMode,
    eu Field.bottomFieldPicOrderInFramePresentFlag 1 x.bottomField, eg Field.numSliceGroupsMinus1 x.numSliceGroups] ++
  when (x.numSliceGroups > 0)
    ([eg Field.sliceGroupMapType x.mapType] ++
      when (x.mapType = 0) (x.runLengths.mapIdx (fun i v => .ue Field.runLengthMinus1 v i)) ++
      when (x.mapType = 2)
        (x.rectangles.mapIdx (fun i r => [.ue Field.topLeft r.1 i, .ue Field.bottomRight r.2 i])).flatten ++
      when (x.mapType ∈ [3, 4, 5])
        [eu Field.sliceGroupChangeDirectionFlag 1 x.changeDirection,
          eg Field.sliceGroupChangeRateMinus1 x.changeRate] ++
      when (x.mapType = 6)
        ([eg Field.picSizeInMapUnitsMinus1 (x.sliceGroupIds.length - 1)] ++
          x.sliceGroupIds.mapIdx (fun i v => .u Field.sliceGroupId (Nat.clog 2 (x.numSliceGroups + 1)) v i))) ++
  [eg Field.numRefIdxL0DefaultActiveMinus1 x.numRefIdxL0, eg Field.numRefIdxL1DefaultActiveMinus1 x.numRefIdxL1,
    eu Field.weightedPredFlag 1 x.weightedPred, eu Field.weightedBipredIdc 2 x.weightedBipred,
    eg Field.picInitQpMinus26 x.picInitQp, eg Field.picInitQsMinus26 x.picInitQs,
    eg Field.chromaQpIndexOffset x.chromaQpOffset,
    eu Field.deblockingFilterControlPresentFlag 1 x.deblockingControl,
    eu Field.constrainedIntraPredFlag 1 x.constrainedIntra,
    eu Field.redundantPicCntPresentFlag 1 x.redundantPicCnt]

/-- Every value fits its coding, and the lists have the lengths their counts say. -/
def PpsSyntax.fits (x : PpsSyntax) : Prop :=
  (∀ e ∈ x.elems, e.fits) ∧ (x.mapType = 0 → x.runLengths.length = x.numSliceGroups + 1) ∧
    (x.mapType = 2 → x.rectangles.length = x.numSliceGroups) ∧ (x.mapType = 6 → x.sliceGroupIds ≠ [])

/-- The PPS part that R185 commits. -/
def PpsSyntax.part (x : PpsSyntax) : PpsPart :=
  { entropyCodingModeFlag := BitVec.ofNat 1 x.entropyCodingMode
    redundantPicCntPresentFlag := BitVec.ofNat 1 x.redundantPicCnt
    numSliceGroupsMinus1 := BitVec.ofNat 64 x.numSliceGroups
    sliceGroupMapType := if x.numSliceGroups > 0 then BitVec.ofNat 64 x.mapType else 0
    bottomFieldPicOrderInFramePresentFlag := BitVec.ofNat 1 x.bottomField
    sliceGroupChangeRateMinus1 :=
      if x.numSliceGroups > 0 ∧ x.mapType ∈ [3, 4, 5] then BitVec.ofNat 64 x.changeRate else 0
    numRefIdxL0DefaultActiveMinus1 := BitVec.ofNat 64 x.numRefIdxL0
    numRefIdxL1DefaultActiveMinus1 := BitVec.ofNat 64 x.numRefIdxL1
    weightedPredFlag := BitVec.ofNat 1 x.weightedPred
    weightedBipredIdc := BitVec.ofNat 2 x.weightedBipred
    deblockingFilterControlPresentFlag := BitVec.ofNat 1 x.deblockingControl }

/-- One entry of a prediction weight table; `cb` and `cr` are the chroma components 0 and 1 (R197). -/
structure WeightSyntax where
  lumaFlag : Nat
  luma : Nat
  lumaOffset : Nat
  chromaFlag : Nat
  cb : Nat
  cbOffset : Nat
  cr : Nat
  crOffset : Nat
deriving DecidableEq, Repr

/-- One memory_management_control_operation other than the last, with the arguments it can have (R198). -/
structure MmcoSyntax where
  op : Nat
  picNums : Nat
  longTermPicNum : Nat
  longTermFrameIdx : Nat
  maxFrameIdx : Nat
deriving DecidableEq, Repr

/-- The syntax elements of a slice header. `mods0` and `mods1` are the list modifications before the ending idc 3, each
with its argument; `mmcos` the marking operations before the ending 0. -/
structure SliceSyntax where
  firstMb : Nat
  sliceType : Nat
  ppsId : Nat
  colourPlane : Nat
  frameNum : Nat
  fieldPic : Nat
  bottomField : Nat
  idrPicId : Nat
  pocLsb : Nat
  deltaPocBottom : Nat
  deltaPoc0 : Nat
  deltaPoc1 : Nat
  redundantPicCnt : Nat
  directSpatial : Nat
  override : Nat
  numRefIdxL0 : Nat
  numRefIdxL1 : Nat
  modFlag0 : Nat
  mods0 : List (Nat × Nat)
  modFlag1 : Nat
  mods1 : List (Nat × Nat)
  lumaDenom : Nat
  chromaDenom : Nat
  weights0 : List WeightSyntax
  weights1 : List WeightSyntax
  adaptiveMarking : Nat
  mmcos : List MmcoSyntax
  noOutputPrior : Nat
  longTermRef : Nat
  cabacInit : Nat
  qpDelta : Nat
  spSwitch : Nat
  qsDelta : Nat
  deblockingIdc : Nat
  alphaOffset : Nat
  betaOffset : Nat
  changeCycleWidth : Nat
  changeCycle : Nat
deriving DecidableEq, Repr

/-- The slice class: `slice_type mod 5` (R191). -/
def SliceSyntax.cls (x : SliceSyntax) : Nat := x.sliceType % 5

/-- field_pic_flag, 0 when absent (R192). -/
def SliceSyntax.field (x : SliceSyntax) (S : SpsPart) : Nat := if S.frameMbsOnlyFlag = 0 then x.fieldPic else 0

/-- The flag and the modifications of reference list `L` (R195, R196). -/
def listModElems (L flag : Nat) (mods : List (Nat × Nat)) : List Elem :=
  [.u Field.refPicListModificationFlag 1 flag L] ++
  when (flag = 1)
    ((mods.mapIdx (fun n m =>
      [.ue Field.modificationOfPicNumsIdc m.1 L n] ++ when (m.1 ≤ 1) [.ue Field.absDiffPicNumMinus1 m.2 L n] ++
        when (m.1 = 2) [.ue Field.rplmLongTermPicNum m.2 L n])).flatten ++
      [.ue Field.modificationOfPicNumsIdc 3 L mods.length])

/-- The weight table is present (R197). -/
def hasWeightTable (P : PpsPart) (cls : Nat) : Bool :=
  (P.weightedPredFlag = 1 ∧ cls ∈ [0, 3]) ∨ (P.weightedBipredIdc = 1 ∧ cls = 1)

/-- ChromaArrayType is not 0 (R197). -/
def hasChromaWeights (S : SpsPart) : Bool := S.separateColourPlaneFlag ≠ 1 ∧ S.chromaFormatIdc ≠ 0

/-- Entry `i` of the weight table of list `L` (R197). -/
def WeightSyntax.elems (chroma : Bool) (L i : Nat) (w : WeightSyntax) : List Elem :=
  [.u Field.lumaWeightFlag 1 w.lumaFlag L i] ++
  when (w.lumaFlag = 1) [.ue Field.lumaWeight w.luma L i, .ue Field.lumaOffset w.lumaOffset L i] ++
  when chroma
    ([.u Field.chromaWeightFlag 1 w.chromaFlag L i] ++
      when (w.chromaFlag = 1)
        [.ue Field.chromaWeight w.cb L i 0, .ue Field.chromaOffset w.cbOffset L i 0,
          .ue Field.chromaWeight w.cr L i 1, .ue Field.chromaOffset w.crOffset L i 1])

/-- The prediction weight table (R197). -/
def SliceSyntax.weightElems (x : SliceSyntax) (S : SpsPart) : List Elem :=
  [eg Field.lumaLog2WeightDenom x.lumaDenom] ++
  when (hasChromaWeights S) [eg Field.chromaLog2WeightDenom x.chromaDenom] ++
  (x.weights0.mapIdx (WeightSyntax.elems (hasChromaWeights S) 0)).flatten ++
  when (x.cls = 1) (x.weights1.mapIdx (WeightSyntax.elems (hasChromaWeights S) 1)).flatten

/-- Operation number `n` of adaptive reference marking (R198). -/
def MmcoSyntax.elems (n : Nat) (m : MmcoSyntax) : List Elem :=
  [.ue Field.memoryManagementControlOperation m.op n] ++
  when (m.op ∈ [1, 3]) [.ue Field.differenceOfPicNumsMinus1 m.picNums n] ++
  when (m.op = 2) [.ue Field.mmcoLongTermPicNum m.longTermPicNum n] ++
  when (m.op ∈ [3, 6]) [.ue Field.longTermFrameIdx m.longTermFrameIdx n] ++
  when (m.op = 4) [.ue Field.maxLongTermFrameIdxPlus1 m.maxFrameIdx n]

/-- Decoded reference picture marking of a unit whose nal_ref_idc is not 0 (R198). -/
def SliceSyntax.markingElems (x : SliceSyntax) (t : Nat) : List Elem :=
  if t = 5 then [eu Field.noOutputOfPriorPicsFlag 1 x.noOutputPrior, eu Field.longTermReferenceFlag 1 x.longTermRef]
  else
    [eu Field.adaptiveRefPicMarkingModeFlag 1 x.adaptiveMarking] ++
    when (x.adaptiveMarking = 1)
      ((x.mmcos.mapIdx MmcoSyntax.elems).flatten ++ [.ue Field.memoryManagementControlOperation 0 x.mmcos.length])

/-- slice_group_change_cycle is present (R200). -/
def hasChangeCycle (P : PpsPart) : Bool :=
  P.numSliceGroupsMinus1.toNat > 0 ∧ 3 ≤ P.sliceGroupMapType.toNat ∧ P.sliceGroupMapType.toNat ≤ 5

/-- The elements in the order of R191 to R200, for a NAL unit with nal_ref_idc `nri` and type `t`. -/
def SliceSyntax.elems (x : SliceSyntax) (S : SpsPart) (P : PpsPart) (nri t : Nat) : List Elem :=
  [eg Field.firstMbInSlice x.firstMb, eg Field.sliceType x.sliceType, .derived Field.sliceTypeClass x.cls,
    eg Field.slicePicParameterSetId x.ppsId] ++
  when (S.separateColourPlaneFlag = 1) [eu Field.colourPlaneId 2 x.colourPlane] ++
  [eu Field.frameNum S.log2MaxFrameNum.toNat x.frameNum] ++
  when (S.frameMbsOnlyFlag = 0)
    ([eu Field.fieldPicFlag 1 x.fieldPic] ++ when (x.fieldPic = 1) [eu Field.bottomFieldFlag 1 x.bottomField]) ++
  when (t = 5) [eg Field.idrPicId x.idrPicId] ++
  when (S.picOrderCntType = 0)
    ([eu Field.picOrderCntLsb S.log2MaxPicOrderCntLsb.toNat x.pocLsb] ++
      when (P.bottomFieldPicOrderInFramePresentFlag = 1 ∧ x.field S = 0)
        [eg Field.deltaPicOrderCntBottom x.deltaPocBottom]) ++
  when (S.picOrderCntType = 1 ∧ S.deltaPicOrderAlwaysZeroFlag = 0)
    ([.ue Field.deltaPicOrderCnt x.deltaPoc0 0] ++
      when (P.bottomFieldPicOrderInFramePresentFlag = 1 ∧ x.field S = 0)
        [.ue Field.deltaPicOrderCnt x.deltaPoc1 1]) ++
  when (P.redundantPicCntPresentFlag = 1) [eg Field.redundantPicCnt x.redundantPicCnt] ++
  when (x.cls = 1) [eu Field.directSpatialMvPredFlag 1 x.directSpatial] ++
  when (x.cls ∈ [0, 1, 3])
    ([eu Field.numRefIdxActiveOverrideFlag 1 x.override] ++
      when (x.override = 1)
        ([eg Field.numRefIdxL0ActiveMinus1 x.numRefIdxL0] ++
          when (x.cls = 1) [eg Field.numRefIdxL1ActiveMinus1 x.numRefIdxL1]) ++
      listModElems 0 x.modFlag0 x.mods0 ++ when (x.cls = 1) (listModElems 1 x.modFlag1 x.mods1)) ++
  when (hasWeightTable P x.cls) (x.weightElems S) ++
  when (nri ≠ 0) (x.markingElems t) ++
  when (P.entropyCodingModeFlag = 1 ∧ x.cls ∈ [0, 1, 3]) [eg Field.cabacInitIdc x.cabacInit] ++
  [eg Field.sliceQpDelta x.qpDelta] ++
  when (x.cls = 3) [eu Field.spForSwitchFlag 1 x.spSwitch] ++
  when (x.cls ∈ [3, 4]) [eg Field.sliceQsDelta x.qsDelta] ++
  when (P.deblockingFilterControlPresentFlag = 1)
    ([eg Field.disableDeblockingFilterIdc x.deblockingIdc] ++
      when (x.deblockingIdc ≠ 1)
        [eg Field.sliceAlphaC0OffsetDiv2 x.alphaOffset, eg Field.sliceBetaOffsetDiv2 x.betaOffset]) ++
  when (hasChangeCycle P) [eu Field.sliceGroupChangeCycle x.changeCycleWidth x.changeCycle]

/-- The width of slice_group_change_cycle is the least `v` with `2^v · rate ≥ pic + rate` (R200). -/
def isChangeCycleWidth (S : SpsPart) (P : PpsPart) (v : Nat) : Prop :=
  let pic := (S.picWidthInMbsMinus1.toNat + 1) * (S.picHeightInMapUnitsMinus1.toNat + 1)
  let rate := P.sliceGroupChangeRateMinus1.toNat + 1
  pic + rate ≤ 2 ^ v * rate ∧ ∀ v' < v, 2 ^ v' * rate < pic + rate

/-- The lists have the lengths their counts say, and no entry before the ending one ends them (R194 to R198). -/
def SliceSyntax.listsFit (x : SliceSyntax) (P : PpsPart) : Prop :=
  (∀ m ∈ x.mods0 ++ x.mods1, m.1 ≠ 3) ∧ (∀ m ∈ x.mmcos, m.op ≠ 0) ∧
  (hasWeightTable P x.cls = true →
    x.weights0.length = (if x.override = 1 then x.numRefIdxL0 else P.numRefIdxL0DefaultActiveMinus1.toNat) + 1 ∧
    (x.cls = 1 →
      x.weights1.length = (if x.override = 1 then x.numRefIdxL1 else P.numRefIdxL1DefaultActiveMinus1.toNat) + 1))

/-- Every value fits its coding, the lists fit their counts, and the checks of R191 and R200 pass. -/
def SliceSyntax.fits (x : SliceSyntax) (S : SpsPart) (P : PpsPart) (nri t : Nat) : Prop :=
  (∀ e ∈ x.elems S P nri t, e.fits) ∧ x.sliceType ≤ 9 ∧ x.listsFit P ∧
    (hasChangeCycle P = true → isChangeCycleWidth S P x.changeCycleWidth ∧ x.changeCycleWidth ≤ 32)

end Sys2Proof.Safety
end

