-- ==== Sys2Proof/Safety/Layouts.lean ====
section
/-! DEFINITION. What the statements say of inputs and records in byte layouts: NAL units, OBUs, Opus packets and FlexFEC
payloads, written from the tables of spec/41_h264.md to spec/44_flexfec.md apart from the machine. -/

namespace Sys2Proof.Safety

open Sys2Proof.Machine

/-- The record that ends a failed description (R89). -/
def errRec (code : Byte) : Record := mkRec Field.error code.toNat

/-! ## H.264 -/

/-- `customize_subtype` = 1, video (R88). -/
def videoRec : Record := mkRec Field.customizeSubtype 1

/-- The three records of a NAL header byte at unit `u` (R161). -/
def nalHeaderRecs (u h : Nat) : List Record :=
  [mkRec Field.nalForbiddenZeroBit (h / 128) u, mkRec Field.nalRefIdc (h / 32 % 4) u, mkRec Field.nalUnitType (h % 32) u]

/-- The records of a unit without a parser, at unit `u` (R165, R167). -/
def opaqueRecs (u : Nat) (B : List Byte) : List Record :=
  nalHeaderRecs u (byteAt B 0) ++ [mkRec Field.nalLength B.length u, mkRec Field.notDecoded 2 u]

/-- The two records of an IDR unit (R168). -/
def keyframeRecs (t : Nat) : List Record :=
  if t = 5 then [mkRec Field.frameKey 1, mkRec Field.customizeKeyframe 1] else []

/-- The five records of an FU header byte `fh` in a payload of `n` bytes (R164). -/
def fuRecs (fh n : Nat) : List Record :=
  [mkRec Field.fuStartBit (fh / 128), mkRec Field.fuEndBit (fh / 64 % 2), mkRec Field.fuReservedBit (fh / 32 % 2),
    mkRec Field.fuNalUnitType (fh % 32), mkRec Field.fuFragmentLength (n - 2)]

/-- The command `i` reaches a slice header of type `t` with nal_ref_idc `nri` in `body`, after some records: in a NAL
unit (R167), or in the first fragment of an FU-A (R164). -/
inductive SliceInput (s : State) (len : Half) (t nri : Nat) : Instr → List Record → List Byte → Prop where
  | unit (h : Nat) (hh : byteAt (inputBytes s len) 0 = h) (hlen : 0 < len.toNat) (ht : h % 32 = t) (hs : t ∈ [1, 5])
      (hn : h / 32 % 4 = nri) :
      SliceInput s len t nri (.h264Nal len) (videoRec :: nalHeaderRecs 0 h ++ keyframeRecs t)
        (nalBody s.cfg.epbStrip ((inputBytes s len).drop 1))
  | fragment (h fh : Nat) (hh : byteAt (inputBytes s len) 0 = h) (hf : byteAt (inputBytes s len) 1 = fh)
      (hlen : 1 < len.toNat) (h28 : h % 32 = 28) (hstart : fh / 128 = 1) (ht : fh % 32 = t) (hs : t ∈ [1, 5])
      (hn : h / 32 % 4 = nri) :
      SliceInput s len t nri (.h264Payload len)
        (videoRec :: nalHeaderRecs 0 h ++ fuRecs fh len.toNat ++ keyframeRecs t)
        (nalBody s.cfg.epbStrip ((inputBytes s len).drop 2))

/-- The command `i` parses `body` as the elements `elems` after some records: an SPS, a PPS after an SPS, or a slice
header after both (R167, R180, R190). -/
inductive SyntaxInput (s : State) (len : Half) : Instr → List Record → List Byte → List Elem → Prop where
  | sps (h : Nat) (x : SpsSyntax) (hh : byteAt (inputBytes s len) 0 = h) (hlen : 0 < len.toNat) (ht : h % 32 = 7)
      (hx : x.fits) :
      SyntaxInput s len (.h264Nal len) (videoRec :: nalHeaderRecs 0 h)
        (nalBody s.cfg.epbStrip ((inputBytes s len).drop 1)) x.elems
  | pps (h : Nat) (x : PpsSyntax) (hh : byteAt (inputBytes s len) 0 = h) (hlen : 0 < len.toNat) (ht : h % 32 = 8)
      (hs : s.h264.spsValid = true) (hx : x.fits) :
      SyntaxInput s len (.h264Nal len) (videoRec :: nalHeaderRecs 0 h)
        (nalBody s.cfg.epbStrip ((inputBytes s len).drop 1)) x.elems
  | slice (t nri : Nat) (x : SliceSyntax) (i : Instr) (start : List Record) (body : List Byte)
      (hi : SliceInput s len t nri i start body) (hs : s.h264.spsValid = true) (hp : s.h264.ppsValid = true)
      (hx : x.fits s.h264.sps s.h264.pps nri t) :
      SyntaxInput s len i start body (x.elems s.h264.sps s.h264.pps nri t)

/-- A 16-bit size, most significant byte first (R64). -/
def be16Bytes (n : Nat) : List Byte := [BitVec.ofNat 8 (n / 256), BitVec.ofNat 8 n]

/-- The bytes a STAP-A carries for some NAL units (R163). -/
def stapBytes (nals : List (List Byte)) : List Byte := (nals.map (fun n => be16Bytes n.length ++ n)).flatten

/-- The records of the STAP-A's opaque units, numbered from 1 (R163). -/
def stapRecs (nals : List (List Byte)) : List Record :=
  (nals.mapIdx (fun k n => mkRec Field.naluSize n.length (k + 1) :: opaqueRecs (k + 1) n)).flatten

/-- The state after H264_NAL on the unit `B`, written to an empty IBUF. -/
def nalRun (s : State) (B : List Byte) : State :=
  match exec (.h264Nal (BitVec.ofNat 16 B.length)) { s with ibuf := Memory.writeBytes [] 0 B } with
  | .next t => t
  | .fault _ => s
  | .refused _ => s

/-- The state after H264_NAL on each of the units in turn. -/
def nalsRun (s : State) (nals : List (List Byte)) : State := nals.foldl nalRun s

/-- Every one of the units completes OK in its turn. -/
def NalsComplete (s : State) (nals : List (List Byte)) : Prop :=
  ∀ k < nals.length, (nalsRun s (nals.take (k + 1))).status = 0

/-- The record at unit `k`; an error record keeps unit 0 (R89, R90). -/
def atUnit (k : Nat) (r : Record) : Record := if r.field = Field.error then r else { r with u := BitVec.ofNat 32 k }

/-- What the unit `B` records as number `k` of a STAP-A: its size, and at unit `k` what H264_NAL records of it after the
subtype (R163). -/
def stapUnitRecs (s : State) (k : Nat) (B : List Byte) : List Record :=
  mkRec Field.naluSize B.length k ::
    (((nalRun s B).dq.getLast?.map (fun d => d.records.drop 1)).getD []).map (atUnit k)

/-- What the units record as numbers `k`, `k + 1`, … of a STAP-A, each in the state that those before it leave. -/
def stapUnitsRecs (s : State) (k : Nat) (nals : List (List Byte)) : List Record :=
  match nals with
  | [] => []
  | B :: rest => stapUnitRecs s k B ++ stapUnitsRecs (nalRun s B) (k + 1) rest

/-- The writer's side of R136: a 0x03 before each byte below 4 that follows two zero bytes; `z` zeros precede. -/
def epbInsertFrom (z : Nat) (B : List Byte) : List Byte :=
  match B with
  | [] => []
  | x :: rest =>
    if z ≥ 2 ∧ x.toNat ≤ 3 then 0x03 :: x :: epbInsertFrom (if x = 0x00 then 1 else 0) rest
    else x :: epbInsertFrom (if x = 0x00 then z + 1 else 0) rest

/-! ## AV1 -/

/-- The value of leb128 bytes, the first the least significant (R134). -/
def leb128Value (l : List Byte) : Nat := (l.mapIdx (fun i b => b.toNat % 128 * 128 ^ i)).sum

/-- The five records of an aggregation header byte (R231), and the keyframe tag (R254). -/
def aggRecs (a : Nat) : List Record :=
  [mkRec Field.aggZ (a / 128), mkRec Field.aggY (a / 64 % 2), mkRec Field.aggW (a / 16 % 4), mkRec Field.aggN (a / 8 % 2),
    mkRec Field.aggReserved (a % 8)] ++ if a / 8 % 2 = 1 then [mkRec Field.customizeKeyframe 1] else []

/-- The five records of an OBU header byte at unit `u` (R235). -/
def obuHeaderRecs (u h : Nat) : List Record :=
  [mkRec Field.obuForbiddenBit (h / 128) u, mkRec Field.obuType (h / 8 % 16) u,
    mkRec Field.obuExtensionFlag (h / 4 % 2) u, mkRec Field.obuHasSizeField (h / 2 % 2) u,
    mkRec Field.obuReserved1bit (h % 2) u]

/-- `l` is one leb128 value: every byte but the last has its top bit set, and at most 8 bytes count (R134). -/
def IsLeb128 (l : List Byte) : Prop :=
  1 ≤ l.length ∧ l.length ≤ 8 ∧ (∀ i < l.length - 1, 128 ≤ byteAt l i) ∧
    (l.length = 8 ∨ byteAt l (l.length - 1) < 128)

/-- `l` is the start of a leb128 value that goes on (R134). -/
def IsLeb128Start (l : List Byte) : Prop := l.length < 8 ∧ ∀ b ∈ l, 128 ≤ b.toNat

/-- An OBU: header byte, extension byte and leb128 size where the header says so, payload, and the sequence header that
the payload of type 1 starts with (R235 to R237). -/
structure Obu where
  header : Byte
  extension : Byte
  size : List Byte
  payload : List Byte
  sequence : Option SeqSyntax
deriving DecidableEq, Repr

/-- obu_extension_flag (R235). -/
def Obu.hasExtension (o : Obu) : Bool := o.header.toNat / 4 % 2 = 1

/-- obu_has_size_field (R235). -/
def Obu.hasSize (o : Obu) : Bool := o.header.toNat / 2 % 2 = 1

/-- The header byte, and the extension byte if there is one. -/
def Obu.head (o : Obu) : List Byte := o.header :: if o.hasExtension then [o.extension] else []

/-- The OBU's bytes. -/
def Obu.bytes (o : Obu) : List Byte := o.head ++ (if o.hasSize then o.size else []) ++ o.payload

/-- The size field, if there is one, says how long the payload is (R236). -/
def Obu.sizeFits (o : Obu) : Prop := o.hasSize = true → IsLeb128 o.size ∧ leb128Value o.size = o.payload.length

/-- The OBU is whole: its size fits, and its payload starts with a sequence header if and only if its type is 1. -/
def Obu.whole (o : Obu) : Prop :=
  o.sizeFits ∧
    match o.sequence with
    | none => o.header.toNat / 8 % 16 ≠ 1
    | some x =>
      o.header.toNat / 8 % 16 = 1 ∧ x.fits ∧ BitsAt o.payload (8 * o.payload.length) 0 (elemBits x.elems)

/-- The payload of type 1 ends inside the element of its sequence header that follows `front` (R237, R127). -/
def Obu.cutsSequence (o : Obu) (front : List Elem) : Prop :=
  o.sizeFits ∧ o.header.toNat / 8 % 16 = 1 ∧ ∃ x : SeqSyntax, x.fits ∧ CutAfter o.payload x.elems front

/-- The records of the header and the extension at unit `u` (R235). -/
def Obu.headRecs (u : Nat) (o : Obu) : List Record :=
  obuHeaderRecs u o.header.toNat ++
    if o.hasExtension then
      [mkRec Field.temporalId (o.extension.toNat / 32) u, mkRec Field.spatialId (o.extension.toNat / 8 % 4) u,
        mkRec Field.extensionHeaderReserved3bits (o.extension.toNat % 8) u]
    else []

/-- The record of the size field (R236). -/
def Obu.sizeRecs (u : Nat) (o : Obu) : List Record :=
  if o.hasSize then [mkRec Field.obuSize (leb128Value o.size) u] else []

/-- The records up to the payload at unit `u` (R235, R236). -/
def Obu.extentRecs (u : Nat) (o : Obu) : List Record :=
  o.headRecs u ++ o.sizeRecs u ++ [mkRec Field.obuPayloadLength o.payload.length u]

/-- The records of a whole OBU at unit `u` (R235 to R237). -/
def Obu.recs (u : Nat) (o : Obu) : List Record :=
  o.extentRecs u ++
    match o.sequence with
    | none => if o.payload.length > 0 then [mkRec Field.notDecoded 4 u] else []
    | some x => x.elems.map (Elem.recordAt u)

/-- The bytes `E` end inside the header or the size field of their OBU, after the records `recs` at unit `u` (R235,
R236). -/
def ObuHeadCut (E : List Byte) (u : Nat) (recs : List Record) : Prop :=
  ∃ o : Obu,
    (o.hasExtension = true ∧ E = [o.header] ∧ recs = obuHeaderRecs u o.header.toNat) ∨
    (o.hasSize = true ∧ IsLeb128Start o.size ∧ E = o.head ++ o.size ∧ recs = o.headRecs u)

/-- A whole OBU cannot be read from the bytes `E`, after the records `recs` at unit `u`: its header or its size field is
cut, its size passes the bytes, or its size cuts its sequence header, whatever bytes follow (R235 to R237). -/
def ObuCut (E : List Byte) (u : Nat) (recs : List Record) : Prop :=
  ObuHeadCut E u recs ∨
    ∃ o : Obu,
      (o.hasSize = true ∧ IsLeb128 o.size ∧ o.payload.length < leb128Value o.size ∧ E = o.bytes ∧
        recs = o.headRecs u ++ o.sizeRecs u) ∨
      ∃ (front : List Elem) (rest : List Byte), o.cutsSequence front ∧ (o.hasSize = true ∨ rest = []) ∧
        E = o.bytes ++ rest ∧ recs = o.extentRecs u ++ front.map (Elem.recordAt u)

/-- An OBU element of AV1_PAYLOAD: the rest of an OBU of the packet before, a whole OBU, or the start of one that the
next packet continues; the bytes `rest` after an OBU's own size are ignored (R232, R236). -/
inductive Av1Element where
  | continuation (bytes : List Byte)
  | whole (o : Obu) (rest : List Byte)
  | start (o : Obu) (rest : List Byte)
deriving DecidableEq, Repr

/-- The element's bytes. -/
def Av1Element.bytes : Av1Element → List Byte
  | .continuation b => b
  | .whole o rest => o.bytes ++ rest
  | .start o rest => o.bytes ++ rest

/-- The records of the element at unit `u` (R232, R237). -/
def Av1Element.recs (u : Nat) : Av1Element → List Record
  | .continuation _ => [mkRec Field.notDecoded 5 u]
  | .whole o _ => o.recs u
  | .start o _ => o.extentRecs u ++ [mkRec Field.notDecoded 5 u]

/-- The element can be number `i` of `n` in a packet with the flags `Z` and `Y`: the first of a packet with Z = 1 is a
continuation, and of the others the last of a packet with Y = 1 is cut, so that its size may say more than is there (R232,
R236). -/
def Av1Element.standsAt (Z Y n i : Nat) : Av1Element → Prop
  | .continuation b => i = 0 ∧ Z = 1 ∧ b ≠ []
  | .whole o rest => ¬ (i = 0 ∧ Z = 1) ∧ ¬ (i + 1 = n ∧ Y = 1) ∧ o.whole ∧ (o.hasSize = true ∨ rest = [])
  | .start o rest =>
    ¬ (i = 0 ∧ Z = 1) ∧ (i + 1 = n ∧ Y = 1) ∧
      (o.sizeFits ∨ IsLeb128 o.size ∧ o.payload.length < leb128Value o.size ∧ rest = []) ∧
      (o.hasSize = true ∨ rest = [])

/-- The elements are the first of the `n` of a packet with the flags `Z` and `Y`. -/
def ElementsStand (Z Y n : Nat) (els : List Av1Element) : Prop :=
  ∀ (i : Nat) (e : Av1Element), els[i]? = some e → e.standsAt Z Y n i

/-- An element with the leb128 bytes of its length before it (R232). -/
structure PrefixedElement where
  prefixBytes : List Byte
  element : Av1Element
deriving DecidableEq, Repr

/-- The prefix says how long the element is. -/
def PrefixedElement.fits (p : PrefixedElement) : Prop :=
  IsLeb128 p.prefixBytes ∧ leb128Value p.prefixBytes = p.element.bytes.length

/-- The bytes of prefixed elements. -/
def prefixedBytes (l : List PrefixedElement) : List Byte := (l.map (fun p => p.prefixBytes ++ p.element.bytes)).flatten

/-- The records of prefixed elements, numbered from 0 (R232). -/
def prefixedRecs (l : List PrefixedElement) : List Record :=
  (l.mapIdx (fun u p => mkRec Field.obuElementLength (leb128Value p.prefixBytes) u :: p.element.recs u)).flatten

/-! ## Opus -/

/-- The table of R282, a row for each configuration: mode, bandwidth, frame size in 0.1 ms. -/
def opusTable : List (Nat × Nat × Nat) :=
  [(0, 0, 100), (0, 0, 200), (0, 0, 400), (0, 0, 600), (0, 1, 100), (0, 1, 200), (0, 1, 400), (0, 1, 600),
   (0, 2, 100), (0, 2, 200), (0, 2, 400), (0, 2, 600), (1, 3, 100), (1, 3, 200), (1, 4, 100), (1, 4, 200)] ++
  [(2, 0, 25), (2, 0, 50), (2, 0, 100), (2, 0, 200), (2, 2, 25), (2, 2, 50), (2, 2, 100), (2, 2, 200),
   (2, 3, 25), (2, 3, 50), (2, 3, 100), (2, 3, 200), (2, 4, 25), (2, 4, 50), (2, 4, 100), (2, 4, 200)]

/-- The records of a TOC byte: subtype audio, the TOC fields, the configuration (R280 to R282). -/
def opusTocRecs (t : Nat) : List Record :=
  [mkRec Field.customizeSubtype 0, mkRec Field.tocConfig (t / 8), mkRec Field.tocStereo (t / 4 % 2),
    mkRec Field.tocCode (t % 4), mkRec Field.opusMode (opusTable.getD (t / 8) (0, 0, 0)).1,
    mkRec Field.opusBandwidth (opusTable.getD (t / 8) (0, 0, 0)).2.1,
    mkRec Field.opusFrameSizeX10 (opusTable.getD (t / 8) (0, 0, 0)).2.2]

/-- The frame records of a layout `(offset, length)` (R291). -/
def opusFrameRecs (frames : List (Nat × Nat)) : List Record :=
  mkRec Field.frameCount frames.length ::
    (frames.mapIdx (fun i f => [mkRec Field.frameOffset f.1 i, mkRec Field.frameLength f.2 i])).flatten

/-- The records of a code-3 frame-count byte (R287). -/
def opusCountRecs (fc : Nat) : List Record :=
  [mkRec Field.frameCountVbr (fc / 128), mkRec Field.frameCountPaddingFlag (fc / 64 % 2),
    mkRec Field.frameCountM (fc % 64)]

/-- Byte `pos` follows the padding-length bytes of the packet `S`, and they say `P` padding bytes (R288). -/
def OpusPaddingIs (S : List Byte) (pos P : Nat) : Prop :=
  (byteAt S 1 / 64 % 2 = 0 ∧ pos = 2 ∧ P = 0) ∨
  (byteAt S 1 / 64 % 2 = 1 ∧ pos ≤ S.length ∧
    ∃ k, pos = 3 + k ∧ (∀ i < k, byteAt S (2 + i) = 255) ∧ byteAt S (2 + k) < 255 ∧ P = 254 * k + byteAt S (2 + k))

/-- A frame length of at most 1275 as one or two bytes (R283). -/
def opusLengthBytes (l : Nat) : List Byte :=
  if l < 252 then [BitVec.ofNat 8 l] else [BitVec.ofNat 8 (252 + l % 4), BitVec.ofNat 8 ((l - 252) / 4)]

/-- Frames of the given lengths laid end to end from `o` (R289, R290). -/
def layout (o : Nat) (lens : List Nat) : List (Nat × Nat) := lens.mapIdx (fun i l => (o + (lens.take i).sum, l))

/-! ## FlexFEC -/

/-- The store after `store_put` (R311). -/
def putEntry (cap : Nat) (st : Store) (key : Half) (b : List Byte) : Store :=
  if key ∈ st.map (·.key) then st.filter (fun e => e.key ≠ key) ++ [⟨key, b⟩]
  else if st.length = cap then st.drop 1 ++ [⟨key, b⟩]
  else st ++ [⟨key, b⟩]

/-- The eviction record of `store_put` (R311). -/
def evictRecs (cap : Nat) (st : Store) (key ev : Half) : List Record :=
  if key ∈ st.map (·.key) ∨ st.length ≠ cap then [] else (st.take 1).map (fun e => mkRec ev e.key.toNat)

/-- How many mask tiers `F` has: the K bits are bits 144 and 160 of the payload (R317, R318). -/
def fecTiers (F : List Byte) : Nat := if streamBit F 144 then 1 else if streamBit F 160 then 2 else 3

/-- The header length of an R0F0 payload (R318). -/
def fecHeaderLen (F : List Byte) : Nat := [0, 20, 24, 32].getD (fecTiers F) 0

/-- Mask bit `o`: tier 1 holds 0 to 14, tier 2 holds 15 to 45, tier 3 holds 46 to 108 (R317, R318). -/
def fecMaskBit (F : List Byte) (o : Nat) : Bool :=
  if o < 15 then streamBit F (145 + o) else if o < 46 then streamBit F (161 + (o - 15)) else streamBit F (193 + (o - 46))

/-- The protected sequence numbers, in offset order, modulo 2^16 (R319). -/
def fecSeqs (F : List Byte) : List Half :=
  ((List.range ([0, 15, 46, 109].getD (fecTiers F) 0)).filter (fecMaskBit F)).map
    (fun o => BitVec.ofNat 16 (beAt F 16 2 + o))

/-- The K and mask records of tiers 0 to `n − 1` (R317, R318). -/
def fecTierRecs (F : List Byte) (n : Nat) : List Record :=
  [mkRec Field.fecK (bitsSum F 144 1) 0 0, mkRec Field.fecMaskTier (bitsSum F 145 15) 0 0] ++
  (if n ≥ 2 then [mkRec Field.fecK (bitsSum F 160 1) 0 1, mkRec Field.fecMaskTier (bitsSum F 161 31) 0 1] else []) ++
  (if n ≥ 3 then [mkRec Field.fecK (bitsSum F 192 1) 0 2, mkRec Field.fecMaskTier (bitsSum F 193 63) 0 2] else [])

/-- The records of `parse_mask` up to the header length (R317, R318). -/
def fecMaskRecs (F : List Byte) : List Record :=
  [mkRec Field.fecSnBase (beAt F 16 2)] ++ fecTierRecs F (fecTiers F) ++ [mkRec Field.fecHeaderLength (fecHeaderLen F)]

/-- The key of the payload: the last protected sequence number (R319). -/
def fecKeyOf (F : List Byte) : Half := (fecSeqs F).getLastD 0

/-- The records of the protected list and the key (R319). -/
def fecSeqRecs (F : List Byte) : List Record :=
  (fecSeqs F).mapIdx (fun n q => mkRec Field.fecProtectedSeq q.toNat 0 n) ++ [mkRec Field.fecKey (fecKeyOf F).toNat]

/-- The subtype and variant records of a FEC payload (R312, R313). -/
def fecVariantRecs (F : List Byte) : List Record :=
  [mkRec Field.customizeSubtype 3, mkRec Field.fecR (byteAt F 0 / 128), mkRec Field.fecF (byteAt F 0 / 64 % 2)]

/-- The records of `common_r0` (R315). -/
def fecCommonRecs (F : List Byte) : List Record :=
  [mkRec Field.fecPRecovery (byteAt F 0 / 32 % 2), mkRec Field.fecXRecovery (byteAt F 0 / 16 % 2),
    mkRec Field.fecCcRecovery (byteAt F 0 % 16), mkRec Field.fecMRecovery (byteAt F 1 / 128),
    mkRec Field.fecPtRecovery (byteAt F 1 % 128), mkRec Field.fecLengthRecovery (beAt F 2 2),
    mkRec Field.fecTsRecovery (beAt F 4 4), mkRec Field.fecSsrcCount (byteAt F 8), mkRec Field.fecReserved (beAt F 9 3),
    mkRec Field.fecProtectedSsrc (beAt F 12 4)]

/-- The records of a retransmission header (R314). -/
def fecRtxRecs (F : List Byte) : List Record :=
  [mkRec Field.rtxP (byteAt F 0 / 32 % 2), mkRec Field.rtxX (byteAt F 0 / 16 % 2), mkRec Field.rtxCc (byteAt F 0 % 16),
    mkRec Field.rtxM (byteAt F 1 / 128), mkRec Field.rtxPt (byteAt F 1 % 128),
    mkRec Field.rtxSequenceNumber (beAt F 2 2), mkRec Field.rtxTimestamp (beAt F 4 4), mkRec Field.rtxSsrc (beAt F 8 4),
    mkRec Field.repairPayloadLength (F.length - 12)]

/-- The records of an R0F1 header after `common_r0` (R316). -/
def fecFixedRecs (F : List Byte) : List Record :=
  [mkRec Field.fecSnBase (beAt F 16 2), mkRec Field.fecL (byteAt F 18), mkRec Field.fecD (byteAt F 19),
    mkRec Field.fecHeaderLength 20, mkRec Field.repairPayloadLength (F.length - 20)]

/-- The records of an R0F0 payload before its recovery, in a machine with FEC store `st` (R312, R321). -/
def fecStoredRecs (cap : Nat) (st : Store) (F : List Byte) : List Record :=
  fecVariantRecs F ++ fecCommonRecs F ++ fecMaskRecs F ++ fecSeqRecs F ++
    [mkRec Field.repairPayloadLength (F.length - fecHeaderLen F)] ++ evictRecs cap st (fecKeyOf F) Field.fecEvicted

/-- Exclusive or of a byte taken from each packet of a group. -/
def xorOver (group : List (List Byte)) (f : List Byte → Byte) : Byte := (group.map f).foldl (· ^^^ ·) 0

/-- `F` is the R0F0 payload that protects the packets of `group`: its header fields and its repair payload are the
bytewise exclusive ors of theirs, R and F are 0, and every packet's payload fits (R315, R323, R324, R331). -/
def IsFecOf (F : List Byte) (group : List (List Byte)) : Prop :=
  byteAt F 0 / 64 = 0 ∧
  byteAt F 0 % 64 = (xorOver group (fun m => m.getD 0 0)).toNat % 64 ∧
  F.getD 1 0 = xorOver group (fun m => m.getD 1 0) ∧
  F.getD 2 0 = xorOver group (fun m => BitVec.ofNat 8 ((m.length - 12) / 256)) ∧
  F.getD 3 0 = xorOver group (fun m => BitVec.ofNat 8 (m.length - 12)) ∧
  (∀ q < 4, F.getD (4 + q) 0 = xorOver group (fun m => m.getD (4 + q) 0)) ∧
  ∀ m ∈ group, ∀ j < m.length - 12,
    fecHeaderLen F + j < F.length ∧ F.getD (fecHeaderLen F + j) 0 = xorOver group (fun p => p.getD (12 + j) 0)

end Sys2Proof.Safety
end

