-- ==== Sys2Proof/WellFormed.lean ====
section
/-! DEFINITION. Which commands have operands the spec calls legal (spec/30_encoding.md R81, R98). LEN is a 16-bit
field and every value of it is legal; the one operand with a narrower range is BR_READ's N. (ARG > 8·LEN, the other
condition of R81, is about a register: `execBrInit` judges it.) -/

namespace Sys2Proof

/-- The operand conditions of R81 that the command word alone decides: BR_READ has N ≤ 64. -/
def Instr.wellFormed : Instr → Bool
  | .brInit _ => true
  | .brRead n => decide (n.toNat ≤ Config.brMaxRead)
  | .brReadByte => true
  | .brReadUe => true
  | .h264Payload _ => true
  | .h264Nal _ => true
  | .av1Payload _ => true
  | .av1Obus _ => true
  | .av1Leb128 _ => true
  | .opusPacket _ => true
  | .fecMedia _ => true
  | .fecPacket _ => true
  | .fecMask _ => true

end Sys2Proof
end

