-- ==== Sys2Proof/Certificates/Slice0/Obligations.lean ====
section
/-! DEFINITION. The statements for the provers. `finished s opc code recs` is the state after a parser command that
changed nothing but STATUS, DQ and DROP_CNT (R362, R39); a statement that names another change writes it out. -/

open Sys2Proof Sys2Proof.Machine Sys2Proof.Safety

/-! ## Words and steps -/

/-- R80, R85: decoding inverts encoding, with every operand at every value, and only the encoding of a command decodes to
it. That a BR_READ word with N from 65 to 255, which R81 calls illegal, decodes to a command at all is the model's
choice (log entry 6); the command then writes STATUS = 6, as R81 says. -/
def Obligations.DecodeInvertsEncode : Prop :=
  ∀ i : Instr, decode (encode i) = .ok i ∧ ∀ w : Word, decode w = .ok i → w = encode i

/-- R80, R85, R101: the words of the spec's examples, one for each opcode, decode to their commands. -/
def Obligations.ExampleWordsDecode : Prop :=
  decode 0x00040001 = .ok (.brInit 4) ∧ decode 0x00000302 = .ok (.brRead 3) ∧ decode 0x00000003 = .ok .brReadByte ∧
  decode 0x00000004 = .ok .brReadUe ∧ decode 0x00020010 = .ok (.h264Payload 2) ∧
  decode 0x00080011 = .ok (.h264Nal 8) ∧ decode 0x00030020 = .ok (.av1Payload 3) ∧
  decode 0x000D0021 = .ok (.av1Obus 13) ∧ decode 0x00020022 = .ok (.av1Leb128 2) ∧
  decode 0x00150030 = .ok (.opusPacket 21) ∧ decode 0x000F0040 = .ok (.fecMedia 15) ∧
  decode 0x00170041 = .ok (.fecPacket 23) ∧ decode 0x00140042 = .ok (.fecMask 20)

/-- R364: an illegal word (R81) writes STATUS = 6 and nothing else. -/
def Obligations.IllegalWordWritesStatusOnly : Prop :=
  ∀ (w : Word) (s : State), IllegalWord w s.arg → command w s = .next { s with status := 6 }

/-- R81, R361: every word that R81 does not call illegal decodes to the command of its opcode with its N and LEN, and
that command completes with one of the codes R361 allows it, never with 6. -/
def Obligations.LegalWordCompletes : Prop :=
  ∀ (w : Word) (s : State), ¬ IllegalWord w s.arg →
    ∃ i t, decode w = .ok i ∧ i.wellFormed = true ∧ i.opcode.toNat = w.toNat % 256 ∧
      i.nOperand.toNat = w.toNat / 256 % 256 ∧ i.lenOperand.toNat = w.toNat / 65536 ∧
      command w s = .next t ∧ t.status ∈ statusCodes i

/-- R80, R70, R81: with the write of a word to CMD at the head of the pending host actions, the step takes that action off
the queue and runs the command the word decodes to, or, for an illegal word, writes STATUS = 6; and nothing else. The
host queue is the model's (log entry 1). -/
def Obligations.StepRunsDecodedCommand : Prop :=
  ∀ (s : State) (w : Word) (rest : List HostAction), s.host = .regWrite 0x000 4 w :: rest →
    (∀ i : Instr, decode w = .ok i → i.wellFormed = true → step s = exec i { s with host := rest }) ∧
    (IllegalWord w s.arg → step s = .next { s with host := rest, status := 6 })

/-- R62, R82: a write to ARG stores the value, a write to a read-only register is ignored, and an access that is
sub-word, misaligned, reserved or unmapped has no move. -/
def Obligations.RegisterWrites : Prop :=
  ∀ (s : State) (addr width : Nat) (v : Word) (rest : List HostAction), s.host = .regWrite addr width v :: rest →
    (width = 4 ∧ addr = 0x004 → step s = .next { s with host := rest, arg := v }) ∧
    (width = 4 ∧ addr % 4 = 0 ∧ 0x008 ≤ addr ∧ addr ≤ 0x030 → step s = .next { s with host := rest }) ∧
    (width ≠ 4 ∨ addr % 4 ≠ 0 ∨ 0x030 < addr → step s = .refused (.registerAccess addr width))

/-- R82, R66: what each register reads as; a read changes no register (R68) and gives the host the value. The model's own:
the field `reply` (log entry 3), and DQ_COUNT modulo 2^32 where 2^32 or more descriptions wait (log entry 18). -/
def Obligations.RegisterReads : Prop :=
  ∀ (s : State) (addr width : Nat) (rest : List HostAction), s.host = .regRead addr width :: rest →
    (width = 4 → ∀ v : Word,
      (addr, v.toNat) ∈ [(0x000, 0), (0x004, s.arg.toNat), (0x008, s.status.toNat), (0x00C, s.result.toNat % 2 ^ 32),
        (0x010, s.result.toNat / 2 ^ 32), (0x014, s.result2.toNat), (0x018, s.brPos % 2 ^ 20),
        (0x01C, s.brBitlen % 2 ^ 20), (0x020, s.dropCnt.toNat), (0x024, s.dq.length % 2 ^ 32),
        (0x028, s.h264.spsValid.toNat + 2 * s.h264.ppsValid.toNat), (0x02C, s.media.length % 2 ^ 32),
        (0x030, s.fec.length % 2 ^ 32)] →
      step s = .next { s with host := rest, reply := .word v }) ∧
    (width ≠ 4 ∨ addr % 4 ≠ 0 ∨ 0x030 < addr → step s = .refused (.registerAccess addr width))

/-- R61, R69: a write inside IBUF sets exactly its bytes and nothing else, by index or by host address; a write past
IBUF, or at a host address outside the window, has no move. The model's own: the queue of pending actions (log entry 1),
that no move is a refusal (log entry 4), the canonical form `wf` of IBUF (log entry 9), and that a write can be given by
byte address, which at a register's address is refused (log entry 13). -/
def Obligations.InputBufferWrites : Prop :=
  ∀ (s : State) (addr : Nat) (v : List Byte) (rest : List HostAction), s.ibuf.wf →
    (s.host = .memWrite addr v :: rest → addr + v.length ≤ 65536 →
      ∃ m : Memory, m.wf ∧ step s = .next { s with host := rest, ibuf := m } ∧
        (∀ i < v.length, m.read (addr + i) = v.getD i 0) ∧
        ∀ a, a < addr ∨ addr + v.length ≤ a → m.read a = s.ibuf.read a) ∧
    (s.host = .memWrite addr v :: rest → 65536 < addr + v.length → step s = .refused (.ibufWrite addr v.length)) ∧
    (s.host = .busWrite addr v :: rest → 0x10000 ≤ addr → addr ≤ 0x1FFFF →
      step s = step { s with host := .memWrite (addr - 0x10000) v :: rest }) ∧
    (s.host = .busWrite addr v :: rest → addr < 0x10000 ∨ 0x1FFFF < addr → step s = .refused (.busAddress addr))

/-- R63: PopDesc removes and returns the head of DQ; with DQ empty it returns none and changes nothing. -/
def Obligations.PopDescTakesTheHead : Prop :=
  ∀ (s : State) (rest : List HostAction), s.host = .popDesc :: rest →
    (∀ d ds, s.dq = d :: ds → step s = .next { s with host := rest, dq := ds, reply := .desc (some d) }) ∧
    (s.dq = [] → step s = .next { s with host := rest, reply := .desc none })

/-- R48, R390: the reset action sets every piece of state to the table's value and keeps the parameters; the state the
machine starts from has the same values. That the host's later actions stay pending is the model's (log entry 12). -/
def Obligations.ResetSetsTheTable : Prop :=
  (∀ (s : State) (rest : List HostAction), s.host = .reset :: rest →
    step s = .next
      { ibuf := [], arg := 0, status := 0, result := 0, result2 := 0, brData := [], brBitlen := 0, brPos := 0, dq := [],
        dropCnt := 0, h264 := ⟨false, false, SpsPart.reset, PpsPart.reset⟩, media := [], fec := [], cfg := s.cfg,
        host := rest, reply := .none }) ∧
  (∀ a, State.reset.ibuf.read a = 0) ∧
  SpsPart.reset = ⟨0, 0, 0, 0, 0, 0, 0, 0, 0⟩ ∧ PpsPart.reset = ⟨0, 0, 0, 0, 0, 0, 0, 0, 0, 0, 0⟩ ∧
  ∃ p, State.reset = ⟨[], 0, 0, 0, 0, [], 0, 0, [], 0, ⟨false, false, SpsPart.reset, PpsPart.reset⟩, [], [], p, [], .none⟩

/-- R391: with no action of the host pending the block is idle and its state does not change. That an idle block still
steps is the model's (log entry 5). -/
def Obligations.IdleKeepsTheState : Prop := ∀ s : State, s.host = [] → step s = .next s

/-- R101, R394: the pseudo-instruction `PARSE` writes the bytes and issues the command, which then reads exactly those
bytes: after two steps the state is the command's result on an IBUF that starts with them. The queue of pending actions
and the canonical form `wf` of IBUF are the model's (log entries 1 and 9). -/
def Obligations.ParseReadsTheBytesWritten : Prop :=
  ∀ (s : State) (mk : Half → Instr) (bytes : List Byte),
    (∀ l, (mk l).lenOperand = l) → s.ibuf.wf → bytes.length ≤ 65535 → s.host = asmParse mk bytes →
    ∃ t, step s = .next t ∧ inputBytes t (BitVec.ofNat 16 bytes.length) = bytes ∧
      step t = exec (mk (BitVec.ofNat 16 bytes.length)) { t with host := [] }

/-! ## Invariants -/

/-- Reset establishes the invariants of R32, R39, R40, R42, R44, R45, and the canonical form of IBUF, which is the
model's (log entry 9). -/
def Obligations.InvHoldsAtReset : Prop := Inv State.reset

/-- R32, R39, R40, R42, R44, R45, R327 and the canonical form of IBUF (the model's, log entry 9): every step from every
state that meets the invariants leads to a state that meets them. -/
def Obligations.EveryStepKeepsInv : Prop := ∀ s t : State, Inv s → step s = .next t → Inv t

/-! ## Every command -/

/-- R360, R361: every command, with any operand and in any state, completes: with STATUS = 6 where R81 calls its operands
illegal, and otherwise with a status code of its row of R361, none of which is 6. -/
def Obligations.EveryCommandCompletes : Prop :=
  ∀ (i : Instr) (s : State), ∃ t, exec i s = .next t ∧
    (((∃ n, i = .brRead n ∧ 64 < n.toNat) ∨ ∃ len, i = .brInit len ∧ 8 * len.toNat < s.arg.toNat) → t.status = 6) ∧
    (¬ ((∃ n, i = .brRead n ∧ 64 < n.toNat) ∨ ∃ len, i = .brInit len ∧ 8 * len.toNat < s.arg.toNat) →
      t.status ∈ statusCodes i)

/-- R38, R68, R360: a command reads no IBUF byte outside `IBUF[0..LEN)` and writes none: with the other bytes changed
in any way, it does the same to the rest of the state. -/
def Obligations.CommandsReadOnlyTheirInput : Prop :=
  ∀ (i : Instr) (s : State) (m : Memory), (∀ a < i.lenOperand.toNat, m.read a = s.ibuf.read a) →
    ∃ t, exec i s = .next t ∧ t.ibuf = s.ibuf ∧ exec i { s with ibuf := m } = .next { t with ibuf := m }

/-- R124: a BitReader command pushes no description and neither reads nor writes ParserState, the stores, DQ, DROP_CNT
or RESULT2, and one that fails writes only STATUS. -/
def Obligations.BitReaderCommandsFrame : Prop :=
  ∀ (i : Instr) (s : State), isParser i = false →
    ∃ st r D L p, exec i s = .next { s with status := st, result := r, brData := D, brBitlen := L, brPos := p } ∧
      (st ≠ 0 → r = s.result ∧ D = s.brData ∧ L = s.brBitlen ∧ p = s.brPos) ∧
      ((∀ len, i ≠ .brInit len) → D = s.brData ∧ L = s.brBitlen ∧ s.brPos ≤ p) ∧
      ∀ h m f q c r2, exec i { s with h264 := h, media := m, fec := f, dq := q, dropCnt := c, result2 := r2 } =
        .next { s with status := st, result := r, brData := D, brBitlen := L, brPos := p, h264 := h, media := m,
                       fec := f, dq := q, dropCnt := c, result2 := r2 }

/-- R33, R35, R36, R38, R41, R327: what a parser command leaves alone. IBUF (every byte), ARG, the BitReader and the
parameters always; RESULT and RESULT2 but for AV1_LEB128; ParserState but for the H.264 commands; MEDIA but for
FEC_MEDIA; FEC but for FEC_PACKET. -/
def Obligations.ParserCommandsFrame : Prop :=
  ∀ (i : Instr) (s t : State), isParser i = true → exec i s = .next t →
    (∀ a, t.ibuf.read a = s.ibuf.read a) ∧ t.arg = s.arg ∧ t.brData = s.brData ∧ t.brBitlen = s.brBitlen ∧
    t.brPos = s.brPos ∧ t.cfg = s.cfg ∧ t.host = s.host ∧ t.reply = s.reply ∧
    ((∀ len, i ≠ .av1Leb128 len) → t.result = s.result ∧ t.result2 = s.result2) ∧
    ((∀ len, i ≠ .h264Payload len ∧ i ≠ .h264Nal len) → t.h264 = s.h264) ∧
    ((∀ len, i ≠ .fecMedia len) → t.media = s.media) ∧
    ((∀ len, i ≠ .fecPacket len) → t.fec = s.fec)

/-- R39, R89, R362: a parser command pushes exactly one description with its opcode and status, behind those that
wait, a full queue losing its oldest, which DROP_CNT counts; a failed command's records end with the error record. -/
def Obligations.ParserCommandsPushOneDescription : Prop :=
  ∀ (i : Instr) (s t : State), isParser i = true → exec i s = .next t →
    ∃ recs, (t.status ≠ 0 → ∃ front, recs = front ++ [errRec t.status]) ∧
      (s.dq.length < s.cfg.descDepth → t.dq = s.dq ++ [⟨i.opcode, t.status, recs⟩] ∧ t.dropCnt = s.dropCnt) ∧
      (s.dq.length = s.cfg.descDepth →
        t.dq = s.dq.drop 1 ++ [⟨i.opcode, t.status, recs⟩] ∧ t.dropCnt = s.dropCnt + 1)

/-- R160, R166, R230, R233, R234, R280, R310, R312, R317, R361: inputs below a command's minimum length. -/
def Obligations.ShortInputs : Prop :=
  ∀ (s : State) (len : Half),
    (len.toNat = 0 →
      exec (.h264Payload len) s = .next (finished s 0x10 2 [errRec 2]) ∧
      exec (.h264Nal len) s = .next (finished s 0x11 2 [errRec 2]) ∧
      exec (.av1Payload len) s = .next (finished s 0x20 2 [errRec 2]) ∧
      exec (.av1Obus len) s = .next (finished s 0x21 0 [videoRec]) ∧
      exec (.av1Leb128 len) s = .next (finished s 0x22 2 [errRec 2]) ∧
      exec (.opusPacket len) s = .next (finished s 0x30 2 [errRec 2]) ∧
      exec (.fecPacket len) s = .next (finished s 0x41 2 [errRec 2])) ∧
    (len.toNat < 12 → exec (.fecMedia len) s = .next (finished s 0x40 3 [errRec 3])) ∧
    (len.toNat < 20 → exec (.fecMask len) s = .next (finished s 0x42 2 [errRec 2]))

/-- R400: the loops whose passes the data bound give the same result whatever larger pass count they are given, so the
count the model carries (log entry 7) never decides an outcome. -/
def Obligations.LoopCountsNeverDecide : Prop :=
  (∀ (epb : Bool) (S : List Byte) (x : Nat),
    stapAFrom epb S (S.length + 1 + x) 1 0 = stapAFrom epb S (S.length + 1) 1 0) ∧
  (∀ (S : List Byte) (Z Y W x : Nat), 1 ≤ S.length →
    elementsFrom S Z Y W (S.length + 4 + x) 1 0 = elementsFrom S Z Y W (S.length + 4) 1 0) ∧
  (∀ (S : List Byte) (x : Nat), obusFrom S (S.length + 1 + x) 0 0 = obusFrom S (S.length + 1) 0 0) ∧
  (∀ (S : List Byte) (pos P x : Nat),
    opusPaddingFrom S (S.length + 1 + x) pos P = opusPaddingFrom S (S.length + 1) pos P) ∧
  (∀ (L x : Nat) (c : Ctx H264State),
    repeatUntil (readerFuel c.rd + x) 0 (rplmEntry L) c = repeatUntil (readerFuel c.rd) 0 (rplmEntry L) c) ∧
  ∀ (x : Nat) (c : Ctx H264State),
    repeatUntil (readerFuel c.rd + x) 0 mmcoEntry c = repeatUntil (readerFuel c.rd) 0 mmcoEntry c

/-! ## BitReader -/

/-- R120: BR_INIT loads the reader from IBUF and ARG; ARG above 8·LEN is illegal and loads nothing. -/
def Obligations.BrInitLoadsTheReader : Prop :=
  ∀ (s : State) (len : Half),
    (s.arg.toNat ≤ 8 * len.toNat →
      exec (.brInit len) s =
        .next { s with brData := inputBytes s len, brBitlen := s.arg.toNat, brPos := 0, result := 0, status := 0 }) ∧
    (8 * len.toNat < s.arg.toNat → exec (.brInit len) s = .next { s with status := 6 })

/-- R121, R126: BR_READ n gives the sum of the n bits at the cursor, the first the most significant, and moves the
cursor by n; past the end it is OUT_OF_BOUNDS, above 64 illegal. -/
def Obligations.BrReadGivesTheBits : Prop :=
  ∀ (s : State) (n : Byte),
    (n.toNat ≤ 64 → s.brPos + n.toNat ≤ s.brBitlen →
      exec (.brRead n) s =
        .next { s with result := BitVec.ofNat 64 (bitsSum s.brData s.brPos n.toNat), brPos := s.brPos + n.toNat,
                       status := 0 }) ∧
    (n.toNat ≤ 64 → s.brBitlen < s.brPos + n.toNat → exec (.brRead n) s = .next { s with status := 1 }) ∧
    (64 < n.toNat → exec (.brRead n) s = .next { s with status := 6 })

/-- R123: BR_READ_BYTE is BR_READ 8, at any bit position: the low bits of one byte and the high bits of the next. -/
def Obligations.BrReadByteGivesEightBits : Prop :=
  ∀ s : State,
    exec .brReadByte s = exec (.brRead 8) s ∧
    (s.brBitlen < s.brPos + 8 → exec .brReadByte s = .next { s with status := 1 }) ∧
    (s.brPos + 8 ≤ s.brBitlen →
      exec .brReadByte s =
        .next { s with
          result := BitVec.ofNat 64
            ((byteAt s.brData (s.brPos / 8) * 256 + byteAt s.brData (s.brPos / 8 + 1)) / 2 ^ (8 - s.brPos % 8) % 256)
          brPos := s.brPos + 8, status := 0 })

/-- R65: an aligned 16-bit read is the big-endian value of the two bytes, and a read of the 8 bits of a byte is the
byte. -/
def Obligations.AlignedReadsAreBigEndian : Prop :=
  ∀ (s : State) (k : Nat), s.brPos = 8 * k →
    (s.brPos + 16 ≤ s.brBitlen →
      exec (.brRead 16) s =
        .next { s with result := BitVec.ofNat 64 (byteAt s.brData k * 256 + byteAt s.brData (k + 1)),
                       brPos := s.brPos + 16, status := 0 }) ∧
    (s.brPos + 8 ≤ s.brBitlen →
      exec (.brRead 8) s =
        .next { s with result := BitVec.ofNat 64 (byteAt s.brData k), brPos := s.brPos + 8, status := 0 })

/-- R138: at the code of any v below 2^64 − 1, BR_READ_UE gives v and moves the cursor over the code. -/
def Obligations.BrReadUeRoundTrip : Prop :=
  ∀ (s : State) (v : Nat), v < 2 ^ 64 - 1 → BitsAt s.brData s.brBitlen s.brPos (ueBits v) →
    exec .brReadUe s =
      .next { s with result := BitVec.ofNat 64 v, brPos := s.brPos + 2 * Nat.log2 (v + 1) + 1, status := 0 }

/-- R122, R129: where BR_READ_UE fails: no 1 bit before the end, a run of 64 or more zeros before the first 1, a suffix
that does not fit. A failure writes only STATUS. -/
def Obligations.BrReadUeFailures : Prop :=
  ∀ (s : State) (k : Nat), (∀ j < k, streamBit s.brData (s.brPos + j) = false) →
    (s.brPos + k = s.brBitlen → exec .brReadUe s = .next { s with status := 1 }) ∧
    (64 ≤ k → s.brPos + k < s.brBitlen → streamBit s.brData (s.brPos + k) = true →
      exec .brReadUe s = .next { s with status := 3 }) ∧
    (k < 64 → s.brPos + k < s.brBitlen → streamBit s.brData (s.brPos + k) = true →
      s.brBitlen < s.brPos + 2 * k + 1 → exec .brReadUe s = .next { s with status := 1 })

/-! ## H.264 -/

/-- R160, R165, R166, R167: a NAL unit of a type without a parser, and a payload of a type other than 24 and 28, is
recorded opaque. -/
def Obligations.H264OpaqueUnits : Prop :=
  ∀ (s : State) (len : Half), 0 < len.toNat →
    (byteAt (inputBytes s len) 0 % 32 ∉ [1, 5, 7, 8] →
      exec (.h264Nal len) s = .next (finished s 0x11 0 (videoRec :: opaqueRecs 0 (inputBytes s len)))) ∧
    (byteAt (inputBytes s len) 0 % 32 ∉ [24, 28] →
      exec (.h264Payload len) s = .next (finished s 0x10 0 (videoRec :: opaqueRecs 0 (inputBytes s len))))

/-- R180, R190, R164, R168: a PPS without an SPS, or a slice without both, in a NAL unit or in the first fragment of an
FU-A, is OUT_OF_ORDER_STATE after the header records, the FU records and an IDR slice's keyframe records, and commits
nothing. -/
def Obligations.H264ParseOrder : Prop :=
  ∀ (s : State) (len : Half), s.h264.spsValid = false ∨ s.h264.ppsValid = false →
    (0 < len.toNat → byteAt (inputBytes s len) 0 % 32 = 8 → s.h264.spsValid = false →
      exec (.h264Nal len) s =
        .next (finished s 0x11 4 (videoRec :: nalHeaderRecs 0 (byteAt (inputBytes s len) 0) ++ [errRec 4]))) ∧
    ∀ (t nri : Nat) (i : Instr) (start : List Record) (body : List Byte), SliceInput s len t nri i start body →
      exec i s = .next (finished s i.opcode 4 (start ++ [errRec 4]))

/-- R170 to R175, R130, R132: an SPS, with or without scaling lists, written as its syntax elements, reads back element by
element, and its part is committed with sps_valid; the PPS part stays. Bits after it are not read. -/
def Obligations.SpsReadsBack : Prop :=
  ∀ (s : State) (len : Half) (x : SpsSyntax), 0 < len.toNat → byteAt (inputBytes s len) 0 % 32 = 7 → x.fits →
    (let body := nalBody s.cfg.epbStrip ((inputBytes s len).drop 1)
     BitsAt body (8 * body.length) 0 (elemBits x.elems)) →
    exec (.h264Nal len) s =
      .next (finished { s with h264 := { s.h264 with sps := x.part, spsValid := true } } 0x11 0
        (videoRec :: nalHeaderRecs 0 (byteAt (inputBytes s len) 0) ++ x.elems.map Elem.record))

/-- R181 to R185: a PPS after an SPS, written as its syntax elements, reads back, its part is committed with pps_valid,
and the extension tag follows if and only if a 1 bit lies strictly after the cursor. That reading of `more_rbsp_data` is
the model's choice of R135's pseudocode over its prose (log entry 16). -/
def Obligations.PpsReadsBack : Prop :=
  ∀ (s : State) (len : Half) (x : PpsSyntax), 0 < len.toNat → byteAt (inputBytes s len) 0 % 32 = 8 →
    s.h264.spsValid = true → x.fits →
    (let body := nalBody s.cfg.epbStrip ((inputBytes s len).drop 1)
     BitsAt body (8 * body.length) 0 (elemBits x.elems)) →
    ∃ ext,
      exec (.h264Nal len) s =
        .next (finished { s with h264 := { s.h264 with pps := x.part, ppsValid := true } } 0x11 0
          (videoRec :: nalHeaderRecs 0 (byteAt (inputBytes s len) 0) ++ x.elems.map Elem.record ++ ext)) ∧
      (let body := nalBody s.cfg.epbStrip ((inputBytes s len).drop 1)
       ext = [mkRec Field.notDecoded 6] ∧
          (∃ q, (elemBits x.elems).length < q ∧ q < 8 * body.length ∧ streamBit body q = true) ∨
        ext = [] ∧ ∀ q, (elemBits x.elems).length < q → q < 8 * body.length → streamBit body q = false)

/-- R190 to R200, R164: a slice header that the parsed SPS and PPS describe, with any list modification, weight table and
reference marking, reads back, from a NAL unit and from the first fragment of an FU-A, and changes no ParserState. -/
def Obligations.SliceHeaderReadsBack : Prop :=
  ∀ (s : State) (len : Half) (x : SliceSyntax) (t nri : Nat),
    s.h264.spsValid = true → s.h264.ppsValid = true → t ∈ [1, 5] → x.fits s.h264.sps s.h264.pps nri t →
    byteAt (inputBytes s len) 0 / 32 % 4 = nri →
    (0 < len.toNat → byteAt (inputBytes s len) 0 % 32 = t →
      (let body := nalBody s.cfg.epbStrip ((inputBytes s len).drop 1)
       BitsAt body (8 * body.length) 0 (elemBits (x.elems s.h264.sps s.h264.pps nri t))) →
      exec (.h264Nal len) s =
        .next (finished s 0x11 0
          (videoRec :: nalHeaderRecs 0 (byteAt (inputBytes s len) 0) ++ keyframeRecs t ++
            (x.elems s.h264.sps s.h264.pps nri t).map Elem.record))) ∧
    (1 < len.toNat → byteAt (inputBytes s len) 0 % 32 = 28 → byteAt (inputBytes s len) 1 / 128 = 1 →
      byteAt (inputBytes s len) 1 % 32 = t →
      (let body := nalBody s.cfg.epbStrip ((inputBytes s len).drop 2)
       BitsAt body (8 * body.length) 0 (elemBits (x.elems s.h264.sps s.h264.pps nri t))) →
      exec (.h264Payload len) s =
        .next (finished s 0x10 0
          (videoRec :: nalHeaderRecs 0 (byteAt (inputBytes s len) 0) ++
            fuRecs (byteAt (inputBytes s len) 1) len.toNat ++ keyframeRecs t ++
            (x.elems s.h264.sps s.h264.pps nri t).map Elem.record)))

/-- R173, R176, R191, R200, R164: the four value checks, the slice's in a NAL unit and in the first fragment of an FU-A.
A stream that carries the value as its next element, and may end there, is MALFORMED after the records of what was read,
and commits nothing. -/
def Obligations.H264RangeChecks : Prop :=
  ∀ (s : State) (len : Half),
    (∀ (x : SpsSyntax) (front back : List Elem) (f : Half) (v : Nat) (body : List Byte), 0 < len.toNat →
      body = nalBody s.cfg.epbStrip ((inputBytes s len).drop 1) → byteAt (inputBytes s len) 0 % 32 = 7 →
      x.scalingFits → x.elems = front ++ eg f v :: back → 12 < v →
      (f = Field.log2MaxFrameNumMinus4 ∨ f = Field.log2MaxPicOrderCntLsbMinus4 ∧ x.log2FrameNum ≤ 12) →
      (∀ e ∈ front ++ [eg f v], e.fits) → BitsAt body (8 * body.length) 0 (elemBits (front ++ [eg f v])) →
      exec (.h264Nal len) s =
        .next (finished s 0x11 3
          (videoRec :: nalHeaderRecs 0 (byteAt (inputBytes s len) 0) ++ (front ++ [eg f v]).map Elem.record ++
            [errRec 3]))) ∧
    ∀ (x : SliceSyntax) (t nri : Nat) (i : Instr) (start : List Record) (body : List Byte) (l : List Elem),
      SliceInput s len t nri i start body → s.h264.spsValid = true → s.h264.ppsValid = true →
      (x.sliceType > 9 ∧ l = (x.elems s.h264.sps s.h264.pps nri t).take 2 ∨
        x.sliceType ≤ 9 ∧ x.listsFit s.h264.pps ∧ hasChangeCycle s.h264.pps = true ∧
          isChangeCycleWidth s.h264.sps s.h264.pps x.changeCycleWidth ∧ 32 < x.changeCycleWidth ∧
          l = (x.elems s.h264.sps s.h264.pps nri t).dropLast) →
      (∀ e ∈ l, e.fits) → BitsAt body (8 * body.length) 0 (elemBits l) →
      exec i s = .next (finished s i.opcode 3 (start ++ l.map Elem.record ++ [errRec 3]))

/-- R127, R361, R368, R164, R237: a parameter set or a slice header, in a NAL unit or in the first fragment of an FU-A,
whose bytes end inside one of its elements is TRUNCATED after the records of the elements before it, and commits
nothing. So is a sequence header, in AV1_OBUS after any OBUs and in AV1_PAYLOAD, that its OBU's size cuts, whatever bytes
follow, or that the input's end cuts. -/
def Obligations.CutSyntaxIsTruncated : Prop :=
  ∀ (s : State) (len : Half) (front : List Elem),
    (∀ (i : Instr) (start : List Record) (body : List Byte) (elems : List Elem),
      SyntaxInput s len i start body elems → CutAfter body elems front →
      exec i s = .next (finished s i.opcode 2 (start ++ front.map Elem.record ++ [errRec 2]))) ∧
    ∀ (o : Obu) (rest : List Byte), o.cutsSequence front → (o.hasSize = true ∨ rest = []) →
      (∀ pre : List Obu, (∀ p ∈ pre, p.whole ∧ p.hasSize = true) →
        inputBytes s len = (pre.map Obu.bytes).flatten ++ o.bytes ++ rest →
        exec (.av1Obus len) s =
          .next (finished s 0x21 2
            (videoRec :: (pre.mapIdx Obu.recs).flatten ++ o.extentRecs pre.length ++
              front.map (Elem.recordAt pre.length) ++ [errRec 2]))) ∧
      ∀ a : Byte, a.toNat / 64 = 0 → a.toNat / 16 % 4 = 1 → inputBytes s len = a :: o.bytes ++ rest →
        exec (.av1Payload len) s =
          .next (finished s 0x20 2
            (videoRec :: aggRecs a.toNat ++ o.extentRecs 0 ++ front.map Elem.record ++ [errRec 2]))

/-- R129, R130, R127, R361: where a parameter set or a slice header, in a NAL unit or in the first fragment of an FU-A,
has 64 or more zeros for an Exp-Golomb code, it is MALFORMED if a 1 bit follows them and TRUNCATED if the bytes end with
them, after the records of the elements before it, and commits nothing. -/
def Obligations.H264LongCodesFail : Prop :=
  ∀ (s : State) (len : Half) (i : Instr) (start : List Record) (body : List Byte) (elems front : List Elem) (code : Byte),
    SyntaxInput s len i start body elems → LongCodeAfter body elems front code →
    exec i s = .next (finished s i.opcode code (start ++ front.map Elem.record ++ [errRec code]))

/-- R175, R185, R368: an H.264 NAL unit that fails leaves ParserState as it was, whatever its type; and whatever its
status, an SPS leaves the PPS part, a PPS leaves the SPS part, and any other type leaves both. -/
def Obligations.ParserStateCommitsWhole : Prop :=
  ∀ (s t : State) (len : Half), exec (.h264Nal len) s = .next t →
    (t.status ≠ 0 → t.h264 = s.h264) ∧
    (byteAt (inputBytes s len) 0 % 32 ≠ 7 → t.h264.sps = s.h264.sps ∧ t.h264.spsValid = s.h264.spsValid) ∧
    (byteAt (inputBytes s len) 0 % 32 ≠ 8 → t.h264.pps = s.h264.pps ∧ t.h264.ppsValid = s.h264.ppsValid)

/-- R42, R175, R185: no command clears a validity bit. -/
def Obligations.ValidityBitsOnlyRise : Prop :=
  ∀ (i : Instr) (s t : State), exec i s = .next t →
    (s.h264.spsValid = true → t.h264.spsValid = true) ∧ (s.h264.ppsValid = true → t.h264.ppsValid = true)

/-- R164: an FU-A payload of one byte is TRUNCATED; one without the start bit, or of a type other than 1 and 5, is
recorded as a continuation and not parsed. -/
def Obligations.FuAContinuation : Prop :=
  ∀ (s : State) (len : Half), byteAt (inputBytes s len) 0 % 32 = 28 →
    (len.toNat = 1 →
      exec (.h264Payload len) s =
        .next (finished s 0x10 2 (videoRec :: nalHeaderRecs 0 (byteAt (inputBytes s len) 0) ++ [errRec 2]))) ∧
    (1 < len.toNat → (byteAt (inputBytes s len) 1 / 128 = 0 ∨ byteAt (inputBytes s len) 1 % 32 ∉ [1, 5]) →
      exec (.h264Payload len) s =
        .next (finished s 0x10 0
          (videoRec :: nalHeaderRecs 0 (byteAt (inputBytes s len) 0) ++
            fuRecs (byteAt (inputBytes s len) 1) len.toNat ++ [mkRec Field.notDecoded 3])))

/-- R163: a STAP-A of any number of units without a parser records each under its own number, in order; after them, a
lone size byte or a unit that runs past the payload is TRUNCATED and a size of 0 is MALFORMED, and the units before
keep their records. -/
def Obligations.StapAUnitsInOrder : Prop :=
  ∀ (s : State) (len : Half) (h : Byte) (nals : List (List Byte)) (tail : List Byte), h.toNat % 32 = 24 →
    (∀ n ∈ nals, n ≠ [] ∧ byteAt n 0 % 32 ∉ [1, 5, 7, 8]) →
    inputBytes s len = h :: stapBytes nals ++ tail →
    (tail = [] →
      exec (.h264Payload len) s =
        .next (finished s 0x10 0 (videoRec :: nalHeaderRecs 0 h.toNat ++ stapRecs nals))) ∧
    (tail.length = 1 →
      exec (.h264Payload len) s =
        .next (finished s 0x10 2 (videoRec :: nalHeaderRecs 0 h.toNat ++ stapRecs nals ++ [errRec 2]))) ∧
    (2 ≤ tail.length → beAt tail 0 2 = 0 →
      exec (.h264Payload len) s =
        .next (finished s 0x10 3
          (videoRec :: nalHeaderRecs 0 h.toNat ++ stapRecs nals ++
            [mkRec Field.naluSize 0 (nals.length + 1), errRec 3]))) ∧
    (2 ≤ tail.length → tail.length - 2 < beAt tail 0 2 →
      exec (.h264Payload len) s =
        .next (finished s 0x10 2
          (videoRec :: nalHeaderRecs 0 h.toNat ++ stapRecs nals ++
            [mkRec Field.naluSize (beAt tail 0 2) (nals.length + 1), errRec 2])))

/-- R163, R362, R368: a STAP-A of units that complete does what H264_NAL does to each of them in turn: the records, each
under its own number, and the commits to ParserState. Where a later unit fails, or the STAP-A is cut or carries a size
of 0 after them, the command ends with that status, and the records and the commits before it stay. -/
def Obligations.StapAParsesItsUnits : Prop :=
  ∀ (s : State) (len : Half) (h : Byte) (nals : List (List Byte)) (tail : List Byte), h.toNat % 32 = 24 →
    (∀ B ∈ nals, B ≠ []) → NalsComplete s nals → inputBytes s len = h :: stapBytes nals ++ tail →
    ∀ (t : State) (front : List Record), t = { s with h264 := (nalsRun s nals).h264 } →
      front = videoRec :: nalHeaderRecs 0 h.toNat ++ stapUnitsRecs s 1 nals →
      (tail = [] → exec (.h264Payload len) s = .next (finished t 0x10 0 front)) ∧
      (tail.length = 1 → exec (.h264Payload len) s = .next (finished t 0x10 2 (front ++ [errRec 2]))) ∧
      (2 ≤ tail.length → beAt tail 0 2 = 0 →
        exec (.h264Payload len) s =
          .next (finished t 0x10 3 (front ++ [mkRec Field.naluSize 0 (nals.length + 1), errRec 3]))) ∧
      (2 ≤ tail.length → tail.length - 2 < beAt tail 0 2 →
        exec (.h264Payload len) s =
          .next (finished t 0x10 2
            (front ++ [mkRec Field.naluSize (beAt tail 0 2) (nals.length + 1), errRec 2]))) ∧
      ∀ B rest : List Byte, B ≠ [] → tail = be16Bytes B.length ++ B ++ rest →
        (nalRun (nalsRun s nals) B).status ≠ 0 →
        exec (.h264Payload len) s =
          .next (finished t 0x10 (nalRun (nalsRun s nals) B).status
            (front ++ stapUnitRecs (nalsRun s nals) (nals.length + 1) B))

/-- R136: removing emulation-prevention bytes undoes their insertion, whatever the bytes. The inserting side is the
statement's own, from the sentence of R136 read backwards. -/
def Obligations.EpbStripUndoesInsertion : Prop :=
  (∀ B : List Byte, epbStrip (epbInsertFrom 0 B) = B) ∧ ∀ B : List Byte, (epbStrip B).length ≤ B.length

/-! ## AV1 -/

/-- R234, R134: AV1_LEB128 gives the little-endian value of the 7-bit groups and the byte count, at most 8 bytes; input
that ends inside the value is TRUNCATED and leaves RESULT and RESULT2. -/
def Obligations.Leb128Value : Prop :=
  ∀ (s : State) (len : Half) (n : Nat),
    (1 ≤ n → n ≤ 8 → n ≤ len.toNat → (∀ i < n - 1, 128 ≤ byteAt (inputBytes s len) i) →
      (n = 8 ∨ byteAt (inputBytes s len) (n - 1) < 128) →
      exec (.av1Leb128 len) s =
        .next (finished
          { s with result := BitVec.ofNat 64 (leb128Value ((inputBytes s len).take n)), result2 := BitVec.ofNat 32 n }
          0x22 0
          [mkRec Field.leb128Value (leb128Value ((inputBytes s len).take n)), mkRec Field.leb128Bytes n])) ∧
    (len.toNat = n → n < 8 → (∀ i < n, 128 ≤ byteAt (inputBytes s len) i) →
      exec (.av1Leb128 len) s = .next (finished s 0x22 2 [errRec 2]))

/-- R233, R235 to R237: AV1_OBUS over any number of whole OBUs with size fields, sequence headers among them, records each
under its own number, in order; an OBU without a size field takes the rest; where a whole OBU cannot be read (header or
size field cut, size past the stream, sequence header past its OBU) it is TRUNCATED after the records of what was
read. -/
def Obligations.Av1ObusInOrder : Prop :=
  ∀ (s : State) (len : Half) (obus : List Obu) (tail : List Byte) (front : List Record),
    (∀ o ∈ obus, o.whole ∧ o.hasSize = true) → inputBytes s len = (obus.map Obu.bytes).flatten ++ tail →
    front = videoRec :: (obus.mapIdx Obu.recs).flatten →
    (tail = [] → exec (.av1Obus len) s = .next (finished s 0x21 0 front)) ∧
    (∀ o : Obu, o.whole → o.hasSize = false → tail = o.bytes →
      exec (.av1Obus len) s = .next (finished s 0x21 0 (front ++ o.recs obus.length))) ∧
    ∀ recs : List Record, ObuCut tail obus.length recs →
      exec (.av1Obus len) s = .next (finished s 0x21 2 (front ++ recs ++ [errRec 2]))

/-- R233, R235 to R237, R240 to R253: a sequence header OBU, with or without extension and size field, written as its
syntax elements, reads back element by element under its unit number, between other OBUs in AV1_OBUS and as the one
element of AV1_PAYLOAD; bits after it in its payload are not read. -/
def Obligations.SequenceHeaderReadsBack : Prop :=
  ∀ (s : State) (len : Half) (o : Obu) (x : SeqSyntax), o.whole → o.sequence = some x →
    (∀ pre post : List Obu, (∀ p ∈ pre ++ post, p.whole ∧ p.hasSize = true) → (o.hasSize = true ∨ post = []) →
      inputBytes s len = (pre.map Obu.bytes).flatten ++ o.bytes ++ (post.map Obu.bytes).flatten →
      exec (.av1Obus len) s =
        .next (finished s 0x21 0
          (videoRec :: (pre.mapIdx Obu.recs).flatten ++ o.extentRecs pre.length ++
            x.elems.map (Elem.recordAt pre.length) ++
            (post.mapIdx (fun u p => p.recs (pre.length + 1 + u))).flatten))) ∧
    ∀ (a : Byte) (rest : List Byte), a.toNat / 64 = 0 → a.toNat / 16 % 4 = 1 → (o.hasSize = true ∨ rest = []) →
      inputBytes s len = a :: o.bytes ++ rest →
      exec (.av1Payload len) s =
        .next (finished s 0x20 0 (videoRec :: aggRecs a.toNat ++ o.extentRecs 0 ++ x.elems.map Elem.record))

/-- R230 to R232, R236, R237, R254: AV1_PAYLOAD with no element, with an element missing, with one continuation
fragment (Z = 1), and with one OBU without extension and size field, cut at the packet's end (Y = 1) or whole. -/
def Obligations.Av1PayloadOneElement : Prop :=
  ∀ (s : State) (len : Half) (a : Nat), byteAt (inputBytes s len) 0 = a →
    (len.toNat = 1 → a / 16 % 4 = 0 →
      exec (.av1Payload len) s = .next (finished s 0x20 0 (videoRec :: aggRecs a))) ∧
    (len.toNat = 1 → a / 16 % 4 ≠ 0 →
      exec (.av1Payload len) s = .next (finished s 0x20 2 (videoRec :: aggRecs a ++ [errRec 2]))) ∧
    (1 < len.toNat → a / 128 = 1 → a / 16 % 4 = 1 →
      exec (.av1Payload len) s = .next (finished s 0x20 0 (videoRec :: aggRecs a ++ [mkRec Field.notDecoded 5]))) ∧
    (1 < len.toNat → a / 128 = 0 → a / 16 % 4 = 1 → byteAt (inputBytes s len) 1 / 2 % 4 = 0 →
      (a / 64 % 2 = 1 →
        exec (.av1Payload len) s =
          .next (finished s 0x20 0
            (videoRec :: aggRecs a ++ obuHeaderRecs 0 (byteAt (inputBytes s len) 1) ++
              [mkRec Field.obuPayloadLength (len.toNat - 2), mkRec Field.notDecoded 5]))) ∧
      (a / 64 % 2 = 0 → byteAt (inputBytes s len) 1 / 8 % 16 ≠ 1 →
        exec (.av1Payload len) s =
          .next (finished s 0x20 0
            (videoRec :: aggRecs a ++ obuHeaderRecs 0 (byteAt (inputBytes s len) 1) ++
              [mkRec Field.obuPayloadLength (len.toNat - 2)] ++
              if len.toNat = 2 then [] else [mkRec Field.notDecoded 4]))))

/-- R230 to R232, R235 to R237, R254: AV1_PAYLOAD over any elements with their lengths before them, in W = 0 to the end or
before the last of W, records each under its own number: a continuation for Z = 1, whole OBUs, sequence headers among
them, and a cut one for Y = 1. An element missing, cut, of a cut length, or empty (but for the empty continuation of log
entry 20, of which nothing is said here), and one that no OBU can be read from, is TRUNCATED after the records of what was
read. -/
def Obligations.Av1PayloadElements : Prop :=
  ∀ (s : State) (len : Half) (a : Byte) (els : List PrefixedElement) (tail : List Byte) (Z Y W : Nat)
    (front : List Record), a.toNat / 128 = Z → a.toNat / 64 % 2 = Y → a.toNat / 16 % 4 = W → (∀ p ∈ els, p.fits) →
    inputBytes s len = a :: prefixedBytes els ++ tail → front = videoRec :: aggRecs a.toNat ++ prefixedRecs els →
    (W = 0 → tail = [] → ElementsStand Z Y els.length (els.map (·.element)) →
      exec (.av1Payload len) s = .next (finished s 0x20 0 front)) ∧
    (∀ e : Av1Element, W = els.length + 1 → tail = e.bytes → ElementsStand Z Y W (els.map (·.element) ++ [e]) →
      exec (.av1Payload len) s = .next (finished s 0x20 0 (front ++ e.recs els.length))) ∧
    (els.length < W → tail = [] → ElementsStand Z Y W (els.map (·.element)) →
      exec (.av1Payload len) s = .next (finished s 0x20 2 (front ++ [errRec 2]))) ∧
    (∀ l rest : List Byte, W = 0 ∨ els.length + 1 < W → tail = l ++ rest →
      ElementsStand Z Y (els.length + 1) (els.map (·.element)) →
      (IsLeb128Start l → l ≠ [] → rest = [] →
        exec (.av1Payload len) s = .next (finished s 0x20 2 (front ++ [errRec 2]))) ∧
      (IsLeb128 l → rest.length < leb128Value l ∨ leb128Value l = 0 ∧ (els ≠ [] ∨ Z = 0) →
        exec (.av1Payload len) s =
          .next (finished s 0x20 2
            (front ++ [mkRec Field.obuElementLength (leb128Value l) els.length, errRec 2])))) ∧
    ∀ (E : List Byte) (recs : List Record), els ≠ [] ∨ Z = 0 →
      ElementsStand Z Y (els.length + 1) (els.map (·.element)) →
      (∀ l rest : List Byte, W = 0 ∨ els.length + 1 < W → tail = l ++ E ++ rest → IsLeb128 l →
        leb128Value l = E.length →
        ObuCut E els.length recs ∧ (W ≠ 0 ∨ rest ≠ [] ∨ Y = 0) ∨ ObuHeadCut E els.length recs →
        exec (.av1Payload len) s =
          .next (finished s 0x20 2
            (front ++ mkRec Field.obuElementLength (leb128Value l) els.length :: recs ++ [errRec 2]))) ∧
      (W = els.length + 1 → tail = E → ObuCut E els.length recs ∧ Y = 0 ∨ ObuHeadCut E els.length recs →
        exec (.av1Payload len) s = .next (finished s 0x20 2 (front ++ recs ++ [errRec 2])))

/-! ## Opus -/

/-- R281, R282, R284, R285, R291: codes 0 and 1, with the configuration of the table of R282; code 1 with an odd
remainder is MALFORMED and records no frame. -/
def Obligations.OpusCodes0And1 : Prop :=
  ∀ (s : State) (len : Half) (t : Nat), 0 < len.toNat → byteAt (inputBytes s len) 0 = t →
    (t % 4 = 0 →
      exec (.opusPacket len) s =
        .next (finished s 0x30 0 (opusTocRecs t ++ opusFrameRecs [(1, len.toNat - 1)]))) ∧
    (t % 4 = 1 → (len.toNat - 1) % 2 = 0 →
      exec (.opusPacket len) s =
        .next (finished s 0x30 0 (opusTocRecs t ++
          opusFrameRecs [(1, (len.toNat - 1) / 2), (1 + (len.toNat - 1) / 2, (len.toNat - 1) / 2)]))) ∧
    (t % 4 = 1 → (len.toNat - 1) % 2 = 1 →
      exec (.opusPacket len) s = .next (finished s 0x30 3 (opusTocRecs t ++ [errRec 3])))

/-- R283, R286: code 2, its first length in one byte or two; a length byte missing is TRUNCATED, a length past the
packet MALFORMED. -/
def Obligations.OpusCode2 : Prop :=
  ∀ (s : State) (len : Half) (t l k : Nat), 0 < len.toNat → byteAt (inputBytes s len) 0 = t → t % 4 = 2 →
    (byteAt (inputBytes s len) 1 ≤ 251 ∧ k = 1 ∧ l = byteAt (inputBytes s len) 1 ∨
      251 < byteAt (inputBytes s len) 1 ∧ k = 2 ∧
        l = byteAt (inputBytes s len) 1 + 4 * byteAt (inputBytes s len) 2) →
    (len.toNat < 1 + k → exec (.opusPacket len) s = .next (finished s 0x30 2 (opusTocRecs t ++ [errRec 2]))) ∧
    (1 + k ≤ len.toNat → len.toNat < 1 + k + l →
      exec (.opusPacket len) s = .next (finished s 0x30 3 (opusTocRecs t ++ [errRec 3]))) ∧
    (1 + k + l ≤ len.toNat →
      exec (.opusPacket len) s =
        .next (finished s 0x30 0 (opusTocRecs t ++ opusFrameRecs [(1 + k, l), (1 + k + l, len.toNat - (1 + k + l))])))

/-- R287 to R289: code 3 with constant bit rate, with or without padding; M = 0, padding past the packet or a remainder
that M does not divide is MALFORMED. -/
def Obligations.OpusCode3Cbr : Prop :=
  ∀ (s : State) (len : Half) (t fc pos P : Nat), 2 ≤ len.toNat → byteAt (inputBytes s len) 0 = t → t % 4 = 3 →
    byteAt (inputBytes s len) 1 = fc → fc / 128 = 0 →
    (fc % 64 = 0 →
      exec (.opusPacket len) s = .next (finished s 0x30 3 (opusTocRecs t ++ opusCountRecs fc ++ [errRec 3]))) ∧
    (fc % 64 ≠ 0 → OpusPaddingIs (inputBytes s len) pos P →
      (pos + P ≤ len.toNat ∧ (len.toNat - pos - P) % (fc % 64) = 0 →
        exec (.opusPacket len) s =
          .next (finished s 0x30 0 (opusTocRecs t ++ opusCountRecs fc ++ [mkRec Field.paddingLength P] ++
            opusFrameRecs (layout pos (List.replicate (fc % 64) ((len.toNat - pos - P) / (fc % 64))))))) ∧
      (len.toNat < pos + P ∨ (len.toNat - pos - P) % (fc % 64) ≠ 0 →
        exec (.opusPacket len) s =
          .next (finished s 0x30 3
            (opusTocRecs t ++ opusCountRecs fc ++ [mkRec Field.paddingLength P, errRec 3]))))

/-- R287, R288, R290: code 3 with variable bit rate: M − 1 lengths of one or two bytes each read back, and the last
frame takes what the padding leaves; lengths past that are MALFORMED. -/
def Obligations.OpusCode3Vbr : Prop :=
  ∀ (s : State) (len : Half) (t fc pos P o : Nat) (lens : List Nat), 2 ≤ len.toNat →
    byteAt (inputBytes s len) 0 = t → t % 4 = 3 → byteAt (inputBytes s len) 1 = fc → fc / 128 = 1 →
    fc % 64 = lens.length + 1 → (∀ l ∈ lens, l ≤ 1275) → OpusPaddingIs (inputBytes s len) pos P →
    o = pos + (lens.map opusLengthBytes).flatten.length →
    slice (inputBytes s len) pos (lens.map opusLengthBytes).flatten.length = (lens.map opusLengthBytes).flatten →
    (o + P + lens.sum ≤ len.toNat →
      exec (.opusPacket len) s =
        .next (finished s 0x30 0 (opusTocRecs t ++ opusCountRecs fc ++ [mkRec Field.paddingLength P] ++
          opusFrameRecs (layout o (lens ++ [len.toNat - o - P - lens.sum]))))) ∧
    (len.toNat < o + P + lens.sum →
      exec (.opusPacket len) s =
        .next (finished s 0x30 3
          (opusTocRecs t ++ opusCountRecs fc ++ [mkRec Field.paddingLength P, errRec 3])))

/-- R287, R288, R290, R283: code 3 cut: the frame-count byte missing, the padding lengths all 255 to the end, and one of
the VBR lengths missing, or the second byte of one, are TRUNCATED. -/
def Obligations.OpusCode3Cut : Prop :=
  ∀ (s : State) (len : Half) (t fc : Nat), byteAt (inputBytes s len) 0 = t → t % 4 = 3 →
    byteAt (inputBytes s len) 1 = fc →
    (len.toNat = 1 → exec (.opusPacket len) s = .next (finished s 0x30 2 (opusTocRecs t ++ [errRec 2]))) ∧
    (2 ≤ len.toNat → fc % 64 ≠ 0 → fc / 64 % 2 = 1 →
      (∀ a, 2 ≤ a → a < len.toNat → byteAt (inputBytes s len) a = 255) →
      exec (.opusPacket len) s =
        .next (finished s 0x30 2 (opusTocRecs t ++ opusCountRecs fc ++ [errRec 2]))) ∧
    ∀ (pos P : Nat) (lens : List Nat) (cut : List Byte), 2 ≤ len.toNat → fc / 128 = 1 →
      OpusPaddingIs (inputBytes s len) pos P → lens.length + 1 < fc % 64 → (∀ l ∈ lens, l ≤ 1275) →
      (cut = [] ∨ ∃ b : Byte, cut = [b] ∧ 251 < b.toNat) →
      (inputBytes s len).drop pos = (lens.map opusLengthBytes).flatten ++ cut →
      exec (.opusPacket len) s =
        .next (finished s 0x30 2 (opusTocRecs t ++ opusCountRecs fc ++ [mkRec Field.paddingLength P, errRec 2]))

/-- R291: whenever OPUS_PACKET completes OK, its description ends with the records of a frame list whose frames lie in
order, are disjoint, and end at or before N − P, where P is the recorded padding length, or 0 without one. -/
def Obligations.OpusFramesDisjointInOrder : Prop :=
  ∀ (s t : State) (len : Half), exec (.opusPacket len) s = .next t → t.status = 0 →
    ∃ d front frames P, t.dq.getLast? = some d ∧ d.records = front ++ opusFrameRecs frames ∧
      (front.getLast? = some (mkRec Field.paddingLength P) ∨ (∀ r ∈ front, r.field ≠ Field.paddingLength) ∧ P = 0) ∧
      frames.Pairwise (fun f g => f.1 + f.2 ≤ g.1) ∧ ∀ f ∈ frames, f.1 + f.2 + P ≤ len.toNat

/-! ## FlexFEC -/

/-- R310, R311: FEC_MEDIA records and inserts the packet under its sequence number: a packet of that number is replaced,
a full store evicts its oldest entry and records it, and a stored FEC key is reported. -/
def Obligations.FecMediaInserts : Prop :=
  ∀ (s : State) (len q : Half), 12 ≤ len.toNat → q = BitVec.ofNat 16 (beAt (inputBytes s len) 2 2) →
    exec (.fecMedia len) s =
      .next (finished { s with media := putEntry s.cfg.mediaCap s.media q (inputBytes s len) } 0x40 0
        ([mkRec Field.mediaSeq q.toNat, mkRec Field.mediaLength len.toNat] ++
          (if q ∈ s.fec.map (·.key) then [mkRec Field.fecKeyHit q.toNat] else []) ++
          evictRecs s.cfg.mediaCap s.media q Field.mediaEvicted))

/-- R317 to R320: FEC_MASK decodes the tiers the K bits call for, and records the protected numbers and the key; a mask
with no bit set is MALFORMED after the header length; a tier that is cut is TRUNCATED. -/
def Obligations.FecMaskDecodes : Prop :=
  ∀ (s : State) (len : Half) (F : List Byte), F = inputBytes s len → 20 ≤ len.toNat →
    (fecHeaderLen F ≤ len.toNat → fecSeqs F ≠ [] →
      exec (.fecMask len) s = .next (finished s 0x42 0 (fecMaskRecs F ++ fecSeqRecs F))) ∧
    (fecHeaderLen F ≤ len.toNat → fecSeqs F = [] →
      exec (.fecMask len) s = .next (finished s 0x42 3 (fecMaskRecs F ++ [errRec 3]))) ∧
    (len.toNat < 24 → 2 ≤ fecTiers F →
      exec (.fecMask len) s =
        .next (finished s 0x42 2 (mkRec Field.fecSnBase (beAt F 16 2) :: fecTierRecs F 1 ++ [errRec 2]))) ∧
    (24 ≤ len.toNat → len.toNat < 32 → fecTiers F = 3 →
      exec (.fecMask len) s =
        .next (finished s 0x42 2 (mkRec Field.fecSnBase (beAt F 16 2) :: fecTierRecs F 2 ++ [errRec 2])))

/-- R318, the short circuit: with K = 1 in tier 1, FEC_MASK does not depend on any byte from 20 on, nor on how many
there are. -/
def Obligations.FecMaskShortCircuit : Prop :=
  ∀ (s : State) (len len' : Half) (m : Memory), 20 ≤ len.toNat → 20 ≤ len'.toNat →
    (∀ a < 20, m.read a = s.ibuf.read a) → 128 ≤ (s.ibuf.read 18).toNat →
    ∃ t, exec (.fecMask len) s = .next t ∧ exec (.fecMask len') { s with ibuf := m } = .next { t with ibuf := m }

/-- R313 to R316: the variants that are only decoded: R1F0 is MALFORMED; R1F1 and R0F1 record their fields, or are
TRUNCATED when cut. None of them changes a store. -/
def Obligations.FecVariantsDecodedOnly : Prop :=
  ∀ (s : State) (len : Half) (F : List Byte), F = inputBytes s len → 0 < len.toNat →
    (byteAt F 0 / 64 = 2 → exec (.fecPacket len) s = .next (finished s 0x41 3 (fecVariantRecs F ++ [errRec 3]))) ∧
    (byteAt F 0 / 64 = 3 → len.toNat < 12 →
      exec (.fecPacket len) s = .next (finished s 0x41 2 (fecVariantRecs F ++ [errRec 2]))) ∧
    (byteAt F 0 / 64 = 3 → 12 ≤ len.toNat →
      exec (.fecPacket len) s = .next (finished s 0x41 0 (fecVariantRecs F ++ fecRtxRecs F))) ∧
    (byteAt F 0 / 64 ≤ 1 → len.toNat < 20 →
      exec (.fecPacket len) s = .next (finished s 0x41 2 (fecVariantRecs F ++ [errRec 2]))) ∧
    (byteAt F 0 / 64 = 1 → 20 ≤ len.toNat →
      exec (.fecPacket len) s =
        .next (finished s 0x41 0 (fecVariantRecs F ++ fecCommonRecs F ++ fecFixedRecs F)))

/-- R312, R321, R322: a whole R0F0 payload is stored under its key before any recovery; with no protected packet missing
it completes OK, with two or more missing it is RECOVERY_UNAVAILABLE, and it stays stored. MEDIA is unchanged. -/
def Obligations.FecPacketStoresThenCounts : Prop :=
  ∀ (s : State) (len : Half) (F : List Byte) (n : Nat), F = inputBytes s len → 20 ≤ len.toNat → byteAt F 0 / 64 = 0 →
    fecHeaderLen F ≤ len.toNat → fecSeqs F ≠ [] →
    n = ((fecSeqs F).filter (fun q => q ∉ s.media.map (·.key))).length →
    (n = 0 →
      exec (.fecPacket len) s =
        .next (finished { s with fec := putEntry s.cfg.fecCap s.fec (fecKeyOf F) F } 0x41 0
          (fecStoredRecs s.cfg.fecCap s.fec F ++ [mkRec Field.recoveryMissingCount 0]))) ∧
    (2 ≤ n →
      exec (.fecPacket len) s =
        .next (finished { s with fec := putEntry s.cfg.fecCap s.fec (fecKeyOf F) F } 0x41 5
          (fecStoredRecs s.cfg.fecCap s.fec F ++ [mkRec Field.recoveryMissingCount n, errRec 5])))

/-- R312, R317, R318, R323: an R0F0 payload without a mask bit is MALFORMED and one whose second or third tier is cut is
TRUNCATED, and none of them is stored; when the one missing packet's length, recovered from the lengths of the others,
passes the payload, the command is MALFORMED after naming the lost number, and the payload stays stored. -/
def Obligations.FecPacketFailures : Prop :=
  ∀ (s : State) (len : Half) (F : List Byte), F = inputBytes s len → 20 ≤ len.toNat → byteAt F 0 / 64 = 0 →
    (fecHeaderLen F ≤ len.toNat → fecSeqs F = [] →
      exec (.fecPacket len) s =
        .next (finished s 0x41 3 (fecVariantRecs F ++ fecCommonRecs F ++ fecMaskRecs F ++ [errRec 3]))) ∧
    (len.toNat < 24 → 2 ≤ fecTiers F →
      exec (.fecPacket len) s =
        .next (finished s 0x41 2
          (fecVariantRecs F ++ fecCommonRecs F ++ mkRec Field.fecSnBase (beAt F 16 2) :: fecTierRecs F 1 ++
            [errRec 2]))) ∧
    (24 ≤ len.toNat → len.toNat < 32 → fecTiers F = 3 →
      exec (.fecPacket len) s =
        .next (finished s 0x41 2
          (fecVariantRecs F ++ fecCommonRecs F ++ mkRec Field.fecSnBase (beAt F 16 2) :: fecTierRecs F 2 ++
            [errRec 2]))) ∧
    ∀ (lost : Half) (present : List StoreEntry) (Y : Nat), fecHeaderLen F ≤ len.toNat →
      (s.media.map (·.key)).Nodup → (fecSeqs F).filter (fun q => q ∉ s.media.map (·.key)) = [lost] →
      present.map (·.key) = (fecSeqs F).filter (fun q => q ≠ lost) →
      (∀ e ∈ present, e ∈ s.media ∧ 12 ≤ e.bytes.length ∧ e.bytes.length ≤ 65535) →
      Y = (present.map (fun e => e.bytes.length - 12)).foldl (· ^^^ ·) (beAt F 2 2) →
      len.toNat < fecHeaderLen F + Y →
      exec (.fecPacket len) s =
        .next (finished { s with fec := putEntry s.cfg.fecCap s.fec (fecKeyOf F) F } 0x41 3
          (fecStoredRecs s.cfg.fecCap s.fec F ++
            [mkRec Field.recoveryMissingCount 1, mkRec Field.fecLostSeq lost.toNat, errRec 3]))

/-- R322 to R326: when MEDIA holds every packet of the protected group but one, FEC_PACKET recovers that one byte for
byte: the packet's own bytes are emitted. -/
def Obligations.FecPacketRecoversTheLostPacket : Prop :=
  ∀ (s : State) (len : Half) (F : List Byte) (group : List (List Byte)) (lost : List Byte) (key : List Byte → Half),
    F = inputBytes s len → 20 ≤ len.toNat → fecHeaderLen F ≤ len.toNat → IsFecOf F group →
    (∀ m, key m = BitVec.ofNat 16 (beAt m 2 2)) → group.map key = fecSeqs F →
    (∀ m ∈ group, 12 ≤ m.length ∧ m.length ≤ 65535) → (s.media.map (·.key)).Nodup →
    lost ∈ group → key lost ∉ s.media.map (·.key) →
    (∀ m ∈ group, key m ≠ key lost → ⟨key m, m⟩ ∈ s.media) →
    byteAt lost 0 / 64 = 2 → slice F 12 4 = slice lost 8 4 →
    exec (.fecPacket len) s =
      .next (finished { s with fec := putEntry s.cfg.fecCap s.fec (fecKeyOf F) F } 0x41 0
        (fecStoredRecs s.cfg.fecCap s.fec F ++
          [mkRec Field.recoveryMissingCount 1, mkRec Field.fecLostSeq (key lost).toNat,
            mkRec Field.recoveredLength lost.length] ++
          lost.mapIdx (fun i b => mkRec Field.recoveredPacketByte b.toNat 0 i)))

/-- R327: no command but FEC_MEDIA changes MEDIA and none but an R0F0 FEC_PACKET changes FEC; an insertion into a full
store evicts exactly one entry, so its size stays. -/
def Obligations.StoresChangeOnlyByInsertion : Prop :=
  ∀ (i : Instr) (s t : State) (len : Half), exec i s = .next t →
    ((∀ n, i ≠ .fecMedia n) → t.media = s.media) ∧
    ((∀ n, i = .fecPacket n → 64 ≤ byteAt (inputBytes s n) 0) → t.fec = s.fec) ∧
    (i = .fecMedia len → s.media.length = s.cfg.mediaCap → (s.media.map (·.key)).Nodup →
      t.media.length = s.cfg.mediaCap) ∧
    (i = .fecPacket len → s.fec.length = s.cfg.fecCap → (s.fec.map (·.key)).Nodup → t.fec.length = s.cfg.fecCap)
end

