-- ==== Sys2Proof/Laws/Bits.lean ====
section
/-! SUPPORT. What the bit-stream primitives do: their values against the bits of the byte string, and how each moves the
cursor (spec/40_bitreader.md R126 to R139). -/

namespace Sys2Proof.Machine

open Sys2Proof.Safety

/-! ## Bits -/

/-- A bit is the bit of R8's position, as a number. -/
theorem bit_eq (D : List Byte) (q : Nat) : bit D q = (streamBit D q).toNat := by
  unfold bit streamBit
  rw [BitVec.getLsbD, Nat.testBit, Nat.and_comm, Nat.one_and_eq_mod_two]
  generalize (D.getD (q / 8) 0).toNat >>> (7 - q % 8) = x
  rcases Nat.mod_two_eq_zero_or_one x with h | h <;> simp [h]

theorem bit_lt (D : List Byte) (q : Nat) : bit D q < 2 := by
  rw [bit_eq]; exact Bool.toNat_lt _

theorem bit_eq_zero (D : List Byte) (q : Nat) : bit D q = 0 ↔ streamBit D q = false := by
  rw [bit_eq]; cases streamBit D q <;> simp

theorem bit_eq_one (D : List Byte) (q : Nat) : bit D q = 1 ↔ streamBit D q = true := by
  rw [bit_eq]; cases streamBit D q <;> simp

/-- An `n`-bit value is below `2^n` (R126). -/
theorem bits_lt (D : List Byte) (p n : Nat) : bits D p n < 2 ^ n := by
  induction n with
  | zero => simp [bits]
  | succ n ih =>
    have := bit_lt D (p + n)
    rw [bits, Nat.pow_succ]
    omega

/-- The value of `n` bits is the sum of R126. -/
theorem bits_eq_sum (D : List Byte) (p n : Nat) : bits D p n = bitsSum D p n := by
  induction n with
  | zero => simp [bits, bitsSum]
  | succ n ih =>
    have h : bitsSum D p (n + 1) = 2 * bitsSum D p n + (streamBit D (p + n)).toNat := by
      unfold bitsSum
      rw [List.range_succ, List.map_append, List.sum_append, ← List.sum_map_mul_left]
      congr 1
      · congr 1
        refine List.map_congr_left fun j hj => ?_
        have hj := List.mem_range.mp hj
        rw [show n + 1 - 1 - j = (n - 1 - j) + 1 by omega, Nat.pow_succ]
        ring
      · simp
    rw [bits, ih, bit_eq, h]

/-- Reading on: the bits of `m + n` are those of `m`, then those of `n`. -/
theorem bits_add (D : List Byte) (p m n : Nat) : bits D p (m + n) = bits D p m * 2 ^ n + bits D (p + m) n := by
  induction n with
  | zero => simp [bits]
  | succ n ih =>
    rw [← Nat.add_assoc, bits, ih, bits, Nat.pow_succ, Nat.add_assoc p m n]
    ring

/-- Bits that stand in the stream are what `bits` reads. -/
theorem bits_eq_of_natBits {D : List Byte} {p n v : Nat} (hv : v < 2 ^ n)
    (h : ∀ j < n, streamBit D (p + j) = v.testBit (n - 1 - j)) : bits D p n = v := by
  have key : ∀ m ≤ n, bits D p m = v / 2 ^ (n - m) := by
    intro m hm
    induction m with
    | zero => rw [bits, Nat.sub_zero, Nat.div_eq_of_lt hv]
    | succ m ih =>
      rw [bits, ih (by omega), bit_eq, h m (by omega), show n - 1 - m = n - (m + 1) by omega,
        show n - m = (n - (m + 1)) + 1 by omega, Nat.pow_succ, ← Nat.div_div_eq_div_mul, Nat.toNat_testBit]
      have := Nat.div_add_mod (v / 2 ^ (n - (m + 1))) 2
      omega
  have := key n (Nat.le_refl n)
  simpa using this

/-! ## Fixed-width reads -/

theorem Reader.u_eq (n : Nat) (r : Reader) :
    r.u n = if r.pos + n > r.len then .error .oob else .ok (bits r.data r.pos n, { r with pos := r.pos + n }) := rfl

/-- A read that fits (R128). -/
theorem Reader.u_ok {n : Nat} {r : Reader} (h : r.pos + n ≤ r.len) :
    r.u n = .ok (bits r.data r.pos n, { r with pos := r.pos + n }) := by
  rw [Reader.u_eq, if_neg (by omega)]

/-- A read that crosses the end (R128). -/
theorem Reader.u_oob {n : Nat} {r : Reader} (h : r.len < r.pos + n) : r.u n = .error .oob := by
  rw [Reader.u_eq, if_pos h]

/-! ## Runs of zeros and Exp-Golomb codes -/

theorem zeroRun_le (D : List Byte) (p avail : Nat) : zeroRun D p avail ≤ avail := by
  induction avail generalizing p with
  | zero => simp [zeroRun]
  | succ m ih =>
    unfold zeroRun
    have := ih (p + 1)
    split <;> omega

/-- A run of `k` zeros that ends in a 1 bit or at the end of what is looked at. -/
theorem zeroRun_eq {D : List Byte} {p avail k : Nat} (hk : k ≤ avail)
    (hz : ∀ j < k, streamBit D (p + j) = false) (h1 : k < avail → streamBit D (p + k) = true) :
    zeroRun D p avail = k := by
  induction avail generalizing p k with
  | zero => simp [zeroRun]; omega
  | succ m ih =>
    unfold zeroRun
    cases k with
    | zero =>
      have := (bit_eq_one D p).mpr (by simpa using h1 (by omega))
      rw [if_neg (by omega)]
    | succ k =>
      have h0 := (bit_eq_zero D p).mpr (by simpa using hz 0 (by omega))
      rw [if_pos h0, ih (p := p + 1) (k := k) (by omega)]
      · intro j hj
        have := hz (j + 1) (by omega)
        rwa [show p + 1 + j = p + (j + 1) by omega]
      · intro hk'
        have := h1 (by omega)
        rwa [show p + 1 + k = p + (k + 1) by omega]

/-- What a run of zeros says of the bits. -/
theorem zeroRun_spec (D : List Byte) (p avail : Nat) :
    (∀ j < zeroRun D p avail, streamBit D (p + j) = false) ∧
      (zeroRun D p avail < avail → streamBit D (p + zeroRun D p avail) = true) := by
  induction avail generalizing p with
  | zero => simp [zeroRun]
  | succ m ih =>
    obtain ⟨h0, h1⟩ := ih (p + 1)
    unfold zeroRun
    split
    · rename_i hb
      refine ⟨fun j hj => ?_, fun h => ?_⟩
      · cases j with
        | zero => simpa using (bit_eq_zero D p).mp hb
        | succ j =>
          have := h0 j (by omega)
          rwa [show p + (j + 1) = p + 1 + j by omega]
      · have := h1 (by omega)
        rwa [show p + (zeroRun D (p + 1) m + 1) = p + 1 + zeroRun D (p + 1) m by omega]
    · rename_i hb
      refine ⟨fun j hj => absurd hj (by omega), fun _ => ?_⟩
      have := bit_lt D p
      simpa using (bit_eq_one D p).mp (by omega)

/-- `ue()` with the run of zeros given (R129). -/
theorem Reader.ue_of_run {r : Reader} {k : Nat} (hk : r.pos + k ≤ r.len)
    (hz : ∀ j < k, streamBit r.data (r.pos + j) = false)
    (h1 : r.pos + k < r.len → streamBit r.data (r.pos + k) = true) :
    r.ue = if r.pos + k = r.len then .error .oob
      else if k ≥ 64 then .error .malformed
      else if r.pos + 2 * k + 1 > r.len then .error .oob
      else .ok (2 ^ k - 1 + bits r.data (r.pos + k + 1) k, { r with pos := r.pos + 2 * k + 1 }) := by
  have : zeroRun r.data r.pos (r.len - r.pos) = k := zeroRun_eq (by omega) hz fun h => h1 (by omega)
  rw [Reader.ue, this]

/-- What a successful `ue()` says (R129, R139): its value is below `2^64 − 1`, and it moves the cursor on, inside the
reader. -/
theorem Reader.ue_ok {r r' : Reader} {v : Nat} (h : r.ue = .ok (v, r')) :
    v < 2 ^ 64 - 1 ∧ r'.data = r.data ∧ r'.len = r.len ∧ r.pos < r'.pos ∧ r'.pos ≤ r.len := by
  unfold Reader.ue at h
  dsimp only at h
  split at h
  · cases h
  · split at h
    · cases h
    · split at h
      · cases h
      · rename_i hk hl
        cases h
        generalize zeroRun r.data r.pos (r.len - r.pos) = k at *
        have hb := bits_lt r.data (r.pos + k + 1) k
        have hp : 2 ^ k ≤ 2 ^ 63 := Nat.pow_le_pow_right (by omega) (by omega)
        refine ⟨?_, rfl, rfl, ?_, ?_⟩
        · have : 0 < 2 ^ k := Nat.two_pow_pos k
          omega
        · show r.pos < r.pos + 2 * k + 1; omega
        · show r.pos + 2 * k + 1 ≤ r.len; omega

/-! ## Bits in a reader -/

theorem bitsAt_append {D : List Byte} {L p : Nat} {a b : List Bool} :
    BitsAt D L p (a ++ b) ↔ BitsAt D L p a ∧ BitsAt D L (p + a.length) b := by
  unfold BitsAt
  simp only [List.length_append]
  constructor
  · rintro ⟨hl, h⟩
    refine ⟨⟨by omega, fun j hj => ?_⟩, ⟨by omega, fun j hj => ?_⟩⟩
    · rw [h j (by omega), List.getD_append _ _ _ _ hj]
    · rw [Nat.add_assoc, h (a.length + j) (by omega), List.getD_append_right _ _ _ _ (by omega),
        Nat.add_sub_cancel_left]
  · rintro ⟨⟨h1, h2⟩, ⟨h3, h4⟩⟩
    refine ⟨by omega, fun j hj => ?_⟩
    by_cases hja : j < a.length
    · rw [h2 j hja, List.getD_append _ _ _ _ hja]
    · have := h4 (j - a.length) (by omega)
      rw [List.getD_append_right _ _ _ _ (by omega), ← this]
      congr 1; omega

@[simp] theorem natBits_length (n v : Nat) : (natBits n v).length = n := by simp [natBits]

theorem natBits_getD (n v j : Nat) (hj : j < n) : (natBits n v).getD j false = v.testBit (n - 1 - j) := by
  simp [natBits, hj]

@[simp] theorem ueBits_length (v : Nat) : (ueBits v).length = 2 * Nat.log2 (v + 1) + 1 := by
  simp [ueBits]; omega

/-- A fixed-width read at the bits of `v` (R128). -/
theorem Reader.u_at {n v : Nat} {r : Reader} (hv : v < 2 ^ n) (h : BitsAt r.data r.len r.pos (natBits n v)) :
    r.u n = .ok (v, { r with pos := r.pos + n }) := by
  obtain ⟨hl, hb⟩ := h
  rw [natBits_length] at hl hb
  rw [Reader.u_ok hl, bits_eq_of_natBits hv fun j hj => by rw [hb j hj, natBits_getD _ _ _ hj]]

/-- The parts of an Exp-Golomb code that stands in the reader (R138). -/
theorem bitsAt_ueBits {D : List Byte} {L p v : Nat} (h : BitsAt D L p (ueBits v)) :
    p + 2 * Nat.log2 (v + 1) + 1 ≤ L ∧ (∀ j < Nat.log2 (v + 1), streamBit D (p + j) = false) ∧
      streamBit D (p + Nat.log2 (v + 1)) = true ∧
      bits D (p + Nat.log2 (v + 1) + 1) (Nat.log2 (v + 1)) = v + 1 - 2 ^ Nat.log2 (v + 1) := by
  have hlen := h.1
  rw [ueBits_length] at hlen
  unfold ueBits at h
  generalize hk : Nat.log2 (v + 1) = k at *
  rw [bitsAt_append] at h
  obtain ⟨⟨-, hz⟩, h⟩ := h
  rw [List.length_replicate] at hz h
  rw [show true :: natBits k (v + 1 - 2 ^ k) = [true] ++ natBits k (v + 1 - 2 ^ k) from rfl, bitsAt_append] at h
  obtain ⟨⟨-, h1⟩, ⟨-, hs⟩⟩ := h
  rw [natBits_length] at hs
  refine ⟨by omega, fun j hj => by simpa using hz j hj, by simpa using h1 0 (by simp), ?_⟩
  refine bits_eq_of_natBits ?_ fun j hj => ?_
  · have h2 : v + 1 < 2 ^ (k + 1) := by rw [← hk]; exact Nat.lt_log2_self
    rw [Nat.pow_succ] at h2
    omega
  · have := hs j hj
    rw [natBits_getD _ _ _ hj] at this
    simpa using this

/-- The Exp-Golomb round trip (R138). -/
theorem Reader.ue_at {v : Nat} {r : Reader} (hv : v < 2 ^ 64 - 1) (h : BitsAt r.data r.len r.pos (ueBits v)) :
    r.ue = .ok (v, { r with pos := r.pos + 2 * Nat.log2 (v + 1) + 1 }) := by
  obtain ⟨hl, hz, h1, hs⟩ := bitsAt_ueBits h
  have hk : Nat.log2 (v + 1) < 64 := (Nat.log2_lt (by omega)).mpr (by omega)
  have hp : 2 ^ Nat.log2 (v + 1) ≤ v + 1 := Nat.log2_self_le (by omega)
  rw [Reader.ue_of_run (k := Nat.log2 (v + 1)) (by omega) hz fun _ => h1, if_neg (by omega), if_neg (by omega),
    if_neg (by omega), hs]
  have : 2 ^ Nat.log2 (v + 1) - 1 + (v + 1 - 2 ^ Nat.log2 (v + 1)) = v := by
    have := Nat.two_pow_pos (Nat.log2 (v + 1))
    omega
  rw [this]

/-- `uvlc()` at the code of a value below its cap (R133). -/
theorem Reader.uvlc_at {v : Nat} {r : Reader} (hv : v < 2 ^ 32 - 1) (h : BitsAt r.data r.len r.pos (ueBits v)) :
    r.uvlc = .ok (v, { r with pos := r.pos + 2 * Nat.log2 (v + 1) + 1 }) := by
  obtain ⟨hl, hz, h1, hs⟩ := bitsAt_ueBits h
  have hk : Nat.log2 (v + 1) < 32 := (Nat.log2_lt (by omega)).mpr (by omega)
  have hp : 2 ^ Nat.log2 (v + 1) ≤ v + 1 := Nat.log2_self_le (by omega)
  have hrun : zeroRun r.data r.pos (r.len - r.pos) = Nat.log2 (v + 1) :=
    zeroRun_eq (by omega) hz fun _ => h1
  unfold Reader.uvlc
  simp only [hrun]
  rw [if_neg (by omega), if_neg (by omega), Reader.u_ok (by simp; omega)]
  simp only [hs, show r.pos + Nat.log2 (v + 1) + 1 + Nat.log2 (v + 1) = r.pos + 2 * Nat.log2 (v + 1) + 1 by omega]
  have : v + 1 - 2 ^ Nat.log2 (v + 1) + 2 ^ Nat.log2 (v + 1) - 1 = v := by omega
  rw [this]

/-! ## Bytes -/

/-- Eight aligned bits are the byte (R65). -/
theorem bits_byte (D : List Byte) (i : Nat) : bits D (8 * i) 8 = byteAt D i := by
  refine bits_eq_of_natBits (byteAt_lt' D i) fun j hj => ?_
  unfold streamBit byteAt
  rw [show (8 * i + j) / 8 = i by omega, show (8 * i + j) % 8 = j by omega, BitVec.getLsbD]
where
  byteAt_lt' (D : List Byte) (i : Nat) : byteAt D i < 2 ^ 8 := (D.getD i 0).isLt

/-- Removing emulation-prevention bytes never lengthens (R136). -/
theorem epbStripFrom_length (z : Nat) (B : List Byte) : (epbStripFrom z B).length ≤ B.length := by
  induction B generalizing z with
  | nil => simp [epbStripFrom]
  | cons x rest ih =>
    unfold epbStripFrom
    split
    · have := ih 0; simp; omega
    · simpa using ih _

end Sys2Proof.Machine
end

