-- ==== Sys2Proof/Laws/Memory.lean ====
section
/-! SUPPORT. What the operations over IBUF do: reading after writing, and the canonical form (spec/20_memory.md R61,
R68). -/

namespace Sys2Proof.Machine

open Sys2Proof.Safety

/-- A byte just written reads back (R61). -/
theorem Memory.read_write_same (m : Memory) (a : Nat) (v : Byte) (hm : m.wf) : (m.write a v).read a = v := by
  induction m with
  | nil => by_cases h : v = Memory.unlisted <;> simp [Memory.write, Memory.read, h]
  | cons c rest ih =>
    have hr : Memory.wf rest := ⟨(List.pairwise_cons.mp hm.1).2, fun d hd => hm.2 d (List.mem_cons_of_mem _ hd)⟩
    have hc : ∀ d ∈ rest, c.1 < d.1 := (List.pairwise_cons.mp hm.1).1
    have key : ∀ (l : Memory), (∀ d ∈ l, a < d.1) → l.read a = Memory.unlisted := by
      intro l
      induction l with
      | nil => intro _; rfl
      | cons d l il =>
        intro h
        have := h d (by simp)
        simp only [Memory.read]
        rw [if_neg (by omega)]
        exact il fun e he => h e (by simp [he])
    unfold Memory.write
    split
    · rename_i h
      simp only [Memory.read, if_neg (Nat.ne_of_lt h)]
      exact ih hr
    · split
      · rename_i h
        split
        · rename_i hv
          rw [hv]
          exact key rest fun d hd => h ▸ hc d hd
        · simp [Memory.read]
      · rename_i h1 h2
        split
        · rename_i hv
          rw [hv]
          refine key _ fun d hd => ?_
          rcases List.mem_cons.mp hd with rfl | hd
          · omega
          · have := hc d hd; omega
        · simp [Memory.read]

/-- Every other byte is left alone (R61). -/
theorem Memory.read_write_other (m : Memory) (a b : Nat) (v : Byte) (hb : b ≠ a) : (m.write a v).read b = m.read b := by
  induction m with
  | nil => by_cases h : v = Memory.unlisted <;> simp [Memory.write, Memory.read, h, Ne.symm hb]
  | cons c rest ih =>
    unfold Memory.write
    split
    · simp only [Memory.read, ih]
    · split
      · rename_i h
        have hc : c.1 ≠ b := by omega
        split <;> simp [Memory.read, hc, Ne.symm hb]
      · split <;> simp [Memory.read, Ne.symm hb]

/-- Which cells a write can leave. -/
theorem Memory.mem_write {m : Memory} {a : Nat} {v : Byte} {d : Host.Cell} (hd : d ∈ m.write a v) :
    d ∈ m ∨ (d = (a, v) ∧ v ≠ Memory.unlisted) := by
  induction m with
  | nil =>
    unfold Memory.write at hd
    split at hd
    · simp at hd
    · rename_i h; exact .inr ⟨by simpa using hd, h⟩
  | cons c rest ih =>
    unfold Memory.write at hd
    split at hd
    · rcases List.mem_cons.mp hd with rfl | hd
      · simp
      · rcases ih hd with h | h
        · exact .inl (List.mem_cons_of_mem _ h)
        · exact .inr h
    · split at hd
      · split at hd
        · exact .inl (List.mem_cons_of_mem _ hd)
        · rename_i h
          rcases List.mem_cons.mp hd with rfl | hd
          · exact .inr ⟨rfl, h⟩
          · exact .inl (List.mem_cons_of_mem _ hd)
      · split at hd
        · exact .inl hd
        · rename_i h
          rcases List.mem_cons.mp hd with rfl | hd
          · exact .inr ⟨rfl, h⟩
          · exact .inl hd

/-- A write inside IBUF keeps the canonical form. -/
theorem Memory.write_wf {m : Memory} {a : Nat} (v : Byte) (hm : m.wf) (ha : a < Config.ibufSize) :
    (m.write a v).wf := by
  refine ⟨?_, fun d hd => ?_⟩
  · induction m with
    | nil => unfold Memory.write; split <;> simp
    | cons c rest ih =>
      have hr : Memory.wf rest := ⟨(List.pairwise_cons.mp hm.1).2, fun d hd => hm.2 d (List.mem_cons_of_mem _ hd)⟩
      have hc : ∀ d ∈ rest, c.1 < d.1 := (List.pairwise_cons.mp hm.1).1
      unfold Memory.write
      split
      · rename_i h
        refine List.pairwise_cons.mpr ⟨fun d hd => ?_, ih hr⟩
        rcases Memory.mem_write hd with h1 | ⟨rfl, -⟩
        · exact hc d h1
        · exact h
      · split
        · rename_i h
          split
          · exact hr.1
          · exact List.pairwise_cons.mpr ⟨fun d hd => h ▸ hc d hd, hr.1⟩
        · split
          · exact hm.1
          · refine List.pairwise_cons.mpr ⟨fun d hd => ?_, hm.1⟩
            rcases List.mem_cons.mp hd with rfl | hd
            · show a < _; omega
            · have := hc d hd; show a < _; omega
  · rcases Memory.mem_write hd with h | ⟨rfl, h⟩
    · exact hm.2 d h
    · exact ⟨ha, h⟩

/-- A byte write of several bytes inside IBUF keeps the canonical form. -/
theorem Memory.writeBytes_wf {m : Memory} {a : Nat} (v : List Byte) (hm : m.wf)
    (ha : a + v.length ≤ Config.ibufSize) : (m.writeBytes a v).wf := by
  induction v generalizing m a with
  | nil => exact hm
  | cons b rest ih =>
    simp only [List.length_cons] at ha
    exact ih (Memory.write_wf b hm (by omega)) (by omega)

/-- A byte outside those written is left alone (R61). -/
theorem Memory.read_writeBytes_outside (m : Memory) (a b : Nat) (v : List Byte) (hb : b < a ∨ a + v.length ≤ b) :
    (m.writeBytes a v).read b = m.read b := by
  induction v generalizing m a with
  | nil => rfl
  | cons x rest ih =>
    simp only [List.length_cons] at hb
    rw [Memory.writeBytes, ih _ _ (by omega), Memory.read_write_other _ _ _ _ (by omega)]

/-- A byte among those written reads back (R61). -/
theorem Memory.read_writeBytes_inside (m : Memory) (a i : Nat) (v : List Byte) (hm : m.wf)
    (ha : a + v.length ≤ Config.ibufSize) (hi : i < v.length) : (m.writeBytes a v).read (a + i) = v.getD i 0 := by
  induction v generalizing m a i with
  | nil => simp at hi
  | cons x rest ih =>
    simp only [List.length_cons] at hi ha
    have hw : (m.write a x).wf := Memory.write_wf x hm (by omega)
    cases i with
    | zero =>
      rw [Memory.writeBytes, Memory.read_writeBytes_outside _ _ _ _ (by omega), Nat.add_zero,
        Memory.read_write_same _ _ _ hm]
      rfl
    | succ i =>
      have := ih _ (a + 1) i hw (by omega) (by omega)
      rw [Memory.writeBytes, show a + (i + 1) = a + 1 + i by omega, this]
      rfl

@[simp] theorem Memory.readBytes_length (m : Memory) (a n : Nat) : (m.readBytes a n).length = n := by
  induction n generalizing a with
  | zero => rfl
  | succ n ih => simp [Memory.readBytes, ih]

/-- `MemRead` gives the bytes in address order (R10). -/
theorem Memory.readBytes_eq_map (m : Memory) (a n : Nat) :
    m.readBytes a n = (List.range n).map (fun i => m.read (a + i)) := by
  induction n generalizing a with
  | zero => rfl
  | succ n ih =>
    rw [Memory.readBytes, ih, List.range_succ_eq_map]
    simp [Function.comp_def, Nat.add_assoc, Nat.add_comm 1]

/-- A command's input is the bytes of IBUF at indices 0 to LEN − 1 (R68). -/
theorem State.input_eq (s : State) (len : Half) : s.input len = inputBytes s len := by
  simp [State.input, inputBytes, Memory.readBytes_eq_map]

@[simp] theorem State.input_length (s : State) (len : Half) : (s.input len).length = len.toNat := by
  simp [State.input]

@[simp] theorem inputBytes_length (s : State) (len : Half) : (inputBytes s len).length = len.toNat := by
  simp [inputBytes]

/-- The reset memory has the canonical form (R48). -/
theorem State.reset_ibuf_wf : State.reset.ibuf.wf := ⟨List.Pairwise.nil, by simp [State.reset]⟩

/-! `byteAt` and `beAt` -/

theorem byteAt_lt (S : List Byte) (i : Nat) : byteAt S i < 256 := (S.getD i 0).isLt

/-- An `n`-byte big-endian value has `8n` bits (R9). -/
theorem beAt_lt (S : List Byte) (i n : Nat) : beAt S i n < 256 ^ n := by
  induction n with
  | zero => simp [beAt]
  | succ n ih =>
    have := byteAt_lt S (i + n)
    rw [beAt, Nat.pow_succ]
    omega

/-- A two-byte big-endian value (R9). -/
theorem beAt_two (S : List Byte) (i : Nat) : beAt S i 2 = 256 * byteAt S i + byteAt S (i + 1) := by
  simp [beAt]

end Sys2Proof.Machine
end

