-- ==== Sys2Proof/Laws/Parse.lean ====
section
/-! SUPPORT. How parser procedures run: the result of each primitive, of a sequence and of the loops, and the notion of
what a procedure can do (`Does`), proved once per procedure and cited instead of unfolding it
(spec/60_exceptions.md R362). -/

namespace Sys2Proof.Machine

variable {σ α β : Type}

/-! ## Results -/

@[simp] theorem Parse.pure_run (a : α) (c : Ctx σ) : (pure a : Parse σ α) c = .ok a c := rfl

theorem Parse.bind_run (p : Parse σ α) (f : α → Parse σ β) (c : Ctx σ) :
    (p >>= f) c = match p c with
      | .ok a c' => f a c'
      | .error e c' => .error e c' := by
  show EStateM.bind p f c = _
  unfold EStateM.bind
  cases p c <;> rfl

/-- A sequence whose first part succeeds. -/
theorem Parse.bind_ok {p : Parse σ α} {f : α → Parse σ β} {c c' : Ctx σ} {a : α} (h : p c = .ok a c') :
    (p >>= f) c = f a c' := by rw [Parse.bind_run, h]

/-- A sequence whose first part raises (R362). -/
theorem Parse.bind_error {p : Parse σ α} {f : α → Parse σ β} {c c' : Ctx σ} {e : Status} (h : p c = .error e c') :
    (p >>= f) c = .error e c' := by rw [Parse.bind_run, h]

@[simp] theorem raise_run (st : Status) (c : Ctx σ) : (raise st : Parse σ α) c = .error st c := rfl

@[simp] theorem emit_run (f : Half) (v i j k : Nat) (c : Ctx σ) :
    (emit f v i j k : Parse σ Unit) c =
      .ok () { c with recs := c.recs ++ [⟨f, BitVec.ofNat 32 c.unit, BitVec.ofNat 32 i, BitVec.ofNat 32 j,
        BitVec.ofNat 32 k, BitVec.ofNat 64 v⟩] } := rfl

@[simp] theorem setUnit_run (n : Nat) (c : Ctx σ) : (setUnit n : Parse σ Unit) c = .ok () { c with unit := n } := rfl

@[simp] theorem setReader_run (r : Reader) (c : Ctx σ) : (setReader r : Parse σ Unit) c = .ok () { c with rd := r } :=
  rfl

@[simp] theorem getReader_run (c : Ctx σ) : (getReader : Parse σ Reader) c = .ok c.rd c := rfl

@[simp] theorem getEnv_run (c : Ctx σ) : (getEnv : Parse σ σ) c = .ok c.env c := rfl

@[simp] theorem commit_run (e : σ) (c : Ctx σ) : (commit e : Parse σ Unit) c = .ok () { c with env := e } := rfl

/-- A primitive read that succeeds. -/
theorem liftRead_ok {p : Reader → Except ReadFail (α × Reader)} {c : Ctx σ} {a : α} {r : Reader}
    (h : p c.rd = .ok (a, r)) : (liftRead p : Parse σ α) c = .ok a { c with rd := r } := by simp [liftRead, h]

/-- A primitive read past the end raises TRUNCATED (R127). -/
theorem liftRead_oob {p : Reader → Except ReadFail (α × Reader)} {c : Ctx σ} (h : p c.rd = .error .oob) :
    (liftRead p : Parse σ α) c = .error .truncated c := by simp [liftRead, h]

/-- A malformed primitive read raises MALFORMED (R127). -/
theorem liftRead_malformed {p : Reader → Except ReadFail (α × Reader)} {c : Ctx σ} (h : p c.rd = .error .malformed) :
    (liftRead p : Parse σ α) c = .error .malformed c := by simp [liftRead, h]

/-- A syntax element that is read is emitted (R91). -/
theorem fieldOfRead_ok {p : Reader → Except ReadFail (Nat × Reader)} {f : Half} {i j k v : Nat} {c : Ctx σ}
    {r : Reader} (h : p c.rd = .ok (v, r)) :
    (fieldOfRead p f i j k : Parse σ Nat) c =
      .ok v { c with rd := r, recs := c.recs ++ [⟨f, BitVec.ofNat 32 c.unit, BitVec.ofNat 32 i, BitVec.ofNat 32 j,
        BitVec.ofNat 32 k, BitVec.ofNat 64 v⟩] } := by
  rw [fieldOfRead, Parse.bind_ok (liftRead_ok h)]; rfl

theorem fieldOfRead_oob {p : Reader → Except ReadFail (Nat × Reader)} {f : Half} {i j k : Nat} {c : Ctx σ}
    (h : p c.rd = .error .oob) : (fieldOfRead p f i j k : Parse σ Nat) c = .error .truncated c := by
  rw [fieldOfRead, Parse.bind_error (liftRead_oob h)]

theorem fieldOfRead_malformed {p : Reader → Except ReadFail (Nat × Reader)} {f : Half} {i j k : Nat} {c : Ctx σ}
    (h : p c.rd = .error .malformed) : (fieldOfRead p f i j k : Parse σ Nat) c = .error .malformed c := by
  rw [fieldOfRead, Parse.bind_error (liftRead_malformed h)]

/-! ## What a procedure can do -/

/-- From any context, the procedure relates the committed state before to the one after by `R`; it returns a value with
`Q`, or raises a status of `E`. -/
def Parse.Does (R : σ → σ → Prop) (E : List Status) (Q : α → Prop) (p : Parse σ α) : Prop :=
  ∀ c, (∀ a c', p c = .ok a c' → R c.env c'.env ∧ Q a) ∧ ∀ st c', p c = .error st c' → R c.env c'.env ∧ st ∈ E

variable {R : σ → σ → Prop} {E : List Status} {Q : α → Prop} {Q' : β → Prop}

theorem Parse.Does.bind {p : Parse σ α} {f : α → Parse σ β} (ht : ∀ a b c, R a b → R b c → R a c)
    (hp : p.Does R E Q) (hf : ∀ a, Q a → (f a).Does R E Q') : (p >>= f).Does R E Q' := by
  intro c
  rw [Parse.bind_run]
  cases h : p c with
  | ok a c1 =>
    obtain ⟨hR, hQ⟩ := (hp c).1 a c1 h
    exact ⟨fun b c' hb => ⟨ht _ _ _ hR ((hf a hQ c1).1 b c' hb).1, ((hf a hQ c1).1 b c' hb).2⟩,
      fun st c' hb => ⟨ht _ _ _ hR ((hf a hQ c1).2 st c' hb).1, ((hf a hQ c1).2 st c' hb).2⟩⟩
  | error e c1 => exact ⟨fun b c' hb => (nomatch hb), fun st c' hb => by cases hb; exact (hp c).2 _ _ h⟩

theorem Parse.Does.imp {p : Parse σ α} {E' : List Status} {P : α → Prop} (hE : ∀ st ∈ E, st ∈ E')
    (hQ : ∀ a, Q a → P a) (hp : p.Does R E Q) : p.Does R E' P := fun c =>
  ⟨fun a c' h => ⟨((hp c).1 a c' h).1, hQ _ ((hp c).1 a c' h).2⟩,
    fun st c' h => ⟨((hp c).2 st c' h).1, hE _ ((hp c).2 st c' h).2⟩⟩

/-- The committed state is unchanged. -/
abbrev Parse.Keeps (E : List Status) (Q : α → Prop) (p : Parse σ α) : Prop := p.Does (fun a b => b = a) E Q

theorem Parse.Keeps.bind {p : Parse σ α} {f : α → Parse σ β} (hp : p.Keeps E Q)
    (hf : ∀ a, Q a → (f a).Keeps E Q') : (p >>= f).Keeps E Q' :=
  Parse.Does.bind (fun _ _ _ h h' => h'.trans h) hp hf

/-- A procedure that keeps the committed state does whatever a reflexive relation allows. -/
theorem Parse.Keeps.does {p : Parse σ α} (hr : ∀ a, R a a) (hp : p.Keeps E Q) : p.Does R E Q := fun c =>
  ⟨fun a c' h => ⟨((hp c).1 a c' h).1 ▸ hr _, ((hp c).1 a c' h).2⟩,
    fun st c' h => ⟨((hp c).2 st c' h).1 ▸ hr _, ((hp c).2 st c' h).2⟩⟩

/-- A procedure that keeps the committed state, then one that does what a reflexive relation allows. -/
theorem Parse.Keeps.bind_does {p : Parse σ α} {f : α → Parse σ β} (hr : ∀ a, R a a) (hp : p.Keeps E Q)
    (hf : ∀ a, Q a → (f a).Does R E Q') : (p >>= f).Does R E Q' := by
  intro c
  rw [Parse.bind_run]
  cases h : p c with
  | ok a c1 =>
    obtain ⟨he, hq⟩ := (hp c).1 a c1 h
    have he : c1.env = c.env := he
    have := hf a hq c1
    rw [he] at this
    exact this
  | error st c1 =>
    obtain ⟨he, hs⟩ := (hp c).2 st c1 h
    have he : c1.env = c.env := he
    exact ⟨fun _ _ h' => (nomatch h'), fun _ _ h' => by cases h'; exact ⟨he ▸ hr _, hs⟩⟩

theorem Parse.keeps_pure {a : α} (h : Q a) : (pure a : Parse σ α).Keeps E Q := fun _ =>
  ⟨fun _ _ h' => by cases h'; exact ⟨rfl, h⟩, fun _ _ h' => nomatch h'⟩

theorem keeps_raise {st : Status} (h : st ∈ E) : (raise st : Parse σ α).Keeps E Q := fun _ =>
  ⟨fun _ _ h' => (nomatch h'), fun _ _ h' => by cases h'; exact ⟨rfl, h⟩⟩

theorem keeps_emit {P : Unit → Prop} {f : Half} {v i j k : Nat} (h : P ()) :
    (emit f v i j k : Parse σ Unit).Keeps E P := fun _ =>
  ⟨fun _ _ h' => by cases h'; exact ⟨rfl, h⟩, fun _ _ h' => nomatch h'⟩

theorem keeps_setUnit {P : Unit → Prop} {n : Nat} (h : P ()) : (setUnit n : Parse σ Unit).Keeps E P := fun _ =>
  ⟨fun _ _ h' => by cases h'; exact ⟨rfl, h⟩, fun _ _ h' => nomatch h'⟩

theorem keeps_setReader {P : Unit → Prop} {r : Reader} (h : P ()) : (setReader r : Parse σ Unit).Keeps E P := fun _ =>
  ⟨fun _ _ h' => by cases h'; exact ⟨rfl, h⟩, fun _ _ h' => nomatch h'⟩

theorem keeps_getReader {P : Reader → Prop} (h : ∀ r, P r) : (getReader : Parse σ Reader).Keeps E P := fun _ =>
  ⟨fun _ _ h' => by cases h'; exact ⟨rfl, h _⟩, fun _ _ h' => nomatch h'⟩

theorem keeps_getEnv {P : σ → Prop} (h : ∀ r, P r) : (getEnv : Parse σ σ).Keeps E P := fun _ =>
  ⟨fun _ _ h' => by cases h'; exact ⟨rfl, h _⟩, fun _ _ h' => nomatch h'⟩

/-- A read that cannot fail MALFORMED raises TRUNCATED alone. -/
theorem keeps_liftRead_oob {p : Reader → Except ReadFail (α × Reader)} (hm : ∀ r, p r ≠ .error .malformed)
    (hE : Status.truncated ∈ E) : (liftRead p : Parse σ α).Keeps E (fun _ => True) := fun c => by
  unfold liftRead
  refine ⟨fun a c' h => ?_, fun st c' h => ?_⟩ <;> (split at h <;> cases h)
  · simp
  · exact ⟨rfl, hE⟩
  · rename_i h; exact absurd h (hm _)

theorem keeps_liftRead {p : Reader → Except ReadFail (α × Reader)} (hE : Status.truncated ∈ E)
    (hM : Status.malformed ∈ E) : (liftRead p : Parse σ α).Keeps E (fun _ => True) := fun c => by
  unfold liftRead
  refine ⟨fun a c' h => ?_, fun st c' h => ?_⟩ <;> (split at h <;> cases h)
  · simp
  · exact ⟨rfl, hE⟩
  · exact ⟨rfl, hM⟩

theorem keeps_fieldOfRead_oob {p : Reader → Except ReadFail (Nat × Reader)} (hm : ∀ r, p r ≠ .error .malformed)
    (hE : Status.truncated ∈ E) {f : Half} {i j k : Nat} :
    (fieldOfRead p f i j k : Parse σ Nat).Keeps E (fun _ => True) :=
  (keeps_liftRead_oob hm hE).bind fun _ _ =>
    Parse.Keeps.bind (keeps_emit (P := fun _ => True) trivial) fun _ _ => Parse.keeps_pure trivial

theorem keeps_fieldOfRead {p : Reader → Except ReadFail (Nat × Reader)} (hE : Status.truncated ∈ E)
    (hM : Status.malformed ∈ E) {f : Half} {i j k : Nat} :
    (fieldOfRead p f i j k : Parse σ Nat).Keeps E (fun _ => True) :=
  (keeps_liftRead hE hM).bind fun _ _ =>
    Parse.Keeps.bind (keeps_emit (P := fun _ => True) trivial) fun _ _ => Parse.keeps_pure trivial

/-- `u(n)` never fails MALFORMED (R127). -/
theorem Reader.u_ne_malformed (n : Nat) (r : Reader) : r.u n ≠ .error .malformed := by
  unfold Reader.u; split <;> simp

/-- `uvlc()` never fails MALFORMED (R133). -/
theorem Reader.uvlc_ne_malformed (r : Reader) : r.uvlc ≠ .error .malformed := by
  unfold Reader.uvlc
  dsimp only
  split
  · simp
  · split
    · simp
    · split
      · rename_i h; intro h'; cases h'; exact Reader.u_ne_malformed _ _ h
      · simp

/-- `leb128()` never fails MALFORMED (R127). -/
theorem Reader.leb128From_ne_malformed (fuel i v : Nat) (r : Reader) : r.leb128From fuel i v ≠ .error .malformed := by
  induction fuel generalizing i v r with
  | zero => simp [Reader.leb128From]
  | succ f ih =>
    unfold Reader.leb128From
    split
    · rename_i h; intro h'; cases h'; exact Reader.u_ne_malformed _ _ h
    · dsimp only
      split
      · simp
      · exact ih _ _ _

theorem keeps_fieldU (hE : Status.truncated ∈ E) {f : Half} {n i j k : Nat} :
    (fieldU f n i j k : Parse σ Nat).Keeps E (fun _ => True) :=
  keeps_fieldOfRead_oob (Reader.u_ne_malformed n) hE

theorem keeps_fieldUe (hE : Status.truncated ∈ E) (hM : Status.malformed ∈ E) {f : Half} {i j k : Nat} :
    (fieldUe f i j k : Parse σ Nat).Keeps E (fun _ => True) := keeps_fieldOfRead hE hM

theorem keeps_fieldSe (hE : Status.truncated ∈ E) (hM : Status.malformed ∈ E) {f : Half} {i j k : Nat} :
    (fieldSe f i j k : Parse σ Nat).Keeps E (fun _ => True) := keeps_fieldOfRead hE hM

/-- A counted loop does what its passes do. -/
theorem keeps_forRange {count start : Nat} {body : Nat → Parse σ Unit}
    (h : ∀ i, (body i).Keeps E (fun _ => True)) : (forRange count start body).Keeps E (fun _ => True) := by
  induction count generalizing start with
  | zero => exact Parse.keeps_pure trivial
  | succ n ih => exact (h start).bind fun _ _ => ih

/-- A data-bounded loop does what its passes do, and may raise TRUNCATED (R139). -/
theorem keeps_repeatUntil {fuel start : Nat} {body : Nat → Parse σ Bool} (hE : Status.truncated ∈ E)
    (h : ∀ i, (body i).Keeps E (fun _ => True)) : (repeatUntil fuel start body).Keeps E (fun _ => True) := by
  induction fuel generalizing start with
  | zero => exact keeps_raise hE
  | succ n ih =>
    refine (h start).bind fun b _ => ?_
    cases b
    · exact ih
    · exact Parse.keeps_pure trivial

/-! ## Completion -/

/-- The codes of a list of statuses. -/
theorem runParser_cases {opc : Byte} {s : State} {env : σ} {put : State → σ → State} {p : Parse σ Unit}
    {R : σ → σ → Prop} {E : List Status} (h : p.Does R E (fun _ => True)) :
    ∃ e st recs, R env e ∧ (st = .ok ∨ st ∈ E) ∧ runParser opc s env put p = (put s e).complete opc st recs := by
  unfold runParser
  cases hp : p (Ctx.start env) with
  | ok a c => exact ⟨c.env, .ok, c.recs, ((h _).1 a c hp).1, .inl rfl, rfl⟩
  | error st c => exact ⟨c.env, st, c.recs, ((h _).2 st c hp).1, .inr ((h _).2 st c hp).2, rfl⟩

/-- A parser command that runs to its end. -/
theorem runParser_ok {opc : Byte} {s : State} {env : σ} {put : State → σ → State} {p : Parse σ Unit} {c : Ctx σ}
    (h : p (Ctx.start env) = .ok () c) : runParser opc s env put p = (put s c.env).complete opc .ok c.recs := by
  rw [runParser, h]

/-- A parser command that raises (R362). -/
theorem runParser_error {opc : Byte} {s : State} {env : σ} {put : State → σ → State} {p : Parse σ Unit} {c : Ctx σ}
    {st : Status} (h : p (Ctx.start env) = .error st c) :
    runParser opc s env put p = (put s c.env).complete opc st c.recs := by
  rw [runParser, h]

end Sys2Proof.Machine
end

