-- ==== Sys2Proof/Laws/Procedures.lean ====
section
/-! SUPPORT. What each parser procedure can do to the committed state, and which statuses it can raise
(spec/60_exceptions.md R361, R362). -/

set_option linter.unreachableTactic false
set_option linter.unusedTactic false

namespace Sys2Proof.Machine

/-! ## H.264 -/

/-- What an H.264 parser can raise (R361). -/
def h264Errors : List Status := [.truncated, .malformed, .outOfOrderState]

theorem keeps_spsStart : (spsStart).Keeps h264Errors (fun _ => True) := by
  unfold spsStart
  repeat' first
    | exact Parse.keeps_pure trivial
    | exact keeps_fieldU (by decide)
    | exact keeps_fieldUe (by decide) (by decide)
    | refine Parse.Keeps.bind (Q := fun _ => True) ?_ fun _ _ => ?_
    | split

theorem keeps_scalingListFrom (i count j last next : Nat) :
    (scalingListFrom i count j last next).Keeps h264Errors (fun _ => True) := by
  induction count generalizing j last next with
  | zero => exact Parse.keeps_pure trivial
  | succ n ih =>
    unfold scalingListFrom
    split
    · exact ih _ _ _
    · exact (keeps_fieldSe (by decide) (by decide)).bind fun _ _ => ih _ _ _

theorem keeps_spsScalingEntry (i : Nat) : (spsScalingEntry i).Keeps h264Errors (fun _ => True) := by
  unfold spsScalingEntry
  repeat' first
    | exact Parse.keeps_pure trivial
    | exact keeps_fieldU (by decide)
    | exact keeps_scalingListFrom _ _ _ _ _
    | refine Parse.Keeps.bind (Q := fun _ => True) ?_ fun _ _ => ?_
    | split

theorem keeps_spsHighProfile (prof : Nat) : (spsHighProfile prof).Keeps h264Errors (fun _ => True) := by
  unfold spsHighProfile
  repeat' first
    | exact Parse.keeps_pure trivial
    | exact keeps_fieldU (by decide)
    | exact keeps_fieldUe (by decide) (by decide)
    | exact keeps_forRange keeps_spsScalingEntry
    | refine Parse.Keeps.bind (Q := fun _ => True) ?_ fun _ _ => ?_
    | split

/-- A checked log2 field is between 4 and 16 (R173). -/
theorem keeps_spsLog2 (f : Half) : (spsLog2 f).Keeps h264Errors (fun v => 4 ≤ v ∧ v ≤ 16) := by
  unfold spsLog2
  refine (keeps_fieldUe (by decide) (by decide)).bind fun v _ => ?_
  split
  · exact keeps_raise (by decide)
  · exact Parse.keeps_pure (by omega)

/-- The value of log2_max_pic_order_cnt_lsb: between 4 and 16 for type 0, otherwise 0 (R173, R175). -/
theorem keeps_spsPoc (poc : Nat) :
    (spsPoc poc).Keeps h264Errors (fun r => (poc = 0 → 4 ≤ r.1 ∧ r.1 ≤ 16) ∧ (poc ≠ 0 → r.1 = 0)) := by
  unfold spsPoc
  split
  · exact (keeps_spsLog2 _).bind fun v hv => Parse.keeps_pure ⟨fun _ => hv, by omega⟩
  · rename_i h
    split
    · refine Parse.Keeps.bind (Q := fun _ => True) (keeps_fieldU (by decide)) fun _ _ => ?_
      refine Parse.Keeps.bind (Q := fun _ => True) (keeps_fieldSe (by decide) (by decide)) fun _ _ => ?_
      refine Parse.Keeps.bind (Q := fun _ => True) (keeps_fieldSe (by decide) (by decide)) fun _ _ => ?_
      refine Parse.Keeps.bind (Q := fun _ => True) (keeps_fieldUe (by decide) (by decide)) fun _ _ => ?_
      refine Parse.Keeps.bind (Q := fun _ => True) (keeps_forRange fun _ => ?_) fun _ _ =>
        Parse.keeps_pure ⟨fun h' => absurd h' h, fun _ => rfl⟩
      exact (keeps_fieldSe (by decide) (by decide)).bind fun _ _ => Parse.keeps_pure trivial
    · exact Parse.keeps_pure ⟨fun h' => absurd h' h, fun _ => rfl⟩

theorem keeps_spsSize : (spsSize).Keeps h264Errors (fun _ => True) := by
  unfold spsSize
  repeat' first
    | exact Parse.keeps_pure trivial
    | exact keeps_fieldU (by decide)
    | exact keeps_fieldUe (by decide) (by decide)
    | refine Parse.Keeps.bind (Q := fun _ => True) ?_ fun _ _ => ?_
    | split

theorem keeps_spsCropping (fc : Nat) : (spsCropping fc).Keeps h264Errors (fun _ => True) := by
  unfold spsCropping
  repeat' first
    | exact Parse.keeps_pure trivial
    | exact keeps_fieldUe (by decide) (by decide)
    | refine Parse.Keeps.bind (Q := fun _ => True) ?_ fun _ _ => ?_
    | split

theorem keeps_spsEnd (fm : Nat) : (spsEnd fm).Keeps h264Errors (fun _ => True) := by
  unfold spsEnd
  repeat' first
    | exact Parse.keeps_pure trivial
    | exact keeps_fieldU (by decide)
    | exact keeps_emit trivial
    | exact keeps_spsCropping _
    | refine Parse.Keeps.bind (Q := fun _ => True) ?_ fun _ _ => ?_
    | split

/-- A `ue` value is below 2^64 (R129). -/
theorem keeps_fieldUe_lt {σ : Type} {E : List Status} (hE : Status.truncated ∈ E) (hM : Status.malformed ∈ E)
    {f : Half} {i j k : Nat} : (fieldUe f i j k : Parse σ Nat).Keeps E (fun v => v < 2 ^ 64) := by
  unfold fieldUe fieldOfRead
  refine Parse.Keeps.bind (Q := fun v => v < 2 ^ 64) (fun c => ?_) fun v hv =>
    Parse.Keeps.bind (Q := fun _ => True) (keeps_emit trivial) fun _ _ => Parse.keeps_pure hv
  unfold liftRead
  refine ⟨fun a c' h => ?_, fun st c' h => ?_⟩ <;> (split at h <;> cases h)
  · rename_i h
    have := (Reader.ue_ok h).1
    exact ⟨rfl, by omega⟩
  · exact ⟨rfl, hE⟩
  · exact ⟨rfl, hM⟩

/-- The ranges of a committed SPS part (R40). -/
def SpsRanges (t : SpsPart) : Prop :=
  4 ≤ t.log2MaxFrameNum.toNat ∧ t.log2MaxFrameNum.toNat ≤ 16 ∧
    (t.log2MaxPicOrderCntLsb.toNat = 0 ∨
      4 ≤ t.log2MaxPicOrderCntLsb.toNat ∧ t.log2MaxPicOrderCntLsb.toNat ≤ 16) ∧
    (t.picOrderCntType = 0 → 4 ≤ t.log2MaxPicOrderCntLsb.toNat)

theorem keeps_spsFields : spsFields.Keeps h264Errors SpsRanges := by
  unfold spsFields
  refine Parse.Keeps.bind keeps_spsStart fun _ _ => ?_
  refine Parse.Keeps.bind (keeps_spsHighProfile _) fun _ _ => ?_
  refine Parse.Keeps.bind (keeps_spsLog2 _) fun lfn hl => ?_
  refine Parse.Keeps.bind (keeps_fieldUe_lt (by decide) (by decide)) fun poc hp => ?_
  refine Parse.Keeps.bind (keeps_spsPoc poc) fun r hr => ?_
  refine Parse.Keeps.bind keeps_spsSize fun _ _ => ?_
  refine Parse.Keeps.bind (keeps_spsEnd _) fun _ _ => ?_
  refine Parse.keeps_pure ⟨?_, ?_, ?_, ?_⟩
  all_goals simp only [BitVec.toNat_ofNat]
  · omega
  · omega
  · by_cases h : poc = 0
    · have := hr.1 h; omega
    · have := hr.2 h; omega
  · intro h
    have h0 : poc = 0 := by
      have := congrArg BitVec.toNat h
      rw [BitVec.toNat_ofNat, Nat.mod_eq_of_lt hp] at this
      simpa using this
    have := hr.1 h0
    omega

/-- What an SPS commits (R175). -/
theorem does_spsProc :
    spsProc.Does (fun h h' => h' = h ∨ ∃ t, SpsRanges t ∧ h' = { h with sps := t, spsValid := true }) h264Errors
      (fun _ => True) := fun c => by
  unfold spsProc
  rw [Parse.bind_run]
  cases h : spsFields c with
  | ok t c1 =>
    obtain ⟨he, ht⟩ := (keeps_spsFields c).1 t c1 h
    simp only [spsCommit, Parse.bind_run, getEnv_run, commit_run, he]
    exact ⟨fun a c' h' => by cases h'; exact ⟨.inr ⟨t, ht, rfl⟩, trivial⟩, fun _ _ h' => nomatch h'⟩
  | error st c1 =>
    obtain ⟨he, ht⟩ := (keeps_spsFields c).2 st c1 h
    exact ⟨fun _ _ h' => (nomatch h'), fun st' c' h' => by cases h'; exact ⟨.inl he, ht⟩⟩

/-- An SPS that raises commits nothing (R175). -/
theorem spsProc_error {c c' : Ctx H264State} {st : Status} (h : spsProc c = .error st c') : c'.env = c.env := by
  unfold spsProc at h
  rw [Parse.bind_run] at h
  cases h1 : spsFields c with
  | ok t c1 => simp [h1, spsCommit, Parse.bind_run] at h
  | error st c1 => rw [h1] at h; cases h; exact ((keeps_spsFields c).2 _ _ h1).1

theorem keeps_ppsStart : (ppsStart).Keeps h264Errors (fun _ => True) := by
  unfold ppsStart
  repeat' first
    | exact Parse.keeps_pure trivial
    | exact keeps_fieldU (by decide)
    | exact keeps_fieldUe (by decide) (by decide)
    | refine Parse.Keeps.bind (Q := fun _ => True) ?_ fun _ _ => ?_
    | split

theorem keeps_ppsMapFields (ng mt : Nat) : (ppsMapFields ng mt).Keeps h264Errors (fun _ => True) := by
  unfold ppsMapFields
  repeat' first
    | exact Parse.keeps_pure trivial
    | exact keeps_fieldU (by decide)
    | exact keeps_fieldUe (by decide) (by decide)
    | refine keeps_forRange fun _ => ?_
    | refine Parse.Keeps.bind (Q := fun _ => True) ?_ fun _ _ => ?_
    | split

theorem keeps_ppsSliceGroups (ng : Nat) : (ppsSliceGroups ng).Keeps h264Errors (fun _ => True) := by
  unfold ppsSliceGroups
  repeat' first
    | exact Parse.keeps_pure trivial
    | exact keeps_fieldUe (by decide) (by decide)
    | exact keeps_ppsMapFields _ _
    | refine Parse.Keeps.bind (Q := fun _ => True) ?_ fun _ _ => ?_
    | split

theorem keeps_ppsExtension : (ppsExtension).Keeps h264Errors (fun _ => True) := by
  unfold ppsExtension
  repeat' first
    | exact Parse.keeps_pure trivial
    | exact keeps_getReader fun _ => trivial
    | exact keeps_emit trivial
    | refine Parse.Keeps.bind (Q := fun _ => True) ?_ fun _ _ => ?_
    | split

theorem keeps_ppsFields : (ppsFields).Keeps h264Errors (fun _ => True) := by
  unfold ppsFields
  repeat' first
    | exact Parse.keeps_pure trivial
    | exact keeps_ppsStart
    | exact keeps_ppsSliceGroups _
    | exact keeps_fieldUe (by decide) (by decide)
    | exact keeps_fieldU (by decide)
    | exact keeps_fieldSe (by decide) (by decide)
    | exact keeps_ppsExtension
    | refine Parse.Keeps.bind (Q := fun _ => True) ?_ fun _ _ => ?_
    | split

/-- What a PPS commits (R180, R185). -/
theorem does_ppsProc :
    ppsProc.Does (fun h h' => h' = h ∨ h.spsValid = true ∧ ∃ t, h' = { h with pps := t, ppsValid := true }) h264Errors
      (fun _ => True) := fun c => by
  unfold ppsProc
  rw [Parse.bind_run, getEnv_run]
  dsimp only
  split
  · rename_i hv
    rw [Parse.bind_run]
    cases h : ppsFields c with
    | ok t c1 =>
      obtain ⟨he, -⟩ := (keeps_ppsFields c).1 t c1 h
      simp only [ppsCommit, Parse.bind_run, getEnv_run, commit_run, he]
      exact ⟨fun a c' h' => by cases h'; exact ⟨.inr ⟨hv, t, rfl⟩, trivial⟩, fun _ _ h' => nomatch h'⟩
    | error st c1 =>
      obtain ⟨he, ht⟩ := (keeps_ppsFields c).2 st c1 h
      exact ⟨fun _ _ h' => (nomatch h'), fun st' c' h' => by cases h'; exact ⟨.inl he, ht⟩⟩
  · exact ⟨fun _ _ h' => (nomatch h'), fun st' c' h' => by cases h'; exact ⟨.inl rfl, by decide⟩⟩

/-- A PPS that raises commits nothing (R185). -/
theorem ppsProc_error {c c' : Ctx H264State} {st : Status} (h : ppsProc c = .error st c') : c'.env = c.env := by
  unfold ppsProc at h
  rw [Parse.bind_run, getEnv_run] at h
  dsimp only at h
  split at h
  · rw [Parse.bind_run] at h
    cases h1 : ppsFields c with
    | ok t c1 => simp [h1, ppsCommit, Parse.bind_run] at h
    | error st c1 => rw [h1] at h; cases h; exact ((keeps_ppsFields c).2 _ _ h1).1
  · cases h; rfl

theorem keeps_sliceStart : (sliceStart).Keeps h264Errors (fun _ => True) := by
  unfold sliceStart
  repeat' first
    | exact Parse.keeps_pure trivial
    | exact keeps_fieldUe (by decide) (by decide)
    | exact keeps_emit trivial
    | exact keeps_raise (by decide)
    | refine Parse.Keeps.bind (Q := fun _ => True) ?_ fun _ _ => ?_
    | split

theorem keeps_sliceFrame (S : SpsPart) : (sliceFrame S).Keeps h264Errors (fun _ => True) := by
  unfold sliceFrame
  repeat' first
    | exact Parse.keeps_pure trivial
    | exact keeps_fieldU (by decide)
    | refine Parse.Keeps.bind (Q := fun _ => True) ?_ fun _ _ => ?_
    | split

theorem keeps_slicePoc (S : SpsPart) (P : PpsPart) (t field : Nat) : (slicePoc S P t field).Keeps h264Errors (fun _ => True) := by
  unfold slicePoc
  repeat' first
    | exact Parse.keeps_pure trivial
    | exact keeps_fieldU (by decide)
    | exact keeps_fieldUe (by decide) (by decide)
    | exact keeps_fieldSe (by decide) (by decide)
    | refine Parse.Keeps.bind (Q := fun _ => True) ?_ fun _ _ => ?_
    | split

theorem keeps_sliceRefIdx (P : PpsPart) (c : Nat) : (sliceRefIdx P c).Keeps h264Errors (fun _ => True) := by
  unfold sliceRefIdx
  repeat' first
    | exact Parse.keeps_pure trivial
    | exact keeps_fieldU (by decide)
    | exact keeps_fieldUe (by decide) (by decide)
    | refine Parse.Keeps.bind (Q := fun _ => True) ?_ fun _ _ => ?_
    | split

theorem keeps_rplmEntry (L n : Nat) : (rplmEntry L n).Keeps h264Errors (fun _ => True) := by
  unfold rplmEntry
  repeat' first
    | exact Parse.keeps_pure trivial
    | exact keeps_fieldUe (by decide) (by decide)
    | refine Parse.Keeps.bind (Q := fun _ => True) ?_ fun _ _ => ?_
    | split

theorem keeps_rplmList (L : Nat) : (rplmList L).Keeps h264Errors (fun _ => True) := by
  unfold rplmList rplmLoop
  repeat' first
    | exact Parse.keeps_pure trivial
    | exact keeps_fieldU (by decide)
    | exact keeps_getReader fun _ => trivial
    | exact keeps_repeatUntil (by decide) (keeps_rplmEntry L)
    | refine Parse.Keeps.bind (Q := fun _ => True) ?_ fun _ _ => ?_
    | split

theorem keeps_sliceRplm (c : Nat) : (sliceRplm c).Keeps h264Errors (fun _ => True) := by
  unfold sliceRplm
  repeat' first
    | exact Parse.keeps_pure trivial
    | exact keeps_rplmList _
    | refine Parse.Keeps.bind (Q := fun _ => True) ?_ fun _ _ => ?_
    | split

theorem keeps_weightEntry (cat L i : Nat) : (weightEntry cat L i).Keeps h264Errors (fun _ => True) := by
  unfold weightEntry
  repeat' first
    | exact Parse.keeps_pure trivial
    | exact keeps_fieldU (by decide)
    | exact keeps_fieldSe (by decide) (by decide)
    | refine keeps_forRange fun _ => ?_
    | refine Parse.Keeps.bind (Q := fun _ => True) ?_ fun _ _ => ?_
    | split

theorem keeps_slicePredWeight (S : SpsPart) (P : PpsPart) (c n0 n1 : Nat) : (slicePredWeight S P c n0 n1).Keeps h264Errors (fun _ => True) := by
  unfold slicePredWeight
  repeat' first
    | exact Parse.keeps_pure trivial
    | exact keeps_fieldUe (by decide) (by decide)
    | exact keeps_forRange fun _ => keeps_weightEntry _ _ _
    | refine Parse.Keeps.bind (Q := fun _ => True) ?_ fun _ _ => ?_
    | split

theorem keeps_mmcoEntry (n : Nat) : (mmcoEntry n).Keeps h264Errors (fun _ => True) := by
  unfold mmcoEntry
  repeat' first
    | exact Parse.keeps_pure trivial
    | exact keeps_fieldUe (by decide) (by decide)
    | refine Parse.Keeps.bind (Q := fun _ => True) ?_ fun _ _ => ?_
    | split

theorem keeps_sliceMarking (nri t : Nat) : (sliceMarking nri t).Keeps h264Errors (fun _ => True) := by
  unfold sliceMarking
  repeat' first
    | exact Parse.keeps_pure trivial
    | exact keeps_fieldU (by decide)
    | exact keeps_getReader fun _ => trivial
    | exact keeps_repeatUntil (by decide) keeps_mmcoEntry
    | refine Parse.Keeps.bind (Q := fun _ => True) ?_ fun _ _ => ?_
    | split

theorem keeps_sliceQp (P : PpsPart) (c : Nat) : (sliceQp P c).Keeps h264Errors (fun _ => True) := by
  unfold sliceQp
  repeat' first
    | exact Parse.keeps_pure trivial
    | exact keeps_fieldU (by decide)
    | exact keeps_fieldUe (by decide) (by decide)
    | exact keeps_fieldSe (by decide) (by decide)
    | refine Parse.Keeps.bind (Q := fun _ => True) ?_ fun _ _ => ?_
    | split

theorem keeps_sliceChangeCycle (S : SpsPart) (P : PpsPart) : (sliceChangeCycle S P).Keeps h264Errors (fun _ => True) := by
  unfold sliceChangeCycle
  repeat' first
    | exact Parse.keeps_pure trivial
    | exact keeps_fieldU (by decide)
    | exact keeps_raise (by decide)
    | refine Parse.Keeps.bind (Q := fun _ => True) ?_ fun _ _ => ?_
    | split

/-- A slice header commits nothing (R201). -/
theorem keeps_sliceHeader (nri t : Nat) : (sliceHeader nri t).Keeps h264Errors (fun _ => True) := by
  unfold sliceHeader
  refine Parse.Keeps.bind (keeps_getEnv (P := fun _ => True) fun _ => trivial) fun e _ => ?_
  split
  · exact keeps_sliceStart.bind fun _ _ => (keeps_sliceFrame _).bind fun _ _ => (keeps_slicePoc _ _ _ _).bind fun _ _ =>
      (keeps_sliceRefIdx _ _).bind fun _ _ => (keeps_sliceRplm _).bind fun _ _ =>
      (keeps_slicePredWeight _ _ _ _ _).bind fun _ _ => (keeps_sliceMarking _ _).bind fun _ _ =>
      (keeps_sliceQp _ _).bind fun _ _ => keeps_sliceChangeCycle _ _
  · exact keeps_raise (by decide)

theorem keeps_nalHeader (h : Nat) : (nalHeader h).Keeps h264Errors (fun _ => True) := by
  unfold nalHeader
  repeat' first
    | exact Parse.keeps_pure trivial
    | exact keeps_emit trivial
    | refine Parse.Keeps.bind (Q := fun _ => True) ?_ fun _ _ => ?_
    | split

theorem keeps_markKeyframe (t : Nat) : (markKeyframe t).Keeps h264Errors (fun _ => True) := by
  unfold markKeyframe
  repeat' first
    | exact Parse.keeps_pure trivial
    | exact keeps_emit trivial
    | refine Parse.Keeps.bind (Q := fun _ => True) ?_ fun _ _ => ?_
    | split

/-- What an H.264 command may do to ParserState: any number of commits of an SPS part in its ranges, and of a PPS part
once sps_valid is set (R40 to R42). -/
inductive H264Commits : H264State → H264State → Prop
  | refl (h : H264State) : H264Commits h h
  | sps {h h' : H264State} (t : SpsPart) (ht : SpsRanges t) (hc : H264Commits h h') :
      H264Commits h { h' with sps := t, spsValid := true }
  | pps {h h' : H264State} (t : PpsPart) (hv : h'.spsValid = true) (hc : H264Commits h h') :
      H264Commits h { h' with pps := t, ppsValid := true }

theorem H264Commits.trans {a b c : H264State} (h1 : H264Commits a b) (h2 : H264Commits b c) : H264Commits a c := by
  induction h2 with
  | refl => exact h1
  | sps t ht _ ih => exact .sps t ht ih
  | pps t hv _ ih => exact .pps t hv ih

/-- A validity bit is never cleared (R42). -/
theorem H264Commits.valid {a b : H264State} (h : H264Commits a b) :
    (a.spsValid = true → b.spsValid = true) ∧ (a.ppsValid = true → b.ppsValid = true) := by
  induction h with
  | refl => exact ⟨id, id⟩
  | sps t ht _ ih => exact ⟨fun _ => rfl, ih.2⟩
  | pps t hv _ ih => exact ⟨ih.1, fun _ => rfl⟩

theorem does_parseNal (epb : Bool) (B : List Byte) :
    (parseNal epb B).Does H264Commits h264Errors (fun _ => True) := by
  unfold parseNal
  refine Parse.Does.bind (fun _ _ _ => H264Commits.trans) ((keeps_nalHeader _).does .refl) fun _ _ => ?_
  refine Parse.Does.bind (Q := fun _ => True) (fun _ _ _ => H264Commits.trans)
    ((keeps_setReader trivial).does .refl) fun _ _ => ?_
  split
  · exact fun c => ⟨fun a c' h => ⟨by
        rcases ((does_spsProc c).1 a c' h).1 with h' | ⟨t, ht, h'⟩ <;> rw [h']
        · exact .refl _
        · exact .sps t ht (.refl _), trivial⟩,
      fun st c' h => ⟨spsProc_error h ▸ .refl _, ((does_spsProc c).2 st c' h).2⟩⟩
  · split
    · exact fun c => ⟨fun a c' h => ⟨by
          rcases ((does_ppsProc c).1 a c' h).1 with h' | ⟨hv, t, h'⟩ <;> rw [h']
          · exact .refl _
          · exact .pps t hv (.refl _), trivial⟩,
        fun st c' h => ⟨ppsProc_error h ▸ .refl _, ((does_ppsProc c).2 st c' h).2⟩⟩
    · split
      · exact ((keeps_markKeyframe _).bind fun _ _ => keeps_sliceHeader _ _).does .refl
      · exact (Parse.Keeps.bind (Q := fun _ => True) (keeps_emit trivial) fun _ _ => keeps_emit trivial).does .refl

theorem does_stapAFrom (epb : Bool) (S : List Byte) (fuel pos k : Nat) :
    (stapAFrom epb S fuel pos k).Does H264Commits h264Errors (fun _ => True) := by
  induction fuel generalizing pos k with
  | zero => exact (keeps_raise (by decide)).does .refl
  | succ f ih =>
    unfold stapAFrom
    split
    · split
      · exact (keeps_raise (by decide)).does .refl
      · refine Parse.Does.bind (Q := fun _ => True) (fun _ _ _ => H264Commits.trans)
          ((keeps_setUnit trivial).does .refl) fun _ _ => ?_
        refine Parse.Does.bind (Q := fun _ => True) (fun _ _ _ => H264Commits.trans)
          ((keeps_emit trivial).does .refl) fun _ _ => ?_
        split
        · exact (keeps_raise (by decide)).does .refl
        · split
          · exact (keeps_raise (by decide)).does .refl
          · exact Parse.Does.bind (fun _ _ _ => H264Commits.trans) (does_parseNal _ _) fun _ _ => ih _ _
    · exact (keeps_setUnit trivial).does .refl

theorem keeps_fuA (epb : Bool) (S : List Byte) (nri : Nat) : (fuA epb S nri).Keeps h264Errors (fun _ => True) := by
  unfold fuA
  repeat' first
    | exact Parse.keeps_pure trivial
    | exact keeps_emit trivial
    | exact keeps_raise (by decide)
    | exact keeps_setReader trivial
    | exact keeps_markKeyframe _
    | exact keeps_sliceHeader _ _
    | refine Parse.Keeps.bind (Q := fun _ => True) ?_ fun _ _ => ?_
    | split

theorem keeps_opaqueSingle (S : List Byte) : (opaqueSingle S).Keeps h264Errors (fun _ => True) := by
  unfold opaqueSingle
  repeat' first
    | exact Parse.keeps_pure trivial
    | exact keeps_emit trivial
    | refine Parse.Keeps.bind (Q := fun _ => True) ?_ fun _ _ => ?_
    | split

/-- What H264_PAYLOAD can do (R160). -/
theorem does_h264PayloadProc (epb : Bool) (S : List Byte) :
    (h264PayloadProc epb S).Does H264Commits h264Errors (fun _ => True) := by
  unfold h264PayloadProc
  split
  · exact (keeps_raise (by decide)).does .refl
  · refine Parse.Does.bind (Q := fun _ => True) (fun _ _ _ => H264Commits.trans)
      ((keeps_emit trivial).does .refl) fun _ _ => ?_
    refine Parse.Does.bind (fun _ _ _ => H264Commits.trans) ((keeps_nalHeader _).does .refl) fun r _ => ?_
    obtain ⟨nri, t⟩ := r
    dsimp only
    split
    · exact does_stapAFrom _ _ _ _ _
    · split
      · exact (keeps_fuA _ _ _).does .refl
      · exact (keeps_opaqueSingle _).does .refl

/-- What H264_NAL can do (R166). -/
theorem does_h264NalProc (epb : Bool) (B : List Byte) :
    (h264NalProc epb B).Does H264Commits h264Errors (fun _ => True) := by
  unfold h264NalProc
  split
  · exact (keeps_raise (by decide)).does .refl
  · exact Parse.Does.bind (Q := fun _ => True) (fun _ _ _ => H264Commits.trans)
      ((keeps_emit trivial).does .refl) fun _ _ => does_parseNal _ _

/-! ## AV1 -/

/-- What an AV1 parser can raise (R361). -/
def av1Errors : List Status := [.truncated]

theorem keeps_seqTimingInfo : (seqTimingInfo).Keeps av1Errors (fun _ => True) := by
  unfold seqTimingInfo seqDecoderModelInfo
  repeat' first
    | exact Parse.keeps_pure trivial
    | exact keeps_fieldU (by decide)
    | exact keeps_fieldOfRead_oob Reader.uvlc_ne_malformed (by decide)
    | refine Parse.Keeps.bind (Q := fun _ => True) ?_ fun _ _ => ?_
    | split

theorem keeps_seqOperatingPoint (dmi nbd idd i : Nat) : (seqOperatingPoint dmi nbd idd i).Keeps av1Errors (fun _ => True) := by
  unfold seqOperatingPoint
  repeat' first
    | exact Parse.keeps_pure trivial
    | exact keeps_fieldU (by decide)
    | refine Parse.Keeps.bind (Q := fun _ => True) ?_ fun _ _ => ?_
    | split

theorem keeps_seqFullOps : (seqFullOps).Keeps av1Errors (fun _ => True) := by
  unfold seqFullOps
  repeat' first
    | exact Parse.keeps_pure trivial
    | exact keeps_fieldU (by decide)
    | exact keeps_seqTimingInfo
    | exact keeps_forRange fun _ => keeps_seqOperatingPoint _ _ _ _
    | refine Parse.Keeps.bind (Q := fun _ => True) ?_ fun _ _ => ?_
    | split

theorem keeps_seqTools (red : Nat) : (seqTools red).Keeps av1Errors (fun _ => True) := by
  unfold seqTools
  repeat' first
    | exact Parse.keeps_pure trivial
    | exact keeps_fieldU (by decide)
    | refine Parse.Keeps.bind (Q := fun _ => True) ?_ fun _ _ => ?_
    | split

theorem keeps_seqScreenContent (red oh : Nat) : (seqScreenContent red oh).Keeps av1Errors (fun _ => True) := by
  unfold seqScreenContent
  repeat' first
    | exact Parse.keeps_pure trivial
    | exact keeps_fieldU (by decide)
    | refine Parse.Keeps.bind (Q := fun _ => True) ?_ fun _ _ => ?_
    | split

theorem keeps_seqBitDepth (prof : Nat) : (seqBitDepth prof).Keeps av1Errors (fun _ => True) := by
  unfold seqBitDepth
  repeat' first
    | exact Parse.keeps_pure trivial
    | exact keeps_fieldU (by decide)
    | refine Parse.Keeps.bind (Q := fun _ => True) ?_ fun _ _ => ?_
    | split

theorem keeps_seqColourDescription : (seqColourDescription).Keeps av1Errors (fun _ => True) := by
  unfold seqColourDescription
  repeat' first
    | exact Parse.keeps_pure trivial
    | exact keeps_fieldU (by decide)
    | refine Parse.Keeps.bind (Q := fun _ => True) ?_ fun _ _ => ?_
    | split

theorem keeps_seqSubsampling (prof bd : Nat) : (seqSubsampling prof bd).Keeps av1Errors (fun _ => True) := by
  unfold seqSubsampling
  repeat' first
    | exact Parse.keeps_pure trivial
    | exact keeps_fieldU (by decide)
    | refine Parse.Keeps.bind (Q := fun _ => True) ?_ fun _ _ => ?_
    | split

theorem keeps_seqColourRange (prof bd mono cp tc mc : Nat) : (seqColourRange prof bd mono cp tc mc).Keeps av1Errors (fun _ => True) := by
  unfold seqColourRange
  repeat' first
    | exact Parse.keeps_pure trivial
    | exact keeps_fieldU (by decide)
    | exact keeps_seqSubsampling _ _
    | refine Parse.Keeps.bind (Q := fun _ => True) ?_ fun _ _ => ?_
    | split

theorem keeps_seqColourConfig (prof : Nat) : (seqColourConfig prof).Keeps av1Errors (fun _ => True) := by
  unfold seqColourConfig
  repeat' first
    | exact Parse.keeps_pure trivial
    | exact keeps_fieldU (by decide)
    | exact keeps_seqBitDepth _
    | exact keeps_seqColourDescription
    | exact keeps_seqColourRange _ _ _ _ _ _
    | refine Parse.Keeps.bind (Q := fun _ => True) ?_ fun _ _ => ?_
    | split

theorem keeps_seqHeader : (seqHeader).Keeps av1Errors (fun _ => True) := by
  unfold seqHeader seqReducedOps seqFrameSize seqFrameId seqFilters
  repeat' first
    | exact Parse.keeps_pure trivial
    | exact keeps_fieldU (by decide)
    | exact keeps_seqFullOps
    | exact keeps_seqTools _
    | exact keeps_seqScreenContent _ _
    | exact keeps_seqColourConfig _
    | refine Parse.Keeps.bind (Q := fun _ => True) ?_ fun _ _ => ?_
    | split

theorem keeps_aggHeader (a : Nat) : (aggHeader a).Keeps av1Errors (fun _ => True) := by
  unfold aggHeader
  repeat' first
    | exact Parse.keeps_pure trivial
    | exact keeps_emit trivial
    | refine Parse.Keeps.bind (Q := fun _ => True) ?_ fun _ _ => ?_
    | split

theorem keeps_obuHeader : (obuHeader).Keeps av1Errors (fun _ => True) := by
  unfold obuHeader
  repeat' first
    | exact Parse.keeps_pure trivial
    | exact keeps_fieldU (by decide)
    | refine Parse.Keeps.bind (Q := fun _ => True) ?_ fun _ _ => ?_
    | split

theorem keeps_obuExtent (E : List Byte) (hs : Nat) (complete : Bool) : (obuExtent E hs complete).Keeps av1Errors (fun _ => True) := by
  unfold obuExtent
  repeat' first
    | exact Parse.keeps_pure trivial
    | exact keeps_liftRead_oob (Reader.leb128From_ne_malformed _ _ _) (by decide)
    | exact keeps_emit trivial
    | exact keeps_getReader fun _ => trivial
    | exact keeps_raise (by decide)
    | refine Parse.Keeps.bind (Q := fun _ => True) ?_ fun _ _ => ?_
    | split

theorem keeps_obuBody (P : List Byte) (t sz : Nat) (complete : Bool) : (obuBody P t sz complete).Keeps av1Errors (fun _ => True) := by
  unfold obuBody
  repeat' first
    | exact Parse.keeps_pure trivial
    | exact keeps_emit trivial
    | exact keeps_setReader trivial
    | exact keeps_seqHeader
    | refine Parse.Keeps.bind (Q := fun _ => True) ?_ fun _ _ => ?_
    | split

theorem keeps_parseObu (E : List Byte) (complete : Bool) : (parseObu E complete).Keeps av1Errors (fun _ => True) := by
  unfold parseObu
  repeat' first
    | exact Parse.keeps_pure trivial
    | exact keeps_setReader trivial
    | exact keeps_emit trivial
    | exact keeps_obuHeader
    | exact keeps_obuExtent _ _ _
    | exact keeps_obuBody _ _ _ _
    | refine Parse.Keeps.bind (Q := fun _ => True) ?_ fun _ _ => ?_
    | split

theorem keeps_elementLength (S : List Byte) (W el pos : Nat) : (elementLength S W el pos).Keeps av1Errors (fun _ => True) := by
  unfold elementLength
  repeat' first
    | exact Parse.keeps_pure trivial
    | exact keeps_setReader trivial
    | exact keeps_liftRead_oob (Reader.leb128From_ne_malformed _ _ _) (by decide)
    | exact keeps_emit trivial
    | refine Parse.Keeps.bind (Q := fun _ => True) ?_ fun _ _ => ?_
    | split

theorem keeps_elementsFrom (S : List Byte) (Z Y W fuel pos el : Nat) :
    (elementsFrom S Z Y W fuel pos el).Keeps av1Errors (fun _ => True) := by
  induction fuel generalizing pos el with
  | zero => exact keeps_raise (by decide)
  | succ f ih =>
    unfold elementsFrom
    repeat' first
      | exact Parse.keeps_pure trivial
      | exact ih _ _
      | exact keeps_setUnit trivial
      | exact keeps_raise (by decide)
      | exact keeps_emit trivial
      | exact keeps_elementLength _ _ _ _
      | exact keeps_parseObu _ _
      | refine Parse.Keeps.bind (Q := fun _ => True) ?_ fun _ _ => ?_
      | split
      | dsimp only

theorem keeps_obusFrom (S : List Byte) (fuel pos el : Nat) :
    (obusFrom S fuel pos el).Keeps av1Errors (fun _ => True) := by
  induction fuel generalizing pos el with
  | zero => exact keeps_raise (by decide)
  | succ f ih =>
    unfold obusFrom
    split
    · exact Parse.Keeps.bind (Q := fun _ => True) (keeps_setUnit trivial) fun _ _ =>
        (keeps_parseObu _ _).bind fun _ _ => ih _ _
    · exact Parse.keeps_pure trivial

theorem keeps_av1PayloadProc (S : List Byte) : (av1PayloadProc S).Keeps av1Errors (fun _ => True) := by
  unfold av1PayloadProc elements
  repeat' first
    | exact Parse.keeps_pure trivial
    | exact keeps_raise (by decide)
    | exact keeps_emit trivial
    | exact keeps_aggHeader _
    | exact keeps_elementsFrom _ _ _ _ _ _ _
    | refine Parse.Keeps.bind (Q := fun _ => True) ?_ fun _ _ => ?_
    | split

theorem keeps_av1ObusProc (S : List Byte) : (av1ObusProc S).Keeps av1Errors (fun _ => True) := by
  unfold av1ObusProc
  repeat' first
    | exact Parse.keeps_pure trivial
    | exact keeps_emit trivial
    | exact keeps_obusFrom _ _ _ _
    | refine Parse.Keeps.bind (Q := fun _ => True) ?_ fun _ _ => ?_
    | split

/-- AV1_LEB128 commits at its end, and raises TRUNCATED alone (R234). -/
theorem does_av1Leb128Proc (S : List Byte) :
    (av1Leb128Proc S).Does (fun _ _ => True) av1Errors (fun _ => True) := by
  unfold av1Leb128Proc
  refine Parse.Does.bind (Q := fun _ => True) (fun _ _ _ _ _ => trivial)
    ((keeps_setReader trivial).does fun _ => trivial) fun _ _ => ?_
  refine Parse.Does.bind (Q := fun _ => True) (fun _ _ _ _ _ => trivial)
    ((keeps_liftRead_oob (Reader.leb128From_ne_malformed _ _ _) (by decide)).does fun _ => trivial) fun r _ => ?_
  refine Parse.Does.bind (Q := fun _ => True) (fun _ _ _ _ _ => trivial)
    ((keeps_emit trivial).does fun _ => trivial) fun _ _ => ?_
  refine Parse.Does.bind (Q := fun _ => True) (fun _ _ _ _ _ => trivial)
    ((keeps_emit trivial).does fun _ => trivial) fun _ _ => fun c => ?_
  exact ⟨fun _ _ _ => ⟨trivial, trivial⟩, fun _ _ h => nomatch h⟩

/-- An AV1_LEB128 that raises leaves RESULT and RESULT2 (R234). -/
theorem av1Leb128Proc_error {S : List Byte} {c c' : Ctx (Long × Word)} {st : Status}
    (h : av1Leb128Proc S c = .error st c') : c'.env = c.env := by
  unfold av1Leb128Proc at h
  rw [Parse.bind_ok (setReader_run _ _), Parse.bind_run] at h
  cases hr : (liftRead Reader.leb128 : Parse (Long × Word) (Nat × Nat)) { c with rd := Reader.ofBytes S } with
  | ok a c1 => rw [hr] at h; simp [Parse.bind_run] at h
  | error st c1 =>
    rw [hr] at h
    cases h
    exact ((keeps_liftRead_oob (E := av1Errors) (Reader.leb128From_ne_malformed _ _ _) (by decide)
      { c with rd := Reader.ofBytes S }).2 _ _ hr).1

/-! ## Opus -/

/-- What the Opus parser can raise (R361). -/
def opusErrors : List Status := [.truncated, .malformed]

theorem keeps_opusToc (t : Nat) : (opusToc t).Keeps opusErrors (fun _ => True) := by
  unfold opusToc
  repeat' first
    | exact Parse.keeps_pure trivial
    | exact keeps_emit trivial
    | refine Parse.Keeps.bind (Q := fun _ => True) ?_ fun _ _ => ?_
    | split

theorem keeps_opusConfigInfo (cfg : Nat) : (opusConfigInfo cfg).Keeps opusErrors (fun _ => True) := by
  unfold opusConfigInfo
  repeat' first
    | exact Parse.keeps_pure trivial
    | exact keeps_emit trivial
    | refine Parse.Keeps.bind (Q := fun _ => True) ?_ fun _ _ => ?_
    | split

theorem keeps_opusSd (S : List Byte) (pos : Nat) : (opusSd S pos).Keeps opusErrors (fun _ => True) := by
  unfold opusSd
  repeat' first
    | exact Parse.keeps_pure trivial
    | exact keeps_raise (by decide)
    | refine Parse.Keeps.bind (Q := fun _ => True) ?_ fun _ _ => ?_
    | split

theorem keeps_opusPaddingFrom (S : List Byte) (fuel pos P : Nat) :
    (opusPaddingFrom S fuel pos P).Keeps opusErrors (fun _ => True) := by
  induction fuel generalizing pos P with
  | zero => exact keeps_raise (by decide)
  | succ f ih =>
    unfold opusPaddingFrom
    split
    · exact keeps_raise (by decide)
    · split
      · exact ih _ _
      · exact Parse.keeps_pure trivial

theorem keeps_opusSdList (S : List Byte) (n pos : Nat) : (opusSdList S n pos).Keeps opusErrors (fun _ => True) := by
  induction n generalizing pos with
  | zero => exact Parse.keeps_pure trivial
  | succ n ih =>
    exact (keeps_opusSd _ _).bind fun _ _ => (ih _).bind fun _ _ => Parse.keeps_pure trivial

theorem keeps_opusFrames (S : List Byte) (c : Nat) : (opusFrames S c).Keeps opusErrors (fun _ => True) := by
  unfold opusFrames opusCode0 opusCode1 opusCode2 opusCode3 opusPadding opusCbr opusVbr
  repeat' first
    | exact Parse.keeps_pure trivial
    | exact keeps_raise (by decide)
    | exact keeps_emit trivial
    | exact keeps_opusSd _ _
    | exact keeps_opusPaddingFrom _ _ _ _
    | exact keeps_opusSdList _ _ _
    | refine Parse.Keeps.bind (Q := fun _ => True) ?_ fun _ _ => ?_
    | split

theorem keeps_opusEmitFrom (n : Nat) (frames : List (Nat × Nat)) :
    (opusEmitFrom n frames).Keeps opusErrors (fun _ => True) := by
  induction frames generalizing n with
  | nil => exact Parse.keeps_pure trivial
  | cons f rest ih =>
    exact Parse.Keeps.bind (Q := fun _ => True) (keeps_setUnit trivial) fun _ _ =>
      Parse.Keeps.bind (Q := fun _ => True) (keeps_emit trivial) fun _ _ =>
      Parse.Keeps.bind (Q := fun _ => True) (keeps_emit trivial) fun _ _ => ih _

theorem keeps_opusPacketProc (S : List Byte) : (opusPacketProc S).Keeps opusErrors (fun _ => True) := by
  unfold opusPacketProc opusEmitFrames
  repeat' first
    | exact Parse.keeps_pure trivial
    | exact keeps_raise (by decide)
    | exact keeps_emit trivial
    | exact keeps_setUnit trivial
    | exact keeps_opusToc _
    | exact keeps_opusConfigInfo _
    | exact keeps_opusFrames _ _
    | exact keeps_opusEmitFrom _ _
    | refine Parse.Keeps.bind (Q := fun _ => True) ?_ fun _ _ => ?_
    | split

/-! ## FlexFEC -/

/-- What FEC_PACKET can raise (R361); FEC_MASK raises the first two. -/
def fecErrors : List Status := [.truncated, .malformed, .recoveryUnavailable]

/-- What `parse_mask` can raise (R361). -/
def maskErrors : List Status := [.truncated, .malformed]

/-- What `store_put` leaves of a store (R311): the new entry is the newest, and what was there loses its entry of that
key, or its oldest entry when full, or nothing. -/
def PutRel (cap : Nat) (key : Half) (bytes : List Byte) (st st' : Store) : Prop :=
  (st.has key = true ∧ st' = st.remove key ++ [⟨key, bytes⟩]) ∨
  (st.has key = false ∧ st.length = cap ∧ st' = st.tail ++ [⟨key, bytes⟩]) ∨
  (st.has key = false ∧ st.length ≠ cap ∧ st' = st ++ [⟨key, bytes⟩])

/-- `store_put` never raises, and puts the entry (R311). -/
theorem does_storePut (cap : Nat) (key : Half) (bytes : List Byte) (ev : Half) :
    (storePut cap key bytes ev).Does (PutRel cap key bytes) [] (fun _ => True) := fun c => by
  obtain ⟨env, rd, unit, recs⟩ := c
  unfold storePut PutRel
  rw [Parse.bind_run, getEnv_run]
  dsimp only
  split
  · rename_i h
    exact ⟨fun _ _ h' => by cases h'; exact ⟨.inl ⟨h, rfl⟩, trivial⟩, fun _ _ h' => nomatch h'⟩
  · rename_i h
    have h : env.has key = false := by simpa using h
    split
    · rename_i hl
      cases env with
      | nil =>
        exact ⟨fun _ _ h' => by cases h'; exact ⟨.inr (.inl ⟨h, hl, rfl⟩), trivial⟩, fun _ _ h' => nomatch h'⟩
      | cons oldest rest =>
        dsimp only
        rw [Parse.bind_run, emit_run]
        exact ⟨fun _ _ h' => by cases h'; exact ⟨.inr (.inl ⟨h, hl, rfl⟩), trivial⟩, fun _ _ h' => nomatch h'⟩
    · rename_i hl
      exact ⟨fun _ _ h' => by cases h'; exact ⟨.inr (.inr ⟨h, hl, rfl⟩), trivial⟩, fun _ _ h' => nomatch h'⟩

/-- What FEC_MEDIA can do: nothing, or put the packet under its sequence number (R310). -/
theorem does_fecMediaProc (cfg : Params) (fec : Store) (m : List Byte) :
    (fecMediaProc cfg fec m).Does
      (fun st st' => st' = st ∨ 12 ≤ m.length ∧ PutRel cfg.mediaCap (BitVec.ofNat 16 (beAt m 2 2)) m st st')
      [.malformed] (fun _ => True) := by
  unfold fecMediaProc
  split
  · exact (keeps_raise (by decide)).does fun _ => .inl rfl
  · rename_i hl
    have hput : (storePut cfg.mediaCap (BitVec.ofNat 16 (beAt m 2 2)) m Field.mediaEvicted).Does
        (fun st st' => st' = st ∨ 12 ≤ m.length ∧ PutRel cfg.mediaCap (BitVec.ofNat 16 (beAt m 2 2)) m st st')
        [.malformed] (fun _ => True) := fun c =>
      ⟨fun a c' h => ⟨.inr ⟨by omega, ((does_storePut _ _ _ _ c).1 a c' h).1⟩, trivial⟩,
        fun st c' h => absurd ((does_storePut _ _ _ _ c).2 st c' h).2 List.not_mem_nil⟩
    refine Parse.Keeps.bind_does (Q := fun _ => True) (fun _ => .inl rfl) (keeps_emit trivial) fun _ _ => ?_
    refine Parse.Keeps.bind_does (Q := fun _ => True) (fun _ => .inl rfl) (keeps_emit trivial) fun _ _ => ?_
    split
    · exact Parse.Keeps.bind_does (Q := fun _ => True) (fun _ => .inl rfl) (keeps_emit trivial) fun _ _ => hput
    · exact hput

theorem keeps_fecMaskTier {σ : Type} {E : List Status} (F : List Byte) (tier at_ n first : Nat) :
    (fecMaskTier F tier at_ n first : Parse σ _).Keeps E (fun _ => True) :=
  Parse.Keeps.bind (Q := fun _ => True) (keeps_emit trivial) fun _ _ =>
    Parse.Keeps.bind (Q := fun _ => True) (keeps_emit trivial) fun _ _ => Parse.keeps_pure trivial

theorem keeps_fecEmitSeqs {σ : Type} {E : List Status} (n : Nat) (seqs : List Half) :
    (fecEmitSeqs n seqs : Parse σ Unit).Keeps E (fun _ => True) := by
  induction seqs generalizing n with
  | nil => exact Parse.keeps_pure trivial
  | cons q rest ih => exact Parse.Keeps.bind (Q := fun _ => True) (keeps_emit trivial) fun _ _ => ih _

theorem keeps_fecParseMask {σ : Type} {E : List Status} (hT : Status.truncated ∈ E) (hM : Status.malformed ∈ E)
    (F : List Byte) : (fecParseMask F : Parse σ _).Keeps E (fun _ => 20 ≤ F.length) := by
  unfold fecParseMask fecLaterTiers
  split
  · exact keeps_raise hT
  · rename_i hl
    repeat' first
      | exact Parse.keeps_pure trivial
      | exact Parse.keeps_pure (by omega)
      | exact keeps_emit trivial
      | exact keeps_raise hT
      | exact keeps_raise hM
      | exact keeps_fecMaskTier _ _ _ _ _
      | exact keeps_fecEmitSeqs _ _
      | refine Parse.Keeps.bind (Q := fun _ => True) ?_ fun _ _ => ?_
      | split

theorem keeps_fecMaskProc (F : List Byte) : (fecMaskProc F).Keeps maskErrors (fun _ => True) :=
  (keeps_fecParseMask (by decide) (by decide) F).bind fun _ _ => Parse.keeps_pure trivial

theorem keeps_fecEmitBytes {σ : Type} {E : List Status} (n : Nat) (pkt : List Byte) :
    (fecEmitBytes n pkt : Parse σ Unit).Keeps E (fun _ => True) := by
  induction pkt generalizing n with
  | nil => exact Parse.keeps_pure trivial
  | cons b rest ih => exact Parse.Keeps.bind (Q := fun _ => True) (keeps_emit trivial) fun _ _ => ih _

theorem keeps_fecRecover (media : Store) (F : List Byte) (seqs : List Half) (H : Nat) : (fecRecover media F seqs H).Keeps fecErrors (fun _ => True) := by
  unfold fecRecover
  repeat' first
    | exact Parse.keeps_pure trivial
    | exact keeps_emit trivial
    | exact keeps_raise (by decide)
    | exact keeps_fecEmitBytes _ _
    | refine Parse.Keeps.bind (Q := fun _ => True) ?_ fun _ _ => ?_
    | split
    | dsimp only

theorem keeps_fecR1F1 (F : List Byte) : (fecR1F1 F).Keeps fecErrors (fun _ => True) := by
  unfold fecR1F1
  repeat' first
    | exact Parse.keeps_pure trivial
    | exact keeps_emit trivial
    | exact keeps_raise (by decide)
    | refine Parse.Keeps.bind (Q := fun _ => True) ?_ fun _ _ => ?_
    | split

theorem keeps_fecCommonR0 (F : List Byte) : (fecCommonR0 F).Keeps fecErrors (fun _ => True) := by
  unfold fecCommonR0
  repeat' first
    | exact Parse.keeps_pure trivial
    | exact keeps_emit trivial
    | exact keeps_raise (by decide)
    | refine Parse.Keeps.bind (Q := fun _ => True) ?_ fun _ _ => ?_
    | split

theorem keeps_fecR0F1 (F : List Byte) : (fecR0F1 F).Keeps fecErrors (fun _ => True) := by
  unfold fecR0F1
  repeat' first
    | exact Parse.keeps_pure trivial
    | exact keeps_emit trivial
    | refine Parse.Keeps.bind (Q := fun _ => True) ?_ fun _ _ => ?_
    | split

/-- What FEC_PACKET can do: nothing, or, for an R0F0 payload with its whole header, put it under some key (R312,
R321). -/
def FecRel (cap : Nat) (F : List Byte) (st st' : Store) : Prop :=
  st' = st ∨ byteAt F 0 < 64 ∧ 20 ≤ F.length ∧ ∃ key, PutRel cap key F st st'

theorem does_fecR0F0 (cfg : Params) (media : Store) (F : List Byte) (hF : byteAt F 0 < 64) :
    (fecR0F0 cfg media F).Does (FecRel cfg.fecCap F) fecErrors (fun _ => True) := fun c => by
  unfold fecR0F0
  rw [Parse.bind_run]
  cases h : (fecParseMask F : Parse Store _) c with
  | error st c1 =>
    obtain ⟨he, hs⟩ := (keeps_fecParseMask (E := fecErrors) (by decide) (by decide) F c).2 _ _ h
    exact ⟨fun _ _ h' => (nomatch h'), fun _ _ h' => by cases h'; exact ⟨.inl he, hs⟩⟩
  | ok r c1 =>
    obtain ⟨he, hl⟩ := (keeps_fecParseMask (E := fecErrors) (by decide) (by decide) F c).1 _ _ h
    dsimp only
    rw [Parse.bind_ok (emit_run _ _ _ _ _ _), Parse.bind_run]
    cases hp : storePut cfg.fecCap r.2.2 F Field.fecEvicted
        { c1 with recs := c1.recs ++ [⟨Field.repairPayloadLength, BitVec.ofNat 32 c1.unit, BitVec.ofNat 32 0,
          BitVec.ofNat 32 0, BitVec.ofNat 32 0, BitVec.ofNat 64 (F.length - r.2.1)⟩] } with
    | error st c2 => simpa using ((does_storePut _ _ _ _ _).2 _ _ hp).2
    | ok a c2 =>
      have hput := ((does_storePut _ _ _ _ _).1 _ _ hp).1
      simp only [he] at hput
      exact ⟨fun a c' h' => ⟨.inr ⟨hF, hl, _, ((keeps_fecRecover _ _ _ _ c2).1 _ _ h').1 ▸ hput⟩, trivial⟩,
        fun st c' h' => ⟨.inr ⟨hF, hl, _, ((keeps_fecRecover _ _ _ _ c2).2 _ _ h').1 ▸ hput⟩,
          ((keeps_fecRecover _ _ _ _ c2).2 _ _ h').2⟩⟩

/-- What FEC_PACKET can do (R312). -/
theorem does_fecPacketProc (cfg : Params) (media : Store) (F : List Byte) :
    (fecPacketProc cfg media F).Does (FecRel cfg.fecCap F) fecErrors (fun _ => True) := by
  have hr : ∀ st, FecRel cfg.fecCap F st st := fun _ => .inl rfl
  unfold fecPacketProc
  split
  · exact (keeps_raise (by decide)).does hr
  · refine Parse.Keeps.bind_does (Q := fun _ => True) hr (keeps_emit trivial) fun _ _ => ?_
    refine Parse.Keeps.bind_does (Q := fun _ => True) hr (keeps_emit trivial) fun _ _ => ?_
    refine Parse.Keeps.bind_does (Q := fun _ => True) hr (keeps_emit trivial) fun _ _ => ?_
    split
    · exact (keeps_raise (by decide)).does hr
    · split
      · exact (keeps_fecR1F1 F).does hr
      · rename_i h1
        refine Parse.Keeps.bind_does hr (keeps_fecCommonR0 F) fun _ _ => ?_
        split
        · exact (keeps_fecR0F1 F).does hr
        · rename_i h2
          refine does_fecR0F0 cfg media F ?_
          have := (F.getD 0 0).isLt
          simp only [fieldOf, byteAt] at h1 h2 ⊢
          omega

end Sys2Proof.Machine
end

