-- ==== Sys2Proof/Laws/State.lean ====
section
/-! SUPPORT. What each named update of the state leaves in each field: one lemma per field per update. -/

namespace Sys2Proof.Machine

variable (s : State)

/-! `withStatus` -/

@[simp] theorem State.withStatus_ibuf (st : Status) : (s.withStatus st).ibuf = s.ibuf := rfl
@[simp] theorem State.withStatus_arg (st : Status) : (s.withStatus st).arg = s.arg := rfl
@[simp] theorem State.withStatus_status (st : Status) : (s.withStatus st).status = st.code := rfl
@[simp] theorem State.withStatus_result (st : Status) : (s.withStatus st).result = s.result := rfl
@[simp] theorem State.withStatus_result2 (st : Status) : (s.withStatus st).result2 = s.result2 := rfl
@[simp] theorem State.withStatus_brData (st : Status) : (s.withStatus st).brData = s.brData := rfl
@[simp] theorem State.withStatus_brBitlen (st : Status) : (s.withStatus st).brBitlen = s.brBitlen := rfl
@[simp] theorem State.withStatus_brPos (st : Status) : (s.withStatus st).brPos = s.brPos := rfl
@[simp] theorem State.withStatus_dq (st : Status) : (s.withStatus st).dq = s.dq := rfl
@[simp] theorem State.withStatus_dropCnt (st : Status) : (s.withStatus st).dropCnt = s.dropCnt := rfl
@[simp] theorem State.withStatus_h264 (st : Status) : (s.withStatus st).h264 = s.h264 := rfl
@[simp] theorem State.withStatus_media (st : Status) : (s.withStatus st).media = s.media := rfl
@[simp] theorem State.withStatus_fec (st : Status) : (s.withStatus st).fec = s.fec := rfl
@[simp] theorem State.withStatus_cfg (st : Status) : (s.withStatus st).cfg = s.cfg := rfl
@[simp] theorem State.withStatus_host (st : Status) : (s.withStatus st).host = s.host := rfl
@[simp] theorem State.withStatus_reply (st : Status) : (s.withStatus st).reply = s.reply := rfl

/-! `withResult` -/

@[simp] theorem State.withResult_ibuf (v : Nat) : (s.withResult v).ibuf = s.ibuf := rfl
@[simp] theorem State.withResult_arg (v : Nat) : (s.withResult v).arg = s.arg := rfl
@[simp] theorem State.withResult_status (v : Nat) : (s.withResult v).status = s.status := rfl
@[simp] theorem State.withResult_result (v : Nat) : (s.withResult v).result = BitVec.ofNat 64 v := rfl
@[simp] theorem State.withResult_result2 (v : Nat) : (s.withResult v).result2 = s.result2 := rfl
@[simp] theorem State.withResult_brData (v : Nat) : (s.withResult v).brData = s.brData := rfl
@[simp] theorem State.withResult_brBitlen (v : Nat) : (s.withResult v).brBitlen = s.brBitlen := rfl
@[simp] theorem State.withResult_brPos (v : Nat) : (s.withResult v).brPos = s.brPos := rfl
@[simp] theorem State.withResult_dq (v : Nat) : (s.withResult v).dq = s.dq := rfl
@[simp] theorem State.withResult_dropCnt (v : Nat) : (s.withResult v).dropCnt = s.dropCnt := rfl
@[simp] theorem State.withResult_h264 (v : Nat) : (s.withResult v).h264 = s.h264 := rfl
@[simp] theorem State.withResult_media (v : Nat) : (s.withResult v).media = s.media := rfl
@[simp] theorem State.withResult_fec (v : Nat) : (s.withResult v).fec = s.fec := rfl
@[simp] theorem State.withResult_cfg (v : Nat) : (s.withResult v).cfg = s.cfg := rfl
@[simp] theorem State.withResult_host (v : Nat) : (s.withResult v).host = s.host := rfl
@[simp] theorem State.withResult_reply (v : Nat) : (s.withResult v).reply = s.reply := rfl

/-! `withResults` -/

@[simp] theorem State.withResults_ibuf (r : Long × Word) : (s.withResults r).ibuf = s.ibuf := rfl
@[simp] theorem State.withResults_arg (r : Long × Word) : (s.withResults r).arg = s.arg := rfl
@[simp] theorem State.withResults_status (r : Long × Word) : (s.withResults r).status = s.status := rfl
@[simp] theorem State.withResults_result (r : Long × Word) : (s.withResults r).result = r.1 := rfl
@[simp] theorem State.withResults_result2 (r : Long × Word) : (s.withResults r).result2 = r.2 := rfl
@[simp] theorem State.withResults_brData (r : Long × Word) : (s.withResults r).brData = s.brData := rfl
@[simp] theorem State.withResults_brBitlen (r : Long × Word) : (s.withResults r).brBitlen = s.brBitlen := rfl
@[simp] theorem State.withResults_brPos (r : Long × Word) : (s.withResults r).brPos = s.brPos := rfl
@[simp] theorem State.withResults_dq (r : Long × Word) : (s.withResults r).dq = s.dq := rfl
@[simp] theorem State.withResults_dropCnt (r : Long × Word) : (s.withResults r).dropCnt = s.dropCnt := rfl
@[simp] theorem State.withResults_h264 (r : Long × Word) : (s.withResults r).h264 = s.h264 := rfl
@[simp] theorem State.withResults_media (r : Long × Word) : (s.withResults r).media = s.media := rfl
@[simp] theorem State.withResults_fec (r : Long × Word) : (s.withResults r).fec = s.fec := rfl
@[simp] theorem State.withResults_cfg (r : Long × Word) : (s.withResults r).cfg = s.cfg := rfl
@[simp] theorem State.withResults_host (r : Long × Word) : (s.withResults r).host = s.host := rfl
@[simp] theorem State.withResults_reply (r : Long × Word) : (s.withResults r).reply = s.reply := rfl

/-! `withBrPos` -/

@[simp] theorem State.withBrPos_ibuf (p : Nat) : (s.withBrPos p).ibuf = s.ibuf := rfl
@[simp] theorem State.withBrPos_arg (p : Nat) : (s.withBrPos p).arg = s.arg := rfl
@[simp] theorem State.withBrPos_status (p : Nat) : (s.withBrPos p).status = s.status := rfl
@[simp] theorem State.withBrPos_result (p : Nat) : (s.withBrPos p).result = s.result := rfl
@[simp] theorem State.withBrPos_result2 (p : Nat) : (s.withBrPos p).result2 = s.result2 := rfl
@[simp] theorem State.withBrPos_brData (p : Nat) : (s.withBrPos p).brData = s.brData := rfl
@[simp] theorem State.withBrPos_brBitlen (p : Nat) : (s.withBrPos p).brBitlen = s.brBitlen := rfl
@[simp] theorem State.withBrPos_brPos (p : Nat) : (s.withBrPos p).brPos = p := rfl
@[simp] theorem State.withBrPos_dq (p : Nat) : (s.withBrPos p).dq = s.dq := rfl
@[simp] theorem State.withBrPos_dropCnt (p : Nat) : (s.withBrPos p).dropCnt = s.dropCnt := rfl
@[simp] theorem State.withBrPos_h264 (p : Nat) : (s.withBrPos p).h264 = s.h264 := rfl
@[simp] theorem State.withBrPos_media (p : Nat) : (s.withBrPos p).media = s.media := rfl
@[simp] theorem State.withBrPos_fec (p : Nat) : (s.withBrPos p).fec = s.fec := rfl
@[simp] theorem State.withBrPos_cfg (p : Nat) : (s.withBrPos p).cfg = s.cfg := rfl
@[simp] theorem State.withBrPos_host (p : Nat) : (s.withBrPos p).host = s.host := rfl
@[simp] theorem State.withBrPos_reply (p : Nat) : (s.withBrPos p).reply = s.reply := rfl

/-! `withBitReader` -/

@[simp] theorem State.withBitReader_ibuf (D : List Byte) (L : Nat) : (s.withBitReader D L).ibuf = s.ibuf := rfl
@[simp] theorem State.withBitReader_arg (D : List Byte) (L : Nat) : (s.withBitReader D L).arg = s.arg := rfl
@[simp] theorem State.withBitReader_status (D : List Byte) (L : Nat) : (s.withBitReader D L).status = s.status := rfl
@[simp] theorem State.withBitReader_result (D : List Byte) (L : Nat) : (s.withBitReader D L).result = s.result := rfl
@[simp] theorem State.withBitReader_result2 (D : List Byte) (L : Nat) : (s.withBitReader D L).result2 = s.result2 := rfl
@[simp] theorem State.withBitReader_brData (D : List Byte) (L : Nat) : (s.withBitReader D L).brData = D := rfl
@[simp] theorem State.withBitReader_brBitlen (D : List Byte) (L : Nat) : (s.withBitReader D L).brBitlen = L := rfl
@[simp] theorem State.withBitReader_brPos (D : List Byte) (L : Nat) : (s.withBitReader D L).brPos = 0 := rfl
@[simp] theorem State.withBitReader_dq (D : List Byte) (L : Nat) : (s.withBitReader D L).dq = s.dq := rfl
@[simp] theorem State.withBitReader_dropCnt (D : List Byte) (L : Nat) : (s.withBitReader D L).dropCnt = s.dropCnt := rfl
@[simp] theorem State.withBitReader_h264 (D : List Byte) (L : Nat) : (s.withBitReader D L).h264 = s.h264 := rfl
@[simp] theorem State.withBitReader_media (D : List Byte) (L : Nat) : (s.withBitReader D L).media = s.media := rfl
@[simp] theorem State.withBitReader_fec (D : List Byte) (L : Nat) : (s.withBitReader D L).fec = s.fec := rfl
@[simp] theorem State.withBitReader_cfg (D : List Byte) (L : Nat) : (s.withBitReader D L).cfg = s.cfg := rfl
@[simp] theorem State.withBitReader_host (D : List Byte) (L : Nat) : (s.withBitReader D L).host = s.host := rfl
@[simp] theorem State.withBitReader_reply (D : List Byte) (L : Nat) : (s.withBitReader D L).reply = s.reply := rfl

/-! `withH264` -/

@[simp] theorem State.withH264_ibuf (h : H264State) : (s.withH264 h).ibuf = s.ibuf := rfl
@[simp] theorem State.withH264_arg (h : H264State) : (s.withH264 h).arg = s.arg := rfl
@[simp] theorem State.withH264_status (h : H264State) : (s.withH264 h).status = s.status := rfl
@[simp] theorem State.withH264_result (h : H264State) : (s.withH264 h).result = s.result := rfl
@[simp] theorem State.withH264_result2 (h : H264State) : (s.withH264 h).result2 = s.result2 := rfl
@[simp] theorem State.withH264_brData (h : H264State) : (s.withH264 h).brData = s.brData := rfl
@[simp] theorem State.withH264_brBitlen (h : H264State) : (s.withH264 h).brBitlen = s.brBitlen := rfl
@[simp] theorem State.withH264_brPos (h : H264State) : (s.withH264 h).brPos = s.brPos := rfl
@[simp] theorem State.withH264_dq (h : H264State) : (s.withH264 h).dq = s.dq := rfl
@[simp] theorem State.withH264_dropCnt (h : H264State) : (s.withH264 h).dropCnt = s.dropCnt := rfl
@[simp] theorem State.withH264_h264 (h : H264State) : (s.withH264 h).h264 = h := rfl
@[simp] theorem State.withH264_media (h : H264State) : (s.withH264 h).media = s.media := rfl
@[simp] theorem State.withH264_fec (h : H264State) : (s.withH264 h).fec = s.fec := rfl
@[simp] theorem State.withH264_cfg (h : H264State) : (s.withH264 h).cfg = s.cfg := rfl
@[simp] theorem State.withH264_host (h : H264State) : (s.withH264 h).host = s.host := rfl
@[simp] theorem State.withH264_reply (h : H264State) : (s.withH264 h).reply = s.reply := rfl

/-! `withMedia` -/

@[simp] theorem State.withMedia_ibuf (m : Store) : (s.withMedia m).ibuf = s.ibuf := rfl
@[simp] theorem State.withMedia_arg (m : Store) : (s.withMedia m).arg = s.arg := rfl
@[simp] theorem State.withMedia_status (m : Store) : (s.withMedia m).status = s.status := rfl
@[simp] theorem State.withMedia_result (m : Store) : (s.withMedia m).result = s.result := rfl
@[simp] theorem State.withMedia_result2 (m : Store) : (s.withMedia m).result2 = s.result2 := rfl
@[simp] theorem State.withMedia_brData (m : Store) : (s.withMedia m).brData = s.brData := rfl
@[simp] theorem State.withMedia_brBitlen (m : Store) : (s.withMedia m).brBitlen = s.brBitlen := rfl
@[simp] theorem State.withMedia_brPos (m : Store) : (s.withMedia m).brPos = s.brPos := rfl
@[simp] theorem State.withMedia_dq (m : Store) : (s.withMedia m).dq = s.dq := rfl
@[simp] theorem State.withMedia_dropCnt (m : Store) : (s.withMedia m).dropCnt = s.dropCnt := rfl
@[simp] theorem State.withMedia_h264 (m : Store) : (s.withMedia m).h264 = s.h264 := rfl
@[simp] theorem State.withMedia_media (m : Store) : (s.withMedia m).media = m := rfl
@[simp] theorem State.withMedia_fec (m : Store) : (s.withMedia m).fec = s.fec := rfl
@[simp] theorem State.withMedia_cfg (m : Store) : (s.withMedia m).cfg = s.cfg := rfl
@[simp] theorem State.withMedia_host (m : Store) : (s.withMedia m).host = s.host := rfl
@[simp] theorem State.withMedia_reply (m : Store) : (s.withMedia m).reply = s.reply := rfl

/-! `withFec` -/

@[simp] theorem State.withFec_ibuf (f : Store) : (s.withFec f).ibuf = s.ibuf := rfl
@[simp] theorem State.withFec_arg (f : Store) : (s.withFec f).arg = s.arg := rfl
@[simp] theorem State.withFec_status (f : Store) : (s.withFec f).status = s.status := rfl
@[simp] theorem State.withFec_result (f : Store) : (s.withFec f).result = s.result := rfl
@[simp] theorem State.withFec_result2 (f : Store) : (s.withFec f).result2 = s.result2 := rfl
@[simp] theorem State.withFec_brData (f : Store) : (s.withFec f).brData = s.brData := rfl
@[simp] theorem State.withFec_brBitlen (f : Store) : (s.withFec f).brBitlen = s.brBitlen := rfl
@[simp] theorem State.withFec_brPos (f : Store) : (s.withFec f).brPos = s.brPos := rfl
@[simp] theorem State.withFec_dq (f : Store) : (s.withFec f).dq = s.dq := rfl
@[simp] theorem State.withFec_dropCnt (f : Store) : (s.withFec f).dropCnt = s.dropCnt := rfl
@[simp] theorem State.withFec_h264 (f : Store) : (s.withFec f).h264 = s.h264 := rfl
@[simp] theorem State.withFec_media (f : Store) : (s.withFec f).media = s.media := rfl
@[simp] theorem State.withFec_fec (f : Store) : (s.withFec f).fec = f := rfl
@[simp] theorem State.withFec_cfg (f : Store) : (s.withFec f).cfg = s.cfg := rfl
@[simp] theorem State.withFec_host (f : Store) : (s.withFec f).host = s.host := rfl
@[simp] theorem State.withFec_reply (f : Store) : (s.withFec f).reply = s.reply := rfl

/-! `withHost` -/

@[simp] theorem State.withHost_ibuf (l : List HostAction) : (s.withHost l).ibuf = s.ibuf := rfl
@[simp] theorem State.withHost_arg (l : List HostAction) : (s.withHost l).arg = s.arg := rfl
@[simp] theorem State.withHost_status (l : List HostAction) : (s.withHost l).status = s.status := rfl
@[simp] theorem State.withHost_result (l : List HostAction) : (s.withHost l).result = s.result := rfl
@[simp] theorem State.withHost_result2 (l : List HostAction) : (s.withHost l).result2 = s.result2 := rfl
@[simp] theorem State.withHost_brData (l : List HostAction) : (s.withHost l).brData = s.brData := rfl
@[simp] theorem State.withHost_brBitlen (l : List HostAction) : (s.withHost l).brBitlen = s.brBitlen := rfl
@[simp] theorem State.withHost_brPos (l : List HostAction) : (s.withHost l).brPos = s.brPos := rfl
@[simp] theorem State.withHost_dq (l : List HostAction) : (s.withHost l).dq = s.dq := rfl
@[simp] theorem State.withHost_dropCnt (l : List HostAction) : (s.withHost l).dropCnt = s.dropCnt := rfl
@[simp] theorem State.withHost_h264 (l : List HostAction) : (s.withHost l).h264 = s.h264 := rfl
@[simp] theorem State.withHost_media (l : List HostAction) : (s.withHost l).media = s.media := rfl
@[simp] theorem State.withHost_fec (l : List HostAction) : (s.withHost l).fec = s.fec := rfl
@[simp] theorem State.withHost_cfg (l : List HostAction) : (s.withHost l).cfg = s.cfg := rfl
@[simp] theorem State.withHost_host (l : List HostAction) : (s.withHost l).host = l := rfl
@[simp] theorem State.withHost_reply (l : List HostAction) : (s.withHost l).reply = s.reply := rfl

/-! `withReply` -/

@[simp] theorem State.withReply_ibuf (r : Reply) : (s.withReply r).ibuf = s.ibuf := rfl
@[simp] theorem State.withReply_arg (r : Reply) : (s.withReply r).arg = s.arg := rfl
@[simp] theorem State.withReply_status (r : Reply) : (s.withReply r).status = s.status := rfl
@[simp] theorem State.withReply_result (r : Reply) : (s.withReply r).result = s.result := rfl
@[simp] theorem State.withReply_result2 (r : Reply) : (s.withReply r).result2 = s.result2 := rfl
@[simp] theorem State.withReply_brData (r : Reply) : (s.withReply r).brData = s.brData := rfl
@[simp] theorem State.withReply_brBitlen (r : Reply) : (s.withReply r).brBitlen = s.brBitlen := rfl
@[simp] theorem State.withReply_brPos (r : Reply) : (s.withReply r).brPos = s.brPos := rfl
@[simp] theorem State.withReply_dq (r : Reply) : (s.withReply r).dq = s.dq := rfl
@[simp] theorem State.withReply_dropCnt (r : Reply) : (s.withReply r).dropCnt = s.dropCnt := rfl
@[simp] theorem State.withReply_h264 (r : Reply) : (s.withReply r).h264 = s.h264 := rfl
@[simp] theorem State.withReply_media (r : Reply) : (s.withReply r).media = s.media := rfl
@[simp] theorem State.withReply_fec (r : Reply) : (s.withReply r).fec = s.fec := rfl
@[simp] theorem State.withReply_cfg (r : Reply) : (s.withReply r).cfg = s.cfg := rfl
@[simp] theorem State.withReply_host (r : Reply) : (s.withReply r).host = s.host := rfl
@[simp] theorem State.withReply_reply (r : Reply) : (s.withReply r).reply = r := rfl

/-! `withIbuf` -/

@[simp] theorem State.withIbuf_ibuf (m : Memory) : (s.withIbuf m).ibuf = m := rfl
@[simp] theorem State.withIbuf_arg (m : Memory) : (s.withIbuf m).arg = s.arg := rfl
@[simp] theorem State.withIbuf_status (m : Memory) : (s.withIbuf m).status = s.status := rfl
@[simp] theorem State.withIbuf_result (m : Memory) : (s.withIbuf m).result = s.result := rfl
@[simp] theorem State.withIbuf_result2 (m : Memory) : (s.withIbuf m).result2 = s.result2 := rfl
@[simp] theorem State.withIbuf_brData (m : Memory) : (s.withIbuf m).brData = s.brData := rfl
@[simp] theorem State.withIbuf_brBitlen (m : Memory) : (s.withIbuf m).brBitlen = s.brBitlen := rfl
@[simp] theorem State.withIbuf_brPos (m : Memory) : (s.withIbuf m).brPos = s.brPos := rfl
@[simp] theorem State.withIbuf_dq (m : Memory) : (s.withIbuf m).dq = s.dq := rfl
@[simp] theorem State.withIbuf_dropCnt (m : Memory) : (s.withIbuf m).dropCnt = s.dropCnt := rfl
@[simp] theorem State.withIbuf_h264 (m : Memory) : (s.withIbuf m).h264 = s.h264 := rfl
@[simp] theorem State.withIbuf_media (m : Memory) : (s.withIbuf m).media = s.media := rfl
@[simp] theorem State.withIbuf_fec (m : Memory) : (s.withIbuf m).fec = s.fec := rfl
@[simp] theorem State.withIbuf_cfg (m : Memory) : (s.withIbuf m).cfg = s.cfg := rfl
@[simp] theorem State.withIbuf_host (m : Memory) : (s.withIbuf m).host = s.host := rfl
@[simp] theorem State.withIbuf_reply (m : Memory) : (s.withIbuf m).reply = s.reply := rfl

/-! `illegalCommand` -/

@[simp] theorem State.illegalCommand_ibuf : s.illegalCommand.ibuf = s.ibuf := rfl
@[simp] theorem State.illegalCommand_arg : s.illegalCommand.arg = s.arg := rfl
@[simp] theorem State.illegalCommand_status : s.illegalCommand.status = Status.illegalCommand.code := rfl
@[simp] theorem State.illegalCommand_result : s.illegalCommand.result = s.result := rfl
@[simp] theorem State.illegalCommand_result2 : s.illegalCommand.result2 = s.result2 := rfl
@[simp] theorem State.illegalCommand_brData : s.illegalCommand.brData = s.brData := rfl
@[simp] theorem State.illegalCommand_brBitlen : s.illegalCommand.brBitlen = s.brBitlen := rfl
@[simp] theorem State.illegalCommand_brPos : s.illegalCommand.brPos = s.brPos := rfl
@[simp] theorem State.illegalCommand_dq : s.illegalCommand.dq = s.dq := rfl
@[simp] theorem State.illegalCommand_dropCnt : s.illegalCommand.dropCnt = s.dropCnt := rfl
@[simp] theorem State.illegalCommand_h264 : s.illegalCommand.h264 = s.h264 := rfl
@[simp] theorem State.illegalCommand_media : s.illegalCommand.media = s.media := rfl
@[simp] theorem State.illegalCommand_fec : s.illegalCommand.fec = s.fec := rfl
@[simp] theorem State.illegalCommand_cfg : s.illegalCommand.cfg = s.cfg := rfl
@[simp] theorem State.illegalCommand_host : s.illegalCommand.host = s.host := rfl
@[simp] theorem State.illegalCommand_reply : s.illegalCommand.reply = s.reply := rfl

/-! `putNothing` -/

@[simp] theorem putNothing_eq (e : Unit) : putNothing s e = s := rfl

/-! `pushDesc`: only DQ and DROP_CNT change (R39). -/

@[simp] theorem State.pushDesc_ibuf (d : Description) : (s.pushDesc d).ibuf = s.ibuf := by
  unfold State.pushDesc; split <;> rfl
@[simp] theorem State.pushDesc_arg (d : Description) : (s.pushDesc d).arg = s.arg := by
  unfold State.pushDesc; split <;> rfl
@[simp] theorem State.pushDesc_status (d : Description) : (s.pushDesc d).status = s.status := by
  unfold State.pushDesc; split <;> rfl
@[simp] theorem State.pushDesc_result (d : Description) : (s.pushDesc d).result = s.result := by
  unfold State.pushDesc; split <;> rfl
@[simp] theorem State.pushDesc_result2 (d : Description) : (s.pushDesc d).result2 = s.result2 := by
  unfold State.pushDesc; split <;> rfl
@[simp] theorem State.pushDesc_brData (d : Description) : (s.pushDesc d).brData = s.brData := by
  unfold State.pushDesc; split <;> rfl
@[simp] theorem State.pushDesc_brBitlen (d : Description) : (s.pushDesc d).brBitlen = s.brBitlen := by
  unfold State.pushDesc; split <;> rfl
@[simp] theorem State.pushDesc_brPos (d : Description) : (s.pushDesc d).brPos = s.brPos := by
  unfold State.pushDesc; split <;> rfl
@[simp] theorem State.pushDesc_h264 (d : Description) : (s.pushDesc d).h264 = s.h264 := by
  unfold State.pushDesc; split <;> rfl
@[simp] theorem State.pushDesc_media (d : Description) : (s.pushDesc d).media = s.media := by
  unfold State.pushDesc; split <;> rfl
@[simp] theorem State.pushDesc_fec (d : Description) : (s.pushDesc d).fec = s.fec := by
  unfold State.pushDesc; split <;> rfl
@[simp] theorem State.pushDesc_cfg (d : Description) : (s.pushDesc d).cfg = s.cfg := by
  unfold State.pushDesc; split <;> rfl
@[simp] theorem State.pushDesc_host (d : Description) : (s.pushDesc d).host = s.host := by
  unfold State.pushDesc; split <;> rfl
@[simp] theorem State.pushDesc_reply (d : Description) : (s.pushDesc d).reply = s.reply := by
  unfold State.pushDesc; split <;> rfl

/-- A push into a queue that is not full appends (R39). -/
theorem State.pushDesc_of_lt (d : Description) (h : s.dq.length < s.cfg.descDepth) :
    s.pushDesc d = { s with dq := s.dq ++ [d] } := by
  unfold State.pushDesc; rw [if_neg (by omega)]

/-- A push into a full queue drops the oldest description and counts it (R39). -/
theorem State.pushDesc_of_ge (d : Description) (h : s.cfg.descDepth ≤ s.dq.length) :
    s.pushDesc d = { s with dq := s.dq.tail ++ [d], dropCnt := s.dropCnt + 1 } := by
  unfold State.pushDesc; rw [if_pos h]

/-- After a push the queue is what was kept, then the new description (R39). -/
theorem State.pushDesc_dq (d : Description) :
    (s.pushDesc d).dq = (if s.cfg.descDepth ≤ s.dq.length then s.dq.tail else s.dq) ++ [d] := by
  unfold State.pushDesc; split <;> rfl

/-- The drop counter after a push (R39). -/
theorem State.pushDesc_dropCnt (d : Description) :
    (s.pushDesc d).dropCnt = if s.cfg.descDepth ≤ s.dq.length then s.dropCnt + 1 else s.dropCnt := by
  unfold State.pushDesc; split <;> rfl

/-- A push keeps the queue within its depth (R39). -/
theorem State.pushDesc_length (d : Description) (h : s.dq.length ≤ s.cfg.descDepth) :
    (s.pushDesc d).dq.length ≤ (s.pushDesc d).cfg.descDepth := by
  rw [State.pushDesc_dq, State.pushDesc_cfg]
  have hd : 1 ≤ s.cfg.descDepth := Nat.succ_le_succ (Nat.zero_le _)
  split <;> simp <;> omega

/-! `complete`: only STATUS, DQ and DROP_CNT change (R362). -/

@[simp] theorem State.complete_ibuf (o : Byte) (st : Status) (r : List Record) :
    (s.complete o st r).ibuf = s.ibuf := by
  simp [State.complete]
@[simp] theorem State.complete_arg (o : Byte) (st : Status) (r : List Record) :
    (s.complete o st r).arg = s.arg := by
  simp [State.complete]
@[simp] theorem State.complete_result (o : Byte) (st : Status) (r : List Record) :
    (s.complete o st r).result = s.result := by
  simp [State.complete]
@[simp] theorem State.complete_result2 (o : Byte) (st : Status) (r : List Record) :
    (s.complete o st r).result2 = s.result2 := by
  simp [State.complete]
@[simp] theorem State.complete_brData (o : Byte) (st : Status) (r : List Record) :
    (s.complete o st r).brData = s.brData := by
  simp [State.complete]
@[simp] theorem State.complete_brBitlen (o : Byte) (st : Status) (r : List Record) :
    (s.complete o st r).brBitlen = s.brBitlen := by
  simp [State.complete]
@[simp] theorem State.complete_brPos (o : Byte) (st : Status) (r : List Record) :
    (s.complete o st r).brPos = s.brPos := by
  simp [State.complete]
@[simp] theorem State.complete_h264 (o : Byte) (st : Status) (r : List Record) :
    (s.complete o st r).h264 = s.h264 := by
  simp [State.complete]
@[simp] theorem State.complete_media (o : Byte) (st : Status) (r : List Record) :
    (s.complete o st r).media = s.media := by
  simp [State.complete]
@[simp] theorem State.complete_fec (o : Byte) (st : Status) (r : List Record) :
    (s.complete o st r).fec = s.fec := by
  simp [State.complete]
@[simp] theorem State.complete_cfg (o : Byte) (st : Status) (r : List Record) :
    (s.complete o st r).cfg = s.cfg := by
  simp [State.complete]
@[simp] theorem State.complete_host (o : Byte) (st : Status) (r : List Record) :
    (s.complete o st r).host = s.host := by
  simp [State.complete]
@[simp] theorem State.complete_reply (o : Byte) (st : Status) (r : List Record) :
    (s.complete o st r).reply = s.reply := by
  simp [State.complete]
@[simp] theorem State.complete_status (o : Byte) (st : Status) (r : List Record) :
    (s.complete o st r).status = st.code := by
  simp [State.complete]

/-- The queue after a parser command (R362, R39). -/
theorem State.complete_dq (o : Byte) (st : Status) (r : List Record) :
    (s.complete o st r).dq = (if s.cfg.descDepth ≤ s.dq.length then s.dq.tail else s.dq) ++
      [{ opcode := o, status := st.code, records := closeRecords st r }] :=
  (s.withStatus st).pushDesc_dq _

/-- The drop counter after a parser command (R362, R39). -/
theorem State.complete_dropCnt (o : Byte) (st : Status) (r : List Record) :
    (s.complete o st r).dropCnt = if s.cfg.descDepth ≤ s.dq.length then s.dropCnt + 1 else s.dropCnt :=
  (s.withStatus st).pushDesc_dropCnt _

/-- A parser command keeps the queue within its depth. -/
theorem State.complete_length (o : Byte) (st : Status) (r : List Record) (h : s.dq.length ≤ s.cfg.descDepth) :
    (s.complete o st r).dq.length ≤ (s.complete o st r).cfg.descDepth :=
  State.pushDesc_length (s.withStatus st) _ h

/-! `closeRecords` -/

@[simp] theorem closeRecords_ok (r : List Record) : closeRecords .ok r = r := rfl

/-- A failed command's records end with the error record (R89, R362). -/
theorem closeRecords_of_ne {st : Status} (h : st ≠ .ok) (r : List Record) :
    closeRecords st r = r ++ [errorRecord st] := if_neg h

end Sys2Proof.Machine
end

