-- ==== Sys2Proof/Laws/Commands.lean ====
section
/-! SUPPORT. What each command does to the state: one lemma per command that says every outcome it can have
(spec/60_exceptions.md R360 to R368). -/

namespace Sys2Proof.Machine

/-- The statuses of a parser that may raise those of `E`. -/
def Ends (E : List Status) (st : Status) : Prop := st = .ok ∨ st ∈ E

theorem execBrInit_spec (len : Half) (s : State) :
    (8 * len.toNat < s.argOperand ∧ execBrInit len s = .next s.illegalCommand) ∨
    (s.argOperand ≤ 8 * len.toNat ∧
      execBrInit len s = .next (((s.withBitReader (s.input len) s.argOperand).withResult 0).withStatus .ok)) := by
  unfold execBrInit
  split
  · rename_i h; exact .inl ⟨h, rfl⟩
  · rename_i h; exact .inr ⟨by omega, rfl⟩

/-- The end of a BitReader read (R124). -/
theorem State.finishRead_cases (s : State) (out : Except ReadFail (Nat × Reader)) :
    (∃ v r, out = .ok (v, r) ∧ s.finishRead out = ((s.withResult v).withBrPos r.pos).withStatus .ok) ∨
    (out = .error .oob ∧ s.finishRead out = s.withStatus .outOfBounds) ∨
    (out = .error .malformed ∧ s.finishRead out = s.withStatus .malformed) := by
  rcases out with (_ | _) | ⟨v, r⟩
  · exact .inr (.inl ⟨rfl, rfl⟩)
  · exact .inr (.inr ⟨rfl, rfl⟩)
  · exact .inl ⟨v, r, rfl, rfl⟩

/-- A fixed-width read (R121, R128). -/
theorem State.finishRead_u (s : State) (n : Nat) :
    s.finishRead (s.brReader.u n) =
      if s.brPos + n > s.brBitlen then s.withStatus .outOfBounds
      else ((s.withResult (bits s.brData s.brPos n)).withBrPos (s.brPos + n)).withStatus .ok := by
  rw [Reader.u_eq]
  show s.finishRead (if s.brPos + n > s.brBitlen then _ else _) = _
  split <;> rfl

theorem execBrRead_spec (n : Byte) (s : State) :
    (64 < n.toNat ∧ execBrRead n s = .next s.illegalCommand) ∨
    (n.toNat ≤ 64 ∧ execBrRead n s = .next (s.finishRead (s.brReader.u n.toNat))) := by
  unfold execBrRead nOperand Config.brMaxRead
  split
  · rename_i h; exact .inl ⟨h, rfl⟩
  · rename_i h; exact .inr ⟨by omega, rfl⟩

theorem execH264Payload_spec (len : Half) (s : State) :
    ∃ h st recs, H264Commits s.h264 h ∧ Ends h264Errors st ∧
      execH264Payload len s = .next ((s.withH264 h).complete 0x10 st recs) := by
  obtain ⟨h, st, recs, h1, h2, h3⟩ := runParser_cases (opc := 0x10) (s := s) (env := s.h264) (put := State.withH264)
    (does_h264PayloadProc s.cfg.epbStrip (s.input len))
  exact ⟨h, st, recs, h1, h2, congrArg _ h3⟩

theorem execH264Nal_spec (len : Half) (s : State) :
    ∃ h st recs, H264Commits s.h264 h ∧ Ends h264Errors st ∧
      execH264Nal len s = .next ((s.withH264 h).complete 0x11 st recs) := by
  obtain ⟨h, st, recs, h1, h2, h3⟩ := runParser_cases (opc := 0x11) (s := s) (env := s.h264) (put := State.withH264)
    (does_h264NalProc s.cfg.epbStrip (s.input len))
  exact ⟨h, st, recs, h1, h2, congrArg _ h3⟩

theorem execAv1Payload_spec (len : Half) (s : State) :
    ∃ st recs, Ends av1Errors st ∧ execAv1Payload len s = .next (s.complete 0x20 st recs) := by
  obtain ⟨_, st, recs, -, h2, h3⟩ := runParser_cases (opc := 0x20) (s := s) (env := ()) (put := putNothing)
    (keeps_av1PayloadProc (s.input len))
  exact ⟨st, recs, h2, congrArg _ h3⟩

theorem execAv1Obus_spec (len : Half) (s : State) :
    ∃ st recs, Ends av1Errors st ∧ execAv1Obus len s = .next (s.complete 0x21 st recs) := by
  obtain ⟨_, st, recs, -, h2, h3⟩ := runParser_cases (opc := 0x21) (s := s) (env := ()) (put := putNothing)
    (keeps_av1ObusProc (s.input len))
  exact ⟨st, recs, h2, congrArg _ h3⟩

theorem execAv1Leb128_spec (len : Half) (s : State) :
    ∃ r st recs, (st ≠ .ok → r = (s.result, s.result2)) ∧ Ends av1Errors st ∧
      execAv1Leb128 len s = .next ((s.withResults r).complete 0x22 st recs) := by
  unfold execAv1Leb128 runParser
  cases h : av1Leb128Proc (s.input len) (Ctx.start (s.result, s.result2)) with
  | ok a c => exact ⟨c.env, .ok, c.recs, fun h => absurd rfl h, .inl rfl, rfl⟩
  | error st c =>
    exact ⟨c.env, st, c.recs, fun _ => av1Leb128Proc_error h, .inr ((does_av1Leb128Proc _ _).2 _ _ h).2, rfl⟩

theorem execOpusPacket_spec (len : Half) (s : State) :
    ∃ st recs, Ends opusErrors st ∧ execOpusPacket len s = .next (s.complete 0x30 st recs) := by
  obtain ⟨_, st, recs, -, h2, h3⟩ := runParser_cases (opc := 0x30) (s := s) (env := ()) (put := putNothing)
    (keeps_opusPacketProc (s.input len))
  exact ⟨st, recs, h2, congrArg _ h3⟩

theorem execFecMedia_spec (len : Half) (s : State) :
    ∃ m st recs, (m = s.media ∨ 12 ≤ len.toNat ∧
        PutRel s.cfg.mediaCap (BitVec.ofNat 16 (beAt (s.input len) 2 2)) (s.input len) s.media m) ∧
      Ends [.malformed] st ∧ execFecMedia len s = .next ((s.withMedia m).complete 0x40 st recs) := by
  obtain ⟨m, st, recs, h1, h2, h3⟩ := runParser_cases (opc := 0x40) (s := s) (env := s.media) (put := State.withMedia)
    (does_fecMediaProc s.cfg s.fec (s.input len))
  rw [State.input_length] at h1
  exact ⟨m, st, recs, h1, h2, congrArg _ h3⟩

theorem execFecPacket_spec (len : Half) (s : State) :
    ∃ f st recs, FecRel s.cfg.fecCap (s.input len) s.fec f ∧ Ends fecErrors st ∧
      execFecPacket len s = .next ((s.withFec f).complete 0x41 st recs) := by
  obtain ⟨f, st, recs, h1, h2, h3⟩ := runParser_cases (opc := 0x41) (s := s) (env := s.fec) (put := State.withFec)
    (does_fecPacketProc s.cfg s.media (s.input len))
  exact ⟨f, st, recs, h1, h2, congrArg _ h3⟩

theorem execFecMask_spec (len : Half) (s : State) :
    ∃ st recs, Ends maskErrors st ∧ execFecMask len s = .next (s.complete 0x42 st recs) := by
  obtain ⟨_, st, recs, -, h2, h3⟩ := runParser_cases (opc := 0x42) (s := s) (env := ()) (put := putNothing)
    (keeps_fecMaskProc (s.input len))
  exact ⟨st, recs, h2, congrArg _ h3⟩

end Sys2Proof.Machine
end

