-- ==== Sys2Proof/Laws/Encoding.lean ====
section
/-! SUPPORT. The fields of a command word as numbers, and what a decoded or a legal word says (spec/30_encoding.md R80,
R81). -/

namespace Sys2Proof

open Sys2Proof.Safety

theorem opcField_toNat (w : Word) : (opcField w).toNat = w.toNat % 256 := by
  simp [opcField, BitVec.extractLsb, BitVec.extractLsb'_toNat]

theorem nField_toNat (w : Word) : (nField w).toNat = w.toNat / 256 % 256 := by
  simp [nField, BitVec.extractLsb, BitVec.extractLsb'_toNat, Nat.shiftRight_eq_div_pow]

theorem lenField_toNat (w : Word) : (lenField w).toNat = w.toNat / 65536 := by
  simp [lenField, BitVec.extractLsb, BitVec.extractLsb'_toNat, Nat.shiftRight_eq_div_pow]
  omega

/-- The encoded word's value (R101). -/
theorem encode_toNat (i : Instr) :
    (encode i).toNat = i.opcode.toNat + 256 * i.nOperand.toNat + 65536 * i.lenOperand.toNat := by
  have h1 := i.opcode.isLt
  have h2 := i.nOperand.isLt
  simp only [encode, BitVec.toNat_append]
  rw [← Nat.shiftLeft_add_eq_or_of_lt h1, ← Nat.shiftLeft_add_eq_or_of_lt h2, Nat.shiftLeft_eq, Nat.shiftLeft_eq]
  omega

/-- The fields of an encoded command (R101). -/
theorem encode_fields (i : Instr) :
    opcField (encode i) = i.opcode ∧ nField (encode i) = i.nOperand ∧ lenField (encode i) = i.lenOperand := by
  have h1 := i.opcode.isLt
  have h2 := i.nOperand.isLt
  have h3 := i.lenOperand.isLt
  refine ⟨?_, ?_, ?_⟩ <;> apply BitVec.eq_of_toNat_eq
  · rw [opcField_toNat, encode_toNat]; omega
  · rw [nField_toNat, encode_toNat]; omega
  · rw [lenField_toNat, encode_toNat]; omega

/-- A decoded command has the word's fields (R80). -/
theorem decode_fields {w : Word} {i : Instr} (h : decode w = .ok i) :
    i.opcode = opcField w ∧ i.nOperand = nField w ∧ i.lenOperand = lenField w := by
  unfold decode at h
  split at h
  all_goals first
    | (rename_i ho
       simp only [decodeLen, decodeN, decodeZ] at h
       repeat' split at h
       all_goals cases h
       all_goals simp_all [Instr.opcode, Instr.nOperand, Instr.lenOperand])
    | cases h

/-- A word that R81 does not call illegal decodes, to a well-formed command. -/
theorem decode_of_legal {w arg : Word} (h : ¬ IllegalWord w arg) :
    ∃ i, decode w = .ok i ∧ i.wellFormed = true ∧ ∀ len, i = .brInit len → arg.toNat ≤ 8 * len.toNat := by
  unfold IllegalWord at h
  rw [← opcField_toNat w, ← nField_toNat w, ← lenField_toNat w] at h
  simp only [not_or, not_and, not_not] at h
  obtain ⟨ho, hN, hN2, hL, hI⟩ := h
  have n0 : (opcField w).toNat ≠ 2 → nField w = 0 := fun hh => by
    apply BitVec.eq_of_toNat_eq
    by_contra hc
    exact hh (by simpa using hN hc)
  have l0 : (opcField w).toNat ∈ [2, 3, 4] → lenField w = 0 := fun hh => by
    apply BitVec.eq_of_toNat_eq
    by_contra hc
    exact hL hc hh
  have hw : ∀ v : Nat, v < 256 → (opcField w).toNat = v → opcField w = BitVec.ofNat 8 v := fun v hv h => by
    apply BitVec.eq_of_toNat_eq
    rw [h, BitVec.toNat_ofNat, Nat.mod_eq_of_lt hv]
  simp only [opcodes, List.mem_cons, List.not_mem_nil, or_false] at ho
  rcases ho with ho | ho | ho | ho | ho | ho | ho | ho | ho | ho | ho | ho | ho <;>
    (have h' := hw _ (by decide) ho
     rw [ho] at n0 l0 hN2 hI
     simp at n0 l0 hN2 hI
     simp [decode, h', decodeLen, decodeN, decodeZ, Instr.wellFormed, Config.brMaxRead, *])

end Sys2Proof
end

