-- ==== Sys2Proof/Laws/Finished.lean ====
section
/-! SUPPORT. The completion of a parser command in the terms of the statements: `finished`, `mkRec` and `errRec`
(spec/60_exceptions.md R362, spec/30_encoding.md R89, R90). -/

namespace Sys2Proof.Machine

open Sys2Proof.Safety

/-- A completion with OK (R362). -/
theorem State.complete_ok (s : State) (opc : Byte) (recs : List Record) :
    s.complete opc .ok recs = finished s opc 0 recs := by
  unfold State.complete State.pushDesc finished State.withStatus
  dsimp only
  by_cases h : s.cfg.descDepth ≤ s.dq.length
  · rw [if_pos h, if_neg (by omega), if_neg (by omega)]
    simp [Status.code]
  · rw [if_neg h, if_pos (by omega), if_pos (by omega)]
    simp [Status.code]

/-- A completion with an error: the error record is the last (R89, R362). -/
theorem State.complete_error (s : State) (opc : Byte) (st : Status) (recs : List Record) (hst : st ≠ .ok) :
    s.complete opc st recs = finished s opc st.code (recs ++ [errRec st.code]) := by
  have he : errorRecord st = errRec st.code := by cases st <;> rfl
  unfold State.complete State.pushDesc finished State.withStatus
  dsimp only
  rw [closeRecords_of_ne hst, he]
  by_cases h : s.cfg.descDepth ≤ s.dq.length
  · rw [if_pos h, if_neg (by omega), if_neg (by omega)]
    simp
  · rw [if_neg h, if_pos (by omega), if_pos (by omega)]

/-- The record an emission appends (R90). -/
theorem record_eq_mkRec (f : Half) (v u i j k : Nat) :
    (⟨f, BitVec.ofNat 32 u, BitVec.ofNat 32 i, BitVec.ofNat 32 j, BitVec.ofNat 32 k, BitVec.ofNat 64 v⟩ : Record) =
      mkRec f v u i j k := rfl

/-- The context with some records more. -/
def Ctx.addRecs {σ : Type} (c : Ctx σ) (l : List Record) : Ctx σ := { c with recs := c.recs ++ l }

@[simp] theorem Ctx.addRecs_env {σ : Type} (c : Ctx σ) (l : List Record) : (c.addRecs l).env = c.env := rfl
@[simp] theorem Ctx.addRecs_rd {σ : Type} (c : Ctx σ) (l : List Record) : (c.addRecs l).rd = c.rd := rfl
@[simp] theorem Ctx.addRecs_unit {σ : Type} (c : Ctx σ) (l : List Record) : (c.addRecs l).unit = c.unit := rfl
@[simp] theorem Ctx.addRecs_recs {σ : Type} (c : Ctx σ) (l : List Record) : (c.addRecs l).recs = c.recs ++ l := rfl
@[simp] theorem Ctx.addRecs_nil {σ : Type} (c : Ctx σ) : c.addRecs [] = c := by simp [Ctx.addRecs]
@[simp] theorem Ctx.addRecs_addRecs {σ : Type} (c : Ctx σ) (l m : List Record) :
    (c.addRecs l).addRecs m = c.addRecs (l ++ m) := by simp [Ctx.addRecs]

/-- An emission, in the statements' terms (R10, R90). -/
theorem emit_eq {σ : Type} (f : Half) (v i j k : Nat) (c : Ctx σ) :
    (emit f v i j k : Parse σ Unit) c = .ok () (c.addRecs [mkRec f v c.unit i j k]) := rfl

/-- A parser command that runs to its end, in the statements' terms. -/
theorem runParser_finished {σ : Type} {opc : Byte} {s : State} {env : σ} {put : State → σ → State} {p : Parse σ Unit}
    {c : Ctx σ} (h : p (Ctx.start env) = .ok () c) :
    runParser opc s env put p = finished (put s c.env) opc 0 c.recs := by
  rw [runParser_ok h, State.complete_ok]

/-- A parser command that raises, in the statements' terms (R362). -/
theorem runParser_raised {σ : Type} {opc : Byte} {s : State} {env : σ} {put : State → σ → State} {p : Parse σ Unit}
    {c : Ctx σ} {st : Status} (h : p (Ctx.start env) = .error st c) (hst : st ≠ .ok) :
    runParser opc s env put p = finished (put s c.env) opc st.code (c.recs ++ [errRec st.code]) := by
  rw [runParser_error h, State.complete_error _ _ _ _ hst]

end Sys2Proof.Machine
end

