-- ==== Sys2Proof/Laws/PerInstr.lean ====
section
/-! SUPPORT. The per-instruction family `TableRow`: the word of a command carries the command's opcode and operands, and
its opcode stands in the table (spec/30_encoding.md R80, R85). One lemma for each command. -/

namespace Sys2Proof.Laws.TableRow

open Sys2Proof.Safety

/-- The fields of the command's word, and its row of the opcode table (R80, R85). -/
def Statement (i : Instr) : Prop :=
  opcField (encode i) = i.opcode ∧ nField (encode i) = i.nOperand ∧ lenField (encode i) = i.lenOperand ∧
    i.opcode.toNat ∈ opcodes

/-- The part of the statement that no command differs in. -/
theorem of_opcode {i : Instr} (h : i.opcode.toNat ∈ opcodes) : Statement i :=
  ⟨(encode_fields i).1, (encode_fields i).2.1, (encode_fields i).2.2, h⟩

theorem brInit (len : Half) : Statement (Instr.brInit len) := of_opcode (i := .brInit len) (by simp [Instr.opcode, opcodes])

theorem brRead (n : Byte) : Statement (Instr.brRead n) := of_opcode (i := .brRead n) (by simp [Instr.opcode, opcodes])

theorem brReadByte : Statement Instr.brReadByte := of_opcode (i := .brReadByte) (by simp [Instr.opcode, opcodes])

theorem brReadUe : Statement Instr.brReadUe := of_opcode (i := .brReadUe) (by simp [Instr.opcode, opcodes])

theorem h264Payload (len : Half) : Statement (Instr.h264Payload len) := of_opcode (i := .h264Payload len) (by simp [Instr.opcode, opcodes])

theorem h264Nal (len : Half) : Statement (Instr.h264Nal len) := of_opcode (i := .h264Nal len) (by simp [Instr.opcode, opcodes])

theorem av1Payload (len : Half) : Statement (Instr.av1Payload len) := of_opcode (i := .av1Payload len) (by simp [Instr.opcode, opcodes])

theorem av1Obus (len : Half) : Statement (Instr.av1Obus len) := of_opcode (i := .av1Obus len) (by simp [Instr.opcode, opcodes])

theorem av1Leb128 (len : Half) : Statement (Instr.av1Leb128 len) := of_opcode (i := .av1Leb128 len) (by simp [Instr.opcode, opcodes])

theorem opusPacket (len : Half) : Statement (Instr.opusPacket len) := of_opcode (i := .opusPacket len) (by simp [Instr.opcode, opcodes])

theorem fecMedia (len : Half) : Statement (Instr.fecMedia len) := of_opcode (i := .fecMedia len) (by simp [Instr.opcode, opcodes])

theorem fecPacket (len : Half) : Statement (Instr.fecPacket len) := of_opcode (i := .fecPacket len) (by simp [Instr.opcode, opcodes])

theorem fecMask (len : Half) : Statement (Instr.fecMask len) := of_opcode (i := .fecMask len) (by simp [Instr.opcode, opcodes])

end Sys2Proof.Laws.TableRow
end

