-- ==== Sys2Proof/Laws/Runs.lean ====
section
/-! SUPPORT. Runs of shared parser procedures in the terms of the statements, and the independence of a parser command
from the IBUF bytes it does not read (spec/41_h264.md R161 to R168, spec/20_memory.md R68). -/

namespace Sys2Proof.Machine

open Sys2Proof.Safety

/-- A NAL header byte (R161). -/
theorem nalHeader_run {h : Nat} (hh : h < 256) (c : Ctx H264State) :
    nalHeader h c = .ok (h / 32 % 4, h % 32) (c.addRecs (nalHeaderRecs c.unit h)) := by
  have h1 : fieldOf h 7 7 = h / 128 := by unfold fieldOf; norm_num; omega
  have h2 : fieldOf h 6 5 = h / 32 % 4 := by unfold fieldOf; norm_num
  have h3 : fieldOf h 4 0 = h % 32 := by unfold fieldOf; norm_num
  simp [nalHeader, Parse.bind_run, -emit_run, -bind_pure_comp, emit_eq, nalHeaderRecs, h1, h2, h3]

/-- A NAL unit of a type without a parser (R167). -/
theorem parseNal_opaque {epb : Bool} {B : List Byte} (c : Ctx H264State) (h : byteAt B 0 % 32 ∉ [1, 5, 7, 8]) :
    parseNal epb B c = .ok () { c.addRecs (opaqueRecs c.unit B) with rd := Reader.ofBytes (rbsp epb B) } := by
  simp only [List.mem_cons, List.not_mem_nil, or_false, not_or] at h
  obtain ⟨h1, h5, h7, h8⟩ := h
  rw [parseNal, Parse.bind_ok (nalHeader_run (byteAt_lt B 0) c)]
  dsimp only
  rw [Parse.bind_ok (setReader_run _ _), if_neg h7, if_neg h8, if_neg (by tauto)]
  simp [Parse.bind_run, -emit_run, emit_eq, opaqueRecs, Ctx.addRecs]; rfl

/-- The keyframe records (R168). -/
theorem markKeyframe_run (t : Nat) (c : Ctx H264State) (hu : c.unit = 0) :
    markKeyframe t c = .ok () (c.addRecs (keyframeRecs t)) := by
  unfold markKeyframe keyframeRecs
  split
  · simp [Parse.bind_run, -emit_run, emit_eq, hu]
  · simp

/-- Reads of a range depend on that range alone (R68). -/
theorem Memory.readBytes_congr {m m' : Memory} {a n : Nat} (h : ∀ b, a ≤ b → b < a + n → m.read b = m'.read b) :
    m.readBytes a n = m'.readBytes a n := by
  rw [Memory.readBytes_eq_map, Memory.readBytes_eq_map]
  refine List.map_congr_left fun i hi => ?_
  have := List.mem_range.mp hi
  exact h _ (by omega) (by omega)

/-- Completion neither reads nor writes IBUF (R362). -/
theorem State.complete_ibuf_comm (s : State) (m : Memory) (opc : Byte) (st : Status) (recs : List Record) :
    ({ s with ibuf := m } : State).complete opc st recs = { s.complete opc st recs with ibuf := m } := by
  by_cases h : s.cfg.descDepth ≤ s.dq.length
  · rw [show s.complete opc st recs = _ from if_pos h]; exact if_pos h
  · rw [show s.complete opc st recs = _ from if_neg h]; exact if_neg h

/-- A parser command that has its input neither reads nor writes IBUF (R38, R362). -/
theorem runParser_ibuf_comm {σ : Type} (s : State) (m : Memory) (opc : Byte) (env : σ) (put : State → σ → State)
    (p : Parse σ Unit) (hput : ∀ e, put { s with ibuf := m } e = { put s e with ibuf := m })
    (hi : ∀ e, (put s e).ibuf = s.ibuf) :
    (runParser opc s env put p).ibuf = s.ibuf ∧
      runParser opc { s with ibuf := m } env put p = { runParser opc s env put p with ibuf := m } := by
  unfold runParser
  split <;> rw [hput] <;> exact ⟨by simp [hi], State.complete_ibuf_comm _ _ _ _ _⟩

end Sys2Proof.Machine
end

