-- ==== Sys2Proof/Laws/Stores.lean ====
section
/-! SUPPORT. What `store_put` leaves of a store (spec/44_flexfec.md R311, R327). -/

namespace Sys2Proof.Machine

open Sys2Proof.Safety

theorem Store.has_eq_true {st : Store} {key : Half} : st.has key = true ↔ key ∈ st.map (·.key) := by
  simp [Store.has]

theorem Store.has_eq_false {st : Store} {key : Half} : st.has key = false ↔ key ∉ st.map (·.key) := by
  rw [← Store.has_eq_true]; simp

theorem Store.mem_remove {st : Store} {key : Half} {e : StoreEntry} : e ∈ st.remove key ↔ e ∈ st ∧ e.key ≠ key := by
  simp [Store.remove]

/-- Removing the entry of a key that is there once leaves one entry less. -/
theorem Store.remove_length {st : Store} {key : Half} (hn : (st.map (·.key)).Nodup) (h : key ∈ st.map (·.key)) :
    (st.remove key).length + 1 = st.length := by
  induction st with
  | nil => simp at h
  | cons e rest ih =>
    have hn : e.key ∉ rest.map (·.key) ∧ (rest.map (·.key)).Nodup := List.nodup_cons.mp hn
    unfold Store.remove at *
    by_cases he : e.key = key
    · have : rest.filter (fun e => !(e.key == key)) = rest := by
        refine List.filter_eq_self.mpr fun d hd => ?_
        have : d.key ≠ key := fun hk => hn.1 (he ▸ hk ▸ List.mem_map_of_mem hd)
        simpa using this
      simp [he, this]
    · have hr : key ∈ rest.map (·.key) := by
        rcases List.mem_cons.mp h with h | h
        · exact absurd h.symm he
        · exact h
      simpa [he] using ih hn.2 hr

/-- The store after `store_put`, as R311 writes it. -/
theorem PutRel.eq_putEntry {cap : Nat} {key : Half} {b : List Byte} {st st' : Store} (h : PutRel cap key b st st') :
    st' = putEntry cap st key b := by
  rcases h with ⟨h, rfl⟩ | ⟨h, hl, rfl⟩ | ⟨h, hl, rfl⟩
  · rw [putEntry, if_pos (Store.has_eq_true.mp h)]
    congr 1
    refine List.filter_congr fun e _ => ?_
    by_cases he : e.key = key <;> simp [he]
  · rw [putEntry, if_neg (Store.has_eq_false.mp h), if_pos hl, List.drop_one]
  · rw [putEntry, if_neg (Store.has_eq_false.mp h), if_neg hl]

/-- `store_put` keeps a store bounded and its keys unique (R44, R45, R327). -/
theorem PutRel.storeInv {cap : Nat} {key : Half} {b : List Byte} {st st' : Store} (hc : 0 < cap)
    (h : PutRel cap key b st st') (hi : StoreInv cap st) : StoreInv cap st' := by
  obtain ⟨hl, hn⟩ := hi
  rcases h with ⟨h, rfl⟩ | ⟨h, hl', rfl⟩ | ⟨h, hl', rfl⟩
  · have h := Store.has_eq_true.mp h
    have := Store.remove_length hn h
    refine ⟨by simp; omega, ?_⟩
    rw [List.map_append, List.nodup_append]
    refine ⟨hn.sublist (List.filter_sublist.map _), by simp, fun a ha b hb => ?_⟩
    obtain ⟨e, he, rfl⟩ := List.mem_map.mp ha
    simp only [List.map_cons, List.map_nil, List.mem_singleton] at hb
    rw [hb]
    exact (Store.mem_remove.mp he).2
  · have h := Store.has_eq_false.mp h
    refine ⟨by simp; omega, ?_⟩
    rw [List.map_append, List.nodup_append]
    refine ⟨hn.sublist ((List.tail_sublist _).map _), by simp, fun a ha b hb => ?_⟩
    simp only [List.map_cons, List.map_nil, List.mem_singleton] at hb
    rw [hb]
    rintro rfl
    exact h (((List.tail_sublist _).map _).mem ha)
  · have h := Store.has_eq_false.mp h
    refine ⟨by simp; omega, ?_⟩
    rw [List.map_append, List.nodup_append]
    refine ⟨hn, by simp, fun a ha b hb => ?_⟩
    simp only [List.map_cons, List.map_nil, List.mem_singleton] at hb
    rw [hb]
    rintro rfl
    exact h ha

/-- Every entry after `store_put` was there before, or is the new one (R311). -/
theorem PutRel.mem {cap : Nat} {key : Half} {b : List Byte} {st st' : Store} {e : StoreEntry}
    (h : PutRel cap key b st st') (he : e ∈ st') : e ∈ st ∨ e = ⟨key, b⟩ := by
  rcases h with ⟨-, rfl⟩ | ⟨-, -, rfl⟩ | ⟨-, -, rfl⟩ <;>
    rcases List.mem_append.mp he with he | he
  · exact .inl (Store.mem_remove.mp he).1
  · exact .inr (List.mem_singleton.mp he)
  · exact .inl (List.mem_of_mem_tail he)
  · exact .inr (List.mem_singleton.mp he)
  · exact .inl he
  · exact .inr (List.mem_singleton.mp he)

/-- An insertion into a full store leaves it full (R327). -/
theorem PutRel.full {cap : Nat} {key : Half} {b : List Byte} {st st' : Store} (hc : 0 < cap)
    (h : PutRel cap key b st st') (hn : (st.map (·.key)).Nodup) (hl : st.length = cap) : st'.length = cap := by
  rcases h with ⟨h, rfl⟩ | ⟨-, -, rfl⟩ | ⟨-, h, rfl⟩
  · have := Store.remove_length hn (Store.has_eq_true.mp h)
    simp; omega
  · simp; omega
  · exact absurd hl h

end Sys2Proof.Machine

namespace Sys2Proof

theorem Params.mediaCap_pos (p : Params) : 0 < p.mediaCap := Nat.succ_pos _

theorem Params.fecCap_pos (p : Params) : 0 < p.fecCap := Nat.succ_pos _

theorem Params.descDepth_pos (p : Params) : 0 < p.descDepth := Nat.succ_pos _

end Sys2Proof
end

