-- ==== Sys2Proof/Tests/Slice0.lean ====
section
/-! SUPPORT. The model's own tests: ill-formed terms, decoded words, one step on a small state against the examples of
the spec (spec/95_test_vectors.md, named in each comment), and a witness for the hypotheses of each statement. -/

namespace Sys2Proof.Tests

open Sys2Proof.Machine Sys2Proof.Safety

/-! ## Well-formedness and decoding -/

/-- R81: N = 65 is no legal operand, N = 64 is. -/
theorem test_brRead_65_ill_formed :
    (Instr.brRead 65).wellFormed = false ∧ (Instr.brRead 64).wellFormed = true := by decide

/-- VB-18 to VB-22: words that no row matches. -/
theorem test_words_without_row :
    decode 0x00010102 = .error (.nonzeroLen 0x02) ∧ decode 0x00000103 = .error (.nonzeroN 0x03) ∧
    decode 0x00000005 = .error (.unknownOpcode 0x05) ∧ decode 0x000000FF = .error (.unknownOpcode 0xFF) ∧
    decode 0x00020110 = .error (.nonzeroN 0x10) := by decide

/-- LEN in bits 31:16, N in bits 15:8, OPC in bits 7:0 (R80), for the BitReader rows. -/
theorem test_decode_bitReader :
    decode 0b00000000000001000000000000000001 = .ok (.brInit 4) ∧
    decode 0b00000000000000000000001100000010 = .ok (.brRead 3) ∧
    decode 0b00000000000000000000000000000011 = .ok .brReadByte ∧
    decode 0b00000000000000000000000000000100 = .ok .brReadUe := by decide

/-- The same for the H.264 and AV1 rows. -/
theorem test_decode_video :
    decode 0b00000000000000100000000000010000 = .ok (.h264Payload 2) ∧
    decode 0b10000000000010000000000000010001 = .ok (.h264Nal 0x8008) ∧
    decode 0b00000000000000110000000000100000 = .ok (.av1Payload 3) ∧
    decode 0b00000000000011010000000000100001 = .ok (.av1Obus 13) ∧
    decode 0b00000000000000100000000000100010 = .ok (.av1Leb128 2) := by decide

/-- The same for the Opus and FlexFEC rows. -/
theorem test_decode_opus_fec :
    decode 0b00000000000101010000000000110000 = .ok (.opusPacket 21) ∧
    decode 0b00000000000011110000000001000000 = .ok (.fecMedia 15) ∧
    decode 0b00000000000101110000000001000001 = .ok (.fecPacket 23) ∧
    decode 0b00000000000101000000000001000010 = .ok (.fecMask 20) := by decide

/-! ## Small states -/

/-- A reset instance with the parameters of spec/95_test_vectors.md: capacities 4, 4 and 8, H264_EPB_STRIP = 1. -/
def base : State := { State.reset with cfg := ⟨3, 3, 7, true⟩ }

/-- `base` with some bytes at the start of IBUF. -/
def inp (b : List Byte) : State := { base with ibuf := Memory.writeBytes [] 0 b }

/-- `base` with a loaded BitReader. -/
def rdr (b : List Byte) (len pos : Nat) : State := { base with brData := b, brBitlen := len, brPos := pos }

/-- The state after a step. -/
def after (o : Host.Outcome State Fault Refusal) : State :=
  match o with
  | .next s => s
  | .fault _ => State.reset
  | .refused _ => State.reset

/-- The values of the records of field `f` in the last description, with their unit and index. -/
def recs (s : State) (f : Half) : List (Nat × Nat × Nat) :=
  ((s.dq.getLast?.map (·.records)).getD []).filterMap
    (fun r => if r.field = f then some (r.u.toNat, r.i.toNat, r.value.toNat) else none)

/-- The SPS of VH-6, the PPS of VH-7 and the IDR slice of VH-8. -/
def spsBytes : List Byte := [0x67, 0x42, 0xC0, 0x1E, 0xDA, 0x05, 0x07, 0xE4]
def ppsBytes : List Byte := [0x68, 0xCE, 0x3C, 0x80]
def idrBytes : List Byte := [0x65, 0x88, 0x84, 0xF8]

/-- The ParserState that VH-6 and VH-7 leave. -/
def parsed : H264State :=
  { spsValid := true, ppsValid := true
    sps := { SpsPart.reset with
      frameMbsOnlyFlag := 1, picOrderCntType := 2, log2MaxFrameNum := 4, chromaFormatIdc := 1,
      picWidthInMbsMinus1 := 19, picHeightInMapUnitsMinus1 := 14 }
    pps := { PpsPart.reset with deblockingFilterControlPresentFlag := 1 } }

/-- The media packet and the FEC payload of VF-1 and VF-2. -/
def media : List Byte := [0x80, 0x60, 0x12, 0x34, 0, 0, 0, 0x64, 0x11, 0x22, 0x33, 0x44, 0xAA, 0xBB, 0xCC]
def fecOfMedia : List Byte :=
  [0x00, 0x60, 0x00, 0x03, 0, 0, 0, 0x64, 1, 0, 0, 0, 0x11, 0x22, 0x33, 0x44, 0x12, 0x34, 0xC0, 0x00, 0xAA, 0xBB, 0xCC]

/-! ## One step against the examples of the spec -/

/-- VB-4. -/
theorem test_brInit_loads :
    (after (exec (.brInit 4) { inp [0xA5, 0x3C, 0xFF] with arg := 32 })).brBitlen = 32 ∧
    (after (exec (.brInit 4) { inp [0xA5, 0x3C, 0xFF] with arg := 32 })).brData = [0xA5, 0x3C, 0xFF, 0x00] := by decide

/-- VB-13. -/
theorem test_brInit_long_arg : (after (exec (.brInit 4) { inp [0xA5] with arg := 33 })).status = 6 := by decide

/-- VB-7. -/
theorem test_brRead_three_bits :
    (after (exec (.brRead 3) (rdr [0xA5, 0x3C, 0xFF, 0x00] 32 1))).result = 2 ∧
    (after (exec (.brRead 3) (rdr [0xA5, 0x3C, 0xFF, 0x00] 32 1))).brPos = 4 := by decide

/-- VB-15. -/
theorem test_brRead_past_end : (after (exec (.brRead 13) (rdr [0xA5, 0x3C, 0xFF, 0x00] 12 0))).status = 1 := by decide

/-- VB-38. -/
theorem test_brReadByte_unaligned :
    (after (exec .brReadByte (rdr [0xA5, 0x3C] 16 4))).result = 0x53 ∧
    (after (exec .brReadByte (rdr [0xA5, 0x3C] 16 4))).brPos = 12 := by decide

/-- VB-39. -/
theorem test_brReadByte_cut : (after (exec .brReadByte (rdr [0xA5, 0x3C] 16 12))).status = 1 := by decide

/-- VB-26. -/
theorem test_brReadUe_six :
    (after (exec .brReadUe (rdr [0x38] 8 0))).result = 6 ∧ (after (exec .brReadUe (rdr [0x38] 8 0))).brPos = 5 := by
  decide

/-- VB-33. -/
theorem test_brReadUe_long_run :
    (after (exec .brReadUe (rdr [0, 0, 0, 0, 0, 0, 0, 0, 0x80, 0, 0, 0, 0, 0, 0, 0, 0] 136 0))).status = 3 := by
  decide +kernel

/-- VH-5: SPS, PPS and IDR slice in one STAP-A. -/
theorem test_h264Payload_stapA :
    let t := after (exec (.h264Payload 23)
      (inp ([0x78, 0x00, 0x08] ++ spsBytes ++ [0x00, 0x04] ++ ppsBytes ++ [0x00, 0x04] ++ idrBytes)))
    t.status = 0 ∧ t.h264 = parsed ∧ recs t Field.profileIdc = [(1, 0, 66)] ∧ recs t Field.frameKey = [(3, 0, 1)] := by
  decide +kernel

/-- VH-1. -/
theorem test_h264Payload_single :
    (after (exec (.h264Payload 2) (inp [0x09, 0xF0]))).dq =
      [⟨0x10, 0, [mkRec Field.customizeSubtype 1, mkRec Field.nalForbiddenZeroBit 0, mkRec Field.nalRefIdc 0,
        mkRec Field.nalUnitType 9, mkRec Field.nalLength 2, mkRec Field.notDecoded 2]⟩] := by decide

/-- VH-6. -/
theorem test_h264Nal_sps :
    let t := after (exec (.h264Nal 8) (inp spsBytes))
    t.status = 0 ∧ t.h264.sps = parsed.sps ∧ t.h264.spsValid = true ∧ t.h264.ppsValid = false := by decide +kernel

/-- VH-3. -/
theorem test_h264Nal_pps_first :
    (after (exec (.h264Nal 4) (inp ppsBytes))).status = 4 ∧ (after (exec (.h264Nal 4) (inp ppsBytes))).h264 = base.h264 := by
  decide +kernel

/-- VA-1. -/
theorem test_av1Payload_delimiter :
    let t := after (exec (.av1Payload 3) (inp [0x18, 0x12, 0x00]))
    t.status = 0 ∧ recs t Field.customizeKeyframe = [(0, 0, 1)] ∧ recs t Field.obuType = [(0, 0, 2)] ∧
      recs t Field.obuPayloadLength = [(0, 0, 0)] := by decide +kernel

/-- VA-2. -/
theorem test_av1Obus_sequence :
    let t := after (exec (.av1Obus 13) (inp [0x0A, 0x0B, 0, 0, 0, 0x42, 0xAB, 0xBF, 0xC3, 0x73, 0xFF, 0xE6, 0x01]))
    t.status = 0 ∧ recs t Field.seqLevelIdx = [(0, 0, 8)] ∧ recs t Field.maxFrameWidthMinus1 = [(0, 0, 1919)] ∧
      recs t Field.orderHintBitsMinus1 = [(0, 0, 6)] := by decide +kernel

/-- VA-21. -/
theorem test_av1Leb128_270 :
    let t := after (exec (.av1Leb128 2) (inp [0x8E, 0x02]))
    t.result = 270 ∧ t.result2 = 2 ∧ t.status = 0 := by decide

/-- VA-28. -/
theorem test_av1Leb128_cut : (after (exec (.av1Leb128 1) (inp [0x80]))).status = 2 := by decide

/-- VO-1. -/
theorem test_opusPacket_code1 :
    let t := after (exec (.opusPacket 21) (inp (0xF9 :: List.replicate 20 0x01)))
    t.status = 0 ∧ recs t Field.opusFrameSizeX10 = [(0, 0, 200)] ∧ recs t Field.frameOffset = [(0, 0, 1), (1, 0, 11)] := by
  decide +kernel

/-- VO-2. -/
theorem test_opusPacket_odd :
    (after (exec (.opusPacket 20) (inp (0xF9 :: List.replicate 19 0x01)))).status = 3 := by decide +kernel

/-- VF-2. -/
theorem test_fecMedia_inserts :
    let t := after (exec (.fecMedia 15) (inp media))
    t.media = [⟨0x1234, media⟩] ∧ recs t Field.mediaSeq = [(0, 0, 4660)] := by decide +kernel

/-- VF-1. -/
theorem test_fecPacket_recovers :
    let t := after (exec (.fecPacket 23) (inp fecOfMedia))
    t.status = 0 ∧ t.fec = [⟨0x1234, fecOfMedia⟩] ∧
      (recs t Field.recoveredPacketByte).map (fun r => BitVec.ofNat 8 r.2.2) = media := by decide +kernel

/-- The example of R320. -/
theorem test_fecMask_one :
    let t := after (exec (.fecMask 20) (inp (List.replicate 18 0x00 ++ [0xC0, 0x00])))
    t.status = 0 ∧ recs t Field.fecMaskTier = [(0, 0, 0x4000)] ∧ recs t Field.fecKey = [(0, 0, 0)] := by decide +kernel

/-- A command runs as the first step after reset when the host writes its word (R80). -/
theorem test_withFetchWord :
    (after (step (State.reset.withFetchWord 32 0x00000002))).status = 0 ∧
    (after (step (State.reset.withFetchWord 32 0x00000102))).status = 1 := by decide +kernel

/-! ## Witnesses: each statement's hypotheses are met, each clause at a boundary -/

/-- Bits as bytes, zeros at the end. -/
def packBits (l : List Bool) : List Byte :=
  (List.range ((l.length + 7) / 8)).map (fun i =>
    BitVec.ofNat 8 ((List.range 8).foldl (fun a j => 2 * a + (l.getD (8 * i + j) false).toNat) 0))

/-- `Elem.fits`, as a Bool. -/
def fitsB : Elem → Bool
  | .u _ n v _ _ _ => decide (n ≤ 64) && decide (v < 2 ^ n)
  | .ue _ v _ _ _ => decide (v < 2 ^ 64 - 1)
  | .capped _ z => decide (32 ≤ z)
  | .derived _ _ => true

theorem fits_of_fitsB {l : List Elem} (h : l.all fitsB = true) : ∀ e ∈ l, e.fits := fun e he => by
  have h := List.all_eq_true.mp h e he
  cases e with
  | u f n v i j k => simpa [fitsB, Elem.fits] using h
  | ue f v i j k => exact of_decide_eq_true (p := v < 2 ^ 64 - 1) h
  | capped f z => exact of_decide_eq_true (p := 32 ≤ z) h
  | derived f v => trivial

theorem witness_DecodeInvertsEncode :
    decode 0x0000FF02 = .ok (.brRead 255) ∧ decode 0xFFFF0042 = .ok (.fecMask 65535) := by decide

theorem witness_IllegalWordWritesStatusOnly :
    IllegalWord 0x00000005 0 ∧ IllegalWord 0x00000103 0 ∧ IllegalWord 0x00004102 0 ∧ IllegalWord 0x00010102 0 ∧
    IllegalWord 0x00040001 33 := by
  refine ⟨?_, ?_, ?_, ?_, ?_⟩ <;> (unfold IllegalWord; decide)

theorem witness_LegalWordCompletes :
    ¬ IllegalWord 0x00004002 0 ∧ ¬ IllegalWord 0x00040001 32 ∧ ¬ IllegalWord 0xFFFF0010 0 := by
  refine ⟨?_, ?_, ?_⟩ <;> (unfold IllegalWord; decide)

theorem witness_StepRunsDecodedCommand :
    (∃ (s : State) (w : Word) (rest : List HostAction) (i : Instr),
      s.host = .regWrite 0x000 4 w :: rest ∧ decode w = .ok i ∧ i.wellFormed = true) ∧
    ∀ w ∈ [0x00004102, (0x00000005 : Word)], ∃ s : State, s.host = [.regWrite 0x000 4 w] ∧ IllegalWord w s.arg := by
  refine ⟨⟨{ base with host := [.regWrite 0 4 0x00004002, .popDesc] }, 0x00004002, [.popDesc], .brRead 64, by decide⟩,
    fun w hw => ⟨{ base with host := [.regWrite 0 4 w] }, rfl, ?_⟩⟩
  simp only [List.mem_cons, List.not_mem_nil, or_false] at hw
  rcases hw with rfl | rfl <;> (unfold IllegalWord; decide)

theorem witness_RegisterWrites :
    (∀ addr ∈ [0x004, 0x008, 0x030, 0x034, 0x005], ∃ (s : State), s.host = [.regWrite addr 4 7]) ∧
    ∃ s : State, s.host = [.regWrite 0x004 2 7] :=
  ⟨fun a _ => ⟨{ base with host := [.regWrite a 4 7] }, rfl⟩, { base with host := [.regWrite 4 2 7] }, rfl⟩

theorem witness_RegisterReads :
    (∀ addr ∈ [0x000, 0x018, 0x030, 0x034, 0x01A], ∃ (s : State), s.host = [.regRead addr 4]) ∧
    ∃ s : State, s.host = [.regRead 0x008 1] :=
  ⟨fun a _ => ⟨{ base with host := [.regRead a 4] }, rfl⟩, { base with host := [.regRead 8 1] }, rfl⟩

theorem witness_InputBufferWrites :
    (∀ a ∈ [HostAction.memWrite 65534 [1, 2], .memWrite 65535 [1, 2], .busWrite 0x10000 [1], .busWrite 0x1FFFF [1],
      .busWrite 0xFFFF [1], .busWrite 0x20000 [1]], ∃ s : State, s.ibuf.wf ∧ s.host = [a]) :=
  fun a _ => ⟨{ base with host := [a] }, ⟨List.Pairwise.nil, fun _ h => nomatch h⟩, rfl⟩

theorem witness_PopDescTakesTheHead :
    (∃ s : State, s.host = [.popDesc] ∧ s.dq = [⟨0x10, 0, []⟩]) ∧ ∃ s : State, s.host = [.popDesc] ∧ s.dq = [] :=
  ⟨⟨{ base with host := [.popDesc], dq := [⟨0x10, 0, []⟩] }, rfl, rfl⟩, { base with host := [.popDesc] }, rfl, rfl⟩

theorem witness_ResetSetsTheTable : ∃ s : State, s.host = [.reset, .popDesc] ∧ s.arg = 7 :=
  ⟨{ base with host := [.reset, .popDesc], arg := 7 }, rfl, rfl⟩

theorem witness_IdleKeepsTheState : ∃ s : State, s.host = [] ∧ s.h264 = parsed :=
  ⟨{ base with h264 := parsed }, rfl, rfl⟩

theorem witness_ParseReadsTheBytesWritten :
    ∀ bytes ∈ [[], media], ∃ s : State,
      (∀ l, (Instr.fecMedia l).lenOperand = l) ∧ s.ibuf.wf ∧ bytes.length ≤ 65535 ∧ s.host = asmParse .fecMedia bytes := by
  intro bytes hb
  refine ⟨{ base with host := asmParse .fecMedia bytes }, fun _ => rfl, ⟨List.Pairwise.nil, fun _ h => nomatch h⟩, ?_, rfl⟩
  simp only [List.mem_cons, List.not_mem_nil, or_false] at hb
  rcases hb with rfl | rfl <;> decide

/-- A state in the middle of a run: a loaded reader, a waiting description, a stored packet, a parsed SPS and PPS. -/
def running : State :=
  { rdr [0xA5] 8 3 with
    dq := [⟨0x20, 2, [errRec 2]⟩], h264 := parsed, media := [⟨0x1234, media⟩], fec := [⟨0x1234, fecOfMedia⟩],
    host := [.regWrite 0x000 4 0x00000502], status := 2 }

theorem witness_EveryStepKeepsInv : ∃ t, Inv running ∧ step running = .next t :=
  ⟨_, { memory := ⟨List.Pairwise.nil, fun _ h => nomatch h⟩
        bitReader := by unfold BitReaderInv; decide
        queue := by unfold QueueInv; decide
        media := ⟨by unfold StoreInv; decide, by decide +kernel⟩
        fec := ⟨by unfold StoreInv; decide, by decide +kernel⟩
        parser := by unfold ParserInv; decide
        status := by decide
        descs := fun d hd => by
          rw [List.mem_singleton.mp hd]
          exact ⟨by decide, fun _ => ⟨[], rfl⟩⟩ }, rfl⟩

theorem witness_EveryCommandCompletes :
    (∃ n, Instr.brRead 65 = .brRead n ∧ 64 < n.toNat) ∧
    (∃ (s : State) (len : Half), Instr.brInit 4 = .brInit len ∧ 8 * len.toNat < s.arg.toNat) ∧
    ∃ s : State, (4 : Half).toNat * 8 = s.arg.toNat :=
  ⟨⟨65, rfl, by decide⟩, ⟨{ base with arg := 33 }, 4, rfl, by decide⟩, { base with arg := 32 }, by decide⟩

theorem witness_CommandsReadOnlyTheirInput :
    ∃ (i : Instr) (s : State) (m : Memory),
      (∀ a < i.lenOperand.toNat, m.read a = s.ibuf.read a) ∧ m.read 2 ≠ s.ibuf.read 2 :=
  ⟨.h264Nal 2, inp [0x09, 0xF0], Memory.writeBytes [] 0 [0x09, 0xF0, 0x01], by decide⟩

theorem witness_BitReaderCommandsFrame :
    ∀ i ∈ [Instr.brInit 4, .brRead 65, .brReadByte, .brReadUe], isParser i = false := by decide

theorem witness_ParserCommandsFrame :
    ∀ i ∈ [Instr.h264Payload 0, .h264Nal 0, .av1Payload 0, .av1Obus 0, .av1Leb128 0, .opusPacket 0, .fecMedia 0,
      .fecPacket 0, .fecMask 0], isParser i = true ∧ ∃ t, exec i base = .next t := by
  intro i hi
  simp only [List.mem_cons, List.not_mem_nil, or_false] at hi
  rcases hi with rfl | rfl | rfl | rfl | rfl | rfl | rfl | rfl | rfl <;> exact ⟨rfl, _, rfl⟩

theorem witness_ParserCommandsPushOneDescription :
    (∃ t, exec (.h264Nal 0) base = .next t ∧ t.status ≠ 0 ∧ base.dq.length < base.cfg.descDepth) ∧
    ∃ s t : State, exec (.h264Nal 0) s = .next t ∧ s.dq.length = s.cfg.descDepth :=
  ⟨⟨_, rfl, by decide⟩, { base with dq := List.replicate 8 ⟨0x10, 0, []⟩ }, _, rfl, by decide⟩

theorem witness_ShortInputs :
    (0 : Half).toNat = 0 ∧ (11 : Half).toNat < 12 ∧ (19 : Half).toNat < 20 := by decide

theorem witness_LoopCountsNeverDecide : ∃ S : List Byte, 1 ≤ S.length := ⟨[0x10], by decide⟩

theorem witness_BrInitLoadsTheReader :
    (∃ s : State, s.arg.toNat ≤ 8 * (4 : Half).toNat ∧ s.arg = 32) ∧ ∃ s : State, 8 * (4 : Half).toNat < s.arg.toNat :=
  ⟨⟨{ base with arg := 32 }, by decide⟩, { base with arg := 33 }, by decide⟩

theorem witness_BrReadGivesTheBits :
    (∃ s : State, (64 : Byte).toNat ≤ 64 ∧ s.brPos + (64 : Byte).toNat ≤ s.brBitlen) ∧
    (∃ s : State, (64 : Byte).toNat ≤ 64 ∧ s.brBitlen < s.brPos + (64 : Byte).toNat) ∧ 64 < (65 : Byte).toNat :=
  ⟨⟨rdr [] 64 0, by decide⟩, ⟨rdr [] 64 1, by decide⟩, by decide⟩

theorem witness_BrReadByteGivesEightBits :
    (∃ s : State, s.brBitlen < s.brPos + 8) ∧ ∃ s : State, s.brPos + 8 ≤ s.brBitlen :=
  ⟨⟨rdr [0xA5] 8 1, by decide⟩, rdr [0xA5] 8 0, by decide⟩

theorem witness_AlignedReadsAreBigEndian :
    ∃ s : State, s.brPos = 8 * 1 ∧ s.brPos + 16 ≤ s.brBitlen ∧ s.brPos + 8 ≤ s.brBitlen :=
  ⟨rdr [0, 0x12, 0x34] 24 8, by decide⟩

/-- VB-35, the largest code, and the code of 6. -/
theorem witness_BrReadUeRoundTrip :
    (∃ s : State, 2 ^ 64 - 2 < 2 ^ 64 - 1 ∧ BitsAt s.brData s.brBitlen s.brPos (ueBits (2 ^ 64 - 2))) ∧
    ∃ s : State, 6 < 2 ^ 64 - 1 ∧ BitsAt s.brData s.brBitlen s.brPos (ueBits 6) :=
  ⟨⟨rdr [0, 0, 0, 0, 0, 0, 0, 1, 255, 255, 255, 255, 255, 255, 255, 255] 128 0, by unfold BitsAt; decide +kernel⟩,
    rdr [0x38] 8 0, by unfold BitsAt; decide +kernel⟩

theorem witness_BrReadUeFailures :
    (∃ s : State, (∀ j < 3, streamBit s.brData (s.brPos + j) = false) ∧ s.brPos + 3 = s.brBitlen) ∧
    (∃ s : State, (∀ j < 64, streamBit s.brData (s.brPos + j) = false) ∧ s.brPos + 64 < s.brBitlen ∧
      streamBit s.brData (s.brPos + 64) = true) ∧
    ∃ s : State, (∀ j < 2, streamBit s.brData (s.brPos + j) = false) ∧ s.brPos + 2 < s.brBitlen ∧
      streamBit s.brData (s.brPos + 2) = true ∧ s.brBitlen < s.brPos + 2 * 2 + 1 :=
  ⟨⟨rdr [0x38] 8 5, by decide⟩, ⟨rdr [0, 0, 0, 0, 0, 0, 0, 0, 0x80] 65 0, by decide +kernel⟩, rdr [0x20] 4 0, by decide⟩

theorem witness_H264OpaqueUnits :
    0 < (1 : Half).toNat ∧ byteAt (inputBytes (inp [0x09]) 1) 0 % 32 ∉ [1, 5, 7, 8] ∧
    byteAt (inputBytes (inp [0x67]) 1) 0 % 32 ∉ [24, 28] := by decide

/-- A PPS and an IDR slice without an SPS, and an FU-A of an IDR slice without a PPS. -/
theorem witness_H264ParseOrder :
    (byteAt (inputBytes (inp ppsBytes) 4) 0 % 32 = 8 ∧ (inp ppsBytes).h264.spsValid = false) ∧
    (∃ (i : Instr) (start : List Record) (body : List Byte), SliceInput (inp idrBytes) 4 5 3 i start body) ∧
    ∃ (s : State) (start : List Record) (body : List Byte), s.h264.spsValid = true ∧ s.h264.ppsValid = false ∧
      SliceInput s 3 5 3 (.h264Payload 3) start body :=
  ⟨by decide, ⟨_, _, _, .unit 0x65 (by decide) (by decide) rfl (by decide) rfl⟩,
    { inp [0x7C, 0x85, 0x88] with h264 := { parsed with ppsValid := false } }, _, _, rfl, rfl,
    .fragment 0x7C 0x85 (by decide) (by decide) (by decide) rfl rfl rfl (by decide) rfl⟩

/-- The SPS of VH-6 as its syntax elements. -/
def spsValues : SpsSyntax :=
  { profileIdc := 66, constraintFlags := 48, reservedBits := 0, levelIdc := 30, id := 0, chromaFormatIdc := 0,
    separateColourPlane := 0, bitDepthLuma := 0, bitDepthChroma := 0, qpprime := 0, scalingMatrix := 0,
    scalingLists := [], log2FrameNum := 0, pocType := 2, log2PocLsb := 0, deltaAlwaysZero := 0, offsetNonRef := 0,
    offsetTopBottom := 0, offsetsRefFrame := [], maxNumRefFrames := 1, gapsAllowed := 0, width := 19, height := 14,
    frameMbsOnly := 1, mbAdaptive := 0, direct8x8 := 1, cropping := 0, cropLeft := 0, cropRight := 0, cropTop := 0, cropBottom := 0, vui := 0 }

theorem spsValues_fits : spsValues.fits :=
  ⟨fits_of_fitsB (by decide +kernel), fun h => absurd h (by decide), by decide, by decide⟩

/-- An SPS with a scaling matrix: list 0 ends with its first code, list 1 is full, the others are absent. -/
def scalingValues : SpsSyntax :=
  { spsValues with
    profileIdc := 100, chromaFormatIdc := 1, scalingMatrix := 1,
    scalingLists := [some [16], some (List.replicate 16 0), none, none, none, none, none, none] }

theorem scalingValues_scalingFits : scalingValues.scalingFits := by
  unfold SpsSyntax.scalingFits scalingListEnds
  decide +kernel

theorem witness_SpsReadsBack :
    (0 < (8 : Half).toNat ∧ byteAt (inputBytes (inp spsBytes) 8) 0 % 32 = 7 ∧ spsValues.fits ∧
      BitsAt (nalBody true ((inputBytes (inp spsBytes) 8).drop 1)) (8 * 7) 0 (elemBits spsValues.elems)) ∧
    ∃ s : State, byteAt (inputBytes s 13) 0 % 32 = 7 ∧ scalingValues.fits ∧
      BitsAt (nalBody true ((inputBytes s 13).drop 1)) (8 * 12) 0 (elemBits scalingValues.elems) :=
  ⟨⟨by decide, by decide +kernel, spsValues_fits, by unfold BitsAt; decide +kernel⟩,
    inp (0x67 :: packBits (elemBits scalingValues.elems)), by decide +kernel,
    ⟨fits_of_fitsB (by decide +kernel), scalingValues_scalingFits, by decide, by decide⟩,
    by unfold BitsAt; decide +kernel⟩

/-- The PPS of VH-7 as its syntax elements. -/
def ppsValues : PpsSyntax :=
  { id := 0, spsId := 0, entropyCodingMode := 0, bottomField := 0, numSliceGroups := 0, mapType := 1, runLengths := [],
    rectangles := [], changeDirection := 0, changeRate := 0, sliceGroupIds := [], numRefIdxL0 := 0, numRefIdxL1 := 0,
    weightedPred := 0, weightedBipred := 0, picInitQp := 0, picInitQs := 0, chromaQpOffset := 0, deblockingControl := 1,
    constrainedIntra := 0, redundantPicCnt := 0 }

theorem ppsValues_fits : ppsValues.fits :=
  ⟨fits_of_fitsB (by decide +kernel), by decide, by decide, by decide⟩

theorem witness_PpsReadsBack :
    ∃ s : State, 0 < (4 : Half).toNat ∧ byteAt (inputBytes s 4) 0 % 32 = 8 ∧ s.h264.spsValid = true ∧ ppsValues.fits ∧
      BitsAt (nalBody true ((inputBytes s 4).drop 1)) (8 * 3) 0 (elemBits ppsValues.elems) :=
  ⟨{ inp ppsBytes with h264 := parsed }, by decide, by decide +kernel, rfl, ppsValues_fits,
    by unfold BitsAt; decide +kernel⟩

/-- The IDR slice of VH-8 as its syntax elements. -/
def idrValues : SliceSyntax :=
  { firstMb := 0, sliceType := 7, ppsId := 0, colourPlane := 0, frameNum := 0, fieldPic := 0, bottomField := 0,
    idrPicId := 0, pocLsb := 0, deltaPocBottom := 0, deltaPoc0 := 0, deltaPoc1 := 0, redundantPicCnt := 0,
    directSpatial := 0, override := 0, numRefIdxL0 := 0, numRefIdxL1 := 0, modFlag0 := 0, mods0 := [], modFlag1 := 0,
    mods1 := [], lumaDenom := 0, chromaDenom := 0, weights0 := [], weights1 := [], adaptiveMarking := 0, mmcos := [],
    noOutputPrior := 0, longTermRef := 0, cabacInit := 0, qpDelta := 0, spSwitch := 0, qsDelta := 0,
    deblockingIdc := 0, alphaOffset := 0, betaOffset := 0, changeCycleWidth := 0, changeCycle := 0 }

theorem idrValues_fits : idrValues.fits parsed.sps parsed.pps 3 5 :=
  ⟨fits_of_fitsB (by decide +kernel), by decide, by unfold SliceSyntax.listsFit; decide +kernel,
    fun h => absurd h (by decide)⟩

/-- A ParserState whose B slices carry a weight table. -/
def weighted : H264State := { parsed with pps := { parsed.pps with weightedBipredIdc := 1 } }

/-- A B slice with modifications of both lists, a weight table and adaptive marking. -/
def biValues : SliceSyntax :=
  { idrValues with
    sliceType := 1, modFlag0 := 1, mods0 := [(0, 5), (2, 1)], modFlag1 := 1, lumaDenom := 5,
    weights0 := [⟨1, 3, 2, 1, 7, 0, 1, 4⟩], weights1 := [⟨0, 0, 0, 0, 0, 0, 0, 0⟩], adaptiveMarking := 1,
    mmcos := [⟨3, 1, 0, 2, 0⟩, ⟨5, 0, 0, 0, 0⟩] }

theorem witness_SliceHeaderReadsBack :
    parsed.spsValid = true ∧ parsed.ppsValid = true ∧ 5 ∈ [1, 5] ∧ idrValues.fits parsed.sps parsed.pps 3 5 ∧
    (∃ s : State, s.h264 = parsed ∧ byteAt (inputBytes s 4) 0 / 32 % 4 = 3 ∧ byteAt (inputBytes s 4) 0 % 32 = 5 ∧
      BitsAt (nalBody true ((inputBytes s 4).drop 1)) (8 * 3) 0 (elemBits (idrValues.elems parsed.sps parsed.pps 3 5))) ∧
    (∃ s : State, s.h264 = parsed ∧ byteAt (inputBytes s 5) 0 / 32 % 4 = 3 ∧ byteAt (inputBytes s 5) 0 % 32 = 28 ∧
      byteAt (inputBytes s 5) 1 / 128 = 1 ∧ byteAt (inputBytes s 5) 1 % 32 = 5 ∧
      BitsAt (nalBody true ((inputBytes s 5).drop 2)) (8 * 3) 0
        (elemBits (idrValues.elems parsed.sps parsed.pps 3 5))) ∧
    ∃ s : State, s.h264 = weighted ∧ byteAt (inputBytes s 15) 0 / 32 % 4 = 2 ∧ byteAt (inputBytes s 15) 0 % 32 = 1 ∧
      biValues.fits weighted.sps weighted.pps 2 1 ∧
      BitsAt (nalBody true ((inputBytes s 15).drop 1)) (8 * 14) 0
        (elemBits (biValues.elems weighted.sps weighted.pps 2 1)) :=
  ⟨rfl, rfl, by decide, idrValues_fits,
    ⟨{ inp idrBytes with h264 := parsed }, rfl, by decide +kernel, by decide +kernel, by unfold BitsAt; decide +kernel⟩,
    ⟨{ inp ([0x7C, 0x85] ++ idrBytes.drop 1) with h264 := parsed }, rfl, by decide +kernel, by decide +kernel,
      by decide +kernel, by decide +kernel, by unfold BitsAt; decide +kernel⟩,
    { inp (0x41 :: packBits (elemBits (biValues.elems weighted.sps weighted.pps 2 1))) with h264 := weighted }, rfl,
    by decide +kernel, by decide +kernel,
    ⟨fits_of_fitsB (by decide +kernel), by decide, by unfold SliceSyntax.listsFit; decide +kernel,
      fun h => absurd h (by decide)⟩,
    by unfold BitsAt; decide +kernel⟩

/-- A ParserState whose slices carry slice_group_change_cycle, with a width above 32. -/
def wideCycle : H264State :=
  { parsed with
    sps := { parsed.sps with picWidthInMbsMinus1 := 0xFFFFFFFF }
    pps := { parsed.pps with numSliceGroupsMinus1 := 1, sliceGroupMapType := 3 } }

/-- SPSs with log2_max_frame_num_minus4 and log2_max_pic_order_cnt_lsb_minus4 out of range. -/
def badFrameNum : SpsSyntax := { scalingValues with log2FrameNum := 13 }
def badPocLsb : SpsSyntax := { spsValues with pocType := 0, log2PocLsb := 13 }

/-- Each of the two log2 fields at 13, the first behind scaling lists; slice_type at 10 in an FU-A; a width of 36. -/
theorem witness_H264RangeChecks :
    (∃ (s : State) (x : SpsSyntax) (front back : List Elem), byteAt (inputBytes s 12) 0 % 32 = 7 ∧ x.scalingFits ∧
      x.profileIdc = 100 ∧ x.elems = front ++ eg Field.log2MaxFrameNumMinus4 13 :: back ∧
      (∀ e ∈ front ++ [eg Field.log2MaxFrameNumMinus4 13], e.fits) ∧
      BitsAt (nalBody true ((inputBytes s 12).drop 1)) (8 * 11) 0
        (elemBits (front ++ [eg Field.log2MaxFrameNumMinus4 13]))) ∧
    (∃ (s : State) (x : SpsSyntax) (front back : List Elem), byteAt (inputBytes s 6) 0 % 32 = 7 ∧ x.scalingFits ∧
      x.log2FrameNum ≤ 12 ∧ x.elems = front ++ eg Field.log2MaxPicOrderCntLsbMinus4 13 :: back ∧
      (∀ e ∈ front ++ [eg Field.log2MaxPicOrderCntLsbMinus4 13], e.fits) ∧
      BitsAt (nalBody true ((inputBytes s 6).drop 1)) (8 * 5) 0
        (elemBits (front ++ [eg Field.log2MaxPicOrderCntLsbMinus4 13]))) ∧
    (∃ (s : State) (x : SliceSyntax) (start : List Record) (body : List Byte),
      SliceInput s 4 1 3 (.h264Payload 4) start body ∧ s.h264 = parsed ∧ x.sliceType = 10 ∧
      (∀ e ∈ (x.elems parsed.sps parsed.pps 3 1).take 2, e.fits) ∧
      BitsAt body (8 * 2) 0 (elemBits ((x.elems parsed.sps parsed.pps 3 1).take 2))) ∧
    ∃ (s : State) (x : SliceSyntax) (start : List Record),
      SliceInput s 4 5 3 (.h264Nal 4) start (nalBody true ((inputBytes s 4).drop 1)) ∧ s.h264 = wideCycle ∧
      x.sliceType ≤ 9 ∧
      x.listsFit wideCycle.pps ∧ hasChangeCycle wideCycle.pps = true ∧
      isChangeCycleWidth wideCycle.sps wideCycle.pps x.changeCycleWidth ∧ 32 < x.changeCycleWidth ∧
      (∀ e ∈ (x.elems wideCycle.sps wideCycle.pps 3 5).dropLast, e.fits) ∧
      BitsAt (nalBody true ((inputBytes s 4).drop 1)) (8 * 3) 0
        (elemBits (x.elems wideCycle.sps wideCycle.pps 3 5).dropLast) :=
  ⟨⟨inp (0x67 :: packBits (elemBits (badFrameNum.elems.take 41))),
      badFrameNum, badFrameNum.elems.take 40,
      badFrameNum.elems.drop 41, by decide +kernel,
      scalingValues_scalingFits, rfl, by decide +kernel, fits_of_fitsB (by decide +kernel),
      by unfold BitsAt; decide +kernel⟩,
    ⟨inp [0x67, 66, 0xC0, 30, 0xE3, 0x80], badPocLsb,
      badPocLsb.elems.take 12,
      badPocLsb.elems.drop 13, by decide +kernel,
      fun h => absurd h (by decide), by decide, by decide +kernel, fits_of_fitsB (by decide +kernel),
      by unfold BitsAt; decide +kernel⟩,
    ⟨{ inp [0x7C, 0x81, 0x8B, 0x00] with h264 := parsed }, { idrValues with sliceType := 10 }, _, _,
      .fragment 0x7C 0x81 (by decide) (by decide) (by decide) rfl rfl rfl (by decide) rfl, rfl, rfl,
      fits_of_fitsB (by decide +kernel), by unfold BitsAt; decide +kernel⟩,
    { inp idrBytes with h264 := wideCycle }, { idrValues with changeCycleWidth := 36 }, _,
      .unit 0x65 (by decide +kernel) (by decide) rfl (by decide) rfl, rfl, by decide, by unfold SliceSyntax.listsFit; decide +kernel, by decide, by unfold isChangeCycleWidth; decide +kernel,
      by decide, fits_of_fitsB (by decide +kernel), by unfold BitsAt; decide +kernel⟩

/-- The sequence header of VA-2 as its syntax elements. -/
def seqValues : SeqSyntax :=
  { profile := 0, stillPicture := 0, reduced := 0, reducedLevel := 0, timingInfo := 0, unitsDisplayTick := 0,
    timeScale := 0, equalInterval := 0, ticksPerPicture := 0, ticksZeros := 0, decoderModel := 0, bufferDelayLength := 0,
    unitsDecodingTick := 0, removalTimeLength := 0, presentationTimeLength := 0, displayDelayPresent := 0,
    ops := [⟨0, 8, 0, 0, 0, 0, 0, 0, 0⟩], widthBits := 10, heightBits := 10, width := 1919, height := 1079,
    frameIds := 0, deltaFrameId := 0, additionalFrameId := 0, superblock128 := 0, filterIntra := 1, intraEdge := 1,
    interintra := 1, masked := 1, warped := 1, dualFilter := 1, orderHint := 1, jntComp := 1, refFrameMvs := 1,
    chooseScreen := 1, forceScreen := 0, chooseIntegerMv := 1, forceIntegerMv := 0, orderHintBits := 6, superres := 0,
    cdef := 1, restoration := 1, highBitdepth := 0, twelveBit := 0, monoChrome := 0, colourDescription := 0,
    primaries := 0, transfer := 0, matrix := 0, colourRange := 0, subsamplingX := 0, subsamplingY := 0,
    chromaPosition := 0, separateUvDeltaQ := 0, filmGrain := 0 }

theorem seqValues_fits : seqValues.fits := ⟨fits_of_fitsB (by decide +kernel), by decide, by decide⟩

/-- The OBU of VA-2. -/
def seqObu : Obu :=
  ⟨0x0A, 0, [0x0B], [0x00, 0x00, 0x00, 0x42, 0xAB, 0xBF, 0xC3, 0x73, 0xFF, 0xE6, 0x01], some seqValues⟩

theorem seqObu_whole : seqObu.whole :=
  show _ ∧ _ ∧ _ ∧ _ from
    ⟨by unfold Obu.sizeFits IsLeb128; decide, by decide, seqValues_fits, by unfold BitsAt; decide +kernel⟩

/-- The OBU of VA-2 with a size of 1: its sequence header ends after three elements, in its operating points. -/
def cutSeqObu : Obu := ⟨0x0A, 0, [0x01], [0x00], none⟩

theorem cutSeqObu_cuts : cutSeqObu.cutsSequence (seqValues.elems.take 5) :=
  ⟨by unfold Obu.sizeFits IsLeb128; decide, by decide, seqValues, seqValues_fits, eu Field.operatingPointsCntMinus1 5 0,
    seqValues.elems.drop 6, by decide +kernel⟩

/-- The SPS, PPS and slice of VH-6 to VH-8 cut inside an element, the slice in an FU-A too; the sequence header of VA-2 cut
by its OBU's size while the other bytes follow, after a whole OBU. -/
theorem witness_CutSyntaxIsTruncated :
    (∃ start body, SyntaxInput (inp spsBytes) 7 (.h264Nal 7) start body spsValues.elems ∧
      CutAfter body spsValues.elems (spsValues.elems.take 15)) ∧
    (∃ s start body, SyntaxInput s 2 (.h264Nal 2) start body ppsValues.elems ∧
      CutAfter body ppsValues.elems (ppsValues.elems.take 8)) ∧
    (∃ s start body elems, SyntaxInput s 2 (.h264Nal 2) start body elems ∧ CutAfter body elems (elems.take 3)) ∧
    (∃ s start body elems, SyntaxInput s 3 (.h264Payload 3) start body elems ∧ CutAfter body elems (elems.take 3)) ∧
    (∃ s : State, inputBytes s 18 = seqObu.bytes ++ cutSeqObu.bytes ++ [0x00, 0x42] ∧
      seqObu.whole ∧ seqObu.hasSize = true ∧ cutSeqObu.cutsSequence (seqValues.elems.take 5)) ∧
    ∃ s : State, inputBytes s 6 = 0x10 :: cutSeqObu.bytes ++ [0x00, 0x42] :=
  ⟨⟨_, _, .sps 0x67 spsValues (by decide +kernel) (by decide) rfl spsValues_fits,
      eg Field.picHeightInMapUnitsMinus1 14, spsValues.elems.drop 16, by decide +kernel⟩,
    ⟨{ inp ppsBytes with h264 := parsed }, _, _,
      .pps 0x68 ppsValues (by decide +kernel) (by decide) rfl rfl ppsValues_fits, eu Field.weightedBipredIdc 2 0,
      ppsValues.elems.drop 9, by decide +kernel⟩,
    ⟨{ inp idrBytes with h264 := parsed }, _, _, _,
      .slice 5 3 idrValues _ _ _ (.unit 0x65 (by decide +kernel) (by decide) rfl (by decide) rfl) rfl rfl idrValues_fits,
      eg Field.slicePicParameterSetId 0, (idrValues.elems parsed.sps parsed.pps 3 5).drop 4, by decide +kernel⟩,
    ⟨{ inp [0x7C, 0x85, 0x88] with h264 := parsed }, _, _, _,
      .slice 5 3 idrValues _ _ _ (.fragment 0x7C 0x85 (by decide) (by decide) (by decide) rfl rfl rfl (by decide) rfl)
        rfl rfl idrValues_fits,
      eg Field.slicePicParameterSetId 0, (idrValues.elems parsed.sps parsed.pps 3 5).drop 4, by decide +kernel⟩,
    ⟨inp (seqObu.bytes ++ cutSeqObu.bytes ++ [0x00, 0x42]), by decide +kernel, seqObu_whole, rfl, cutSeqObu_cuts⟩,
    inp (0x10 :: cutSeqObu.bytes ++ [0x00, 0x42]), by decide +kernel⟩

/-- 64 zeros and a 1 bit for seq_parameter_set_id; zeros to the end of an FU-A for first_mb_in_slice. -/
theorem witness_H264LongCodesFail :
    (∃ s start body, SyntaxInput s 14 (.h264Nal 14) start body spsValues.elems ∧
      LongCodeAfter body spsValues.elems (spsValues.elems.take 9) 3) ∧
    ∃ s start body elems, SyntaxInput s 10 (.h264Payload 10) start body elems ∧ LongCodeAfter body elems [] 2 :=
  ⟨⟨inp ([0x67, 66, 0xC0, 30] ++ List.replicate 8 0x00 ++ [0x80, 0x00]), _, _,
      .sps 0x67 spsValues (by decide +kernel) (by decide) rfl spsValues_fits, Field.seqParameterSetId, 0, 0, 0, 0,
      spsValues.elems.drop 10, 64, by decide +kernel, by decide, .inl ⟨rfl, by unfold BitsAt; decide +kernel⟩⟩,
    { inp ([0x7C, 0x85] ++ List.replicate 8 0x00) with h264 := parsed }, _, _, _,
      .slice 5 3 idrValues _ _ _
        (.fragment 0x7C 0x85 (by decide +kernel) (by decide +kernel) (by decide) rfl rfl rfl (by decide) rfl)
        rfl rfl idrValues_fits,
      Field.firstMbInSlice, 0, 0, 0, 0, (idrValues.elems parsed.sps parsed.pps 3 5).drop 1, 64, by decide +kernel,
      by decide,
      .inr ⟨rfl, by decide +kernel, by unfold BitsAt; decide +kernel⟩⟩

theorem witness_ParserStateCommitsWhole :
    (∃ t, exec (.h264Nal 4) (inp ppsBytes) = .next t ∧ t.status ≠ 0 ∧
      byteAt (inputBytes (inp ppsBytes) 4) 0 % 32 ≠ 7) ∧
    ∃ t, exec (.h264Nal 8) (inp spsBytes) = .next t ∧ byteAt (inputBytes (inp spsBytes) 8) 0 % 32 ≠ 8 :=
  ⟨⟨_, rfl, by decide +kernel, by decide +kernel⟩, _, rfl, by decide +kernel⟩

theorem witness_ValidityBitsOnlyRise :
    ∃ s t : State, exec (.h264Nal 4) s = .next t ∧ s.h264.spsValid = true ∧ s.h264.ppsValid = true :=
  ⟨{ inp ppsBytes with h264 := parsed }, _, rfl, rfl, rfl⟩

theorem witness_FuAContinuation :
    byteAt (inputBytes (inp [0x7C]) 1) 0 % 32 = 28 ∧
    (byteAt (inputBytes (inp [0x7C, 0x05]) 2) 0 % 32 = 28 ∧ byteAt (inputBytes (inp [0x7C, 0x05]) 2) 1 / 128 = 0) ∧
    byteAt (inputBytes (inp [0x7C, 0x87]) 2) 0 % 32 = 28 ∧ byteAt (inputBytes (inp [0x7C, 0x87]) 2) 1 % 32 ∉ [1, 5] := by
  decide

theorem witness_StapAUnitsInOrder :
    ∀ tail ∈ [[], [0x00], [0x00, 0x00], [0x00, 0x01], [0x00, 0x03, 0x09, 0xF0]],
      (0x78 : Byte).toNat % 32 = 24 ∧ (∀ n ∈ [[0x09, 0xF0], [0x0C]], n ≠ [] ∧ byteAt n 0 % 32 ∉ [1, 5, 7, 8]) ∧
      ∃ s : State, inputBytes s (BitVec.ofNat 16 (8 + tail.length)) =
        0x78 :: stapBytes [[0x09, 0xF0], [0x0C]] ++ tail := by
  intro tail ht
  refine ⟨by decide, by decide, inp (0x78 :: stapBytes [[0x09, 0xF0], [0x0C]] ++ tail), ?_⟩
  simp only [List.mem_cons, List.not_mem_nil, or_false] at ht
  rcases ht with rfl | rfl | rfl | rfl | rfl <;> decide

/-- Eight bytes, the last with its top bit set; one byte; seven continuation bytes and no more. -/
theorem witness_Leb128Value :
    (∃ s : State, (∀ i < 8 - 1, 128 ≤ byteAt (inputBytes s 8) i) ∧ 8 ≤ (8 : Half).toNat) ∧
    (∃ s : State, byteAt (inputBytes s 1) (1 - 1) < 128) ∧
    ∃ s : State, (7 : Half).toNat = 7 ∧ ∀ i < 7, 128 ≤ byteAt (inputBytes s 7) i :=
  ⟨⟨inp (List.replicate 8 0xFF), by decide⟩, ⟨inp [0x7F], by decide⟩, inp (List.replicate 7 0x80), by decide⟩

/-- SPS, PPS and IDR slice of VH-5, then nothing, a lone byte, a size of 0, a size past the end, and a cut PPS; and a PPS
that has no SPS. -/
theorem witness_StapAParsesItsUnits :
    (∀ tail ∈ [[], [0x00], [0x00, 0x00], [0x00, 0x01], be16Bytes 2 ++ [0x68, 0xCE] ++ [0x00]],
      NalsComplete base [spsBytes, ppsBytes, idrBytes] ∧
      inputBytes (inp (0x78 :: stapBytes [spsBytes, ppsBytes, idrBytes] ++ tail))
        (BitVec.ofNat 16 (23 + tail.length)) = 0x78 :: stapBytes [spsBytes, ppsBytes, idrBytes] ++ tail) ∧
    (nalRun (nalsRun base [spsBytes, ppsBytes, idrBytes]) [0x68, 0xCE]).status = 2 ∧
    (nalRun (nalsRun base []) ppsBytes).status = 4 := by
  refine ⟨fun tail ht => ⟨by unfold NalsComplete; decide +kernel, ?_⟩, by decide +kernel, by decide +kernel⟩
  simp only [List.mem_cons, List.not_mem_nil, or_false] at ht
  rcases ht with rfl | rfl | rfl | rfl | rfl <;> decide +kernel

/-- A temporal delimiter, the sequence header of VA-2, and a frame OBU with an extension and a size of two bytes. -/
def obuStream : List Obu :=
  [⟨0x12, 0, [0x00], [], none⟩, seqObu, ⟨0x36, 0x28, [0x82, 0x00], [0xAA, 0xBB], none⟩]

theorem obuStream_whole : ∀ o ∈ obuStream, o.whole ∧ o.hasSize = true := by
  intro o ho
  simp only [obuStream, List.mem_cons, List.not_mem_nil, or_false] at ho
  rcases ho with rfl | rfl | rfl
  · exact ⟨⟨by unfold Obu.sizeFits IsLeb128; decide, show _ ≠ _ by decide⟩, rfl⟩
  · exact ⟨seqObu_whole, rfl⟩
  · exact ⟨⟨by unfold Obu.sizeFits IsLeb128; decide, show _ ≠ _ by decide⟩, rfl⟩

/-- After them: nothing; an OBU without a size field; a missing extension; a cut size; a size of 1 with no payload; a
sequence header that its size cuts, with bytes after it. -/
theorem witness_Av1ObusInOrder :
    (∀ tail ∈ [[], [0x30, 0x01], [0x34], [0x32, 0x81], [0x32, 0x01], [0x0A, 0x01, 0x00, 0x00]],
      inputBytes (inp ((obuStream.map Obu.bytes).flatten ++ tail)) (BitVec.ofNat 16 (21 + tail.length)) =
        (obuStream.map Obu.bytes).flatten ++ tail) ∧
    (let o : Obu := ⟨0x30, 0, [], [0x01], none⟩; o.whole ∧ o.hasSize = false ∧ o.bytes = [0x30, 0x01]) ∧
    ∀ E ∈ [[0x34], [0x32, 0x81], [0x32, 0x01], [0x0A, 0x01, 0x00, 0x00]], ∃ recs, ObuCut E 3 recs := by
  refine ⟨fun tail ht => ?_, ⟨⟨by unfold Obu.sizeFits IsLeb128; decide, show _ ≠ _ by decide⟩, rfl, rfl⟩, fun E hE => ?_⟩
  · simp only [List.mem_cons, List.not_mem_nil, or_false] at ht
    rcases ht with rfl | rfl | rfl | rfl | rfl | rfl <;> decide
  · simp only [List.mem_cons, List.not_mem_nil, or_false] at hE
    rcases hE with rfl | rfl | rfl | rfl
    · exact ⟨_, .inl ⟨⟨0x34, 0, [], [], none⟩, .inl ⟨rfl, rfl, rfl⟩⟩⟩
    · exact ⟨_, .inl ⟨⟨0x32, 0, [0x81], [], none⟩, .inr ⟨rfl, by unfold IsLeb128Start; decide, rfl, rfl⟩⟩⟩
    · exact ⟨_, .inr ⟨⟨0x32, 0, [0x01], [], none⟩, .inl ⟨rfl, by unfold IsLeb128; decide, by decide, rfl, rfl⟩⟩⟩
    · exact ⟨_, .inr ⟨cutSeqObu, .inr ⟨_, [0x00], cutSeqObu_cuts, .inl rfl, rfl, rfl⟩⟩⟩

/-- The OBU of VA-2 between two others, and in AV1_PAYLOAD with a byte after it. -/
theorem witness_SequenceHeaderReadsBack :
    seqObu.whole ∧ seqObu.sequence = some seqValues ∧
    (∃ s : State, inputBytes s 21 =
      ((obuStream.take 1).map Obu.bytes).flatten ++ seqObu.bytes ++ ((obuStream.drop 2).map Obu.bytes).flatten) ∧
    ∃ s : State, inputBytes s 15 = 0x10 :: seqObu.bytes ++ [0xFF] :=
  ⟨seqObu_whole, rfl, ⟨inp (obuStream.map Obu.bytes).flatten, by decide +kernel⟩,
    inp (0x10 :: seqObu.bytes ++ [0xFF]), by decide +kernel⟩

theorem witness_Av1PayloadOneElement :
    (byteAt (inputBytes (inp [0x00]) 1) 0 / 16 % 4 = 0) ∧ (byteAt (inputBytes (inp [0x30]) 1) 0 / 16 % 4 ≠ 0) ∧
    (∃ s : State, byteAt (inputBytes s 2) 0 / 128 = 1 ∧ byteAt (inputBytes s 2) 0 / 16 % 4 = 1) ∧
    ∀ a ∈ [0x50, 0x10], ∃ s : State, byteAt (inputBytes s 2) 0 = a ∧ a / 128 = 0 ∧ a / 16 % 4 = 1 ∧
      byteAt (inputBytes s 2) 1 / 2 % 4 = 0 ∧ byteAt (inputBytes s 2) 1 / 8 % 16 ≠ 1 := by
  refine ⟨by decide, by decide, ⟨inp [0x90, 0xAA], by decide⟩, fun a ha => ?_⟩
  simp only [List.mem_cons, List.not_mem_nil, or_false] at ha
  rcases ha with rfl | rfl
  · exact ⟨inp [0x50, 0x30], by decide⟩
  · exact ⟨inp [0x10, 0x30], by decide⟩

/-- A continuation of one byte, the sequence header of VA-2 with a byte after its size, each with its length. -/
def prefixed : List PrefixedElement :=
  [⟨[0x01], .continuation [0xAA]⟩, ⟨[0x8E, 0x00], .whole seqObu [0xFF]⟩]

theorem prefixed_stand (Y n : Nat) (h : n = 2 → Y = 0) : ElementsStand 1 Y n (prefixed.map (·.element)) := by
  intro i e hi
  match i with
  | 0 => cases hi; exact ⟨rfl, rfl, by decide⟩
  | 1 => cases hi; exact ⟨by omega, by omega, seqObu_whole, .inl rfl⟩
  | k + 2 => cases hi

/-- W = 0 to the end; W = 3 with a last OBU that Y = 1 cuts; W = 3 with the third missing; W = 0 with a cut length, a
length past the end, a length of 0, and an element whose OBU passes it; W = 3 with a last sequence header cut by its size
and, with Y = 1, with a missing extension. -/
theorem witness_Av1PayloadElements :
    (∀ p ∈ prefixed, p.fits) ∧ ElementsStand 1 0 2 (prefixed.map (·.element)) ∧
    ElementsStand 1 1 3 (prefixed.map (·.element) ++ [.start ⟨0x32, 0, [0x7F], [], none⟩ []]) ∧
    ElementsStand 1 0 3 (prefixed.map (·.element)) ∧ ElementsStand 1 1 3 (prefixed.map (·.element)) ∧
    IsLeb128Start [0x80] ∧ IsLeb128 [0x01] ∧ IsLeb128 [0x00] ∧
    (∃ recs, ObuCut [0x32, 0x01] 2 recs) ∧ (∃ recs, ObuCut cutSeqObu.bytes 2 recs) ∧ (∃ recs, ObuHeadCut [0x34] 2 recs) ∧
    ∀ at_ ∈ [((0x80 : Byte), ([] : List Byte)), (0xF0, [0x32, 0x7F]), (0xB0, []), (0x80, [0x80]), (0x80, [0x01]),
        (0x80, [0x00]), (0x80, [0x02] ++ [0x32, 0x01] ++ []), (0xB0, cutSeqObu.bytes), (0xF0, [0x34])],
      inputBytes (inp (at_.1 :: prefixedBytes prefixed ++ at_.2)) (BitVec.ofNat 16 (19 + at_.2.length)) =
        at_.1 :: prefixedBytes prefixed ++ at_.2 := by
  refine ⟨fun p hp => ?_, prefixed_stand 0 2 (fun _ => rfl), fun i e hi => ?_,
    prefixed_stand 0 3 (by decide), prefixed_stand 1 3 (by decide), by unfold IsLeb128Start; decide,
    by unfold IsLeb128; decide, by unfold IsLeb128; decide,
    ⟨_, .inr ⟨⟨0x32, 0, [0x01], [], none⟩, .inl ⟨rfl, by unfold IsLeb128; decide, by decide, rfl, rfl⟩⟩⟩,
    ⟨_, .inr ⟨cutSeqObu, .inr ⟨_, [], cutSeqObu_cuts, .inl rfl, rfl, rfl⟩⟩⟩,
    ⟨_, ⟨0x34, 0, [], [], none⟩, .inl ⟨rfl, rfl, rfl⟩⟩, fun at_ ha => ?_⟩
  · simp only [prefixed, List.mem_cons, List.not_mem_nil, or_false] at hp
    rcases hp with rfl | rfl <;> (unfold PrefixedElement.fits IsLeb128; decide)
  · match i with
    | 0 => cases hi; exact ⟨rfl, rfl, by decide⟩
    | 1 => cases hi; exact ⟨by omega, by omega, seqObu_whole, .inl rfl⟩
    | 2 => cases hi; exact ⟨by omega, by omega, .inr ⟨by unfold IsLeb128; decide, by decide, rfl⟩, .inl rfl⟩
    | k + 3 => cases hi
  · simp only [List.mem_cons, List.not_mem_nil, or_false] at ha
    rcases ha with rfl | rfl | rfl | rfl | rfl | rfl | rfl | rfl | rfl <;> decide

theorem witness_OpusCodes0And1 :
    (byteAt (inputBytes (inp [0x78]) 1) 0 % 4 = 0) ∧
    (byteAt (inputBytes (inp [0xF9]) 1) 0 % 4 = 1 ∧ ((1 : Half).toNat - 1) % 2 = 0) ∧
    byteAt (inputBytes (inp [0xF9, 0x01]) 2) 0 % 4 = 1 ∧ ((2 : Half).toNat - 1) % 2 = 1 := by decide

/-- The length byte missing, its second byte missing, the length one too long, and exactly fitting. -/
theorem witness_OpusCode2 :
    (∃ s : State, byteAt (inputBytes s 1) 0 % 4 = 2 ∧ byteAt (inputBytes s 1) 1 ≤ 251 ∧ (1 : Half).toNat < 1 + 1) ∧
    (∃ s : State, byteAt (inputBytes s 2) 0 % 4 = 2 ∧ 251 < byteAt (inputBytes s 2) 1 ∧ (2 : Half).toNat < 1 + 2) ∧
    (∃ s : State, byteAt (inputBytes s 3) 0 % 4 = 2 ∧ byteAt (inputBytes s 3) 1 = 2 ∧
      1 + 1 ≤ (3 : Half).toNat ∧ (3 : Half).toNat < 1 + 1 + 2) ∧
    ∃ s : State, byteAt (inputBytes s 3) 0 % 4 = 2 ∧ byteAt (inputBytes s 3) 1 = 1 ∧ 1 + 1 + 1 ≤ (3 : Half).toNat :=
  ⟨⟨inp [0x7A], by decide⟩, ⟨inp [0x7A, 252], by decide⟩, ⟨inp [0x7A, 2, 9], by decide⟩, inp [0x7A, 1, 9], by decide⟩

/-- M = 0; two frames of one byte after 254 + 1 padding bytes; the same with a byte too few. -/
theorem witness_OpusCode3Cbr :
    (∃ s : State, byteAt (inputBytes s 2) 0 % 4 = 3 ∧ byteAt (inputBytes s 2) 1 / 128 = 0 ∧
      byteAt (inputBytes s 2) 1 % 64 = 0) ∧
    (∃ (s : State) (len : Half), byteAt (inputBytes s len) 0 % 4 = 3 ∧ byteAt (inputBytes s len) 1 = 0x42 ∧
      OpusPaddingIs (inputBytes s len) 4 255 ∧ 4 + 255 ≤ len.toNat ∧ (len.toNat - 4 - 255) % (0x42 % 64) = 0) ∧
    (∃ (s : State) (len : Half), byteAt (inputBytes s len) 0 % 4 = 3 ∧ byteAt (inputBytes s len) 1 = 0x42 ∧
      OpusPaddingIs (inputBytes s len) 3 1 ∧ len.toNat < 3 + 1) ∧
    ∃ (s : State) (len : Half), byteAt (inputBytes s len) 0 % 4 = 3 ∧ byteAt (inputBytes s len) 1 = 0x02 ∧
      OpusPaddingIs (inputBytes s len) 2 0 ∧ (len.toNat - 2 - 0) % (0x02 % 64) ≠ 0 :=
  ⟨⟨inp [0x7B, 0x00], by decide⟩,
    ⟨inp [0x7B, 0x42, 0xFF, 0x01], 261, by decide +kernel, by decide +kernel,
      .inr ⟨by decide +kernel, by decide +kernel, 1, rfl, by decide +kernel, by decide +kernel, by decide +kernel⟩,
      by decide, by decide⟩,
    ⟨inp [0x7B, 0x42, 0x01], 3, by decide, by decide, .inr ⟨by decide, by decide, 0, rfl, by decide, by decide, by decide⟩,
      by decide⟩,
    inp [0x7B, 0x02, 0x09], 3, by decide, by decide, .inl ⟨by decide, rfl, rfl⟩, by decide⟩

/-- Three frames, of 252 bytes (two length bytes), 1 byte and none, without padding; the same with a byte too few. -/
theorem witness_OpusCode3Vbr :
    ∀ len ∈ [258, (257 : Half)], ∃ s : State, 2 ≤ len.toNat ∧ byteAt (inputBytes s len) 0 % 4 = 3 ∧
      byteAt (inputBytes s len) 1 = 0x83 ∧ 0x83 / 128 = 1 ∧ 0x83 % 64 = [252, 1].length + 1 ∧
      (∀ l ∈ [252, 1], l ≤ 1275) ∧ OpusPaddingIs (inputBytes s len) 2 0 ∧
      slice (inputBytes s len) 2 ([252, 1].map opusLengthBytes).flatten.length =
        ([252, 1].map opusLengthBytes).flatten := by
  intro len hl
  refine ⟨inp [0x7B, 0x83, 252, 0, 1], ?_⟩
  simp only [List.mem_cons, List.not_mem_nil, or_false] at hl
  rcases hl with rfl | rfl <;>
    exact ⟨by decide, by decide +kernel, by decide +kernel, by decide, by decide, by decide,
      .inl ⟨by decide +kernel, rfl, rfl⟩, by decide +kernel⟩

/-- One byte; padding lengths of 255 to the end; the first of M - 1 lengths missing; the second byte of a second length
missing. -/
theorem witness_OpusCode3Cut :
    (byteAt (inputBytes (inp [0x7B]) 1) 0 % 4 = 3) ∧
    (∃ s : State, byteAt (inputBytes s 3) 0 % 4 = 3 ∧ byteAt (inputBytes s 3) 1 = 0x41 ∧
      ∀ a, 2 ≤ a → a < (3 : Half).toNat → byteAt (inputBytes s 3) a = 255) ∧
    (∃ s : State, byteAt (inputBytes s 2) 0 % 4 = 3 ∧ byteAt (inputBytes s 2) 1 = 0x82 ∧
      OpusPaddingIs (inputBytes s 2) 2 0 ∧ ([] : List Nat).length + 1 < 0x82 % 64 ∧ (inputBytes s 2).drop 2 = []) ∧
    ∃ s : State, byteAt (inputBytes s 4) 0 % 4 = 3 ∧ byteAt (inputBytes s 4) 1 = 0x83 ∧
      OpusPaddingIs (inputBytes s 4) 2 0 ∧ [1].length + 1 < 0x83 % 64 ∧
      (inputBytes s 4).drop 2 = ([1].map opusLengthBytes).flatten ++ [252] :=
  ⟨by decide,
    ⟨inp [0x7B, 0x41, 0xFF], by decide, by decide, fun a h h' => by
      have : a = 2 := by simp at h'; omega
      rw [this]; decide⟩,
    ⟨inp [0x7B, 0x82], by decide, by decide, .inl ⟨by decide, rfl, rfl⟩, by decide, by decide⟩,
    inp [0x7B, 0x83, 1, 252], by decide, by decide, .inl ⟨by decide, rfl, rfl⟩, by decide, by decide⟩

theorem witness_OpusFramesDisjointInOrder : ∃ t, exec (.opusPacket 1) (inp [0x78]) = .next t ∧ t.status = 0 :=
  ⟨_, rfl, by decide +kernel⟩

theorem witness_FecMediaInserts :
    ∃ s : State, 12 ≤ (12 : Half).toNat ∧ 0x1234 = BitVec.ofNat 16 (beAt (inputBytes s 12) 2 2) :=
  ⟨inp (media.take 12), by decide⟩

/-- One tier; an empty mask; tier 2 missing; tier 3 missing. -/
theorem witness_FecMaskDecodes :
    (∃ s : State, fecHeaderLen (inputBytes s 20) = 20 ∧ fecSeqs (inputBytes s 20) ≠ []) ∧
    (∃ s : State, fecHeaderLen (inputBytes s 20) = 20 ∧ fecSeqs (inputBytes s 20) = []) ∧
    (∃ s : State, 2 ≤ fecTiers (inputBytes s 23)) ∧ ∃ s : State, fecTiers (inputBytes s 31) = 3 :=
  ⟨⟨inp (List.replicate 18 0x00 ++ [0xC0, 0x00]), by decide +kernel⟩,
    ⟨inp (List.replicate 18 0x00 ++ [0x80, 0x00]), by decide +kernel⟩, ⟨base, by decide +kernel⟩, base, by decide +kernel⟩

theorem witness_FecMaskShortCircuit :
    ∃ (s : State) (m : Memory), (∀ a < 20, m.read a = s.ibuf.read a) ∧ 128 ≤ (s.ibuf.read 18).toNat ∧
      m.read 20 ≠ s.ibuf.read 20 :=
  ⟨inp (List.replicate 18 0x00 ++ [0xC0, 0x00]), Memory.writeBytes [] 18 [0xC0, 0x00, 0x55], by decide +kernel⟩

theorem witness_FecVariantsDecodedOnly :
    (byteAt (inputBytes (inp [0x80]) 1) 0 / 64 = 2) ∧ (byteAt (inputBytes (inp [0xC0]) 11) 0 / 64 = 3) ∧
    (byteAt (inputBytes (inp [0xC0]) 12) 0 / 64 = 3) ∧ (byteAt (inputBytes (inp [0x40]) 19) 0 / 64 ≤ 1) ∧
    byteAt (inputBytes (inp [0x40]) 20) 0 / 64 = 1 := by decide

/-- VF-1's payload with its packet present, and a payload that protects two packets of an empty MEDIA. -/
theorem witness_FecPacketStoresThenCounts :
    (∃ s : State, 20 ≤ (23 : Half).toNat ∧ byteAt (inputBytes s 23) 0 / 64 = 0 ∧ fecHeaderLen (inputBytes s 23) ≤ 23 ∧
      fecSeqs (inputBytes s 23) ≠ [] ∧
      ((fecSeqs (inputBytes s 23)).filter (fun q => q ∉ s.media.map (·.key))).length = 0) ∧
    ∃ s : State, byteAt (inputBytes s 20) 0 / 64 = 0 ∧ fecHeaderLen (inputBytes s 20) ≤ 20 ∧
      2 ≤ ((fecSeqs (inputBytes s 20)).filter (fun q => q ∉ s.media.map (·.key))).length :=
  ⟨⟨{ inp fecOfMedia with media := [⟨0x1234, media⟩] }, by decide +kernel⟩,
    inp (List.replicate 18 0x00 ++ [0xE0, 0x00]), by decide +kernel⟩

/-- An empty mask; tier 2 missing; tier 3 missing; a group of two, the first lost, whose length is 2 xor 3 = 1 where no
byte follows the header. -/
theorem witness_FecPacketFailures :
    (∃ s : State, byteAt (inputBytes s 20) 0 / 64 = 0 ∧ fecHeaderLen (inputBytes s 20) ≤ 20 ∧
      fecSeqs (inputBytes s 20) = []) ∧
    (∃ s : State, byteAt (inputBytes s 23) 0 / 64 = 0 ∧ 2 ≤ fecTiers (inputBytes s 23)) ∧
    (∃ s : State, byteAt (inputBytes s 31) 0 / 64 = 0 ∧ fecTiers (inputBytes s 31) = 3) ∧
    ∃ (s : State) (present : List StoreEntry), byteAt (inputBytes s 20) 0 / 64 = 0 ∧
      fecHeaderLen (inputBytes s 20) = 20 ∧ (s.media.map (·.key)).Nodup ∧
      (fecSeqs (inputBytes s 20)).filter (fun q => q ∉ s.media.map (·.key)) = [0x1233] ∧
      present.map (·.key) = (fecSeqs (inputBytes s 20)).filter (fun q => q ≠ 0x1233) ∧
      (∀ e ∈ present, e ∈ s.media ∧ 12 ≤ e.bytes.length ∧ e.bytes.length ≤ 65535) ∧
      1 = (present.map (fun e => e.bytes.length - 12)).foldl (· ^^^ ·) (beAt (inputBytes s 20) 2 2) ∧
      (20 : Half).toNat < 20 + 1 :=
  ⟨⟨inp (List.replicate 18 0x00 ++ [0x80, 0x00]), by decide +kernel⟩, ⟨base, by decide +kernel⟩,
    ⟨base, by decide +kernel⟩,
    { inp [0, 0, 0, 2, 0, 0, 0, 0, 1, 0, 0, 0, 0x11, 0x22, 0x33, 0x44, 0x12, 0x33, 0xE0, 0x00] with
      media := [⟨0x1234, media⟩] },
    [⟨0x1234, media⟩], by decide +kernel⟩

theorem witness_FecPacketRecoversTheLostPacket :
    ∃ (s : State) (F : List Byte) (group : List (List Byte)) (lost : List Byte) (key : List Byte → Half),
      F = inputBytes s 23 ∧ fecHeaderLen F ≤ 23 ∧ IsFecOf F group ∧
      (∀ m, key m = BitVec.ofNat 16 (beAt m 2 2)) ∧ group.map key = fecSeqs F ∧
      (∀ m ∈ group, 12 ≤ m.length ∧ m.length ≤ 65535) ∧ (s.media.map (·.key)).Nodup ∧ lost ∈ group ∧
      key lost ∉ s.media.map (·.key) ∧ (∀ m ∈ group, key m ≠ key lost → ⟨key m, m⟩ ∈ s.media) ∧
      byteAt lost 0 / 64 = 2 ∧ slice F 12 4 = slice lost 8 4 :=
  ⟨inp fecOfMedia, fecOfMedia, [media], media, fun m => BitVec.ofNat 16 (beAt m 2 2), by decide +kernel, by decide +kernel,
    by unfold IsFecOf; decide +kernel, fun _ => rfl, by decide +kernel, by decide +kernel, by decide, by decide, by decide,
    fun m hm h => absurd (by rw [List.mem_singleton.mp hm]) h, by decide, by decide⟩

/-- Another command, an R0F1 payload, a full MEDIA store and a full FEC store. -/
theorem witness_StoresChangeOnlyByInsertion :
    (∃ s t : State, exec (.h264Nal 0) s = .next t) ∧
    (∃ s t : State, exec (.fecPacket 20) s = .next t ∧ 64 ≤ byteAt (inputBytes s 20) 0) ∧
    (∃ s t : State, exec (.fecMedia 15) s = .next t ∧ s.media.length = s.cfg.mediaCap ∧ (s.media.map (·.key)).Nodup) ∧
    ∃ s t : State, exec (.fecPacket 23) s = .next t ∧ s.fec.length = s.cfg.fecCap ∧ (s.fec.map (·.key)).Nodup :=
  ⟨⟨base, _, rfl⟩, ⟨inp [0x40], _, rfl, by decide +kernel⟩,
    ⟨{ inp media with media := [⟨1, []⟩, ⟨2, []⟩, ⟨3, []⟩, ⟨4, []⟩] }, _, rfl, by decide, by decide⟩,
    { inp fecOfMedia with fec := [⟨1, []⟩, ⟨2, []⟩, ⟨3, []⟩, ⟨4, []⟩] }, _, rfl, by decide, by decide⟩

end Sys2Proof.Tests
end

section
/-! The illegal words of spec/30_encoding.md R81, told apart by what the decoder answers: a word it rejects runs no command,
and of the commands it gives only BR_READ and BR_INIT can still be illegal. -/

namespace Sys2Proof.Machine

open Sys2Proof.Safety

/-- A word that decodes is illegal only by the two operand conditions a command judges itself (R81, log entry 6). -/
theorem illegalWord_iff_of_decode {w arg : Word} {i : Instr} (h : decode w = .ok i) :
    IllegalWord w arg ↔
      (∃ n, i = .brRead n ∧ 64 < n.toNat) ∨ ∃ len, i = .brInit len ∧ 8 * len.toNat < arg.toNat := by
  obtain ⟨hopc, hn, hlen⟩ := decode_fields h
  unfold IllegalWord
  rw [← opcField_toNat w, ← nField_toNat w, ← lenField_toNat w, ← hopc, ← hn, ← hlen]
  cases i <;> simp [opcodes, Instr.opcode, Instr.nOperand, Instr.lenOperand]

theorem execBrRead_of_large {n : Byte} (s : State) (h : 64 < n.toNat) :
    execBrRead n s = .next s.illegalCommand := by
  obtain ⟨-, hexec⟩ | ⟨hle, -⟩ := execBrRead_spec n s
  · exact hexec
  · omega

theorem execBrInit_of_arg_large {len : Half} {s : State} (h : 8 * len.toNat < s.argOperand) :
    execBrInit len s = .next s.illegalCommand := by
  obtain ⟨-, hexec⟩ | ⟨hle, -⟩ := execBrInit_spec len s
  · exact hexec
  · omega

theorem command_of_decode {w : Word} {i : Instr} (h : decode w = .ok i) (s : State) : command w s = exec i s := by
  rw [command, h]

theorem command_of_decode_error {w : Word} {e : DecodeError} (h : decode w = .error e) (s : State) :
    command w s = .next s.illegalCommand := by
  rw [command, h]

/-- Both ways a word can be illegal, in the decoder and in the command, end alike (R81, R364). -/
theorem command_of_illegalWord {w : Word} {s : State} (h : IllegalWord w s.arg) :
    command w s = .next s.illegalCommand := by
  cases hd : decode w with
  | error e => exact command_of_decode_error hd s
  | ok i =>
    rw [command_of_decode hd]
    obtain ⟨n, rfl, hn⟩ | ⟨len, rfl, harg⟩ := (illegalWord_iff_of_decode hd).mp h
    · exact execBrRead_of_large s hn
    · exact execBrInit_of_arg_large harg

/-- Settles O3: the state that `illegalCommand` leads to differs in STATUS alone. -/
theorem illegalWordWritesStatusOnly : Obligations.IllegalWordWritesStatusOnly :=
  fun _ _ h => command_of_illegalWord h

end Sys2Proof.Machine
end

section
/-! The BitReader commands of spec/40_bitreader.md section 1: what a read gives, and that a command sees and changes
nothing of the state but the BitReader and its own operands (R121 to R124, R138). -/

namespace Sys2Proof.Machine

open Sys2Proof.Safety

/-! ## Reads -/

/-- A read whose primitive succeeds (R122, R127). -/
theorem State.finishRead_ok (s : State) (v p : Nat) :
    s.finishRead (.ok (v, { s.brReader with pos := p })) =
      { s with result := BitVec.ofNat 64 v, brPos := p, status := 0 } := rfl

theorem execBrRead_of_le {n : Byte} (s : State) (h : n.toNat ≤ 64) :
    execBrRead n s = .next (s.finishRead (s.brReader.u n.toNat)) := by
  obtain ⟨hlarge, -⟩ | ⟨-, hexec⟩ := execBrRead_spec n s
  · omega
  · exact hexec

/-- Settles O26: the primitive `ue()` reads the code back, and the command stores what it gives. -/
theorem brReadUeRoundTrip : Obligations.BrReadUeRoundTrip := by
  intro s v hv hcode
  have hue : s.brReader.ue = .ok (v, { s.brReader with pos := s.brPos + 2 * Nat.log2 (v + 1) + 1 }) :=
    Reader.ue_at hv hcode
  show execBrReadUe s = _
  rw [execBrReadUe, hue, State.finishRead_ok]

/-- Settles O23: the reads of `finishRead_u`, with `bits` as the sum of its bits. -/
theorem brReadGivesTheBits : Obligations.BrReadGivesTheBits := by
  intro s n
  show (_ → _ → execBrRead n s = _) ∧ (_ → _ → execBrRead n s = _) ∧ (_ → execBrRead n s = _)
  refine ⟨fun hn hfits => ?_, fun hn hpast => ?_, fun hn => ?_⟩
  · rw [execBrRead_of_le s hn, State.finishRead_u, if_neg (by omega), bits_eq_sum]
    rfl
  · rw [execBrRead_of_le s hn, State.finishRead_u, if_pos hpast]
    rfl
  · exact execBrRead_of_large s hn

/-! ## The frame of R124 -/

/-- Two states that agree in everything a BitReader command may look at: its operands in IBUF and ARG, the BitReader,
and RESULT, which a failure keeps. -/
structure SameReaderView (s t : State) : Prop where
  ibuf : t.ibuf = s.ibuf
  arg : t.arg = s.arg
  result : t.result = s.result
  brData : t.brData = s.brData
  brBitlen : t.brBitlen = s.brBitlen
  brPos : t.brPos = s.brPos

theorem SameReaderView.brReader {s t : State} (h : SameReaderView s t) : t.brReader = s.brReader := by
  simp only [State.brReader, h.brData, h.brBitlen, h.brPos]

theorem SameReaderView.input {s t : State} (h : SameReaderView s t) (len : Half) : t.input len = s.input len := by
  rw [State.input, h.ibuf, State.input]

theorem SameReaderView.argOperand {s t : State} (h : SameReaderView s t) : t.argOperand = s.argOperand := by
  rw [State.argOperand, h.arg, State.argOperand]

/-- R124 for the command `i` in `s`: it writes STATUS, RESULT and the BitReader only, the same values in every state
that looks the same to it; a failure writes STATUS only; and only BR_INIT reloads the BitReader or moves the cursor
back. -/
def ReaderFrame (i : Instr) (s : State) : Prop :=
  ∃ st r D L p,
    (∀ t, SameReaderView s t →
      exec i t = .next { t with status := st, result := r, brData := D, brBitlen := L, brPos := p }) ∧
    (st ≠ 0 → r = s.result ∧ D = s.brData ∧ L = s.brBitlen ∧ p = s.brPos) ∧
    ((∀ len, i ≠ .brInit len) → D = s.brData ∧ L = s.brBitlen ∧ s.brPos ≤ p)

/-- A command that writes STATUS only, as every failure does. -/
theorem readerFrame_of_statusOnly {i : Instr} {s : State} (st : Status)
    (h : ∀ t, SameReaderView s t → exec i t = .next (t.withStatus st)) : ReaderFrame i s := by
  refine ⟨st.code, s.result, s.brData, s.brBitlen, s.brPos, fun t ht => ?_, fun _ => ⟨rfl, rfl, rfl, rfl⟩,
    fun _ => ⟨rfl, rfl, Nat.le_refl _⟩⟩
  rw [h t ht, ← ht.result, ← ht.brData, ← ht.brBitlen, ← ht.brPos]
  rfl

/-- A command that ends in `finishRead` with a primitive that does not move the cursor back (R33). -/
theorem readerFrame_of_read {i : Instr} {s : State} (read : Reader → Except ReadFail (Nat × Reader))
    (hexec : ∀ t, exec i t = .next (t.finishRead (read t.brReader)))
    (hpos : ∀ v r, read s.brReader = .ok (v, r) → s.brPos ≤ r.pos) : ReaderFrame i s := by
  have hview : ∀ t, SameReaderView s t → exec i t = .next (t.finishRead (read s.brReader)) :=
    fun t ht => by rw [hexec, ht.brReader]
  cases hout : read s.brReader with
  | error e =>
    rw [hout] at hview
    cases e with
    | oob => exact readerFrame_of_statusOnly .outOfBounds hview
    | malformed => exact readerFrame_of_statusOnly .malformed hview
  | ok vr =>
    obtain ⟨v, r⟩ := vr
    refine ⟨0, BitVec.ofNat 64 v, s.brData, s.brBitlen, r.pos, fun t ht => ?_, fun h => absurd rfl h,
      fun _ => ⟨rfl, rfl, hpos v r hout⟩⟩
    rw [hview t ht, hout, ← ht.brData, ← ht.brBitlen]
    rfl

theorem Reader.u_pos_le {n v : Nat} {r r' : Reader} (h : r.u n = .ok (v, r')) : r.pos ≤ r'.pos := by
  rw [Reader.u_eq] at h
  split at h
  · cases h
  · cases h
    exact Nat.le_add_right _ _

theorem readerFrame_brInit (len : Half) (s : State) : ReaderFrame (.brInit len) s := by
  obtain harg | harg := Nat.lt_or_ge (8 * len.toNat) s.argOperand
  · refine readerFrame_of_statusOnly .illegalCommand fun t ht => ?_
    exact execBrInit_of_arg_large (ht.argOperand ▸ harg)
  · refine ⟨0, 0, s.input len, s.argOperand, 0, fun t ht => ?_, fun h => absurd rfl h, fun h => absurd rfl (h len)⟩
    show execBrInit len t = _
    rw [execBrInit, if_neg (by rw [ht.argOperand]; omega), ht.input, ht.argOperand]
    rfl

theorem readerFrame_brRead (n : Byte) (s : State) : ReaderFrame (.brRead n) s := by
  obtain hn | hn := Nat.lt_or_ge 64 n.toNat
  · exact readerFrame_of_statusOnly .illegalCommand fun t _ => execBrRead_of_large t hn
  · exact readerFrame_of_read (Reader.u n.toNat) (fun t => execBrRead_of_le t hn) fun _ _ => Reader.u_pos_le

theorem readerFrame_brReadByte (s : State) : ReaderFrame .brReadByte s :=
  readerFrame_of_read (Reader.u 8) (fun _ => rfl) fun _ _ => Reader.u_pos_le

theorem readerFrame_brReadUe (s : State) : ReaderFrame .brReadUe s := by
  refine readerFrame_of_read Reader.ue (fun _ => rfl) fun v r h => ?_
  obtain ⟨-, -, -, hpos, -⟩ := Reader.ue_ok h
  exact Nat.le_of_lt hpos

theorem readerFrame_of_not_parser {i : Instr} (hi : isParser i = false) (s : State) : ReaderFrame i s := by
  cases i with
  | brInit len => exact readerFrame_brInit len s
  | brRead n => exact readerFrame_brRead n s
  | brReadByte => exact readerFrame_brReadByte s
  | brReadUe => exact readerFrame_brReadUe s
  | _ => cases hi

/-- Settles O17: ParserState, the stores, DQ, DROP_CNT and RESULT2 are no part of what a BitReader command sees. -/
theorem bitReaderCommandsFrame : Obligations.BitReaderCommandsFrame := by
  intro i s hi
  obtain ⟨st, r, D, L, p, hexec, hfail, hkeep⟩ := readerFrame_of_not_parser hi s
  exact ⟨st, r, D, L, p, hexec s ⟨rfl, rfl, rfl, rfl, rfl, rfl⟩, hfail, hkeep,
    fun _ _ _ _ _ _ => hexec _ ⟨rfl, rfl, rfl, rfl, rfl, rfl⟩⟩

end Sys2Proof.Machine
end

section
/-! OPUS_PACKET of spec/43_opus.md: what each packing code answers, and the layout of the frames whenever the packet is
accepted (R280 to R291). -/

namespace Sys2Proof.Machine

open Sys2Proof.Safety

/-! ## Sequences that succeed -/

/-- A sequence that ends well passed through its first part. -/
theorem Parse.bind_eq_ok {σ α β : Type} {p : Parse σ α} {f : α → Parse σ β} {c c' : Ctx σ} {b : β}
    (h : (p >>= f) c = .ok b c') : ∃ a c1, p c = .ok a c1 ∧ f a c1 = .ok b c' := by
  rw [Parse.bind_run] at h
  cases hp : p c with
  | ok a c1 => exact ⟨a, c1, rfl, by rwa [hp] at h⟩
  | error st c1 => rw [hp] at h; cases h

/-! ## The TOC byte and the emission of the frames -/

/-- The three parts of a configuration are its row of the table (R282). -/
theorem opusTable_getD {cfg : Nat} (h : cfg < 32) :
    opusTable.getD cfg (0, 0, 0) = (opusMode cfg, opusBandwidth cfg, opusFrameSize cfg) := by
  revert cfg
  decide

/-- The records of the TOC fields (R281). -/
theorem opusToc_run {t : Nat} (ht : t < 256) (c : Ctx Unit) :
    opusToc t c = .ok (t / 8, t % 4) (c.addRecs [mkRec Field.tocConfig (t / 8) c.unit,
      mkRec Field.tocStereo (t / 4 % 2) c.unit, mkRec Field.tocCode (t % 4) c.unit]) := by
  have hcfg : fieldOf t 7 3 = t / 8 := by unfold fieldOf; norm_num; omega
  have hstereo : fieldOf t 2 2 = t / 4 % 2 := by unfold fieldOf; norm_num
  have hcode : fieldOf t 1 0 = t % 4 := by unfold fieldOf; norm_num
  simp [opusToc, Parse.bind_run, -emit_run, -bind_pure_comp, emit_eq, hcfg, hstereo, hcode]

/-- The records of a configuration (R282). -/
theorem opusConfigInfo_run (cfg : Nat) (c : Ctx Unit) :
    opusConfigInfo cfg c = .ok () (c.addRecs [mkRec Field.opusMode (opusMode cfg) c.unit,
      mkRec Field.opusBandwidth (opusBandwidth cfg) c.unit,
      mkRec Field.opusFrameSizeX10 (opusFrameSize cfg) c.unit]) := by
  simp [opusConfigInfo, Parse.bind_run, -emit_run, emit_eq]

/-- The two records of each frame, numbered from `n` (R291). -/
theorem opusEmitFrom_run (frames : List (Nat × Nat)) (n : Nat) (c : Ctx Unit) :
    ∃ u, opusEmitFrom n frames c = .ok () { c.addRecs (frames.mapIdx fun i f =>
      [mkRec Field.frameOffset f.1 (n + i), mkRec Field.frameLength f.2 (n + i)]).flatten with unit := u } := by
  induction frames generalizing n c with
  | nil => exact ⟨c.unit, by simp [opusEmitFrom]⟩
  | cons f rest ih =>
    obtain ⟨u, hrest⟩ := ih (n + 1) ({ c with unit := n }.addRecs
      [mkRec Field.frameOffset f.1 n, mkRec Field.frameLength f.2 n])
    refine ⟨u, ?_⟩
    rw [opusEmitFrom, Parse.bind_ok (setUnit_run n c), Parse.bind_ok (emit_eq ..), Parse.bind_ok (emit_eq ..),
      Ctx.addRecs_addRecs]
    refine hrest.trans ?_
    simp [Ctx.addRecs, List.mapIdx_cons, Nat.add_assoc, Nat.add_comm 1]

/-- The frame records of a whole layout, and unit 0 again (R291). -/
theorem opusEmitFrames_run (frames : List (Nat × Nat)) {c : Ctx Unit} (hc : c.unit = 0) :
    opusEmitFrames frames c = .ok () (c.addRecs (opusFrameRecs frames)) := by
  obtain ⟨u, hfrom⟩ := opusEmitFrom_run frames 0 (c.addRecs [mkRec Field.frameCount frames.length c.unit])
  rw [opusEmitFrames, Parse.bind_ok (emit_eq ..), Parse.bind_ok hfrom, setUnit_run]
  simp [Ctx.addRecs, opusFrameRecs, hc]

/-- The context in which a packet with TOC byte `t` comes to its packing code (R280). -/
def opusTocCtx (t : Nat) : Ctx Unit := (Ctx.start ()).addRecs (opusTocRecs t)

/-- A packet of no byte has no TOC byte (R280). -/
theorem opusPacketProc_empty {S : List Byte} (h : S.length < 1) (c : Ctx Unit) :
    opusPacketProc S c = .error .truncated c := by
  rw [opusPacketProc, if_pos h, raise_run]

/-- After the TOC byte the packing code decides (R280). -/
theorem opusPacketProc_run {S : List Byte} (h : 0 < S.length) :
    opusPacketProc S (Ctx.start ()) =
      (opusFrames S (byteAt S 0 % 4) >>= opusEmitFrames) (opusTocCtx (byteAt S 0)) := by
  have hlt : byteAt S 0 < 256 := byteAt_lt S 0
  rw [opusPacketProc, if_neg (by omega), Parse.bind_ok (emit_eq ..), Parse.bind_ok (opusToc_run hlt _)]
  dsimp only
  rw [Parse.bind_ok (opusConfigInfo_run ..), Ctx.addRecs_addRecs, Ctx.addRecs_addRecs]
  unfold opusTocCtx opusTocRecs
  rw [opusTable_getD (by omega)]
  rfl

section
variable {s : State} {len : Half} {t : Nat} {recs : List Record}

/-- A packet whose packing code gives frames completes with their records (R280, R291, R362). -/
theorem execOpusPacket_of_frames {frames : List (Nat × Nat)} (hlen : 0 < len.toNat)
    (ht : byteAt (inputBytes s len) 0 = t)
    (hf : opusFrames (inputBytes s len) (t % 4) (opusTocCtx t) = .ok frames ((opusTocCtx t).addRecs recs)) :
    execOpusPacket len s = .next (finished s 0x30 0 (opusTocRecs t ++ recs ++ opusFrameRecs frames)) := by
  have hproc : opusPacketProc (s.input len) (Ctx.start ()) =
      .ok () (((opusTocCtx t).addRecs recs).addRecs (opusFrameRecs frames)) := by
    rw [State.input_eq, opusPacketProc_run (by simpa using hlen), ht, Parse.bind_ok hf, opusEmitFrames_run _ rfl]
  rw [execOpusPacket, runParser_finished hproc]
  rfl

/-- A packet whose packing code raises completes without a frame record (R280, R362). -/
theorem execOpusPacket_of_raise {st : Status} (hlen : 0 < len.toNat) (ht : byteAt (inputBytes s len) 0 = t)
    (hst : st ≠ .ok)
    (hf : opusFrames (inputBytes s len) (t % 4) (opusTocCtx t) = .error st ((opusTocCtx t).addRecs recs)) :
    execOpusPacket len s = .next (finished s 0x30 st.code (opusTocRecs t ++ recs ++ [errRec st.code])) := by
  have hproc : opusPacketProc (s.input len) (Ctx.start ()) = .error st ((opusTocCtx t).addRecs recs) := by
    rw [State.input_eq, opusPacketProc_run (by simpa using hlen), ht, Parse.bind_error hf]
  rw [execOpusPacket, runParser_raised hproc hst]
  rfl

/-- A packing code that gives frames and records nothing of its own (R284 to R286). -/
theorem execOpusPacket_of_frames_only {frames : List (Nat × Nat)} (hlen : 0 < len.toNat)
    (ht : byteAt (inputBytes s len) 0 = t)
    (hf : opusFrames (inputBytes s len) (t % 4) (opusTocCtx t) = .ok frames (opusTocCtx t)) :
    execOpusPacket len s = .next (finished s 0x30 0 (opusTocRecs t ++ opusFrameRecs frames)) := by
  rw [execOpusPacket_of_frames (recs := []) hlen ht (by rw [hf, Ctx.addRecs_nil]), List.append_nil]

/-- A packing code that raises and records nothing of its own (R284 to R286). -/
theorem execOpusPacket_of_raise_only {st : Status} (hlen : 0 < len.toNat) (ht : byteAt (inputBytes s len) 0 = t)
    (hst : st ≠ .ok) (hf : opusFrames (inputBytes s len) (t % 4) (opusTocCtx t) = .error st (opusTocCtx t)) :
    execOpusPacket len s = .next (finished s 0x30 st.code (opusTocRecs t ++ [errRec st.code])) := by
  rw [execOpusPacket_of_raise (recs := []) hlen ht hst (by rw [hf, Ctx.addRecs_nil]), List.append_nil]

end

/-! ## Codes 0 to 2 -/

theorem opusFrames_zero (S : List Byte) : opusFrames S 0 = opusCode0 S := rfl
theorem opusFrames_one (S : List Byte) : opusFrames S 1 = opusCode1 S := rfl
theorem opusFrames_two (S : List Byte) : opusFrames S 2 = opusCode2 S := rfl

/-- The bytes at `pos` start with a self-delimited length: they say `l` in `k` bytes (R283). -/
def OpusLengthIs (S : List Byte) (pos l k : Nat) : Prop :=
  byteAt S pos ≤ 251 ∧ k = 1 ∧ l = byteAt S pos ∨
    251 < byteAt S pos ∧ k = 2 ∧ l = byteAt S pos + 4 * byteAt S (pos + 1)

/-- `sd(pos)` gives the length when all its bytes are there (R283). -/
theorem opusSd_run {S : List Byte} {pos l k : Nat} (h : OpusLengthIs S pos l k) (c : Ctx Unit) :
    opusSd S pos c = if pos + k ≤ S.length then .ok (l, k) c else .error .truncated c := by
  unfold opusSd
  obtain ⟨hb, rfl, rfl⟩ | ⟨hb, rfl, rfl⟩ := h
  · by_cases hpos : pos ≥ S.length
    · rw [if_pos hpos, if_neg (by omega), raise_run]
    · rw [if_neg hpos, if_pos hb, if_pos (by omega), Parse.pure_run]
  · rw [if_neg (Nat.not_le.mpr hb)]
    by_cases hpos : pos + 1 ≥ S.length
    · rw [if_pos hpos, ite_self, if_neg (by omega), raise_run]
    · rw [if_neg hpos, if_neg (by omega), if_pos (by omega), Parse.pure_run]

/-- Whatever the bytes, they say some length. -/
theorem exists_opusLengthIs (S : List Byte) (pos : Nat) : ∃ l k, OpusLengthIs S pos l k := by
  obtain hb | hb := Nat.lt_or_ge 251 (byteAt S pos)
  · exact ⟨_, _, .inr ⟨hb, rfl, rfl⟩⟩
  · exact ⟨_, _, .inl ⟨hb, rfl, rfl⟩⟩

/-- `code2()`: two frames when the length bytes and the first frame fit (R286). -/
theorem opusCode2_run {S : List Byte} {l k : Nat} (h : OpusLengthIs S 1 l k) (c : Ctx Unit) :
    opusCode2 S c =
      if S.length < 1 + k then .error .truncated c
      else if S.length < 1 + k + l then .error .malformed c
      else .ok [(1 + k, l), (1 + k + l, S.length - (1 + k + l))] c := by
  have hsd := opusSd_run h c
  obtain hk | hk := Nat.lt_or_ge S.length (1 + k)
  · rw [if_neg (by omega)] at hsd
    rw [opusCode2, Parse.bind_error hsd, if_pos hk]
  · rw [if_pos hk] at hsd
    rw [opusCode2, Parse.bind_ok hsd, if_neg (by omega)]
    dsimp only
    by_cases hl : S.length < 1 + k + l
    · rw [if_pos (by omega), if_pos hl, raise_run]
    · rw [if_neg (by omega), if_neg hl, Parse.pure_run, Nat.sub_sub, Nat.sub_sub, Nat.add_assoc]

/-! ## Layouts -/

/-- A layout whose frames lie end to end from some offset on, and end at or before byte `N − P` (R291). -/
def OpusLaidOut (N P : Nat) (frames : List (Nat × Nat)) : Prop :=
  ∃ o lens, frames = opusLayFrames o lens ∧ o + lens.sum + P ≤ N

/-- Frames laid from `o` on lie between `o` and the end of the last one (R289, R290). -/
theorem opusLayFrames_bounds {o : Nat} {lens : List Nat} :
    ∀ f ∈ opusLayFrames o lens, o ≤ f.1 ∧ f.1 + f.2 ≤ o + lens.sum := by
  induction lens generalizing o with
  | nil => simp [opusLayFrames]
  | cons l rest ih =>
    intro f hf
    rw [opusLayFrames] at hf
    rw [List.sum_cons]
    obtain rfl | hrest := List.mem_cons.mp hf
    · dsimp only
      omega
    · have := ih f hrest
      omega

/-- Frames laid end to end are in order and disjoint. -/
theorem opusLayFrames_pairwise (o : Nat) (lens : List Nat) :
    (opusLayFrames o lens).Pairwise (fun f g => f.1 + f.2 ≤ g.1) := by
  induction lens generalizing o with
  | nil => exact .nil
  | cons l rest ih => exact .cons (fun g hg => (opusLayFrames_bounds g hg).1) (ih (o + l))

/-- What R291 says of such a layout. -/
theorem OpusLaidOut.disjoint_inside {N P : Nat} {frames : List (Nat × Nat)} (h : OpusLaidOut N P frames) :
    frames.Pairwise (fun f g => f.1 + f.2 ≤ g.1) ∧ ∀ f ∈ frames, f.1 + f.2 + P ≤ N := by
  obtain ⟨o, lens, rfl, hend⟩ := h
  refine ⟨opusLayFrames_pairwise o lens, fun f hf => ?_⟩
  obtain ⟨-, hle⟩ := opusLayFrames_bounds f hf
  omega

/-- Code 0 lays out the rest of the packet (R284). -/
theorem opusCode0_laidOut {S : List Byte} {c c' : Ctx Unit} {frames : List (Nat × Nat)} (hS : 0 < S.length)
    (h : opusCode0 S c = .ok frames c') : c' = c ∧ OpusLaidOut S.length 0 frames := by
  rw [opusCode0, Parse.pure_run] at h
  cases h
  exact ⟨rfl, 1, [S.length - 1], rfl, by simp; omega⟩

/-- Code 1 lays out two halves of the rest (R285). -/
theorem opusCode1_laidOut {S : List Byte} {c c' : Ctx Unit} {frames : List (Nat × Nat)} (hS : 0 < S.length)
    (h : opusCode1 S c = .ok frames c') : c' = c ∧ OpusLaidOut S.length 0 frames := by
  unfold opusCode1 at h
  split at h
  · cases h
  · cases h
    exact ⟨rfl, 1, [(S.length - 1) / 2, (S.length - 1) / 2], rfl, by simp; omega⟩

/-- Code 2 lays out its first frame and the rest (R286). -/
theorem opusCode2_laidOut {S : List Byte} {c c' : Ctx Unit} {frames : List (Nat × Nat)}
    (h : opusCode2 S c = .ok frames c') : c' = c ∧ OpusLaidOut S.length 0 frames := by
  obtain ⟨l, k, hl⟩ := exists_opusLengthIs S 1
  rw [opusCode2_run hl] at h
  split at h
  · cases h
  · split at h
    · cases h
    · cases h
      exact ⟨rfl, 1 + k, [l, S.length - (1 + k + l)], rfl, by simp; omega⟩

/-- The padding lengths are read without a record (R288). -/
theorem opusPaddingFrom_ctx {S : List Byte} {fuel pos P : Nat} {c c' : Ctx Unit} {r : Nat × Nat}
    (h : opusPaddingFrom S fuel pos P c = .ok r c') : c' = c := by
  induction fuel generalizing pos P with
  | zero => cases h
  | succ f ih =>
    unfold opusPaddingFrom at h
    split at h
    · cases h
    · split at h
      · exact ih h
      · cases h; rfl

theorem opusPadding_ctx {S : List Byte} {p pos : Nat} {c c' : Ctx Unit} {r : Nat × Nat}
    (h : opusPadding S p pos c = .ok r c') : c' = c := by
  unfold opusPadding at h
  split at h
  · exact opusPaddingFrom_ctx h
  · cases h; rfl

/-- A self-delimited length is read without a record (R283). -/
theorem opusSd_ctx {S : List Byte} {pos : Nat} {c c' : Ctx Unit} {r : Nat × Nat}
    (h : opusSd S pos c = .ok r c') : c' = c := by
  obtain ⟨l, k, hl⟩ := exists_opusLengthIs S pos
  rw [opusSd_run hl] at h
  split at h <;> cases h
  rfl

theorem opusSdList_ctx {S : List Byte} {n pos : Nat} {c c' : Ctx Unit} {r : List Nat × Nat}
    (h : opusSdList S n pos c = .ok r c') : c' = c := by
  induction n generalizing pos r c with
  | zero => cases h; rfl
  | succ n ih =>
    rw [opusSdList] at h
    obtain ⟨⟨l, k⟩, c1, hsd, hrest⟩ := Parse.bind_eq_ok h
    obtain ⟨⟨ls, pos1⟩, c2, hlist, hpure⟩ := Parse.bind_eq_ok hrest
    cases hpure
    rw [ih hlist, opusSd_ctx hsd]

/-- Frames of one length fill what the padding leaves (R289). -/
theorem opusCbr_laidOut {S : List Byte} {pos P M : Nat} {c c' : Ctx Unit} {frames : List (Nat × Nat)}
    (h : opusCbr S pos P M c = .ok frames c') : c' = c ∧ OpusLaidOut S.length P frames := by
  unfold opusCbr at h
  split at h
  · cases h
  · split at h
    · cases h
    · cases h
      have hsum := Nat.mul_div_le (S.length - pos - P) M
      exact ⟨rfl, pos, _, rfl, by rw [List.sum_replicate, smul_eq_mul]; omega⟩

/-- Frames of the given lengths, and a last one of what they and the padding leave (R290). -/
theorem opusVbr_laidOut {S : List Byte} {pos P M : Nat} {c c' : Ctx Unit} {frames : List (Nat × Nat)}
    (h : opusVbr S pos P M c = .ok frames c') : c' = c ∧ OpusLaidOut S.length P frames := by
  rw [opusVbr] at h
  obtain ⟨⟨lens, o⟩, c1, hlist, hlay⟩ := Parse.bind_eq_ok h
  obtain rfl := opusSdList_ctx hlist
  dsimp only at hlay
  split at hlay
  · cases hlay
  · split at hlay
    · cases hlay
    · cases hlay
      exact ⟨rfl, o, _, rfl, by rw [List.sum_append, List.sum_singleton]; omega⟩

/-- Code 3 records the padding length last, then lays out frames that leave the padding (R287). -/
theorem opusCode3_laidOut {S : List Byte} {c c' : Ctx Unit} {frames : List (Nat × Nat)} (hc : c.unit = 0)
    (h : opusCode3 S c = .ok frames c') :
    ∃ recs P, c' = c.addRecs (recs ++ [mkRec Field.paddingLength P]) ∧ OpusLaidOut S.length P frames := by
  unfold opusCode3 at h
  split at h
  · cases h
  dsimp only at h
  rw [Parse.bind_ok (emit_eq ..), Parse.bind_ok (emit_eq ..), Parse.bind_ok (emit_eq ..), Ctx.addRecs_addRecs,
    Ctx.addRecs_addRecs] at h
  split at h
  · cases h
  obtain ⟨⟨P, pos⟩, c1, hpad, hlay⟩ := Parse.bind_eq_ok h
  obtain rfl := opusPadding_ctx hpad
  dsimp only at hlay
  rw [Parse.bind_ok (emit_eq ..), Ctx.addRecs_addRecs] at hlay
  simp only [Ctx.addRecs_unit, hc] at hlay
  obtain ⟨rfl, hlaid⟩ : c' = _ ∧ OpusLaidOut S.length P frames := by
    split at hlay
    · exact opusCbr_laidOut hlay
    · exact opusVbr_laidOut hlay
  exact ⟨_, P, rfl, hlaid⟩

/-- Every packing code that answers lays its frames out in the packet, less the padding it records (R291). -/
theorem opusFrames_laidOut {S : List Byte} {code : Nat} {c c' : Ctx Unit} {frames : List (Nat × Nat)}
    (hS : 0 < S.length) (hc : c.unit = 0) (h : opusFrames S code c = .ok frames c') :
    (c' = c ∧ OpusLaidOut S.length 0 frames) ∨
    ∃ recs P, c' = c.addRecs (recs ++ [mkRec Field.paddingLength P]) ∧ OpusLaidOut S.length P frames := by
  unfold opusFrames at h
  split at h
  · exact .inl (opusCode0_laidOut hS h)
  split at h
  · exact .inl (opusCode1_laidOut hS h)
  split at h
  · exact .inl (opusCode2_laidOut h)
  · exact .inr (opusCode3_laidOut hc h)

/-! ## Packets that are accepted -/

/-- An accepted packet has a TOC byte, a packing code that answers, and the records of both (R280, R291). -/
theorem opusPacketProc_ok {S : List Byte} {c : Ctx Unit} (h : opusPacketProc S (Ctx.start ()) = .ok () c) :
    ∃ recs frames P, c.recs = opusTocRecs (byteAt S 0) ++ recs ++ opusFrameRecs frames ∧
      (recs = [] ∧ P = 0 ∨ recs.getLast? = some (mkRec Field.paddingLength P)) ∧
      OpusLaidOut S.length P frames := by
  obtain hS | hS := Nat.lt_or_ge S.length 1
  · rw [opusPacketProc_empty hS] at h
    cases h
  rw [opusPacketProc_run hS] at h
  obtain ⟨frames, c1, hframes, hemit⟩ := Parse.bind_eq_ok h
  obtain ⟨rfl, hlaid⟩ | ⟨recs, P, rfl, hlaid⟩ := opusFrames_laidOut hS rfl hframes
  · rw [opusEmitFrames_run frames rfl] at hemit
    cases hemit
    exact ⟨[], frames, 0, by rw [List.append_nil]; rfl, .inl ⟨rfl, rfl⟩, hlaid⟩
  · rw [opusEmitFrames_run frames rfl] at hemit
    cases hemit
    exact ⟨_, frames, P, rfl, .inr List.getLast?_concat, hlaid⟩

/-- STATUS = 0 after OPUS_PACKET means that its procedure ran to its end (R86, R361). -/
theorem execOpusPacket_status_zero {s t : State} {len : Half} (h : execOpusPacket len s = .next t)
    (ht : t.status = 0) :
    ∃ c, opusPacketProc (inputBytes s len) (Ctx.start ()) = .ok () c ∧ t = finished s 0x30 0 c.recs := by
  rw [execOpusPacket, State.input_eq] at h
  cases hproc : opusPacketProc (inputBytes s len) (Ctx.start ()) with
  | ok _ c =>
    rw [runParser_finished hproc] at h
    cases h
    exact ⟨c, rfl, rfl⟩
  | error st c =>
    rw [runParser_error hproc] at h
    cases h
    rw [State.complete_status] at ht
    obtain ⟨-, hst⟩ := (keeps_opusPacketProc (inputBytes s len) (Ctx.start ())).2 st c hproc
    simp only [opusErrors, List.mem_cons, List.not_mem_nil, or_false] at hst
    obtain rfl | rfl := hst <;> exact absurd ht (by decide)

/-- The newest description after a parser command is its own (R39, R362). -/
theorem finished_dq_getLast? (s : State) (opc code : Byte) (recs : List Record) :
    (finished s opc code recs).dq.getLast? = some ⟨opc, code, recs⟩ := List.getLast?_concat

/-- The TOC byte records no padding length (R280 to R282). -/
theorem opusTocRecs_field_ne_paddingLength (t : Nat) : ∀ r ∈ opusTocRecs t, r.field ≠ Field.paddingLength := by
  simp only [opusTocRecs, List.forall_mem_cons, mkRec]
  decide

end Sys2Proof.Machine

/-! ## The obligations

They stand in the statements' namespace, since the machine's own has an `opusCode2` already. -/

namespace Sys2Proof.Safety

open Sys2Proof.Machine

/-- Settles O47: one frame of the rest, or two halves of an even rest. -/
theorem opusCodes0And1 : Obligations.OpusCodes0And1 := by
  intro s len t hlen ht
  refine ⟨fun hcode => execOpusPacket_of_frames_only hlen ht ?_,
    fun hcode heven => execOpusPacket_of_frames_only hlen ht ?_,
    fun hcode hodd => execOpusPacket_of_raise_only (st := .malformed) hlen ht Status.noConfusion ?_⟩
  · rw [hcode, opusFrames_zero, opusCode0, Parse.pure_run, inputBytes_length]
  · rw [hcode, opusFrames_one, opusCode1, inputBytes_length, if_neg (by omega), Parse.pure_run]
  · rw [hcode, opusFrames_one, opusCode1, inputBytes_length, if_pos hodd, raise_run]

/-- Settles O48: the three ways `opusCode2_run` ends. -/
theorem opusCode2 : Obligations.OpusCode2 := by
  intro s len t l k hlen ht hcode hl
  have hframes := opusCode2_run (S := inputBytes s len) hl (opusTocCtx t)
  rw [inputBytes_length, ← opusFrames_two, ← hcode] at hframes
  refine ⟨fun hmissing => execOpusPacket_of_raise_only (st := .truncated) hlen ht Status.noConfusion ?_,
    fun hthere hpast => execOpusPacket_of_raise_only (st := .malformed) hlen ht Status.noConfusion ?_,
    fun hfits => execOpusPacket_of_frames_only hlen ht ?_⟩
  · rw [hframes, if_pos hmissing]
  · rw [hframes, if_neg (by omega), if_pos hpast]
  · rw [hframes, if_neg (by omega), if_neg (by omega)]

/-- Settles O52: an accepted packet's frames are laid end to end from an offset of the packet (`OpusLaidOut`). -/
theorem opusFramesDisjointInOrder : Obligations.OpusFramesDisjointInOrder := by
  intro s t len hexec hstatus
  obtain ⟨c, hproc, rfl⟩ := execOpusPacket_status_zero hexec hstatus
  obtain ⟨recs, frames, P, hrecs, hpadding, hlaid⟩ := opusPacketProc_ok hproc
  rw [inputBytes_length] at hlaid
  refine ⟨_, _, frames, P, finished_dq_getLast? .., hrecs, ?_, hlaid.disjoint_inside⟩
  obtain ⟨rfl, rfl⟩ | hlast := hpadding
  · rw [List.append_nil]
    exact .inr ⟨opusTocRecs_field_ne_paddingLength _, rfl⟩
  · exact .inl (by rw [List.getLast?_append, hlast]; rfl)

end Sys2Proof.Safety
end

section
/-! The FEC_PACKET variants of spec/44_flexfec.md that are only decoded: R1F0, R1F1 and R0F1, and the short R0F0
(R312 to R316). -/

namespace Sys2Proof.Machine

open Sys2Proof.Safety

/-! ## The bit fields of the first two header bytes -/

/-- A bit of a number, as the fields of R9 have it. -/
theorem fieldOf_bit (v n : Nat) : fieldOf v n n = v / 2 ^ n % 2 := by
  rw [fieldOf, Nat.add_sub_cancel_left, pow_one]

/-- The low `n + 1` bits of a number. -/
theorem fieldOf_low (v n : Nat) : fieldOf v n 0 = v % 2 ^ (n + 1) := by
  rw [fieldOf, pow_zero, Nat.div_one, Nat.sub_zero]

/-- Nothing stands above the top bit of a byte. -/
theorem byteAt_div_128_mod_two (S : List Byte) (i : Nat) : byteAt S i / 128 % 2 = byteAt S i / 128 := by
  have hlt : byteAt S i < 256 := byteAt_lt S i
  omega

/-! ## The headers -/

section
variable {F : List Byte} {c : Ctx Store}

/-- The retransmission header is recorded when its 12 bytes are there (R314). -/
theorem fecR1F1_run (hc : c.unit = 0) :
    fecR1F1 F c = if F.length < 12 then .error .truncated c else .ok () (c.addRecs (fecRtxRecs F)) := by
  unfold fecR1F1
  split
  · exact raise_run _ _
  · simp [Parse.bind_run, -emit_run, emit_eq, hc, fieldOf_bit, fieldOf_low, byteAt_div_128_mod_two, fecRtxRecs]

/-- The common R0 header is recorded when 20 bytes are there (R315). -/
theorem fecCommonR0_run (hc : c.unit = 0) :
    fecCommonR0 F c = if F.length < 20 then .error .truncated c else .ok () (c.addRecs (fecCommonRecs F)) := by
  unfold fecCommonR0
  split
  · exact raise_run _ _
  · simp [Parse.bind_run, -emit_run, emit_eq, hc, fieldOf_bit, fieldOf_low, byteAt_div_128_mod_two, fecCommonRecs]

/-- The fixed L/D header needs no byte beyond the common header's (R316). -/
theorem fecR0F1_run (hc : c.unit = 0) : fecR0F1 F c = .ok () (c.addRecs (fecFixedRecs F)) := by
  simp [fecR0F1, Parse.bind_run, -emit_run, emit_eq, hc, fecFixedRecs]

end

/-! ## The variants -/

/-- What FEC_PACKET does after the variant bits R and F, the top two bits of the payload (R313). -/
def fecVariantProc (cfg : Params) (media : Store) (F : List Byte) : Parse Store Unit :=
  if byteAt F 0 / 128 = 1 ∧ byteAt F 0 / 64 % 2 = 0 then raise .malformed
  else if byteAt F 0 / 128 = 1 then fecR1F1 F
  else do
    fecCommonR0 F
    if byteAt F 0 / 64 % 2 = 1 then fecR0F1 F else fecR0F0 cfg media F

/-- The context in which the payload `F` comes to its variant (R312, R313). -/
def fecVariantCtx (fec : Store) (F : List Byte) : Ctx Store := (Ctx.start fec).addRecs (fecVariantRecs F)

/-- After the subtype and the variant bits the variant decides (R312, R313). -/
theorem fecPacketProc_run {cfg : Params} {media fec : Store} {F : List Byte} (hF : 0 < F.length) :
    fecPacketProc cfg media F (Ctx.start fec) = fecVariantProc cfg media F (fecVariantCtx fec F) := by
  have hR : fieldOf (byteAt F 0) 7 7 = byteAt F 0 / 128 := (fieldOf_bit _ _).trans (byteAt_div_128_mod_two F 0)
  have hFb : fieldOf (byteAt F 0) 6 6 = byteAt F 0 / 64 % 2 := fieldOf_bit _ _
  rw [fecPacketProc, if_neg (by omega), Parse.bind_ok (emit_eq ..)]
  rw [Parse.bind_ok (emit_eq ..), Parse.bind_ok (emit_eq ..), hR, hFb]
  rfl

section
variable {cfg : Params} {media : Store} {F : List Byte} {c : Ctx Store}

/-- R1F0 is MALFORMED (R313). -/
theorem fecVariantProc_R1F0 (hv : byteAt F 0 / 64 = 2) : fecVariantProc cfg media F c = .error .malformed c := by
  rw [fecVariantProc, if_pos (by omega), raise_run]

/-- R1F1 is the retransmission header (R313, R314). -/
theorem fecVariantProc_R1F1 (hv : byteAt F 0 / 64 = 3) (hc : c.unit = 0) :
    fecVariantProc cfg media F c =
      if F.length < 12 then .error .truncated c else .ok () (c.addRecs (fecRtxRecs F)) := by
  rw [fecVariantProc, if_neg (by omega), if_pos (by omega), fecR1F1_run hc]

/-- R0F0 and R0F1 need the whole common header (R313, R315). -/
theorem fecVariantProc_R0_short (hv : byteAt F 0 / 64 ≤ 1) (hF : F.length < 20) (hc : c.unit = 0) :
    fecVariantProc cfg media F c = .error .truncated c := by
  rw [fecVariantProc, if_neg (by omega), if_neg (by omega),
    Parse.bind_error ((fecCommonR0_run hc).trans (if_pos hF))]

/-- R0F1 is the common header and the L/D header (R313, R315, R316). -/
theorem fecVariantProc_R0F1 (hv : byteAt F 0 / 64 = 1) (hF : 20 ≤ F.length) (hc : c.unit = 0) :
    fecVariantProc cfg media F c = .ok () (c.addRecs (fecCommonRecs F ++ fecFixedRecs F)) := by
  rw [fecVariantProc, if_neg (by omega), if_neg (by omega),
    Parse.bind_ok ((fecCommonR0_run hc).trans (if_neg (by omega))), if_pos (by omega),
    fecR0F1_run (c := c.addRecs _) hc, Ctx.addRecs_addRecs]

end

/-! ## The command

A variant that commits nothing leaves the store of the context, `s.fec`, so the command leaves FEC as it was. -/

section
variable {s : State} {len : Half}

/-- A payload whose variant runs to its end and commits nothing (R312, R362). -/
theorem execFecPacket_of_variant_ok {recs : List Record} (hlen : 0 < len.toNat)
    (hv : fecVariantProc s.cfg s.media (inputBytes s len) (fecVariantCtx s.fec (inputBytes s len)) =
      .ok () ((fecVariantCtx s.fec (inputBytes s len)).addRecs recs)) :
    execFecPacket len s = .next (finished s 0x41 0 (fecVariantRecs (inputBytes s len) ++ recs)) := by
  have hproc := (fecPacketProc_run (by simpa using hlen)).trans hv
  rw [execFecPacket, State.input_eq, runParser_finished hproc]
  rfl

/-- A payload whose variant raises before it records or commits anything (R312, R362). -/
theorem execFecPacket_of_variant_raise {st : Status} (hlen : 0 < len.toNat) (hst : st ≠ .ok)
    (hv : fecVariantProc s.cfg s.media (inputBytes s len) (fecVariantCtx s.fec (inputBytes s len)) =
      .error st (fecVariantCtx s.fec (inputBytes s len))) :
    execFecPacket len s =
      .next (finished s 0x41 st.code (fecVariantRecs (inputBytes s len) ++ [errRec st.code])) := by
  have hproc := (fecPacketProc_run (by simpa using hlen)).trans hv
  rw [execFecPacket, State.input_eq, runParser_raised hproc hst]
  rfl

end

/-- Settles O56: each variant's own run, completed. -/
theorem fecVariantsDecodedOnly : Obligations.FecVariantsDecodedOnly := by
  rintro s len _ rfl hlen
  have hlength : (inputBytes s len).length = len.toNat := inputBytes_length s len
  refine ⟨fun hR1F0 => execFecPacket_of_variant_raise (st := .malformed) hlen Status.noConfusion
      (fecVariantProc_R1F0 hR1F0),
    fun hR1F1 hshort => execFecPacket_of_variant_raise (st := .truncated) hlen Status.noConfusion ?_,
    fun hR1F1 hwhole => execFecPacket_of_variant_ok hlen ?_,
    fun hR0 hshort => execFecPacket_of_variant_raise (st := .truncated) hlen Status.noConfusion
      (fecVariantProc_R0_short hR0 (hlength.trans_lt hshort) rfl),
    fun hR0F1 hwhole => ?_⟩
  · rw [fecVariantProc_R1F1 hR1F1 rfl, if_pos (hlength.trans_lt hshort)]
  · rw [fecVariantProc_R1F1 hR1F1 rfl, if_neg (by omega)]
  · rw [List.append_assoc]
    exact execFecPacket_of_variant_ok hlen (fecVariantProc_R0F1 hR0F1 (by omega) rfl)

end Sys2Proof.Machine
end

section
/-! The words of the commands, the host's actions and the BitReader commands (spec/30_encoding.md R80 to R85, R101,
spec/20_memory.md section 1, spec/70_reset_and_hazards.md section 1, spec/40_bitreader.md section 1). -/

namespace Sys2Proof.Machine

open Sys2Proof.Safety

/-! ## Words -/

/-- The command's row of R85 decodes its word (R101). -/
theorem decode_encode (i : Instr) : decode (encode i) = .ok i := by
  obtain ⟨hopc, hn, hlen⟩ := encode_fields i
  simp only [decode, decodeLen, decodeN, decodeZ, hopc, hn, hlen]
  cases i <;> rfl

/-- The three fields are the whole word (R80). -/
theorem word_eq_of_fields {w w' : Word} (hopc : opcField w = opcField w') (hn : nField w = nField w')
    (hlen : lenField w = lenField w') : w = w' := by
  have h0 := congrArg BitVec.toNat hopc
  have h8 := congrArg BitVec.toNat hn
  have h16 := congrArg BitVec.toNat hlen
  rw [opcField_toNat, opcField_toNat] at h0
  rw [nField_toNat, nField_toNat] at h8
  rw [lenField_toNat, lenField_toNat] at h16
  exact BitVec.eq_of_toNat_eq (by omega)

/-- Settles O1: decoding keeps the three fields, and they are the whole word. -/
theorem decodeInvertsEncode : Obligations.DecodeInvertsEncode := by
  refine fun i => ⟨decode_encode i, fun w h => ?_⟩
  obtain ⟨hopc, hn, hlen⟩ := decode_fields h
  obtain ⟨eopc, en, elen⟩ := encode_fields i
  exact word_eq_of_fields (hopc ▸ eopc.symm) (hn ▸ en.symm) (hlen ▸ elen.symm)

/-- Settles O2: each word is the encoding of its command. -/
theorem exampleWordsDecode : Obligations.ExampleWordsDecode :=
  ⟨decode_encode (.brInit 4), decode_encode (.brRead 3), decode_encode .brReadByte, decode_encode .brReadUe,
    decode_encode (.h264Payload 2), decode_encode (.h264Nal 8), decode_encode (.av1Payload 3),
    decode_encode (.av1Obus 13), decode_encode (.av1Leb128 2), decode_encode (.opusPacket 21),
    decode_encode (.fecMedia 15), decode_encode (.fecPacket 23), decode_encode (.fecMask 20)⟩

/-! ## Steps -/

variable {s : State} {rest : List HostAction} {addr width : Nat}

/-- A step performs the oldest pending action (R70). -/
theorem step_of_host {a : HostAction} (h : s.host = a :: rest) : step s = perform a (s.withHost rest) := by
  rw [step, h]

/-- Settles O11. -/
theorem idleKeepsTheState : Obligations.IdleKeepsTheState := fun s h => by rw [step, h]

/-- A write to CMD issues its word (R80). -/
theorem step_of_command {w : Word} (h : s.host = .regWrite 0x000 4 w :: rest) :
    step s = command w { s with host := rest } := step_of_host h

/-- Settles O5. -/
theorem stepRunsDecodedCommand : Obligations.StepRunsDecodedCommand := by
  refine fun s w rest h => ⟨fun i hi _ => ?_, fun hw => ?_⟩
  · rw [step_of_command h, command_of_decode hi]
  · rw [step_of_command h]
    exact command_of_illegalWord hw

theorem hostPopDesc_of_cons {d : Description} {ds : List Description} (h : s.dq = d :: ds) :
    hostPopDesc s = { s with dq := ds, reply := .desc (some d) } := by
  rw [hostPopDesc, h]

theorem hostPopDesc_of_nil (h : s.dq = []) : hostPopDesc s = s.withReply (.desc none) := by
  rw [hostPopDesc, h]

/-- Settles O9. -/
theorem popDescTakesTheHead : Obligations.PopDescTakesTheHead := by
  refine fun s rest h => ⟨fun d ds hdq => ?_, fun hdq => ?_⟩
  · exact (step_of_host h).trans (congrArg Host.Outcome.next (hostPopDesc_of_cons hdq))
  · exact (step_of_host h).trans (congrArg Host.Outcome.next (hostPopDesc_of_nil hdq))

/-- Settles O10. -/
theorem resetSetsTheTable : Obligations.ResetSetsTheTable :=
  ⟨fun _ _ h => step_of_host h, fun _ => rfl, rfl, rfl, _, rfl⟩

/-! ## Registers -/

/-- No register stands at a misaligned address or past the last one (R62, R82). -/
theorem Reg.ofAddr_eq_none (h : addr % 4 ≠ 0 ∨ 0x030 < addr) : Reg.ofAddr addr = none := by
  unfold Reg.ofAddr
  iterate 13 rw [if_neg (by omega)]

theorem Reg.target_eq_none (h : width ≠ 4 ∨ addr % 4 ≠ 0 ∨ 0x030 < addr) : Reg.target addr width = none := by
  unfold Reg.target
  split
  · exact Reg.ofAddr_eq_none (by omega)
  · rfl

/-- A read-only register: a write to it is ignored (R82). -/
theorem exists_readOnly (h4 : addr % 4 = 0) (hlow : 0x008 ≤ addr) (hhigh : addr ≤ 0x030) :
    ∃ r, Reg.ofAddr addr = some r ∧ r ≠ .cmd ∧ ∀ (s : State) (v : Word), s.writeReg r v = s := by
  obtain ⟨k, rfl⟩ : ∃ k, addr = 4 * k := ⟨addr / 4, by omega⟩
  have hk2 : 2 ≤ k := by omega
  have hk12 : k ≤ 12 := by omega
  interval_cases k <;> exact ⟨_, rfl, nofun, fun _ _ => rfl⟩

theorem hostRegWrite_of_register {r : Reg} {v : Word} (h : Reg.ofAddr addr = some r) (hr : r ≠ .cmd) :
    hostRegWrite addr 4 v s = .next (s.writeReg r v) := by
  rw [hostRegWrite, show Reg.target addr 4 = some r from h]
  cases r with
  | cmd => exact absurd rfl hr
  | _ => rfl

/-- Settles O6. -/
theorem registerWrites : Obligations.RegisterWrites := by
  refine fun s addr width v rest h => ⟨?_, ?_, fun hno => ?_⟩
  · rintro ⟨rfl, rfl⟩
    exact step_of_host h
  · rintro ⟨rfl, h4, hlow, hhigh⟩
    obtain ⟨r, hr, hcmd, hsame⟩ := exists_readOnly h4 hlow hhigh
    rw [step_of_host h, perform, hostRegWrite_of_register hr hcmd, hsame]
    rfl
  · rw [step_of_host h, perform, hostRegWrite, Reg.target_eq_none hno]

theorem step_of_regRead {r : Reg} (h : s.host = .regRead addr 4 :: rest) (hr : Reg.ofAddr addr = some r) :
    step s = .next { s with host := rest, reply := .word (s.readReg r) } := by
  rw [step_of_host h, perform, hostRegRead, show Reg.target addr 4 = some r from hr]
  cases r <;> rfl

/-- The value a register reads as (R82). -/
theorem State.readReg_toNat (s : State) (r : Reg) :
    (s.readReg r).toNat =
      match r with
      | .cmd => 0
      | .arg => s.arg.toNat
      | .status => s.status.toNat
      | .resultLo => s.result.toNat % 2 ^ 32
      | .resultHi => s.result.toNat / 2 ^ 32
      | .result2 => s.result2.toNat
      | .brPos => s.brPos % 2 ^ 20
      | .brBitlen => s.brBitlen % 2 ^ 20
      | .dropCnt => s.dropCnt.toNat
      | .dqCount => s.dq.length % 2 ^ 32
      | .h264Valid => s.h264.spsValid.toNat + 2 * s.h264.ppsValid.toNat
      | .mediaCount => s.media.length % 2 ^ 32
      | .fecCount => s.fec.length % 2 ^ 32 := by
  cases r <;> simp only [State.readReg]
  case status => rw [BitVec.toNat_setWidth, Nat.mod_eq_of_lt (by omega)]
  case resultLo => simp [BitVec.extractLsb, BitVec.extractLsb'_toNat]
  case resultHi =>
    simp only [BitVec.extractLsb, BitVec.extractLsb'_toNat, Nat.shiftRight_eq_div_pow]
    omega
  case brPos => rw [BitVec.toNat_ofNat]; omega
  case brBitlen => rw [BitVec.toNat_ofNat]; omega
  case dqCount => rw [BitVec.toNat_ofNat]
  case mediaCount => rw [BitVec.toNat_ofNat]
  case fecCount => rw [BitVec.toNat_ofNat]
  case h264Valid => unfold H264State.validWord; cases s.h264.spsValid <;> cases s.h264.ppsValid <;> rfl
  all_goals rfl

/-- Settles O7: each row of the table is a register and the value it reads as. -/
theorem registerReads : Obligations.RegisterReads := by
  refine fun s addr width rest h => ⟨?_, fun hno => ?_⟩
  · rintro rfl v hv
    have hread {r : Reg} {a n : Nat} (hr : Reg.ofAddr a = some r) (hn : (s.readReg r).toNat = n)
        (ha : (addr, v.toNat) = (a, n)) : step s = .next { s with host := rest, reply := .word v } := by
      obtain ⟨rfl, hval⟩ := Prod.mk.inj ha
      rw [step_of_regRead h hr, BitVec.eq_of_toNat_eq (hn.trans hval.symm)]
    simp only [List.mem_cons, List.not_mem_nil, or_false] at hv
    rcases hv with hv | hv | hv | hv | hv | hv | hv | hv | hv | hv | hv | hv | hv
    · exact hread rfl (s.readReg_toNat .cmd) hv
    · exact hread rfl (s.readReg_toNat .arg) hv
    · exact hread rfl (s.readReg_toNat .status) hv
    · exact hread rfl (s.readReg_toNat .resultLo) hv
    · exact hread rfl (s.readReg_toNat .resultHi) hv
    · exact hread rfl (s.readReg_toNat .result2) hv
    · exact hread rfl (s.readReg_toNat .brPos) hv
    · exact hread rfl (s.readReg_toNat .brBitlen) hv
    · exact hread rfl (s.readReg_toNat .dropCnt) hv
    · exact hread rfl (s.readReg_toNat .dqCount) hv
    · exact hread rfl (s.readReg_toNat .h264Valid) hv
    · exact hread rfl (s.readReg_toNat .mediaCount) hv
    · exact hread rfl (s.readReg_toNat .fecCount) hv
  · rw [step_of_host h, perform, hostRegRead, Reg.target_eq_none hno]

/-! ## IBUF -/

theorem step_of_memWrite {v : List Byte} (h : s.host = .memWrite addr v :: rest) (hfits : addr + v.length ≤ 65536) :
    step s = .next { s with host := rest, ibuf := s.ibuf.writeBytes addr v } := by
  rw [step_of_host h, perform, hostMemWrite, if_pos (by unfold Config.ibufSize; exact hfits)]
  rfl

/-- Settles O8. -/
theorem inputBufferWrites : Obligations.InputBufferWrites := by
  refine fun s addr v rest hwf => ⟨fun h hfits => ?_, fun h hpast => ?_, fun h hlow hhigh => ?_, fun h hout => ?_⟩
  · exact ⟨_, Memory.writeBytes_wf v hwf hfits, step_of_memWrite h hfits,
      fun i hi => Memory.read_writeBytes_inside _ _ i v hwf hfits hi,
      fun a ha => Memory.read_writeBytes_outside _ _ a v ha⟩
  · rw [step_of_host h, perform, hostMemWrite, if_neg (by unfold Config.ibufSize; omega)]
  · rw [step_of_host h, perform, hostBusWrite, if_pos (by unfold ibufBase Config.ibufSize; omega),
      step_of_host (a := .memWrite (addr - 0x10000) v) rfl]
    rfl
  · rw [step_of_host h, perform, hostBusWrite, if_neg (by unfold ibufBase Config.ibufSize; omega)]

/-- What has just been written from index 0 is the input (R38, R68). -/
theorem inputBytes_writeBytes {t : State} {m : Memory} {bytes : List Byte} (hwf : m.wf) (hlen : bytes.length ≤ 65535)
    (ht : t.ibuf = m.writeBytes 0 bytes) : inputBytes t (BitVec.ofNat 16 bytes.length) = bytes := by
  have hnat : (BitVec.ofNat 16 bytes.length).toNat = bytes.length := by rw [BitVec.toNat_ofNat]; omega
  refine List.ext_getElem (by rw [inputBytes_length, hnat]) fun i _ hi => ?_
  have hread := Memory.read_writeBytes_inside m 0 i bytes hwf (by unfold Config.ibufSize; omega) hi
  simp only [inputBytes, List.getElem_map, List.getElem_range, ht]
  simpa [hi] using hread

/-- Settles O12: the first step writes the bytes, the second decodes the word that was encoded. -/
theorem parseReadsTheBytesWritten : Obligations.ParseReadsTheBytesWritten := by
  intro s mk bytes _ hwf hlen h
  refine ⟨_, step_of_memWrite h (by omega), inputBytes_writeBytes hwf hlen rfl, ?_⟩
  rw [step_of_command rfl, command_of_decode (decode_encode _)]

/-! ## BitReader -/

/-- Settles O22. -/
theorem brInitLoadsTheReader : Obligations.BrInitLoadsTheReader := by
  refine fun s len => ⟨fun h => ?_, fun h => execBrInit_of_arg_large h⟩
  obtain ⟨hlarge, -⟩ | ⟨-, hexec⟩ := execBrInit_spec len s
  · exact absurd h (Nat.not_le_of_lt hlarge)
  · rw [State.input_eq] at hexec
    exact hexec

/-- A read of `n` bits at the cursor (R121). -/
theorem finishRead_of_fits {n : Nat} (h : s.brPos + n ≤ s.brBitlen) :
    s.finishRead (s.brReader.u n) =
      { s with result := BitVec.ofNat 64 (bits s.brData s.brPos n), brPos := s.brPos + n, status := 0 } := by
  rw [State.finishRead_u, if_neg (by omega)]
  rfl

theorem finishRead_of_past {n : Nat} (h : s.brBitlen < s.brPos + n) :
    s.finishRead (s.brReader.u n) = { s with status := 1 } := by
  rw [State.finishRead_u, if_pos h]
  rfl

/-- Two aligned bytes, the first the most significant (R64, R65). -/
theorem bits_two_bytes (D : List Byte) (k : Nat) : bits D (8 * k) 16 = byteAt D k * 256 + byteAt D (k + 1) := by
  rw [bits_add D (8 * k) 8 8, bits_byte, show 8 * k + 8 = 8 * (k + 1) by omega, bits_byte]
  norm_num

/-- Eight bits at any position, out of the two bytes at the cursor (R123). -/
theorem bits_eight (D : List Byte) (p : Nat) :
    bits D p 8 = (byteAt D (p / 8) * 256 + byteAt D (p / 8 + 1)) / 2 ^ (8 - p % 8) % 256 := by
  have hb : p % 8 < 8 := Nat.mod_lt _ (by decide)
  have hp : 8 * (p / 8) + p % 8 = p := Nat.div_add_mod p 8
  have hsplit : bits D (8 * (p / 8)) 16 =
      (bits D (8 * (p / 8)) (p % 8) * 2 ^ 8 + bits D p 8) * 2 ^ (8 - p % 8) + bits D (p + 8) (8 - p % 8) := by
    rw [show 16 = p % 8 + 8 + (8 - p % 8) by omega, bits_add, bits_add, ← Nat.add_assoc, hp]
  rw [← bits_two_bytes, hsplit, Nat.mul_comm _ (2 ^ _), Nat.mul_add_div (Nat.two_pow_pos _),
    Nat.div_eq_of_lt (bits_lt D _ _), Nat.add_zero]
  have := bits_lt D p 8
  omega

/-- Settles O24. -/
theorem brReadByteGivesEightBits : Obligations.BrReadByteGivesEightBits := by
  refine fun s => ⟨(execBrRead_of_le s (n := 8) (by decide)).symm, fun h => ?_, fun h => ?_⟩
  · exact congrArg Host.Outcome.next (finishRead_of_past h)
  · rw [← bits_eight]
    exact congrArg Host.Outcome.next (finishRead_of_fits h)

/-- Settles O25. -/
theorem alignedReadsAreBigEndian : Obligations.AlignedReadsAreBigEndian := by
  refine fun s k hpos => ⟨fun h => ?_, fun h => ?_⟩
  · refine (execBrRead_of_le s (n := 16) (by decide)).trans (congrArg Host.Outcome.next ?_)
    rw [← bits_two_bytes, ← hpos]
    exact finishRead_of_fits h
  · refine (execBrRead_of_le s (n := 8) (by decide)).trans (congrArg Host.Outcome.next ?_)
    rw [← bits_byte, ← hpos]
    exact finishRead_of_fits h

/-- Settles O27: the run of zeros decides which way the primitive ends. -/
theorem brReadUeFailures : Obligations.BrReadUeFailures := by
  intro s k hz
  have hue (hk : s.brPos + k ≤ s.brBitlen) (h1 : s.brPos + k < s.brBitlen → streamBit s.brData (s.brPos + k) = true) :=
    Reader.ue_of_run (r := s.brReader) hk hz h1
  show (_ → execBrReadUe s = _) ∧ (_ → _ → _ → execBrReadUe s = _) ∧ (_ → _ → _ → _ → execBrReadUe s = _)
  refine ⟨fun hend => ?_, fun hk hlt h1 => ?_, fun hk hlt h1 hcut => ?_⟩
  · rw [execBrReadUe, hue (by omega) (by omega), if_pos (show s.brReader.pos + k = s.brReader.len from hend)]
    rfl
  · rw [execBrReadUe, hue (by omega) fun _ => h1,
      if_neg (show s.brReader.pos + k ≠ s.brReader.len from Nat.ne_of_lt hlt), if_pos hk]
    rfl
  · rw [execBrReadUe, hue (by omega) fun _ => h1, if_neg (show s.brReader.pos + k ≠ s.brReader.len from Nat.ne_of_lt hlt),
      if_neg (by omega), if_pos (show s.brReader.len < s.brReader.pos + 2 * k + 1 from hcut)]
    rfl

end Sys2Proof.Machine
end

section
/-! What holds of every command: that it completes, what it reads, what it changes, and that every step keeps the
invariants (spec/60_exceptions.md section 1, spec/10_state.md sections 2 to 6). -/

namespace Sys2Proof.Machine

open Sys2Proof.Safety

variable {i : Instr} {s t u : State}

/-! ## What a parser command does -/

/-- What a parser command may commit before it completes (R33, R35, R41, R310, R312, R368). -/
inductive ParserPuts (s : State) : Instr → State → Prop where
  | h264Payload (len : Half) (h : H264State) (hc : H264Commits s.h264 h) :
      ParserPuts s (.h264Payload len) (s.withH264 h)
  | h264Nal (len : Half) (h : H264State) (hc : H264Commits s.h264 h) : ParserPuts s (.h264Nal len) (s.withH264 h)
  | av1Payload (len : Half) : ParserPuts s (.av1Payload len) s
  | av1Obus (len : Half) : ParserPuts s (.av1Obus len) s
  | av1Leb128 (len : Half) (r : Long × Word) : ParserPuts s (.av1Leb128 len) (s.withResults r)
  | opusPacket (len : Half) : ParserPuts s (.opusPacket len) s
  | fecMedia (len : Half) (m : Store)
      (hm : m = s.media ∨ 12 ≤ len.toNat ∧
        PutRel s.cfg.mediaCap (BitVec.ofNat 16 (beAt (s.input len) 2 2)) (s.input len) s.media m) :
      ParserPuts s (.fecMedia len) (s.withMedia m)
  | fecPacket (len : Half) (f : Store) (hf : FecRel s.cfg.fecCap (s.input len) s.fec f) :
      ParserPuts s (.fecPacket len) (s.withFec f)
  | fecMask (len : Half) : ParserPuts s (.fecMask len) s

/-- A parser's statuses as codes. -/
theorem Ends.code_mem {E : List Status} {st : Status} (h : Ends E st) : st.code ∈ 0 :: E.map Status.code := by
  obtain rfl | h := h
  · exact List.mem_cons_self
  · exact List.mem_cons_of_mem _ (List.mem_map_of_mem h)

/-- A parser command commits and completes, with a code of its row of R361 (R362). -/
theorem exec_parser (hi : isParser i = true) (s : State) :
    ∃ u st recs, ParserPuts s i u ∧ st.code ∈ statusCodes i ∧ exec i s = .next (u.complete i.opcode st recs) := by
  cases i with
  | brInit | brRead | brReadByte | brReadUe => simp [isParser] at hi
  | h264Payload len =>
    obtain ⟨h, st, recs, hc, hst, hexec⟩ := execH264Payload_spec len s
    exact ⟨_, st, recs, .h264Payload len h hc, hst.code_mem, hexec⟩
  | h264Nal len =>
    obtain ⟨h, st, recs, hc, hst, hexec⟩ := execH264Nal_spec len s
    exact ⟨_, st, recs, .h264Nal len h hc, hst.code_mem, hexec⟩
  | av1Payload len =>
    obtain ⟨st, recs, hst, hexec⟩ := execAv1Payload_spec len s
    exact ⟨_, st, recs, .av1Payload len, hst.code_mem, hexec⟩
  | av1Obus len =>
    obtain ⟨st, recs, hst, hexec⟩ := execAv1Obus_spec len s
    exact ⟨_, st, recs, .av1Obus len, hst.code_mem, hexec⟩
  | av1Leb128 len =>
    obtain ⟨r, st, recs, -, hst, hexec⟩ := execAv1Leb128_spec len s
    exact ⟨_, st, recs, .av1Leb128 len r, hst.code_mem, hexec⟩
  | opusPacket len =>
    obtain ⟨st, recs, hst, hexec⟩ := execOpusPacket_spec len s
    exact ⟨_, st, recs, .opusPacket len, hst.code_mem, hexec⟩
  | fecMedia len =>
    obtain ⟨m, st, recs, hm, hst, hexec⟩ := execFecMedia_spec len s
    exact ⟨_, st, recs, .fecMedia len m hm, hst.code_mem, hexec⟩
  | fecPacket len =>
    obtain ⟨f, st, recs, hf, hst, hexec⟩ := execFecPacket_spec len s
    exact ⟨_, st, recs, .fecPacket len f hf, hst.code_mem, hexec⟩
  | fecMask len =>
    obtain ⟨st, recs, hst, hexec⟩ := execFecMask_spec len s
    exact ⟨_, st, recs, .fecMask len, hst.code_mem, hexec⟩

/-- The same, for a command that is known to lead to `t`. -/
theorem exists_complete (hi : isParser i = true) (h : exec i s = .next t) :
    ∃ u st recs, ParserPuts s i u ∧ st.code ∈ statusCodes i ∧ t = u.complete i.opcode st recs := by
  obtain ⟨u, st, recs, hu, hst, hexec⟩ := exec_parser hi s
  exact ⟨u, st, recs, hu, hst, Host.Outcome.next.inj (h.symm.trans hexec)⟩

/-- A BitReader command leaves what is not its own (R124). -/
theorem exec_reader_frame (hi : isParser i = false) (h : exec i s = .next t) :
    t.h264 = s.h264 ∧ t.media = s.media ∧ t.fec = s.fec := by
  obtain ⟨st, r, D, L, p, hexec, -⟩ := bitReaderCommandsFrame i s hi
  obtain rfl := Host.Outcome.next.inj (h.symm.trans hexec)
  exact ⟨rfl, rfl, rfl⟩

/-! ## Completion -/

theorem finishRead_status_mem (s : State) (out : Except ReadFail (Nat × Reader)) :
    (s.finishRead out).status ∈ statusCodes .brReadUe := by
  obtain ⟨v, r, -, h⟩ | ⟨-, h⟩ | ⟨-, h⟩ := s.finishRead_cases out <;> rw [h] <;> simp [statusCodes, Status.code]

theorem finishRead_u_status_mem (s : State) (n : Nat) :
    (s.finishRead (s.brReader.u n)).status ∈ statusCodes .brReadByte := by
  rw [State.finishRead_u]
  split <;> simp [statusCodes, Status.code]

/-- Settles O15: only BR_READ and BR_INIT judge an operand, and every other end is one of the command's own. -/
theorem everyCommandCompletes : Obligations.EveryCommandCompletes := by
  intro i s
  cases hi : isParser i with
  | true =>
    obtain ⟨u, st, recs, -, hst, hexec⟩ := exec_parser hi s
    refine ⟨_, hexec, ?_, fun _ => by simpa using hst⟩
    rintro (⟨n, rfl, -⟩ | ⟨len, rfl, -⟩) <;> simp [isParser] at hi
  | false =>
    cases i with
    | brInit len =>
      obtain ⟨hlarge, hexec⟩ | ⟨hle, hexec⟩ := execBrInit_spec len s
      · exact ⟨_, hexec, fun _ => rfl, fun h => absurd (.inr ⟨len, rfl, hlarge⟩) h⟩
      · refine ⟨_, hexec, ?_, fun _ => by simp [statusCodes, Status.code]⟩
        rintro (⟨n, h, -⟩ | ⟨len', h, hlarge⟩)
        · cases h
        · cases h
          exact absurd hle (Nat.not_le_of_lt hlarge)
    | brRead n =>
      obtain ⟨hlarge, hexec⟩ | ⟨hle, hexec⟩ := execBrRead_spec n s
      · exact ⟨_, hexec, fun _ => rfl, fun h => absurd (.inl ⟨n, rfl, hlarge⟩) h⟩
      · refine ⟨_, hexec, ?_, fun _ => finishRead_u_status_mem s _⟩
        rintro (⟨n', h, hlarge⟩ | ⟨len, h, -⟩)
        · cases h
          omega
        · cases h
    | brReadByte => exact ⟨_, rfl, by simp, fun _ => finishRead_u_status_mem s 8⟩
    | brReadUe => exact ⟨_, rfl, by simp, fun _ => finishRead_status_mem s _⟩
    | _ => simp [isParser] at hi

/-- Settles O4: a legal word is the word of a command whose operands are legal. -/
theorem legalWordCompletes : Obligations.LegalWordCompletes := by
  intro w s hw
  obtain ⟨i, hi, hwf, -⟩ := decode_of_legal hw
  obtain ⟨hopc, hn, hlen⟩ := decode_fields hi
  obtain ⟨t, hexec, -, hstatus⟩ := everyCommandCompletes i s
  rw [illegalWord_iff_of_decode hi] at hw
  exact ⟨i, t, hi, hwf, by rw [hopc, opcField_toNat], by rw [hn, nField_toNat], by rw [hlen, lenField_toNat],
    (command_of_decode hi s).trans hexec, hstatus hw⟩

/-! ## What a command reads -/

/-- The input depends on its own bytes of IBUF alone (R68). -/
theorem input_congr {m : Memory} {len : Half} (h : ∀ a < len.toNat, m.read a = s.ibuf.read a) :
    ({ s with ibuf := m } : State).input len = s.input len :=
  Memory.readBytes_congr fun b _ hb => h b (by omega)

/-- The command reads its `len` bytes of IBUF and writes none (R38, R68). -/
def ReadsOnly (i : Instr) (len : Half) (s : State) : Prop :=
  ∀ m : Memory, (∀ a < len.toNat, m.read a = s.ibuf.read a) →
    ∃ t, exec i s = .next t ∧ t.ibuf = s.ibuf ∧ exec i { s with ibuf := m } = .next { t with ibuf := m }

/-- A parser command is a procedure of its input. -/
theorem readsOnly_of_runParser {σ : Type} {len : Half} {env : State → σ} {put : State → σ → State}
    {p : State → List Byte → Parse σ Unit}
    (hexec : ∀ s, exec i s = .next (runParser i.opcode s (env s) put (p s (s.input len))))
    (henv : ∀ m, env { s with ibuf := m } = env s) (hp : ∀ m, p { s with ibuf := m } = p s)
    (hput : ∀ m e, put { s with ibuf := m } e = { put s e with ibuf := m }) (hi : ∀ e, (put s e).ibuf = s.ibuf) :
    ReadsOnly i len s := by
  intro m hm
  obtain ⟨hsame, hcomm⟩ := runParser_ibuf_comm s m i.opcode (env s) put (p s (s.input len)) (hput m) hi
  exact ⟨_, hexec s, hsame, by rw [hexec, henv, hp, input_congr hm, hcomm]⟩

/-- A BitReader read does not look at IBUF (R124). -/
theorem readsOnly_of_finishRead {len : Half} (read : Reader → Except ReadFail (Nat × Reader))
    (hexec : ∀ s, exec i s = .next (s.finishRead (read s.brReader))) : ReadsOnly i len s := by
  intro m _
  obtain ⟨v, r, hr, h⟩ | ⟨hr, h⟩ | ⟨hr, h⟩ := s.finishRead_cases (read s.brReader) <;>
    exact ⟨_, hexec s, by rw [h]; rfl,
      by rw [hexec, show read ({ s with ibuf := m } : State).brReader = read s.brReader from rfl, hr]; rfl⟩

theorem readsOnly_statusOnly {len : Half} (st : Status)
    (hexec : ∀ m, exec i { s with ibuf := m } = .next (({ s with ibuf := m } : State).withStatus st)) :
    ReadsOnly i len s := fun m _ => ⟨_, hexec s.ibuf, rfl, hexec m⟩

/-- Settles O16. -/
theorem commandsReadOnlyTheirInput : Obligations.CommandsReadOnlyTheirInput := by
  intro i s m
  suffices h : ReadsOnly i i.lenOperand s from h m
  cases i with
  | brInit len =>
    by_cases h : 8 * len.toNat < s.argOperand
    · exact readsOnly_statusOnly .illegalCommand fun m => execBrInit_of_arg_large (s := { s with ibuf := m }) h
    · intro m hm
      have hexec (m' : Memory) : exec (.brInit len) { s with ibuf := m' } =
          .next { s with ibuf := m', brData := ({ s with ibuf := m' } : State).input len, brBitlen := s.argOperand,
                         brPos := 0, result := 0, status := 0 } :=
        if_neg (show ¬ ({ s with ibuf := m' } : State).argOperand > 8 * len.toNat from h)
      exact ⟨_, hexec s.ibuf, rfl, by rw [hexec, input_congr (len := len) hm]⟩
  | brRead n =>
    by_cases h : 64 < n.toNat
    · exact readsOnly_statusOnly .illegalCommand fun m => execBrRead_of_large _ h
    · exact readsOnly_of_finishRead (Reader.u n.toNat) fun s => execBrRead_of_le s (by omega)
  | brReadByte => exact readsOnly_of_finishRead (Reader.u 8) fun _ => rfl
  | brReadUe => exact readsOnly_of_finishRead Reader.ue fun _ => rfl
  | h264Payload len =>
    exact readsOnly_of_runParser (env := State.h264) (p := fun s => h264PayloadProc s.cfg.epbStrip) (fun _ => rfl)
      (fun _ => rfl) (fun _ => rfl) (fun _ _ => rfl) fun _ => rfl
  | h264Nal len =>
    exact readsOnly_of_runParser (env := State.h264) (p := fun s => h264NalProc s.cfg.epbStrip) (fun _ => rfl)
      (fun _ => rfl) (fun _ => rfl) (fun _ _ => rfl) fun _ => rfl
  | av1Payload len =>
    exact readsOnly_of_runParser (env := fun _ => ()) (p := fun _ => av1PayloadProc) (fun _ => rfl) (fun _ => rfl)
      (fun _ => rfl) (fun _ _ => rfl) fun _ => rfl
  | av1Obus len =>
    exact readsOnly_of_runParser (env := fun _ => ()) (p := fun _ => av1ObusProc) (fun _ => rfl) (fun _ => rfl)
      (fun _ => rfl) (fun _ _ => rfl) fun _ => rfl
  | av1Leb128 len =>
    exact readsOnly_of_runParser (env := fun s => (s.result, s.result2)) (p := fun _ => av1Leb128Proc) (fun _ => rfl)
      (fun _ => rfl) (fun _ => rfl) (fun _ _ => rfl) fun _ => rfl
  | opusPacket len =>
    exact readsOnly_of_runParser (env := fun _ => ()) (p := fun _ => opusPacketProc) (fun _ => rfl) (fun _ => rfl)
      (fun _ => rfl) (fun _ _ => rfl) fun _ => rfl
  | fecMedia len =>
    exact readsOnly_of_runParser (env := State.media) (p := fun s => fecMediaProc s.cfg s.fec) (fun _ => rfl)
      (fun _ => rfl) (fun _ => rfl) (fun _ _ => rfl) fun _ => rfl
  | fecPacket len =>
    exact readsOnly_of_runParser (env := State.fec) (p := fun s => fecPacketProc s.cfg s.media) (fun _ => rfl)
      (fun _ => rfl) (fun _ => rfl) (fun _ _ => rfl) fun _ => rfl
  | fecMask len =>
    exact readsOnly_of_runParser (env := fun _ => ()) (p := fun _ => fecMaskProc) (fun _ => rfl) (fun _ => rfl)
      (fun _ => rfl) (fun _ _ => rfl) fun _ => rfl

/-! ## What a parser command changes -/

/-- Settles O18: what is committed, command by command, and a completion that changes STATUS, DQ and DROP_CNT. -/
theorem parserCommandsFrame : Obligations.ParserCommandsFrame := by
  intro i s t hi h
  obtain ⟨u, st, recs, hu, -, rfl⟩ := exists_complete hi h
  cases hu <;> simp

/-- What is committed leaves DQ and its depth. -/
theorem ParserPuts.queue (h : ParserPuts s i u) : u.dq = s.dq ∧ u.dropCnt = s.dropCnt ∧ u.cfg = s.cfg := by
  cases h <;> exact ⟨rfl, rfl, rfl⟩

/-- The records of a failed description end with its error record (R89). -/
theorem closeRecords_error {st : Status} (recs : List Record) (h : st.code ≠ 0) :
    closeRecords st recs = recs ++ [errRec st.code] := by
  cases st with
  | ok => exact absurd rfl h
  | _ => rfl

/-- Settles O19. -/
theorem parserCommandsPushOneDescription : Obligations.ParserCommandsPushOneDescription := by
  intro i s t hi h
  obtain ⟨u, st, recs, hu, -, rfl⟩ := exists_complete hi h
  obtain ⟨hdq, hdrop, hcfg⟩ := hu.queue
  rw [State.complete_status, State.complete_dq, State.complete_dropCnt, hdq, hdrop, hcfg]
  refine ⟨closeRecords st recs, fun hst => ⟨recs, closeRecords_error recs hst⟩, fun hlt => ?_, fun hfull => ?_⟩
  · rw [if_neg (by omega), if_neg (by omega)]
    exact ⟨rfl, rfl⟩
  · rw [if_pos (by omega), if_pos (by omega), List.drop_one]
    exact ⟨rfl, rfl⟩

/-- Settles O37: an H.264 command only commits parts, and no other command touches ParserState. -/
theorem validityBitsOnlyRise : Obligations.ValidityBitsOnlyRise := by
  intro i s t h
  cases hi : isParser i with
  | true =>
    obtain ⟨u, st, recs, hu, -, rfl⟩ := exists_complete hi h
    rw [State.complete_h264]
    cases hu with
    | h264Payload len h' hc | h264Nal len h' hc => exact hc.valid
    | _ => exact ⟨id, id⟩
  | false =>
    obtain ⟨hh, -, -⟩ := exec_reader_frame hi h
    rw [hh]
    exact ⟨id, id⟩

/-- Settles O60: the stores change by `store_put` alone, which keeps a full store full. -/
theorem storesChangeOnlyByInsertion : Obligations.StoresChangeOnlyByInsertion := by
  intro i s t len h
  cases hi : isParser i with
  | false =>
    obtain ⟨-, hm, hf⟩ := exec_reader_frame hi h
    exact ⟨fun _ => hm, fun _ => hf, fun h' => by rw [h'] at hi; simp [isParser] at hi,
      fun h' => by rw [h'] at hi; simp [isParser] at hi⟩
  | true =>
    obtain ⟨u, st, recs, hu, -, rfl⟩ := exists_complete hi h
    rw [State.complete_media, State.complete_fec]
    cases hu with
    | fecMedia n m hm =>
      refine ⟨fun h' => absurd rfl (h' n), fun _ => rfl, fun _ hfull hnodup => ?_, nofun⟩
      obtain rfl | ⟨-, hput⟩ := hm
      · exact hfull
      · exact hput.full s.cfg.mediaCap_pos hnodup hfull
    | fecPacket n f hf =>
      refine ⟨fun _ => rfl, fun h' => ?_, nofun, fun _ hfull hnodup => ?_⟩ <;>
        obtain rfl | ⟨hR0F0, -, key, hput⟩ := hf
      · rfl
      · rw [State.input_eq] at hR0F0
        exact absurd (h' n rfl) (Nat.not_le_of_lt hR0F0)
      · exact hfull
      · exact hput.full s.cfg.fecCap_pos hnodup hfull
    | _ => exact ⟨fun _ => rfl, fun _ => rfl, nofun, nofun⟩

/-! ## Invariants -/

/-- Settles O13. -/
theorem invHoldsAtReset : Obligations.InvHoldsAtReset where
  memory := State.reset_ibuf_wf
  bitReader := by simp [BitReaderInv, State.reset]
  queue := by simp [QueueInv, State.reset]
  media := by simp [MediaInv, StoreInv, State.reset]
  fec := by simp [FecInv, StoreInv, State.reset]
  parser := by simp [ParserInv, State.reset, H264State.reset]
  status := by simp [State.reset]
  descs := by simp [State.reset]

/-- Commits keep the parts at reset values until they are valid, and in their ranges (R40 to R42). -/
theorem H264Commits.parserInv {a b : H264State} (h : H264Commits a b) (ha : ParserInv a) : ParserInv b := by
  induction h with
  | refl => exact ha
  | sps t ht _ ih =>
    obtain ⟨-, -, hpps, -⟩ := ih
    exact ⟨fun _ => rfl, nofun, hpps, fun _ => ht⟩
  | pps t hv _ ih =>
    obtain ⟨-, hreset, -, hranges⟩ := ih
    exact ⟨fun _ => hv, hreset, nofun, hranges⟩

theorem toNat_ofNat_beAt_two (S : List Byte) (i : Nat) : (BitVec.ofNat 16 (beAt S i 2)).toNat = beAt S i 2 := by
  have := beAt_lt S i 2
  rw [BitVec.toNat_ofNat, Nat.mod_eq_of_lt (by omega)]

/-- What is committed meets the invariants. -/
theorem ParserPuts.inv (h : ParserPuts s i u) (hs : Inv s) : Inv u := by
  obtain ⟨hmem, hbr, hq, ⟨hmcap, hm⟩, ⟨hfcap, hf⟩, hp, hst, hd⟩ := hs
  cases h with
  | h264Payload len h' hc | h264Nal len h' hc =>
    exact ⟨hmem, hbr, hq, ⟨hmcap, hm⟩, ⟨hfcap, hf⟩, hc.parserInv hp, hst, hd⟩
  | fecMedia len m hput =>
    refine ⟨hmem, hbr, hq, ?_, ⟨hfcap, hf⟩, hp, hst, hd⟩
    obtain rfl | ⟨hlen, hput⟩ := hput
    · exact ⟨hmcap, hm⟩
    · refine ⟨hput.storeInv s.cfg.mediaCap_pos hmcap, fun e he => ?_⟩
      obtain he | rfl := hput.mem he
      · exact hm e he
      · exact ⟨by rwa [State.input_length], by rw [State.input_length]; omega, toNat_ofNat_beAt_two _ 2⟩
  | fecPacket len f hput =>
    refine ⟨hmem, hbr, hq, ⟨hmcap, hm⟩, ?_, hp, hst, hd⟩
    obtain rfl | ⟨-, hlen, key, hput⟩ := hput
    · exact ⟨hfcap, hf⟩
    · refine ⟨hput.storeInv s.cfg.fecCap_pos hfcap, fun e he => ?_⟩
      obtain he | rfl := hput.mem he
      · exact hf e he
      · exact ⟨hlen, by rw [State.input_length]; omega⟩
  | _ => exact ⟨hmem, hbr, hq, ⟨hmcap, hm⟩, ⟨hfcap, hf⟩, hp, hst, hd⟩

/-- The codes of the parser commands are those a description can carry (R86, R361). -/
theorem mem_parser_codes (hi : isParser i = true) {c : Byte} (h : c ∈ statusCodes i) : c ∈ [0, 2, 3, 4, 5] := by
  cases i <;> simp [isParser, statusCodes] at hi h ⊢ <;> tauto

theorem Status.code_le (st : Status) : st.code.toNat ≤ 6 := by cases st <;> decide

/-- A completion keeps the invariants (R362, R39). -/
theorem inv_complete {opc : Byte} {st : Status} {recs : List Record} (hs : Inv s) (hst : st.code ∈ [0, 2, 3, 4, 5]) :
    Inv (s.complete opc st recs) where
  memory := by simpa using hs.memory
  bitReader := by simpa [BitReaderInv] using hs.bitReader
  queue := s.complete_length opc st recs hs.queue
  media := by simpa [MediaInv] using hs.media
  fec := by simpa [FecInv] using hs.fec
  parser := by simpa using hs.parser
  status := (s.complete_status opc st recs).symm ▸ st.code_le
  descs := by
    rw [State.complete_dq]
    intro d hd
    obtain hd | hd := List.mem_append.mp hd
    · refine hs.descs d ?_
      split at hd
      · exact List.mem_of_mem_tail hd
      · exact hd
    · obtain rfl := List.mem_singleton.mp hd
      exact ⟨hst, fun h => ⟨recs, (closeRecords_error recs h).trans (by cases st <;> rfl)⟩⟩

/-- A status the block can have (R34, R86). -/
theorem inv_withStatus (st : Status) (hs : Inv s) : Inv (s.withStatus st) :=
  { hs with status := st.code_le }

/-- A read that moves the cursor inside the reader keeps the invariants (R33). -/
theorem inv_finishRead {out : Except ReadFail (Nat × Reader)} (hs : Inv s)
    (hout : ∀ v r, out = .ok (v, r) → r.pos ≤ s.brBitlen) : Inv (s.finishRead out) := by
  obtain ⟨v, r, hr, h⟩ | ⟨-, h⟩ | ⟨-, h⟩ := s.finishRead_cases out <;> rw [h]
  · obtain ⟨-, hlen, hdata⟩ := hs.bitReader
    exact inv_withStatus .ok { hs with bitReader := ⟨hout v r hr, hlen, hdata⟩ }
  · exact inv_withStatus .outOfBounds hs
  · exact inv_withStatus .malformed hs

theorem Reader.u_pos_le_len {n v : Nat} {r r' : Reader} (h : r.u n = .ok (v, r')) : r'.pos ≤ r.len := by
  rw [Reader.u_eq] at h
  split at h
  · cases h
  · cases h
    simp only
    omega

/-- Every command keeps the invariants. -/
theorem exec_keeps_inv (hs : Inv s) (h : exec i s = .next t) : Inv t := by
  cases hi : isParser i with
  | true =>
    obtain ⟨u, st, recs, hu, hst, rfl⟩ := exists_complete hi h
    exact inv_complete (hu.inv hs) (mem_parser_codes hi hst)
  | false =>
    cases i with
    | brInit len =>
      obtain ⟨-, hexec⟩ | ⟨hle, hexec⟩ := execBrInit_spec len s <;>
        obtain rfl := Host.Outcome.next.inj (h.symm.trans hexec)
      · exact inv_withStatus .illegalCommand hs
      · refine inv_withStatus .ok { hs with bitReader := ⟨Nat.zero_le _, ?_, ?_⟩ }
        · simpa [State.input_length] using hle
        · simp only [State.withResult_brData, State.withBitReader_brData, State.input_length]
          omega
    | brRead n =>
      obtain ⟨-, hexec⟩ | ⟨-, hexec⟩ := execBrRead_spec n s <;>
        obtain rfl := Host.Outcome.next.inj (h.symm.trans hexec)
      · exact inv_withStatus .illegalCommand hs
      · exact inv_finishRead hs fun v r hr => Reader.u_pos_le_len hr
    | brReadByte =>
      obtain rfl := Host.Outcome.next.inj h
      exact inv_finishRead hs fun v r hr => Reader.u_pos_le_len hr
    | brReadUe =>
      obtain rfl := Host.Outcome.next.inj h
      exact inv_finishRead hs fun v r hr => (Reader.ue_ok hr).2.2.2.2
    | _ => simp [isParser] at hi

/-- A word written to CMD keeps the invariants, legal or not. -/
theorem command_keeps_inv {w : Word} (hs : Inv s) (h : command w s = .next t) : Inv t := by
  cases hd : decode w with
  | ok i =>
    rw [command_of_decode hd] at h
    exact exec_keeps_inv hs h
  | error e =>
    rw [command_of_decode_error hd] at h
    obtain rfl := Host.Outcome.next.inj h
    exact inv_withStatus .illegalCommand hs

theorem hostMemWrite_keeps_inv {addr : Nat} {v : List Byte} (hs : Inv s) (h : hostMemWrite addr v s = .next t) :
    Inv t := by
  unfold hostMemWrite at h
  split at h
  · rename_i hfits
    obtain rfl := Host.Outcome.next.inj h
    exact { hs with memory := Memory.writeBytes_wf v hs.memory hfits }
  · cases h

/-- Every host action keeps the invariants. -/
theorem perform_keeps_inv {a : HostAction} (hs : Inv s) (h : perform a s = .next t) : Inv t := by
  cases a with
  | memWrite addr v => exact hostMemWrite_keeps_inv hs h
  | busWrite addr v =>
    simp only [perform, hostBusWrite] at h
    split at h
    · exact hostMemWrite_keeps_inv hs h
    · cases h
  | regWrite addr width v =>
    simp only [perform, hostRegWrite] at h
    split at h
    · exact command_keeps_inv hs h
    · rename_i r _ _
      obtain rfl := Host.Outcome.next.inj h
      cases r with
      | arg => exact { hs with }
      | _ => exact hs
    · cases h
  | regRead addr width =>
    simp only [perform, hostRegRead] at h
    split at h
    · obtain rfl := Host.Outcome.next.inj h
      exact { hs with }
    · cases h
  | popDesc =>
    obtain rfl := Host.Outcome.next.inj h
    cases hdq : s.dq with
    | nil =>
      rw [hostPopDesc_of_nil hdq]
      exact { hs with }
    | cons d ds =>
      rw [hostPopDesc_of_cons hdq]
      have hlen := hs.queue
      rw [QueueInv, hdq, List.length_cons] at hlen
      exact { hs with
        queue := Nat.le_of_succ_le hlen
        descs := fun e he => hs.descs e (by rw [hdq]; exact List.mem_cons_of_mem _ he) }
  | reset =>
    obtain rfl := Host.Outcome.next.inj h
    exact { invHoldsAtReset with
      queue := Nat.zero_le _
      media := ⟨⟨Nat.zero_le _, List.nodup_nil⟩, nofun⟩
      fec := ⟨⟨Nat.zero_le _, List.nodup_nil⟩, nofun⟩ }

/-- Settles O14: a step is idle or performs one host action. -/
theorem everyStepKeepsInv : Obligations.EveryStepKeepsInv := by
  intro s t hs h
  cases hhost : s.host with
  | nil =>
    rw [step, hhost] at h
    exact Host.Outcome.next.inj h ▸ hs
  | cons a rest =>
    rw [step_of_host hhost] at h
    exact perform_keeps_inv (s := s.withHost rest) { hs with } h

/-! ## Short inputs -/

/-- A parser command that raises before it emits or commits anything (R362). -/
theorem runParser_raised_at_start {σ : Type} {opc : Byte} {env : σ} {put : State → σ → State} {p : Parse σ Unit}
    {st : Status} (h : p (Ctx.start env) = .error st (Ctx.start env)) (hst : st ≠ .ok) (hput : put s env = s) :
    Host.Outcome.next (runParser opc s env put p) =
      (.next (finished s opc st.code [errRec st.code]) : Host.Outcome State Fault Refusal) := by
  rw [runParser_raised h hst]
  exact congrArg (fun u => Host.Outcome.next (finished u opc st.code [errRec st.code])) hput

/-- No byte, no leb128 value (R134). -/
theorem av1Leb128Proc_nil (c : Ctx (Long × Word)) :
    av1Leb128Proc [] c = .error .truncated { c with rd := Reader.ofBytes [] } := rfl

/-- Settles O20: each procedure tests its input's length before anything else, but for AV1_OBUS, which ends at once. -/
theorem shortInputs : Obligations.ShortInputs := by
  refine fun s len => ⟨fun h0 => ?_, fun h12 => ?_, fun h20 => ?_⟩
  · have hnil : s.input len = [] := List.length_eq_zero_iff.mp ((State.input_length s len).trans h0)
    refine ⟨?_, ?_, ?_, ?_, ?_, ?_, ?_⟩
    · rw [show exec (.h264Payload len) s = execH264Payload len s from rfl, execH264Payload, hnil]
      exact runParser_raised_at_start rfl nofun rfl
    · rw [show exec (.h264Nal len) s = execH264Nal len s from rfl, execH264Nal, hnil]
      exact runParser_raised_at_start rfl nofun rfl
    · rw [show exec (.av1Payload len) s = execAv1Payload len s from rfl, execAv1Payload, hnil]
      exact runParser_raised_at_start rfl nofun rfl
    · rw [show exec (.av1Obus len) s = execAv1Obus len s from rfl, execAv1Obus, hnil]
      exact congrArg Host.Outcome.next (runParser_finished (c := (Ctx.start ()).addRecs [videoRec]) rfl)
    · rw [show exec (.av1Leb128 len) s = execAv1Leb128 len s from rfl, execAv1Leb128, hnil]
      exact runParser_raised_at_start (av1Leb128Proc_nil _) nofun rfl
    · rw [show exec (.opusPacket len) s = execOpusPacket len s from rfl, execOpusPacket, hnil]
      exact runParser_raised_at_start rfl nofun rfl
    · rw [show exec (.fecPacket len) s = execFecPacket len s from rfl, execFecPacket, hnil]
      exact runParser_raised_at_start rfl nofun rfl
  · have hrun : fecMediaProc s.cfg s.fec (s.input len) (Ctx.start s.media) = .error .malformed (Ctx.start s.media) := by
      rw [fecMediaProc, if_pos (by rwa [State.input_length]), raise_run]
    exact runParser_raised_at_start hrun nofun rfl
  · have hrun : fecMaskProc (s.input len) (Ctx.start ()) = .error .truncated (Ctx.start ()) := by
      rw [fecMaskProc, fecParseMask, if_pos (by rwa [State.input_length])]
      rfl
    exact runParser_raised_at_start hrun nofun rfl

end Sys2Proof.Machine
end

section
/-! Reading the elements of a bit stream: `Reads F p l a` says of a procedure `p`, once and for all, what it does on a
stream that carries the elements `l` (it records them and returns `a`) and on one that fails inside one of them (it raises
after the records of the elements before). Each parser is one such lemma, and its parts compose along the list
(spec/40_bitreader.md R125 to R139, spec/30_encoding.md R91). -/

namespace Sys2Proof.Machine

open Sys2Proof.Safety

variable {σ α β : Type}

/-! ## Elements in a reader -/

/-- The reader with its cursor `n` bits on. -/
def Reader.skip (r : Reader) (n : Nat) : Reader := { r with pos := r.pos + n }

@[simp] theorem Reader.skip_data (r : Reader) (n : Nat) : (r.skip n).data = r.data := rfl
@[simp] theorem Reader.skip_len (r : Reader) (n : Nat) : (r.skip n).len = r.len := rfl
@[simp] theorem Reader.skip_pos (r : Reader) (n : Nat) : (r.skip n).pos = r.pos + n := rfl
@[simp] theorem Reader.skip_zero (r : Reader) : r.skip 0 = r := rfl
@[simp] theorem Reader.skip_skip (r : Reader) (m n : Nat) : (r.skip m).skip n = r.skip (m + n) := by
  simp [Reader.skip, Nat.add_assoc]

@[simp] theorem elemBits_nil : elemBits [] = [] := rfl
@[simp] theorem elemBits_cons (e : Elem) (l : List Elem) : elemBits (e :: l) = e.bits ++ elemBits l := rfl
@[simp] theorem elemBits_append (l m : List Elem) : elemBits (l ++ m) = elemBits l ++ elemBits m :=
  List.flatMap_append

/-- The elements stand at the reader's cursor, and their values fit. -/
def ElemsAt (r : Reader) (l : List Elem) : Prop :=
  (∀ e ∈ l, e.fits) ∧ BitsAt r.data r.len r.pos (elemBits l)

theorem elemsAt_append {r : Reader} {l m : List Elem} :
    ElemsAt r (l ++ m) ↔ ElemsAt r l ∧ ElemsAt (r.skip (elemBits l).length) m := by
  unfold ElemsAt
  rw [elemBits_append, bitsAt_append, List.forall_mem_append]
  simp only [Reader.skip_data, Reader.skip_len, Reader.skip_pos]
  tauto

/-- The elements lie inside the reader. -/
theorem ElemsAt.length_le {r : Reader} {l : List Elem} (h : ElemsAt r l) :
    r.pos + (elemBits l).length ≤ r.len := h.2.1

/-- The context after the elements have been read and recorded. -/
def Ctx.read (c : Ctx σ) (l : List Elem) : Ctx σ :=
  { c with rd := c.rd.skip (elemBits l).length, recs := c.recs ++ l.map (Elem.recordAt c.unit) }

@[simp] theorem Ctx.read_env (c : Ctx σ) (l : List Elem) : (c.read l).env = c.env := rfl
@[simp] theorem Ctx.read_rd (c : Ctx σ) (l : List Elem) : (c.read l).rd = c.rd.skip (elemBits l).length := rfl
@[simp] theorem Ctx.read_unit (c : Ctx σ) (l : List Elem) : (c.read l).unit = c.unit := rfl
@[simp] theorem Ctx.read_recs (c : Ctx σ) (l : List Elem) :
    (c.read l).recs = c.recs ++ l.map (Elem.recordAt c.unit) := rfl
@[simp] theorem Ctx.read_nil (c : Ctx σ) : c.read [] = c := by simp [Ctx.read]
@[simp] theorem Ctx.read_read (c : Ctx σ) (l m : List Elem) : (c.read l).read m = c.read (l ++ m) := by
  simp [Ctx.read]

/-- The status a failed primitive raises (R127). -/
def ReadFail.status : ReadFail → Status
  | .oob => .truncated
  | .malformed => .malformed

/-- Reading the element fails with `F` at the reader. An Exp-Golomb element with a value below the cap of `uvlc()` may be
read by `uvlc()` too, which has no MALFORMED. -/
def FailsAt (F : ReadFail) (r : Reader) : Elem → Prop
  | .u _ n _ _ _ _ => F = .oob ∧ r.u n = .error .oob
  | .ue _ v _ _ _ => r.ue = .error F ∧ (F = .oob → v < 2 ^ 32 - 1 → r.uvlc = .error .oob)
  | .capped _ _ => F = .oob ∧ r.uvlc = .error .oob
  | .derived _ _ => False

/-! ## Procedures that read -/

/-- From the context `c`, the procedure reads and records the elements and goes on as `k`; and where the stream carries
some of them and fails with `F` in the next, it raises after the records of those before. -/
def ReadsAt (F : ReadFail) (c : Ctx σ) (p : Parse σ α) (l : List Elem) (k : Parse σ α) : Prop :=
  (ElemsAt c.rd l → p c = k (c.read l)) ∧
  ∀ front e back, l = front ++ e :: back → ElemsAt c.rd front →
    FailsAt F (c.rd.skip (elemBits front).length) e → p c = .error F.status (c.read front)

/-- The same from every context. -/
def ReadsThen (F : ReadFail) (p : Parse σ α) (l : List Elem) (k : Parse σ α) : Prop := ∀ c, ReadsAt F c p l k

/-- The procedure reads and records the elements and returns `a`. -/
abbrev Reads (F : ReadFail) (p : Parse σ α) (l : List Elem) (a : α) : Prop := ReadsThen F p l (pure a)

variable {F : ReadFail} {p q : Parse σ α} {f : α → Parse σ β} {l l₁ l₂ : List Elem} {a : α} {k : Parse σ α}
  {m : Parse σ β} {c : Ctx σ}

/-- Sequences read one list after the other. -/
theorem ReadsAt.bind (hp : ReadsAt F c p l₁ (pure a)) (hf : ElemsAt c.rd l₁ → ReadsAt F (c.read l₁) (f a) l₂ m) :
    ReadsAt F c (p >>= f) (l₁ ++ l₂) m := by
  refine ⟨fun h => ?_, fun front e back hl hfront hfail => ?_⟩
  · obtain ⟨h1, h2⟩ := elemsAt_append.mp h
    rw [Parse.bind_ok (hp.1 h1), (hf h1).1 h2, Ctx.read_read]
  · obtain ⟨l', hfr, hl2⟩ | ⟨l', hl1, heb⟩ := List.append_eq_append_iff.mp hl
    · subst hfr
      obtain ⟨h1, h2⟩ := elemsAt_append.mp hfront
      rw [Parse.bind_ok (hp.1 h1), (hf h1).2 l' e back hl2 h2 (by simpa using hfail), Ctx.read_read]
    · cases l' with
      | nil =>
        simp only [List.append_nil, List.nil_append] at hl1 heb
        subst hl1
        rw [Parse.bind_ok (hp.1 hfront), (hf hfront).2 [] e back heb.symm (by simpa [ElemsAt, BitsAt] using
          hfront.length_le) (by simpa using hfail), Ctx.read_nil]
      | cons e' l' =>
        obtain ⟨rfl, rfl⟩ := List.cons.inj heb
        exact Parse.bind_error (hp.2 front e l' hl1 hfront hfail)

/-- A procedure that leaves the context and gives `a`, before one that reads. -/
theorem ReadsAt.of_run {g : Parse σ α} (hg : g c = .ok a c) (hf : ReadsAt F c (f a) l m) : ReadsAt F c (g >>= f) l m :=
  ⟨fun h => by rw [Parse.bind_ok hg, hf.1 h],
    fun front e back hl h hfail => by rw [Parse.bind_ok hg, hf.2 front e back hl h hfail]⟩

/-- What reads nothing goes on as itself. -/
theorem ReadsThen.refl : ReadsThen F p [] p :=
  fun c => ⟨fun _ => by rw [Ctx.read_nil], fun front e back h => by simp at h⟩

theorem ReadsThen.append (hp : Reads F p l₁ a) (hf : ReadsThen F (f a) l₂ m) : ReadsThen F (p >>= f) (l₁ ++ l₂) m :=
  fun c => (hp c).bind fun _ => hf _

theorem ReadsThen.cons {e : Elem} (hp : Reads F p [e] a) (hf : ReadsThen F (f a) l m) :
    ReadsThen F (p >>= f) (e :: l) m :=
  hp.append hf

/-- The list and what follows, written otherwise. -/
theorem ReadsThen.congr {k' : Parse σ α} (hp : ReadsThen F p l₁ k) (hl : l₂ = l₁) (hk : k' = k) :
    ReadsThen F p l₂ k' := hl ▸ hk ▸ hp

/-- A sequence whose second part reads nothing. -/
theorem ReadsThen.last (hp : Reads F p l a) (hf : ReadsThen F (f a) [] m) : ReadsThen F (p >>= f) l m :=
  (hp.append hf).congr (List.append_nil l).symm rfl

/-- A sequence whose first part raises. -/
theorem ReadsThen.bind_raise {st : Status} (hp : ReadsThen F p l (raise st)) :
    ReadsThen F (p >>= f) l (raise st) :=
  fun c => ⟨fun h => Parse.bind_error ((hp c).1 h),
    fun front e back hl h hfail => Parse.bind_error ((hp c).2 front e back hl h hfail)⟩

/-- A part of the procedure that a condition switches on, with what stands after it in both cases. -/
theorem ReadsThen.opt {P : Prop} [Decidable P] {on : Bool} (hon : on = true ↔ P) (hq : ReadsThen F q l₂ k)
    (hp : ReadsThen F q l₂ k → P → ReadsThen F p (l₁ ++ l₂) k) :
    ReadsThen F (if P then p else q) (when on l₁ ++ l₂) k := by
  by_cases h : P
  · rw [if_pos h, hon.mpr h]
    exact hp hq h
  · rw [if_neg h, Bool.eq_false_iff.mpr fun h' => h (hon.mp h')]
    exact hq

/-- A part that a condition switches on, with a value in each case. -/
theorem ReadsThen.opt_value {P : Prop} [Decidable P] {on : Bool} {a' : α} (hon : on = true ↔ P)
    (hp : P → Reads F p l a) (hq : ¬ P → Reads F q [] a') :
    Reads F (if P then p else q) (when on l) (if P then a else a') := by
  by_cases h : P
  · rw [if_pos h, if_pos h, hon.mpr h]
    exact hp h
  · rw [if_neg h, if_neg h, Bool.eq_false_iff.mpr fun h' => h (hon.mp h')]
    exact hq h

/-- The same with one value in both cases. -/
theorem ReadsThen.opt_last {P : Prop} [Decidable P] {on : Bool} (hon : on = true ↔ P) (hp : P → Reads F p l a)
    (hq : ¬ P → Reads F q [] a) : Reads F (if P then p else q) (when on l) a := by
  simpa using ReadsThen.opt_value hon hp hq

/-- A single element that the procedure reads. -/
theorem reads_of_elem {e : Elem}
    (hok : ∀ c : Ctx σ, e.fits → BitsAt c.rd.data c.rd.len c.rd.pos e.bits → p c = .ok a (c.read [e]))
    (hfail : ∀ c : Ctx σ, FailsAt F c.rd e → p c = .error F.status c) : Reads F p [e] a := by
  refine fun c => ⟨fun h => hok c (h.1 e (by simp)) (by simpa using h.2), fun front e' back hl _ hf => ?_⟩
  obtain ⟨rfl, rfl, -⟩ : front = [] ∧ e = e' ∧ back = [] := by
    cases front with
    | nil => simpa [eq_comm] using hl
    | cons x front => simp at hl
  rw [Ctx.read_nil]
  exact hfail c hf

theorem fieldOfRead_fails {r : Reader → Except ReadFail (Nat × Reader)} {g : Half} {i j k : Nat}
    (h : r c.rd = .error F) : (fieldOfRead r g i j k : Parse σ Nat) c = .error F.status c := by
  cases F with
  | oob => exact fieldOfRead_oob h
  | malformed => exact fieldOfRead_malformed h

theorem reads_fieldU {g : Half} {n v i j k : Nat} :
    Reads F (fieldU g n i j k : Parse σ Nat) [.u g n v i j k] v := by
  refine reads_of_elem (fun c hfit hbits => ?_) fun c hfail => fieldOfRead_fails (hfail.1 ▸ hfail.2)
  rw [fieldU, fieldOfRead_ok (Reader.u_at hfit.2 hbits)]
  simp [Ctx.read, Elem.bits, Reader.skip, Elem.recordAt, mkRec]

theorem reads_fieldUe {g : Half} {v i j k : Nat} : Reads F (fieldUe g i j k : Parse σ Nat) [.ue g v i j k] v := by
  refine reads_of_elem (fun c hfit hbits => ?_) fun c hfail => fieldOfRead_fails hfail.1
  rw [fieldUe, fieldOfRead_ok (Reader.ue_at hfit hbits)]
  simp [Ctx.read, Elem.bits, Reader.skip, Elem.recordAt, mkRec, Nat.add_assoc]

theorem reads_fieldSe {g : Half} {v i j k : Nat} : Reads F (fieldSe g i j k : Parse σ Nat) [.ue g v i j k] v :=
  reads_fieldUe

/-- A derived record, which no bits stand for (R91). -/
theorem reads_emit {g : Half} {v : Nat} : Reads F (emit g v : Parse σ Unit) [.derived g v] () :=
  reads_of_elem (fun c _ _ => by simp [Ctx.read, Elem.bits, Elem.recordAt, mkRec]) fun _ hfail => hfail.elim

/-! ## Loops -/

/-- A counted loop reads the elements of its passes. -/
theorem reads_forRange_from {γ : Type} {body : Nat → Parse σ Unit} {g : Nat → γ → List Elem} (xs : List γ) (start : Nat)
    (h : ∀ i x, xs[i]? = some x → Reads F (body (start + i)) (g (start + i) x) ()) :
    Reads F (forRange xs.length start body) (xs.mapIdx fun i x => g (start + i) x).flatten () := by
  induction xs generalizing start with
  | nil => exact .refl
  | cons x xs ih =>
    rw [List.mapIdx_cons, List.flatten_cons]
    refine .append (h 0 x rfl) ?_
    have hrest := ih (start + 1) fun i y hy => by
      have := h (i + 1) y hy
      rwa [show start + (i + 1) = start + 1 + i by omega] at this
    simpa only [Nat.add_assoc, Nat.add_comm 1] using hrest

theorem reads_forRange {γ : Type} {body : Nat → Parse σ Unit} {g : Nat → γ → List Elem} {n : Nat} (xs : List γ)
    (hn : n = xs.length) (h : ∀ i x, xs[i]? = some x → Reads F (body i) (g i x) ()) :
    Reads F (forRange n 0 body) (xs.mapIdx g).flatten () := by
  subst hn
  simpa using reads_forRange_from (g := g) xs 0 fun i x hx => by simpa using h i x hx

/-- A list of elements, one for each entry, as the elements of a loop. -/
theorem mapIdx_eq_flatten {γ : Type} (g : Nat → γ → Elem) (xs : List γ) :
    xs.mapIdx g = (xs.mapIdx fun i x => [g i x]).flatten := by
  induction xs generalizing g with
  | nil => rfl
  | cons x xs ih => simp [List.mapIdx_cons, ih]

/-- A counted loop of one element for each pass. -/
theorem reads_forRange_single {γ : Type} {body : Nat → Parse σ Unit} {g : Nat → γ → Elem} {n : Nat} (xs : List γ)
    (hn : n = xs.length) (h : ∀ i x, Reads F (body i) [g i x] ()) :
    Reads F (forRange n 0 body) (xs.mapIdx g) () := by
  rw [mapIdx_eq_flatten]
  exact reads_forRange xs hn fun i x _ => h i x

/-- A data-bounded loop reads the elements of its passes up to the one that stops it. Each pass consumes a bit, so the
pass count is not reached (R139, log entry 7). -/
theorem readsAt_repeatUntil {γ : Type} {body : Nat → Parse σ Bool} {g : Nat → γ → List Elem} {last : List Elem}
    (xs : List γ) (fuel start : Nat) (c : Ctx σ) (hfuel : c.rd.len - c.rd.pos < fuel)
    (hpos : ∀ i x, 0 < (elemBits (g i x)).length)
    (h : ∀ i x, xs[i]? = some x → Reads F (body (start + i)) (g (start + i) x) false)
    (hlast : Reads F (body (start + xs.length)) last true) :
    ReadsAt F c (repeatUntil fuel start body) ((xs.mapIdx fun i x => g (start + i) x).flatten ++ last)
      (pure ()) := by
  induction xs generalizing fuel start c with
  | nil =>
    obtain ⟨f, rfl⟩ : ∃ f, fuel = f + 1 := ⟨fuel - 1, by omega⟩
    have hend : ReadsAt F (c.read last) (pure () : Parse σ Unit) [] (pure ()) := ReadsThen.refl _
    simpa [repeatUntil] using (hlast c).bind (l₂ := []) fun _ => hend
  | cons x xs ih =>
    obtain ⟨f, rfl⟩ : ∃ f, fuel = f + 1 := ⟨fuel - 1, by omega⟩
    rw [List.mapIdx_cons, List.flatten_cons, List.append_assoc]
    refine (h 0 x rfl c).bind fun hx => ?_
    have hle := hx.length_le
    have hbit := hpos (start + 0) x
    have hrest := ih f (start + 1) (c.read (g (start + 0) x))
      (by simp only [Ctx.read_rd, Reader.skip_len, Reader.skip_pos]; omega)
      (fun i y hy => by
        have := h (i + 1) y hy
        rwa [show start + (i + 1) = start + 1 + i by omega] at this)
      (by rwa [List.length_cons, ← Nat.add_assoc, Nat.add_right_comm] at hlast)
    simpa [Nat.add_assoc, Nat.add_comm 1] using hrest

/-- The loop as the parsers call it, with the pass count of the reader in use. -/
theorem reads_repeatUntil {γ : Type} {body : Nat → Parse σ Bool} {g : Nat → γ → List Elem} {last : List Elem}
    (xs : List γ) (hpos : ∀ i x, 0 < (elemBits (g i x)).length)
    (h : ∀ i x, xs[i]? = some x → Reads F (body i) (g i x) false) (hlast : Reads F (body xs.length) last true) :
    Reads F (getReader >>= fun r => repeatUntil (readerFuel r) 0 body) ((xs.mapIdx g).flatten ++ last) () := by
  intro c
  refine ReadsAt.of_run (getReader_run c) ?_
  have hloop := readsAt_repeatUntil (g := g) xs (readerFuel c.rd) 0 c (by unfold readerFuel; omega) hpos
    (fun i x hx => by simpa using h i x hx) (by simpa using hlast)
  simpa using hloop

/-! ## Where a stream fails -/

/-- The bits before a cut: what stands of an element whose bits go on past the end. -/
structure CutAt (r : Reader) (l : List Bool) : Prop where
  inside : r.pos ≤ r.len
  short : r.len < r.pos + l.length
  bits : ∀ j, r.pos + j < r.len → streamBit r.data (r.pos + j) = l.getD j false

/-- Zeros to the end: no Exp-Golomb code (R129, R133). -/
theorem Reader.ue_of_zeros {r : Reader} (hin : r.pos ≤ r.len)
    (hz : ∀ j, r.pos + j < r.len → streamBit r.data (r.pos + j) = false) :
    r.ue = .error .oob ∧ r.uvlc = .error .oob := by
  have hrun : zeroRun r.data r.pos (r.len - r.pos) = r.len - r.pos :=
    zeroRun_eq (Nat.le_refl _) (fun j hj => hz j (by omega)) fun h => absurd h (Nat.lt_irrefl _)
  constructor
  · rw [Reader.ue, hrun]
    exact if_pos (by omega)
  · rw [Reader.uvlc, hrun]
    exact if_pos (by omega)

/-- An Exp-Golomb code that the end cuts (R129, R133). -/
theorem Reader.ue_of_cut {r : Reader} {v : Nat} (hv : v < 2 ^ 64 - 1) (h : CutAt r (ueBits v)) :
    r.ue = .error .oob ∧ (v < 2 ^ 32 - 1 → r.uvlc = .error .oob) := by
  obtain ⟨hin, hshort, hbits⟩ := h
  rw [ueBits_length] at hshort
  have hzero : ∀ j < Nat.log2 (v + 1), (ueBits v).getD j false = false := fun j hj => by
    rw [ueBits, List.getD_append _ _ _ _ (by simpa using hj)]; simp
  have hone : (ueBits v).getD (Nat.log2 (v + 1)) false = true := by
    rw [ueBits, List.getD_append_right _ _ _ _ (by simp)]; simp
  by_cases hk : r.len ≤ r.pos + Nat.log2 (v + 1)
  · obtain ⟨hue, huvlc⟩ := Reader.ue_of_zeros hin fun j hj => by rw [hbits j hj, hzero j (by omega)]
    exact ⟨hue, fun _ => huvlc⟩
  · have hrun : zeroRun r.data r.pos (r.len - r.pos) = Nat.log2 (v + 1) :=
      zeroRun_eq (by omega) (fun j hj => by rw [hbits j (by omega), hzero j hj])
        fun _ => by rw [hbits _ (by omega), hone]
    have h64 : Nat.log2 (v + 1) < 64 := (Nat.log2_lt (by omega)).mpr (by omega)
    constructor
    · rw [Reader.ue, hrun]
      rw [if_neg (by omega), if_neg (by omega), if_pos (by omega)]
    · intro h32
      have h32 : Nat.log2 (v + 1) < 32 := (Nat.log2_lt (by omega)).mpr (by omega)
      rw [Reader.uvlc, hrun]
      dsimp only
      rw [if_neg (by omega), if_neg (by omega), Reader.u_oob (by dsimp only; omega)]

/-- An element that the end cuts fails past the end. -/
theorem failsAt_of_cut {r : Reader} {e : Elem} (hfit : e.fits) (h : CutAt r e.bits) : FailsAt .oob r e := by
  cases e with
  | u g n v i j k => exact ⟨rfl, Reader.u_oob (by simpa [Elem.bits] using h.short)⟩
  | ue g v i j k =>
    obtain ⟨hue, huvlc⟩ := Reader.ue_of_cut hfit h
    exact ⟨hue, fun _ => huvlc⟩
  | capped g z =>
    refine ⟨rfl, (Reader.ue_of_zeros h.inside fun j hj => ?_).2⟩
    have hshort := h.short
    simp only [Elem.bits, List.length_append, List.length_replicate, List.length_singleton] at hshort
    rw [h.bits j hj, Elem.bits, List.getD_append _ _ _ _ (by simp; omega)]
    simp
  | derived g v =>
    have hshort := h.short
    simp only [Elem.bits, List.length_nil] at hshort
    have := h.inside
    omega

@[simp] theorem Reader.ofBytes_data (S : List Byte) : (Reader.ofBytes S).data = S := rfl
@[simp] theorem Reader.ofBytes_len (S : List Byte) : (Reader.ofBytes S).len = 8 * S.length := rfl
@[simp] theorem Reader.ofBytes_pos (S : List Byte) : (Reader.ofBytes S).pos = 0 := rfl

/-- A stream of elements from the start of some bytes. -/
theorem elemsAt_ofBytes {D : List Byte} {l : List Elem} (hfit : ∀ e ∈ l, e.fits)
    (h : BitsAt D (8 * D.length) 0 (elemBits l)) : ElemsAt (Reader.ofBytes D) l := ⟨hfit, h⟩

/-- What a cut stream carries, and where it fails (R127). -/
theorem failsAt_of_cutAfter {D : List Byte} {l front : List Elem} (hfit : ∀ e ∈ l, e.fits) (h : CutAfter D l front) :
    ∃ e back, l = front ++ e :: back ∧ ElemsAt (Reader.ofBytes D) front ∧
      FailsAt .oob ((Reader.ofBytes D).skip (elemBits front).length) e := by
  obtain ⟨e, back, rfl, hin, hshort, hbits⟩ := h
  have hget : ∀ q, (elemBits front).length ≤ q → q < 8 * D.length →
      streamBit D q = e.bits.getD (q - (elemBits front).length) false := fun q hq hqD => by
    rw [hbits q hqD, elemBits_append, elemBits_cons, List.getD_append_right _ _ _ _ hq,
      List.getD_append _ _ _ _ (by omega)]
  refine ⟨e, back, rfl, elemsAt_ofBytes (fun x hx => hfit x (by simp [hx])) ⟨by omega, fun j hj => ?_⟩,
    failsAt_of_cut (hfit e (by simp)) ⟨by simpa using hin, by simpa using hshort, fun j hj => ?_⟩⟩
  · rw [Nat.zero_add, hbits j (by omega), elemBits_append, List.getD_append _ _ _ _ hj]
  · simp only [Reader.skip_data, Reader.skip_len, Reader.skip_pos, Reader.ofBytes_data, Reader.ofBytes_len,
      Reader.ofBytes_pos, Nat.zero_add] at hj ⊢
    rw [hget _ (by omega) hj, Nat.add_sub_cancel_left]

/-- Where the bits `l` stand, each of their positions holds its bit. -/
theorem streamBit_of_bitsAt_replicate {D : List Byte} {L p n : Nat} (h : BitsAt D L p (List.replicate n false)) :
    ∀ j < n, streamBit D (p + j) = false := fun j hj => by
  simpa [hj] using h.2 j (by simpa using hj)

/-- Which failure a code of R361 is. -/
theorem failsAt_of_longCodeAfter {D : List Byte} {l front : List Elem} {code : Byte} (hfit : ∀ e ∈ l, e.fits)
    (h : LongCodeAfter D l front code) :
    ∃ F e back, code = F.status.code ∧ l = front ++ e :: back ∧ ElemsAt (Reader.ofBytes D) front ∧
      FailsAt F ((Reader.ofBytes D).skip (elemBits front).length) e := by
  obtain ⟨g, v, i, j, k, back, n, rfl, hn, ⟨rfl, hbits⟩ | ⟨rfl, hend, hbits⟩⟩ := h
  · rw [bitsAt_append, bitsAt_append] at hbits
    obtain ⟨⟨hfront, hzeros⟩, hone⟩ := hbits
    refine ⟨.malformed, _, back, rfl, rfl, elemsAt_ofBytes (fun x hx => hfit x (by simp [hx])) hfront, ?_, nofun⟩
    have hlen := hone.1
    have h1 := hone.2 0 (by simp)
    simp only [List.length_append, List.length_replicate, List.length_singleton, Nat.zero_add, Nat.add_zero] at hlen h1
    rw [Reader.ue_of_run (k := n) (by simp; omega)
      (fun j hj => by simpa using streamBit_of_bitsAt_replicate hzeros j hj) (fun _ => by simpa using h1),
      if_neg (by simp; omega), if_pos hn]
  · rw [bitsAt_append] at hbits
    obtain ⟨hfront, hzeros⟩ := hbits
    obtain ⟨hue, huvlc⟩ := Reader.ue_of_zeros (r := (Reader.ofBytes D).skip (elemBits front).length)
      (by simp; omega) fun j hj => by
        simp only [Reader.skip_len, Reader.skip_pos, Reader.ofBytes_len, Reader.ofBytes_pos, Nat.zero_add] at hj
        simpa using streamBit_of_bitsAt_replicate hzeros j (by omega)
    exact ⟨.oob, _, back, rfl, rfl, elemsAt_ofBytes (fun x hx => hfit x (by simp [hx])) hfront, hue, fun _ _ => huvlc⟩

end Sys2Proof.Machine
end

section
/-! The sequence parameter set reads its elements, part by part (spec/41_h264.md section 2), and where it has an
element out of range (R173). -/

namespace Sys2Proof.Machine

open Sys2Proof.Safety

variable {F : ReadFail}

/-! ## SPS -/

/-- The elements of R170. -/
def spsStartElems (x : SpsSyntax) : List Elem :=
  [eu Field.profileIdc 8 x.profileIdc,
    eu Field.constraintSet0Flag 1 (x.constraintFlags / 32 % 2),
    eu Field.constraintSet1Flag 1 (x.constraintFlags / 16 % 2),
    eu Field.constraintSet2Flag 1 (x.constraintFlags / 8 % 2),
    eu Field.constraintSet3Flag 1 (x.constraintFlags / 4 % 2),
    eu Field.constraintSet4Flag 1 (x.constraintFlags / 2 % 2),
    eu Field.constraintSet5Flag 1 (x.constraintFlags % 2),
    eu Field.reservedZero2bits 2 x.reservedBits, eu Field.levelIdc 8 x.levelIdc,
    eg Field.seqParameterSetId x.id]

/-- The elements of the high-profile block (R171, R172). -/
def spsHighElems (x : SpsSyntax) : List Elem :=
  when (x.profileIdc ∈ [100, 110, 122, 244, 44, 83, 86, 118, 128, 138, 139, 134])
    ([eg Field.chromaFormatIdc x.chromaFormatIdc] ++
      when (x.chromaFormatIdc = 3) [eu Field.separateColourPlaneFlag 1 x.separateColourPlane] ++
      [eg Field.bitDepthLumaMinus8 x.bitDepthLuma, eg Field.bitDepthChromaMinus8 x.bitDepthChroma,
        eu Field.qpprimeYZeroTransformBypassFlag 1 x.qpprime,
        eu Field.seqScalingMatrixPresentFlag 1 x.scalingMatrix] ++
      when (x.scalingMatrix = 1) (x.scalingLists.mapIdx scalingListElems).flatten)

/-- The picture-order-count elements after pic_order_cnt_type (R173). -/
def spsPocElems (x : SpsSyntax) : List Elem :=
  when (x.pocType = 0) [eg Field.log2MaxPicOrderCntLsbMinus4 x.log2PocLsb] ++
    when (x.pocType = 1)
      ([eu Field.deltaPicOrderAlwaysZeroFlag 1 x.deltaAlwaysZero, eg Field.offsetForNonRefPic x.offsetNonRef,
        eg Field.offsetForTopToBottomField x.offsetTopBottom,
        eg Field.numRefFramesInPicOrderCntCycle x.offsetsRefFrame.length] ++
      x.offsetsRefFrame.mapIdx (fun i v => .ue Field.offsetForRefFrame v i))

/-- The picture size (R174). -/
def spsSizeElems (x : SpsSyntax) : List Elem :=
  [eg Field.maxNumRefFrames x.maxNumRefFrames, eu Field.gapsInFrameNumValueAllowedFlag 1 x.gapsAllowed,
    eg Field.picWidthInMbsMinus1 x.width, eg Field.picHeightInMapUnitsMinus1 x.height,
    eu Field.frameMbsOnlyFlag 1 x.frameMbsOnly]

/-- The elements from mb_adaptive_frame_field_flag on (R174). -/
def spsEndElems (x : SpsSyntax) : List Elem :=
  when (x.frameMbsOnly = 0) [eu Field.mbAdaptiveFrameFieldFlag 1 x.mbAdaptive] ++
    ([eu Field.direct8x8InferenceFlag 1 x.direct8x8, eu Field.frameCroppingFlag 1 x.cropping] ++
    (when (x.cropping = 1)
      [eg Field.frameCropLeftOffset x.cropLeft, eg Field.frameCropRightOffset x.cropRight,
        eg Field.frameCropTopOffset x.cropTop, eg Field.frameCropBottomOffset x.cropBottom] ++
    ([eu Field.vuiParametersPresentFlag 1 x.vui] ++
    when (x.vui = 1) [.derived Field.notDecoded 1])))

/-- The elements of an SPS, part by part. -/
theorem spsSyntax_elems_eq (x : SpsSyntax) :
    x.elems = spsStartElems x ++ (spsHighElems x ++ (eg Field.log2MaxFrameNumMinus4 x.log2FrameNum ::
      eg Field.picOrderCntType x.pocType :: (spsPocElems x ++ (spsSizeElems x ++ spsEndElems x)))) := by
  simp only [SpsSyntax.elems, spsStartElems, spsHighElems, spsPocElems, spsSizeElems, spsEndElems, List.append_assoc,
    List.cons_append, List.nil_append]

theorem reads_spsStart (x : SpsSyntax) :
    Reads F spsStart (spsStartElems x) x.profileIdc :=
  .cons reads_fieldU <| .cons reads_fieldU <| .cons reads_fieldU <| .cons reads_fieldU <| .cons reads_fieldU <|
    .cons reads_fieldU <| .cons reads_fieldU <| .cons reads_fieldU <| .cons reads_fieldU <| .cons reads_fieldUe .refl

theorem scaleAfter_nonneg (ks : List Nat) (n : Nat) : 0 ≤ scaleAfter ks n := Int.emod_nonneg _ (by decide)

/-- One code more moves the running value by its signed value, modulo 256 (R172). -/
theorem scaleAfter_succ {ks : List Nat} {n k : Nat} (h : ks[n]? = some k) :
    (scaleAfter ks n + seVal k + 256) % 256 = scaleAfter ks (n + 1) := by
  have hsum : ((ks.take (n + 1)).map seSigned).sum = ((ks.take n).map seSigned).sum + seVal k := by
    rw [List.take_add_one, h]
    simp [seVal, seSigned]
  unfold scaleAfter
  rw [hsum]
  omega

/-- Once the running value is 0 no code follows (R172). -/
theorem reads_scalingListFrom_zero (i count j last : Nat) : Reads F (scalingListFrom i count j last 0) [] () := by
  induction count generalizing j with
  | zero => exact .refl
  | succ n ih =>
    unfold scalingListFrom
    rw [if_pos rfl]
    exact ih _

/-- The codes `rest` that a list has left after its first `j`: as long as `next` is not 0 it equals `last`, the running
value of R172. -/
theorem reads_scalingListFrom (i : Nat) {ks : List Nat} (hrun : ∀ n < ks.length, scaleAfter ks n ≠ 0) {rest : List Nat}
    {count j last next : Nat} (hrest : ks.drop j = rest) (hj : j ≤ ks.length) (hcount : rest.length ≤ count)
    (hnext : (next : Int) = scaleAfter ks j) (hlast : next ≠ 0 → last = next)
    (hend : rest.length = count ∨ scaleAfter ks ks.length = 0) :
    Reads F (scalingListFrom i count j last next) (rest.mapIdx fun m k => .ue Field.deltaScale k i (j + m)) () := by
  induction rest generalizing count j last next with
  | nil =>
    have hlen : j = ks.length := Nat.le_antisymm hj (List.drop_eq_nil_iff.mp hrest)
    obtain hcount | hzero := hend
    · rw [← hcount]
      exact .refl
    · rw [hlen, hzero] at hnext
      obtain rfl : next = 0 := by exact_mod_cast hnext
      exact reads_scalingListFrom_zero _ _ _ _
  | cons k rest ih =>
    obtain ⟨n, rfl⟩ : ∃ n, count = n + 1 := ⟨count - 1, by simp at hcount; omega⟩
    have hjlt : j < ks.length := by
      by_contra h
      rw [List.drop_eq_nil_of_le (by omega)] at hrest
      cases hrest
    have hk : ks[j]? = some k := by rw [← List.head?_drop, hrest]; rfl
    have hne : next ≠ 0 := fun h => hrun j hjlt (by rw [← hnext, h]; rfl)
    obtain rfl := hlast hne
    have hnonneg := scaleAfter_nonneg ks (j + 1)
    unfold scalingListFrom
    rw [if_neg hne, List.mapIdx_cons]
    refine .cons reads_fieldSe ?_
    rw [hnext, scaleAfter_succ hk]
    have hread := ih (j := j + 1) (next := (scaleAfter ks (j + 1)).toNat) (count := n)
      (last := if (scaleAfter ks (j + 1)).toNat = 0 then last else (scaleAfter ks (j + 1)).toNat)
      (by rw [← List.drop_drop, hrest]; rfl) hjlt (by simpa using hcount) (by omega) (fun h => if_neg h)
      (by simpa using hend)
    simpa [Nat.add_assoc, Nat.add_comm 1] using hread

theorem reads_scalingList (i size : Nat) {ks : List Nat} (h : scalingListEnds size ks) :
    Reads F (scalingList i size) (ks.mapIdx fun j k => .ue Field.deltaScale k i j) () := by
  obtain ⟨hle, hrun, hend⟩ := h
  simpa [scalingList] using reads_scalingListFrom i hrun (rest := ks) (j := 0) rfl (Nat.zero_le _) hle
    (show ((8 : Nat) : Int) = _ by simp [scaleAfter]) (fun _ => rfl) hend

/-- One entry of the scaling matrix: the present flag, and the codes of a list that is present (R171). -/
theorem reads_spsScalingEntry (i : Nat) {o : Option (List Nat)}
    (h : ∀ ks ∈ o, scalingListEnds (if i < 6 then 16 else 64) ks) :
    Reads F (spsScalingEntry i) (scalingListElems i o) () := by
  cases o with
  | none => exact .cons reads_fieldU .refl
  | some ks => exact .cons reads_fieldU (reads_scalingList i _ (h ks rfl))

theorem reads_spsHighProfile {x : SpsSyntax} (hx : x.scalingFits) :
    Reads F (spsHighProfile x.profileIdc)
      (spsHighElems x)
      (if x.profileIdc ∈ highProfiles then x.chromaFormatIdc else 1,
        if x.profileIdc ∈ highProfiles ∧ x.chromaFormatIdc = 3 then x.separateColourPlane else 0) := by
  refine .congr (ReadsThen.opt_value (by simp [highProfiles]) (fun _ => ?_) fun _ => .refl) rfl
    (congrArg pure <| show _ = if x.profileIdc ∈ highProfiles
      then (x.chromaFormatIdc, if x.chromaFormatIdc = 3 then x.separateColourPlane else 0) else (1, 0) by
        split_ifs <;> simp_all)
  simp only [List.append_assoc, List.cons_append, List.nil_append]
  refine .cons reads_fieldUe <| .append (.opt_value (by simp) (fun _ => reads_fieldU) fun _ => .refl) <|
    .cons reads_fieldUe <| .cons reads_fieldUe <| .cons reads_fieldU <| .cons reads_fieldU ?_
  refine .opt_last (by simp) (fun hsm => ?_) fun _ => .refl
  obtain ⟨hlen, hends⟩ := hx hsm
  have hloop : Reads F (forRange (if x.chromaFormatIdc ≠ 3 then 8 else 12) 0 spsScalingEntry)
      (x.scalingLists.mapIdx scalingListElems).flatten () := by
    refine reads_forRange x.scalingLists (by rw [hlen, ite_not]) fun i o ho => reads_spsScalingEntry i fun ks hks => ?_
    have hi : i < x.scalingLists.length := (List.getElem?_eq_some_iff.mp ho).1
    refine hends i (by rw [hlen] at hi; split at hi <;> omega) ks ?_
    rw [ho]
    exact hks
  exact hloop.last .refl

/-- A checked log2 field that passes its check (R173). -/
theorem reads_spsLog2 {g : Half} {v : Nat} (hv : v ≤ 12) : Reads F (spsLog2 g) [eg g v] (v + 4) := by
  refine .cons reads_fieldUe ?_
  rw [if_neg (by omega)]
  exact .refl

theorem reads_spsPoc {x : SpsSyntax} (hx : x.pocType = 0 → x.log2PocLsb ≤ 12) :
    Reads F (spsPoc x.pocType)
      (spsPocElems x)
      (if x.pocType = 0 then x.log2PocLsb + 4 else 0, if x.pocType = 1 then x.deltaAlwaysZero else 0) := by
  unfold spsPoc
  obtain h0 | h0 := eq_or_ne x.pocType 0
  · simp only [h0, spsPocElems, when]
    exact .cons (reads_spsLog2 (hx h0)) .refl
  · simp only [h0, spsPocElems, when]
    obtain h1 | h1 := eq_or_ne x.pocType 1
    · simp only [h1]
      refine .cons reads_fieldU <| .cons reads_fieldSe <| .cons reads_fieldSe <| .cons reads_fieldUe ?_
      have hloop : Reads F (forRange x.offsetsRefFrame.length 0 (fun i => do
          let _ ← fieldSe (σ := H264State) Field.offsetForRefFrame i))
          (x.offsetsRefFrame.mapIdx (fun i v => .ue Field.offsetForRefFrame v i)) () :=
        reads_forRange_single _ rfl fun i v => .cons reads_fieldSe .refl
      exact hloop.last .refl
    · simp only [h1]
      exact .refl

theorem reads_spsSize (x : SpsSyntax) :
    Reads F spsSize
      (spsSizeElems x) (x.width, x.height, x.frameMbsOnly) :=
  .cons reads_fieldUe <| .cons reads_fieldU <| .cons reads_fieldUe <| .cons reads_fieldUe <| .cons reads_fieldU .refl

theorem reads_spsCropping (x : SpsSyntax) :
    Reads F (spsCropping x.cropping)
      (when (x.cropping = 1)
        [eg Field.frameCropLeftOffset x.cropLeft, eg Field.frameCropRightOffset x.cropRight,
          eg Field.frameCropTopOffset x.cropTop, eg Field.frameCropBottomOffset x.cropBottom]) () :=
  .opt_last (by simp)
    (fun _ => .cons reads_fieldUe <| .cons reads_fieldUe <| .cons reads_fieldUe <| .cons reads_fieldUe .refl)
    fun _ => .refl

theorem reads_spsEnd (x : SpsSyntax) :
    Reads F (spsEnd x.frameMbsOnly)
      (spsEndElems x) () := by
  refine .opt (by simp) ?_ fun hrest _ => .cons reads_fieldU hrest
  simp only [List.cons_append, List.nil_append]
  refine .cons reads_fieldU <| .cons reads_fieldU <| .append (reads_spsCropping x) <| .cons reads_fieldU ?_
  exact .opt_last (by simp) (fun _ => reads_emit) fun _ => .refl

/-- The reads of an SPS are its elements (R170 to R175). -/
theorem reads_spsFields {x : SpsSyntax} (hscaling : x.scalingFits) (hlog : x.log2FrameNum ≤ 12)
    (hpoc : x.pocType = 0 → x.log2PocLsb ≤ 12) : Reads F spsFields x.elems x.part := by
  refine .congr (.append (reads_spsStart x) <| .append (reads_spsHighProfile hscaling) <| .append (reads_spsLog2 hlog) <|
    .cons reads_fieldUe <| .append (reads_spsPoc hpoc) <| .append (reads_spsSize x) <| .last (reads_spsEnd x) .refl) ?_ ?_
  · exact spsSyntax_elems_eq x
  · refine congrArg pure ?_
    simp only [SpsSyntax.part, highProfiles]
    split_ifs <;> simp_all

/-! ## The range checks of R173 -/

/-- A checked log2 field that fails its check (R173). -/
theorem raises_spsLog2 {g : Half} {v : Nat} (hv : 12 < v) : ReadsThen F (spsLog2 g) [eg g v] (raise .malformed) := by
  refine .last reads_fieldUe ?_
  rw [if_pos hv]
  exact .refl

theorem raises_spsFields_frameNum {x : SpsSyntax} (hscaling : x.scalingFits) (hv : 12 < x.log2FrameNum) :
    ReadsThen F spsFields
      (spsStartElems x ++ (spsHighElems x ++ [eg Field.log2MaxFrameNumMinus4 x.log2FrameNum])) (raise .malformed) :=
  .append (reads_spsStart x) <| .append (reads_spsHighProfile hscaling) (raises_spsLog2 hv).bind_raise

theorem raises_spsFields_pocLsb {x : SpsSyntax} (hscaling : x.scalingFits) (hlog : x.log2FrameNum ≤ 12)
    (hpoc : x.pocType = 0) (hv : 12 < x.log2PocLsb) :
    ReadsThen F spsFields
      (spsStartElems x ++ (spsHighElems x ++ ([eg Field.log2MaxFrameNumMinus4 x.log2FrameNum] ++
        ([eg Field.picOrderCntType x.pocType] ++ [eg Field.log2MaxPicOrderCntLsbMinus4 x.log2PocLsb]))))
      (raise .malformed) := by
  refine .append (reads_spsStart x) <| .append (reads_spsHighProfile hscaling) <|
    .append (reads_spsLog2 hlog) <| .append reads_fieldUe <| .bind_raise ?_
  unfold spsPoc
  rw [if_pos hpoc]
  exact (raises_spsLog2 hv).bind_raise

/-- The field id of an element. -/
def elemField : Elem → Half
  | .u g _ _ _ _ _ => g
  | .ue g _ _ _ _ => g
  | .capped g _ => g
  | .derived g _ => g

@[simp] theorem elemField_eu (g : Half) (n v : Nat) : elemField (eu g n v) = g := rfl
@[simp] theorem elemField_eg (g : Half) (v : Nat) : elemField (eg g v) = g := rfl
@[simp] theorem elemField_u (g : Half) (n v i j k : Nat) : elemField (.u g n v i j k) = g := rfl
@[simp] theorem elemField_ue (g : Half) (v i j k : Nat) : elemField (.ue g v i j k) = g := rfl
@[simp] theorem elemField_derived (g : Half) (v : Nat) : elemField (.derived g v) = g := rfl

/-- No element of the list has the field id. -/
def Lacks (g : Half) (l : List Elem) : Prop := ∀ e ∈ l, elemField e ≠ g

theorem forall_mem_when {P : Elem → Prop} {on : Bool} {l : List Elem} :
    (∀ e ∈ when on l, P e) ↔ (on = true → ∀ e ∈ l, P e) := by
  cases on <;> simp [when]

theorem lacks_nil {g : Half} : Lacks g [] := nofun

theorem lacks_cons {g : Half} {e : Elem} {l : List Elem} (he : elemField e ≠ g) (hl : Lacks g l) : Lacks g (e :: l) :=
  List.forall_mem_cons.mpr ⟨he, hl⟩

theorem lacks_append {g : Half} {l m : List Elem} (hl : Lacks g l) (hm : Lacks g m) : Lacks g (l ++ m) :=
  List.forall_mem_append.mpr ⟨hl, hm⟩

theorem lacks_mapIdx {γ : Type} {g : Half} {f : Nat → γ → Elem} {xs : List γ} (h : ∀ i x, elemField (f i x) ≠ g) :
    Lacks g (xs.mapIdx f) := fun e he => by
  obtain ⟨i, hi, rfl⟩ := List.mem_mapIdx.mp he
  exact h i _

/-- An element of a field id that no other element has stands where it stands. -/
theorem append_cons_unique {A B front back : List Elem} {e e' : Elem} (h : A ++ e :: B = front ++ e' :: back)
    (hA : Lacks (elemField e') A) (hB : Lacks (elemField e') B) : A = front ∧ e = e' := by
  obtain ⟨m, rfl, hm⟩ | ⟨m, rfl, hm⟩ := List.append_eq_append_iff.mp h
  · cases m with
    | nil => exact ⟨(List.append_nil A).symm, (List.cons.inj hm).1⟩
    | cons y m =>
      obtain ⟨rfl, rfl⟩ := List.cons.inj hm
      exact absurd rfl (hB e' (by simp))
  · cases m with
    | nil => exact ⟨List.append_nil _, (List.cons.inj hm).1.symm⟩
    | cons y m =>
      obtain ⟨rfl, rfl⟩ := List.cons.inj hm
      exact absurd rfl (hA e' (by simp))

/-- The field ids of the two checked log2 fields. -/
def IsSpsLog2Field (g : Half) : Prop := g = Field.log2MaxFrameNumMinus4 ∨ g = Field.log2MaxPicOrderCntLsbMinus4

section
variable {g : Half} (hg : IsSpsLog2Field g) (x : SpsSyntax)
include hg

theorem lacks_spsStartElems : Lacks g (spsStartElems x) := by
  obtain rfl | rfl := hg <;> simp +decide [Lacks, spsStartElems]

theorem lacks_scalingListElems (i : Nat) (o : Option (List Nat)) : Lacks g (scalingListElems i o) := by
  have hflag : Field.seqScalingListPresentFlag ≠ g := by obtain rfl | rfl := hg <;> decide
  have hscale : Field.deltaScale ≠ g := by obtain rfl | rfl := hg <;> decide
  cases o with
  | none => exact lacks_cons hflag lacks_nil
  | some ks => exact lacks_cons hflag (lacks_mapIdx fun _ _ => hscale)

theorem lacks_spsHighElems : Lacks g (spsHighElems x) := by
  have hlists : Lacks g (x.scalingLists.mapIdx scalingListElems).flatten := fun e he => by
    obtain ⟨l, hl, he⟩ := List.mem_flatten.mp he
    obtain ⟨j, hj, rfl⟩ := List.mem_mapIdx.mp hl
    exact lacks_scalingListElems hg j _ e he
  refine forall_mem_when.mpr fun _ => lacks_append ?_ (forall_mem_when.mpr fun _ => hlists)
  unfold Lacks
  simp only [forall_mem_when, List.forall_mem_append, List.forall_mem_cons, elemField_eu, elemField_eg]
  obtain rfl | rfl := hg <;> simp +decide

theorem lacks_spsPocType1 (on : Bool) :
    Lacks g (when on ([eu Field.deltaPicOrderAlwaysZeroFlag 1 x.deltaAlwaysZero,
        eg Field.offsetForNonRefPic x.offsetNonRef, eg Field.offsetForTopToBottomField x.offsetTopBottom,
        eg Field.numRefFramesInPicOrderCntCycle x.offsetsRefFrame.length] ++
      x.offsetsRefFrame.mapIdx (fun i v => .ue Field.offsetForRefFrame v i))) := by
  have hoffset : Field.offsetForRefFrame ≠ g := by obtain rfl | rfl := hg <;> decide
  refine forall_mem_when.mpr fun _ => lacks_append ?_ (lacks_mapIdx fun _ _ => hoffset)
  obtain rfl | rfl := hg <;> simp +decide [Lacks]

theorem lacks_spsEnd : Lacks g (spsSizeElems x ++ spsEndElems x) := by
  unfold Lacks spsSizeElems spsEndElems
  simp only [forall_mem_when, List.forall_mem_append, List.forall_mem_cons, elemField_eu, elemField_eg,
    elemField_derived]
  obtain rfl | rfl := hg <;> simp +decide

end

/-- Where the SPS has log2_max_frame_num_minus4 above 12 as its next element, it is MALFORMED (R173). -/
theorem spsFields_raises_of_frameNum {x : SpsSyntax} {front back : List Elem} {v : Nat} (hscaling : x.scalingFits)
    (helems : x.elems = front ++ eg Field.log2MaxFrameNumMinus4 v :: back) (hv : 12 < v) :
    ReadsThen F spsFields (front ++ [eg Field.log2MaxFrameNumMinus4 v]) (raise .malformed) := by
  have hg : IsSpsLog2Field Field.log2MaxFrameNumMinus4 := .inl rfl
  have hpoc : Lacks Field.log2MaxFrameNumMinus4 (spsPocElems x) :=
    lacks_append (forall_mem_when.mpr fun _ => by simp +decide) (lacks_spsPocType1 hg x _)
  rw [spsSyntax_elems_eq, ← List.append_assoc] at helems
  obtain ⟨rfl, he⟩ := append_cons_unique helems (lacks_append (lacks_spsStartElems hg x) (lacks_spsHighElems hg x))
    (lacks_cons (show Field.picOrderCntType ≠ Field.log2MaxFrameNumMinus4 by decide) (lacks_append hpoc (lacks_spsEnd hg x)))
  rw [← he, List.append_assoc]
  exact raises_spsFields_frameNum hscaling (by cases he; exact hv)

/-- Where the SPS has log2_max_pic_order_cnt_lsb_minus4 above 12 as its next element, it is MALFORMED (R173). -/
theorem spsFields_raises_of_pocLsb {x : SpsSyntax} {front back : List Elem} {v : Nat} (hscaling : x.scalingFits)
    (hlog : x.log2FrameNum ≤ 12) (helems : x.elems = front ++ eg Field.log2MaxPicOrderCntLsbMinus4 v :: back)
    (hv : 12 < v) : ReadsThen F spsFields (front ++ [eg Field.log2MaxPicOrderCntLsbMinus4 v]) (raise .malformed) := by
  have hg : IsSpsLog2Field Field.log2MaxPicOrderCntLsbMinus4 := .inr rfl
  have hbefore : Lacks Field.log2MaxPicOrderCntLsbMinus4 (spsStartElems x ++ (spsHighElems x ++
      ([eg Field.log2MaxFrameNumMinus4 x.log2FrameNum] ++ [eg Field.picOrderCntType x.pocType]))) :=
    lacks_append (lacks_spsStartElems hg x) <| lacks_append (lacks_spsHighElems hg x) <| by simp +decide [Lacks]
  rw [spsSyntax_elems_eq] at helems
  obtain h0 | h0 := eq_or_ne x.pocType 0
  · have hpoc : spsPocElems x = [eg Field.log2MaxPicOrderCntLsbMinus4 x.log2PocLsb] := by simp [spsPocElems, h0, when]
    rw [hpoc] at helems
    obtain ⟨rfl, he⟩ := append_cons_unique (e := eg Field.log2MaxPicOrderCntLsbMinus4 x.log2PocLsb)
      (e' := eg Field.log2MaxPicOrderCntLsbMinus4 v) (Eq.trans (by simp) helems) hbefore (lacks_spsEnd hg x)
    rw [← he]
    have h := raises_spsFields_pocLsb (F := F) hscaling hlog h0 (by cases he; exact hv)
    simpa using h
  · have hpoc : Lacks Field.log2MaxPicOrderCntLsbMinus4 (spsPocElems x) := by
      simpa [spsPocElems, h0, when] using lacks_spsPocType1 hg x (decide (x.pocType = 1))
    have hall := lacks_append hbefore (lacks_append hpoc (lacks_spsEnd hg x))
    exact absurd rfl (hall (eg Field.log2MaxPicOrderCntLsbMinus4 v) (by
      simp only [List.append_assoc, List.cons_append, List.nil_append]
      rw [helems]
      simp))

end Sys2Proof.Machine
end

section
/-! The picture parameter set reads its elements, part by part (spec/41_h264.md section 3), and what
`more_rbsp_data` finds after them (R135). -/

namespace Sys2Proof.Machine

open Sys2Proof.Safety

variable {F : ReadFail}

/-! ## PPS -/

/-- The elements of R181. -/
def ppsStartElems (x : PpsSyntax) : List Elem :=
  [eg Field.picParameterSetId x.id, eg Field.ppsSeqParameterSetId x.spsId,
    eu Field.entropyCodingModeFlag 1 x.entropyCodingMode,
    eu Field.bottomFieldPicOrderInFramePresentFlag 1 x.bottomField, eg Field.numSliceGroupsMinus1 x.numSliceGroups]

/-- The elements of slice_group_map_type `x.mapType` (R182). -/
def ppsMapElems (x : PpsSyntax) : List Elem :=
  when (x.mapType = 0) (x.runLengths.mapIdx (fun i v => .ue Field.runLengthMinus1 v i)) ++
  (when (x.mapType = 2)
    (x.rectangles.mapIdx (fun i r => [.ue Field.topLeft r.1 i, .ue Field.bottomRight r.2 i])).flatten ++
  (when (x.mapType ∈ [3, 4, 5])
    [eu Field.sliceGroupChangeDirectionFlag 1 x.changeDirection, eg Field.sliceGroupChangeRateMinus1 x.changeRate] ++
  when (x.mapType = 6)
    ([eg Field.picSizeInMapUnitsMinus1 (x.sliceGroupIds.length - 1)] ++
      x.sliceGroupIds.mapIdx (fun i v => .u Field.sliceGroupId (Nat.clog 2 (x.numSliceGroups + 1)) v i))))

/-- The elements of R183. -/
def ppsEndElems (x : PpsSyntax) : List Elem :=
  [eg Field.numRefIdxL0DefaultActiveMinus1 x.numRefIdxL0, eg Field.numRefIdxL1DefaultActiveMinus1 x.numRefIdxL1,
    eu Field.weightedPredFlag 1 x.weightedPred, eu Field.weightedBipredIdc 2 x.weightedBipred,
    eg Field.picInitQpMinus26 x.picInitQp, eg Field.picInitQsMinus26 x.picInitQs,
    eg Field.chromaQpIndexOffset x.chromaQpOffset,
    eu Field.deblockingFilterControlPresentFlag 1 x.deblockingControl,
    eu Field.constrainedIntraPredFlag 1 x.constrainedIntra,
    eu Field.redundantPicCntPresentFlag 1 x.redundantPicCnt]

/-- The elements of a PPS, part by part. -/
theorem ppsSyntax_elems_eq (x : PpsSyntax) :
    x.elems = ppsStartElems x ++
      (when (x.numSliceGroups > 0) (eg Field.sliceGroupMapType x.mapType :: ppsMapElems x) ++ ppsEndElems x) := by
  simp only [PpsSyntax.elems, ppsStartElems, ppsMapElems, ppsEndElems, List.append_assoc, List.cons_append,
    List.nil_append]

theorem reads_ppsStart (x : PpsSyntax) :
    Reads F ppsStart (ppsStartElems x) (x.entropyCodingMode, x.bottomField, x.numSliceGroups) :=
  .cons reads_fieldUe <| .cons reads_fieldUe <| .cons reads_fieldU <| .cons reads_fieldU <| .cons reads_fieldUe .refl

/-- `leastShift` finds the least shift, if it is among its candidates. -/
theorem leastShift_eq {fuel v w rate target : Nat} (hvw : v ≤ w) (hfuel : w ≤ v + fuel)
    (hreach : target ≤ 2 ^ w * rate) (hleast : ∀ u < w, 2 ^ u * rate < target) : leastShift fuel v rate target = w := by
  induction fuel generalizing v with
  | zero => exact Nat.le_antisymm hvw hfuel
  | succ n ih =>
    unfold leastShift
    obtain rfl | hlt := Nat.eq_or_lt_of_le hvw
    · rw [if_pos hreach]
    · rw [if_neg (Nat.not_le.mpr (hleast v hlt))]
      exact ih hlt (by omega)

/-- The width of a slice_group_id (R182). -/
theorem sliceGroupIdWidth_eq {ng : Nat} (h : ng < 2 ^ 64) : sliceGroupIdWidth ng = Nat.clog 2 (ng + 1) := by
  have hle : Nat.clog 2 (ng + 1) ≤ 64 := Nat.clog_le_of_le_pow (by omega)
  refine leastShift_eq (Nat.zero_le _) (by omega) (by simpa using Nat.le_pow_clog (by decide) (ng + 1)) fun u hu => ?_
  rw [Nat.mul_one]
  exact (Nat.lt_clog_iff_pow_lt (by decide)).mp hu

section
variable {x : PpsSyntax}

theorem reads_ppsRunLengths (hlen : x.runLengths.length = x.numSliceGroups + 1) :
    Reads F (forRange (x.numSliceGroups + 1) 0 fun i => do
        let _ ← fieldUe (σ := H264State) Field.runLengthMinus1 i)
      (x.runLengths.mapIdx fun i v => .ue Field.runLengthMinus1 v i) () :=
  reads_forRange_single _ hlen.symm fun _ _ => .cons reads_fieldUe .refl

theorem reads_ppsRectangles (hlen : x.rectangles.length = x.numSliceGroups) :
    Reads F (forRange x.numSliceGroups 0 fun i => do
        let _ ← fieldUe (σ := H264State) Field.topLeft i
        let _ ← fieldUe Field.bottomRight i)
      (x.rectangles.mapIdx fun i r => [.ue Field.topLeft r.1 i, .ue Field.bottomRight r.2 i]).flatten () :=
  reads_forRange _ hlen.symm fun _ _ _ => .cons reads_fieldUe <| .cons reads_fieldUe .refl

theorem reads_ppsSliceGroupIds (hids : x.sliceGroupIds ≠ []) (hng : x.numSliceGroups < 2 ^ 64) :
    Reads F (forRange (x.sliceGroupIds.length - 1 + 1) 0 fun i => do
        let _ ← fieldU (σ := H264State) Field.sliceGroupId (sliceGroupIdWidth x.numSliceGroups) i)
      (x.sliceGroupIds.mapIdx fun i v => .u Field.sliceGroupId (Nat.clog 2 (x.numSliceGroups + 1)) v i) () := by
  have hpos := List.length_pos_of_ne_nil hids
  rw [sliceGroupIdWidth_eq hng]
  exact reads_forRange_single _ (by omega) fun _ _ => .cons reads_fieldU .refl

theorem reads_ppsMapFields (hx : x.fits) (hng : x.numSliceGroups < 2 ^ 64) :
    Reads F (ppsMapFields x.numSliceGroups x.mapType) (ppsMapElems x)
      (if x.mapType ∈ [3, 4, 5] then x.changeRate else 0) := by
  obtain ⟨-, hruns, hrects, hids⟩ := hx
  unfold ppsMapFields ppsMapElems
  obtain h0 | h0 := eq_or_ne x.mapType 0
  · simp only [h0, when]
    exact (reads_ppsRunLengths (hruns h0)).append .refl
  obtain h2 | h2 := eq_or_ne x.mapType 2
  · simp only [h2, when]
    exact (reads_ppsRectangles (hrects h2)).append .refl
  obtain h6 | h6 := eq_or_ne x.mapType 6
  · simp only [h6, when]
    exact .cons reads_fieldUe <| (reads_ppsSliceGroupIds (hids h6) hng).last .refl
  obtain h345 | h345 := em (x.mapType = 3 ∨ x.mapType = 4 ∨ x.mapType = 5)
  · have hmem : x.mapType ∈ [3, 4, 5] := by simpa using h345
    rw [if_neg h0, if_neg h2, if_pos h345, if_pos hmem]
    simp only [when, h0, h2, h6, hmem, decide_true, decide_false]
    exact .cons reads_fieldU reads_fieldUe
  · have hmem : x.mapType ∉ [3, 4, 5] := by simpa using h345
    rw [if_neg h0, if_neg h2, if_neg h345, if_neg h6, if_neg hmem]
    simp only [when, h0, h2, h6, hmem, decide_false]
    exact .refl

theorem reads_ppsSliceGroups (hx : x.fits) (hng : x.numSliceGroups < 2 ^ 64) :
    Reads F (ppsSliceGroups x.numSliceGroups)
      (when (x.numSliceGroups > 0) (eg Field.sliceGroupMapType x.mapType :: ppsMapElems x))
      (if x.numSliceGroups > 0 then x.mapType else 0,
        if x.numSliceGroups > 0 ∧ x.mapType ∈ [3, 4, 5] then x.changeRate else 0) := by
  refine .congr (ReadsThen.opt_value (by simp) (fun _ => .cons reads_fieldUe <| (reads_ppsMapFields hx hng).last .refl)
    fun _ => .refl) rfl (congrArg pure <| show _ = if x.numSliceGroups > 0
      then (x.mapType, if x.mapType ∈ [3, 4, 5] then x.changeRate else 0) else (0, 0) by split_ifs <;> simp_all)

/-- The reads of a PPS are its elements; then comes the extension tag (R181 to R184). -/
theorem reads_ppsFields (hx : x.fits) :
    ReadsThen F ppsFields x.elems (ppsExtension >>= fun _ => pure x.part) := by
  have hng : x.numSliceGroups < 2 ^ 64 := by
    have hfit := hx.1 (eg Field.numSliceGroupsMinus1 x.numSliceGroups) (by simp [ppsSyntax_elems_eq, ppsStartElems])
    have hfit : x.numSliceGroups < 2 ^ 64 - 1 := hfit
    omega
  refine .congr (.append (reads_ppsStart x) <| .append (reads_ppsSliceGroups hx hng) <| .cons reads_fieldUe <|
    .cons reads_fieldUe <| .cons reads_fieldU <| .cons reads_fieldU <| .cons reads_fieldSe <| .cons reads_fieldSe <|
    .cons reads_fieldSe <| .cons reads_fieldU <| .cons reads_fieldU <| .cons reads_fieldU <| .refl)
    (ppsSyntax_elems_eq x) ?_
  refine congrArg (fun t => ppsExtension >>= fun _ => pure t) ?_
  simp only [PpsSyntax.part]
  split_ifs <;> simp_all

end

/-- `more_rbsp_data()` holds exactly when a 1 bit lies strictly after the cursor (R135, log entry 16). -/
theorem lastOne_spec (D : List Byte) (n : Nat) :
    (lastOne D n = none ∧ ∀ q < n, streamBit D q = false) ∨
    ∃ q < n, lastOne D n = some q ∧ streamBit D q = true ∧ ∀ q', q < q' → q' < n → streamBit D q' = false := by
  induction n with
  | zero => exact .inl ⟨rfl, nofun⟩
  | succ m ih =>
    unfold lastOne
    by_cases h1 : bit D m = 1
    · rw [if_pos h1]
      exact .inr ⟨m, by omega, rfl, (bit_eq_one D m).mp h1, fun q' h h' => by omega⟩
    · have h0 : streamBit D m = false := by simpa using mt (bit_eq_one D m).mpr h1
      rw [if_neg h1]
      have hlast : ∀ q, q < m + 1 → ¬ q < m → streamBit D q = false := fun q hq hq' => by
        rwa [show q = m by omega]
      obtain ⟨hnone, hz⟩ | ⟨q, hq, hsome, hone, hz⟩ := ih
      · exact .inl ⟨hnone, fun q hq => (em (q < m)).elim (hz q) (hlast q hq)⟩
      · exact .inr ⟨q, by omega, hsome, hone, fun q' h h' => (em (q' < m)).elim (hz q' h) (hlast q' h')⟩

theorem moreRbspData_eq_true {r : Reader} :
    r.moreRbspData = true ↔ ∃ q, r.pos < q ∧ q < r.len ∧ streamBit r.data q = true := by
  unfold Reader.moreRbspData
  obtain ⟨hnone, hz⟩ | ⟨q, hq, hsome, hone, hz⟩ := lastOne_spec r.data r.len
  · rw [hnone]
    simp only [Bool.false_eq_true, false_iff, not_exists, not_and]
    exact fun q _ hq => by simp [hz q hq]
  · rw [hsome]
    simp only [decide_eq_true_eq]
    refine ⟨fun h => ⟨q, h, hq, hone⟩, fun ⟨q', hpos, hlen, hone'⟩ => ?_⟩
    by_contra h
    have := hz q' (by omega) hlen
    simp [hone'] at this

end Sys2Proof.Machine
end

section
/-! The slice header reads the elements that the stored parameter sets call for, part by part (spec/41_h264.md
section 4), and where an element is out of range (R191, R200). -/

namespace Sys2Proof.Machine

open Sys2Proof.Safety

variable {F : ReadFail}

/-! ## Slice headers -/

section
variable {x : SliceSyntax} {S : SpsPart} {P : PpsPart}

theorem sliceClass_lt (x : SliceSyntax) : x.cls < 5 := Nat.mod_lt _ (by decide)

theorem reads_sliceStart (hx : x.sliceType ≤ 9) :
    Reads F sliceStart
      [eg Field.firstMbInSlice x.firstMb, eg Field.sliceType x.sliceType, .derived Field.sliceTypeClass x.cls,
        eg Field.slicePicParameterSetId x.ppsId] x.cls := by
  refine .cons reads_fieldUe <| .cons reads_fieldUe ?_
  rw [if_neg (by omega)]
  exact .cons reads_emit <| .cons reads_fieldUe .refl

/-- A slice_type above 9 (R191). -/
theorem sliceStart_raises (hx : 9 < x.sliceType) :
    ReadsThen F sliceStart [eg Field.firstMbInSlice x.firstMb, eg Field.sliceType x.sliceType] (raise .malformed) := by
  refine .cons reads_fieldUe <| .last reads_fieldUe ?_
  rw [if_pos hx]
  exact .refl

theorem reads_sliceFrame :
    Reads F (sliceFrame S)
      (when (S.separateColourPlaneFlag = 1) [eu Field.colourPlaneId 2 x.colourPlane] ++
        (eu Field.frameNum S.log2MaxFrameNum.toNat x.frameNum ::
          when (S.frameMbsOnlyFlag = 0)
            (eu Field.fieldPicFlag 1 x.fieldPic :: when (x.fieldPic = 1) [eu Field.bottomFieldFlag 1 x.bottomField])))
      (x.field S) := by
  refine .opt (by simp) ?_ fun hrest _ => .cons reads_fieldU hrest
  refine .cons reads_fieldU <| .opt_value (by simp) (fun _ => ?_) fun _ => .refl
  exact .cons reads_fieldU <| .opt_last (by simp) (fun _ => .cons reads_fieldU .refl) fun _ => .refl

theorem reads_slicePoc (t : Nat) :
    Reads F (slicePoc S P t (x.field S))
      (when (t = 5) [eg Field.idrPicId x.idrPicId] ++
        (when (S.picOrderCntType = 0)
          ([eu Field.picOrderCntLsb S.log2MaxPicOrderCntLsb.toNat x.pocLsb] ++
            when (P.bottomFieldPicOrderInFramePresentFlag = 1 ∧ x.field S = 0)
              [eg Field.deltaPicOrderCntBottom x.deltaPocBottom]) ++
        (when (S.picOrderCntType = 1 ∧ S.deltaPicOrderAlwaysZeroFlag = 0)
          ([.ue Field.deltaPicOrderCnt x.deltaPoc0 0] ++
            when (P.bottomFieldPicOrderInFramePresentFlag = 1 ∧ x.field S = 0)
              [.ue Field.deltaPicOrderCnt x.deltaPoc1 1]) ++
        when (P.redundantPicCntPresentFlag = 1) [eg Field.redundantPicCnt x.redundantPicCnt]))) () := by
  refine .opt (by simp) ?_ fun hrest _ => .cons reads_fieldUe hrest
  refine .opt (by simp) ?_ fun hrest _ => ?_
  · refine .opt (by simp) ?_ fun hrest _ => ?_
    · exact .opt_last (by simp) (fun _ => .cons reads_fieldUe .refl) fun _ => .refl
    · rw [List.append_assoc]
      exact .cons reads_fieldSe <| .opt (by simp) hrest fun hrest _ => .cons reads_fieldSe hrest
  · rw [List.append_assoc]
    exact .cons reads_fieldU <| .opt (by simp) hrest fun hrest _ => .cons reads_fieldSe hrest

/-- The classes with reference lists (R194). -/
theorem cls_mem_iff (x : SliceSyntax) : x.cls ∈ [0, 1, 3] ↔ x.cls = 0 ∨ x.cls = 3 ∨ x.cls = 1 := by
  simp only [List.mem_cons, List.not_mem_nil, or_false]
  tauto

theorem reads_sliceRefIdx :
    Reads F (sliceRefIdx P x.cls)
      (when (x.cls = 1) [eu Field.directSpatialMvPredFlag 1 x.directSpatial] ++
        when (x.cls ∈ [0, 1, 3])
          (eu Field.numRefIdxActiveOverrideFlag 1 x.override ::
            when (x.override = 1)
              (eg Field.numRefIdxL0ActiveMinus1 x.numRefIdxL0 ::
                when (x.cls = 1) [eg Field.numRefIdxL1ActiveMinus1 x.numRefIdxL1])))
      (if x.cls ∈ [0, 1, 3] ∧ x.override = 1 then x.numRefIdxL0 else P.numRefIdxL0DefaultActiveMinus1.toNat,
        if x.cls = 1 ∧ x.override = 1 then x.numRefIdxL1 else P.numRefIdxL1DefaultActiveMinus1.toNat) := by
  refine .opt (by simp) ?_ fun hrest _ => .cons reads_fieldU hrest
  refine .congr (.opt_value (by simp [or_comm]) (fun _ => .cons reads_fieldU <| .opt_value (by simp)
    (fun _ => .cons reads_fieldUe <| .opt_value (by simp) (fun _ => .cons reads_fieldUe .refl) fun _ => .refl)
    fun _ => .refl) fun _ => .refl) rfl ?_
  refine congrArg pure ?_
  simp only [cls_mem_iff]
  split_ifs <;> simp_all

theorem reads_rplmEntry {m : Nat × Nat} (hm : m.1 ≠ 3) (L n : Nat) :
    Reads F (rplmEntry L n)
      ([.ue Field.modificationOfPicNumsIdc m.1 L n] ++ when (m.1 ≤ 1) [.ue Field.absDiffPicNumMinus1 m.2 L n] ++
        when (m.1 = 2) [.ue Field.rplmLongTermPicNum m.2 L n]) false := by
  have hend : ReadsThen F (pure (decide (m.1 = 3)) : Parse H264State Bool) [] (pure false) := by
    rw [decide_eq_false hm]; exact .refl
  rw [List.append_assoc]
  refine .cons reads_fieldUe ?_
  obtain h | h := em (m.1 ≤ 1)
  · have h2 : m.1 ≠ 2 := by omega
    rw [if_pos (by omega)]
    rw [decide_eq_true h, decide_eq_false h2]
    exact .cons reads_fieldUe hend
  · rw [if_neg (by omega)]
    rw [decide_eq_false h]
    obtain h2 | h2 := em (m.1 = 2)
    · rw [if_pos h2, decide_eq_true h2]
      exact .cons reads_fieldUe hend
    · rw [if_neg h2, decide_eq_false h2]
      exact hend

theorem reads_rplmList (L flag : Nat) {mods : List (Nat × Nat)} (hmods : ∀ m ∈ mods, m.1 ≠ 3) :
    Reads F (rplmList L) (listModElems L flag mods) () := by
  refine .cons reads_fieldU <| .opt_last (by simp) (fun _ => ?_) fun _ => .refl
  refine reads_repeatUntil mods (fun n m => by simp [Elem.bits]) (fun n m hm => reads_rplmEntry (hmods m ?_) L n)
    (.cons reads_fieldUe .refl)
  exact List.mem_of_getElem? hm

theorem reads_sliceRplm (h0 : ∀ m ∈ x.mods0, m.1 ≠ 3) (h1 : ∀ m ∈ x.mods1, m.1 ≠ 3) :
    Reads F (sliceRplm x.cls)
      (when (x.cls ∈ [0, 1, 3]) (listModElems 0 x.modFlag0 x.mods0) ++
        when (x.cls = 1) (listModElems 1 x.modFlag1 x.mods1)) () := by
  have hlt := sliceClass_lt x
  refine .opt ?_ ?_ fun hrest _ => .append (reads_rplmList 0 x.modFlag0 h0) hrest
  · simp; omega
  · exact .opt_last (by simp) (fun _ => reads_rplmList 1 x.modFlag1 h1) fun _ => .refl

theorem hasChromaWeights_iff : hasChromaWeights S = true ↔ chromaArrayType S ≠ 0 := by
  unfold hasChromaWeights chromaArrayType
  by_cases h : S.separateColourPlaneFlag = 1
  · simp [h]
  · simp [BitVec.toNat_eq]

theorem reads_chromaWeightEntry {w o : Nat} (L i j : Nat) :
    Reads F (chromaWeightEntry L i j) [.ue Field.chromaWeight w L i j, .ue Field.chromaOffset o L i j] () :=
  .cons reads_fieldSe <| .cons reads_fieldSe .refl

theorem reads_weightEntry (w : WeightSyntax) (L i : Nat) :
    Reads F (weightEntry (chromaArrayType S) L i) (w.elems (hasChromaWeights S) L i) () := by
  unfold WeightSyntax.elems
  rw [List.append_assoc]
  refine .cons reads_fieldU <| .opt (by simp) ?_ fun hrest _ => .cons reads_fieldSe <| .cons reads_fieldSe hrest
  refine .opt_last hasChromaWeights_iff (fun _ => ?_) fun _ => .refl
  refine .cons reads_fieldU <| .opt_last (by simp) (fun _ => ?_) fun _ => .refl
  exact .append (reads_chromaWeightEntry L i 0) <| .append (reads_chromaWeightEntry L i 1) .refl

theorem hasWeightTable_iff (cls : Nat) :
    hasWeightTable P cls = true ↔
      (P.weightedPredFlag = 1 ∧ (cls = 0 ∨ cls = 3)) ∨ (P.weightedBipredIdc = 1 ∧ cls = 1) := by
  simp [hasWeightTable]

theorem reads_slicePredWeight {n0 n1 : Nat} (h0 : hasWeightTable P x.cls = true → x.weights0.length = n0 + 1)
    (h1 : hasWeightTable P x.cls = true → x.cls = 1 → x.weights1.length = n1 + 1) :
    Reads F (slicePredWeight S P x.cls n0 n1) (when (hasWeightTable P x.cls) (x.weightElems S)) () := by
  refine .opt_last (hasWeightTable_iff x.cls) (fun htable => ?_) fun _ => .refl
  have htable := (hasWeightTable_iff x.cls).mpr htable
  unfold SliceSyntax.weightElems
  simp only [List.append_assoc]
  refine .cons reads_fieldUe <| .opt hasChromaWeights_iff ?_ fun hrest _ => .cons reads_fieldUe hrest
  refine .append (reads_forRange _ (h0 htable).symm fun i w _ => reads_weightEntry w 0 i) ?_
  exact .opt_last (by simp) (fun hc => reads_forRange _ (h1 htable hc).symm fun i w _ => reads_weightEntry w 1 i)
    fun _ => .refl

theorem reads_mmcoEntry {m : MmcoSyntax} (hm : m.op ≠ 0) (n : Nat) : Reads F (mmcoEntry n) (m.elems n) false := by
  have hend : ReadsThen F (pure (decide (m.op = 0)) : Parse H264State Bool) [] (pure false) := by
    rw [decide_eq_false hm]; exact .refl
  unfold MmcoSyntax.elems
  simp only [List.append_assoc]
  refine .cons reads_fieldUe <| .opt (by simp) ?_ fun hrest _ => .cons reads_fieldUe hrest
  refine .opt (by simp) ?_ fun hrest _ => .cons reads_fieldUe hrest
  refine .opt (by simp) ?_ fun hrest _ => .cons reads_fieldUe hrest
  by_cases h4 : m.op = 4
  · simp only [h4, when]
    exact .cons reads_fieldUe (by simpa [h4] using hend)
  · simp only [h4, when]
    exact hend

theorem reads_mmcoEnd (n : Nat) :
    Reads F (mmcoEntry n) [.ue Field.memoryManagementControlOperation 0 n] true := .cons reads_fieldUe .refl

theorem mmcoElems_pos (n : Nat) (m : MmcoSyntax) : 0 < (elemBits (m.elems n)).length := by
  simp [MmcoSyntax.elems, Elem.bits]

theorem reads_sliceMarking (hx : ∀ m ∈ x.mmcos, m.op ≠ 0) (nri t : Nat) :
    Reads F (sliceMarking nri t) (when (nri ≠ 0) (x.markingElems t)) () := by
  refine .opt_last (by simp) (fun _ => ?_) fun _ => .refl
  unfold SliceSyntax.markingElems
  split
  · exact .cons reads_fieldU <| .cons reads_fieldU .refl
  · refine .cons reads_fieldU <| .opt_last (by simp) (fun _ => ?_) fun _ => .refl
    exact reads_repeatUntil x.mmcos mmcoElems_pos
      (fun n m hm => reads_mmcoEntry (hx m (List.mem_of_getElem? hm)) n) (reads_mmcoEnd _)

/-- A part within a wider condition's part. -/
theorem when_append_when {a b : Bool} {A B C : List Elem} (h : a = true → b = true) :
    when a A ++ (when b B ++ C) = when b (when a A ++ B) ++ C := by
  cases a
  · rfl
  · rw [h rfl]; exact (List.append_assoc A B C).symm

theorem reads_sliceQp :
    Reads F (sliceQp P x.cls)
      (when (P.entropyCodingModeFlag = 1 ∧ x.cls ∈ [0, 1, 3]) [eg Field.cabacInitIdc x.cabacInit] ++
        (eg Field.sliceQpDelta x.qpDelta ::
        (when (x.cls = 3) [eu Field.spForSwitchFlag 1 x.spSwitch] ++
        (when (x.cls ∈ [3, 4]) [eg Field.sliceQsDelta x.qsDelta] ++
        when (P.deblockingFilterControlPresentFlag = 1)
          ([eg Field.disableDeblockingFilterIdc x.deblockingIdc] ++
            when (x.deblockingIdc ≠ 1)
              [eg Field.sliceAlphaC0OffsetDiv2 x.alphaOffset, eg Field.sliceBetaOffsetDiv2 x.betaOffset]))))) () := by
  have hlt := sliceClass_lt x
  have hcabac : (decide (P.entropyCodingModeFlag = 1 ∧ x.cls ∈ [0, 1, 3])) = true ↔
      P.entropyCodingModeFlag = 1 ∧ x.cls ≠ 2 ∧ x.cls ≠ 4 := by
    simp only [decide_eq_true_eq, List.mem_cons, List.not_mem_nil, or_false]
    exact and_congr_right fun _ => by omega
  refine .opt hcabac ?_ fun hrest _ => .cons reads_fieldUe hrest
  rw [when_append_when (by simp; omega)]
  refine .cons reads_fieldSe <| .opt (by simp) ?_ fun hrest _ => ?_
  · refine .opt_last (by simp) (fun _ => ?_) fun _ => .refl
    refine .cons reads_fieldUe <| .opt_last (by simp) (fun _ => ?_) fun _ => .refl
    exact .cons reads_fieldSe <| .cons reads_fieldSe .refl
  · rw [List.append_assoc]
    exact .opt (by simp) (.cons reads_fieldSe hrest) fun hrest _ => .cons reads_fieldU hrest

/-- The width of slice_group_change_cycle (R200). -/
theorem changeCycleWidth_eq {v : Nat} (h : isChangeCycleWidth S P v) : changeCycleWidth S P = v := by
  obtain ⟨hreach, hleast⟩ := h
  refine leastShift_eq (Nat.zero_le _) ?_ hreach hleast
  by_contra hlarge
  have hpic : (S.picWidthInMbsMinus1.toNat + 1) * (S.picHeightInMapUnitsMinus1.toNat + 1) ≤ 2 ^ 64 * 2 ^ 64 :=
    Nat.mul_le_mul S.picWidthInMbsMinus1.isLt S.picHeightInMapUnitsMinus1.isLt
  have h130 := hleast 130 (by omega)
  omega

theorem reads_sliceChangeCycle
    (hx : hasChangeCycle P = true → isChangeCycleWidth S P x.changeCycleWidth ∧ x.changeCycleWidth ≤ 32) :
    Reads F (sliceChangeCycle S P)
      (when (hasChangeCycle P) [eu Field.sliceGroupChangeCycle x.changeCycleWidth x.changeCycle]) () := by
  have hiff : hasChangeCycle P = true ↔
      0 < P.numSliceGroupsMinus1.toNat ∧ 3 ≤ P.sliceGroupMapType.toNat ∧ P.sliceGroupMapType.toNat ≤ 5 := by
    simp [hasChangeCycle]
  refine .opt_last hiff (fun hcycle => ?_) fun _ => .refl
  obtain ⟨hwidth, hle⟩ := hx (hiff.mpr hcycle)
  rw [changeCycleWidth_eq hwidth, if_neg (by omega)]
  exact .cons reads_fieldU .refl

/-- A width of slice_group_change_cycle above 32 (R200). -/
theorem sliceChangeCycle_raises (hcycle : hasChangeCycle P = true) (hwidth : isChangeCycleWidth S P x.changeCycleWidth)
    (hx : 32 < x.changeCycleWidth) : ReadsThen F (sliceChangeCycle S P) [] (raise .malformed) := by
  unfold sliceChangeCycle
  rw [if_pos (by simpa [hasChangeCycle] using hcycle), changeCycleWidth_eq hwidth, if_pos hx]
  exact .refl

/-- The elements of the slice header before slice_group_change_cycle (R191 to R199), grouped as the parser reads them. -/
def sliceFrontElems (x : SliceSyntax) (S : SpsPart) (P : PpsPart) (nri t : Nat) : List Elem :=
  [eg Field.firstMbInSlice x.firstMb, eg Field.sliceType x.sliceType, .derived Field.sliceTypeClass x.cls,
    eg Field.slicePicParameterSetId x.ppsId] ++
  ((when (S.separateColourPlaneFlag = 1) [eu Field.colourPlaneId 2 x.colourPlane] ++
    (eu Field.frameNum S.log2MaxFrameNum.toNat x.frameNum ::
      when (S.frameMbsOnlyFlag = 0)
        (eu Field.fieldPicFlag 1 x.fieldPic :: when (x.fieldPic = 1) [eu Field.bottomFieldFlag 1 x.bottomField]))) ++
  ((when (t = 5) [eg Field.idrPicId x.idrPicId] ++
    (when (S.picOrderCntType = 0)
      ([eu Field.picOrderCntLsb S.log2MaxPicOrderCntLsb.toNat x.pocLsb] ++
        when (P.bottomFieldPicOrderInFramePresentFlag = 1 ∧ x.field S = 0)
          [eg Field.deltaPicOrderCntBottom x.deltaPocBottom]) ++
    (when (S.picOrderCntType = 1 ∧ S.deltaPicOrderAlwaysZeroFlag = 0)
      ([.ue Field.deltaPicOrderCnt x.deltaPoc0 0] ++
        when (P.bottomFieldPicOrderInFramePresentFlag = 1 ∧ x.field S = 0)
          [.ue Field.deltaPicOrderCnt x.deltaPoc1 1]) ++
    when (P.redundantPicCntPresentFlag = 1) [eg Field.redundantPicCnt x.redundantPicCnt]))) ++
  ((when (x.cls = 1) [eu Field.directSpatialMvPredFlag 1 x.directSpatial] ++
    when (x.cls ∈ [0, 1, 3])
      (eu Field.numRefIdxActiveOverrideFlag 1 x.override ::
        when (x.override = 1)
          (eg Field.numRefIdxL0ActiveMinus1 x.numRefIdxL0 ::
            when (x.cls = 1) [eg Field.numRefIdxL1ActiveMinus1 x.numRefIdxL1]))) ++
  ((when (x.cls ∈ [0, 1, 3]) (listModElems 0 x.modFlag0 x.mods0) ++
    when (x.cls = 1) (listModElems 1 x.modFlag1 x.mods1)) ++
  (when (hasWeightTable P x.cls) (x.weightElems S) ++
  (when (nri ≠ 0) (x.markingElems t) ++
  (when (P.entropyCodingModeFlag = 1 ∧ x.cls ∈ [0, 1, 3]) [eg Field.cabacInitIdc x.cabacInit] ++
    (eg Field.sliceQpDelta x.qpDelta ::
    (when (x.cls = 3) [eu Field.spForSwitchFlag 1 x.spSwitch] ++
    (when (x.cls ∈ [3, 4]) [eg Field.sliceQsDelta x.qsDelta] ++
    when (P.deblockingFilterControlPresentFlag = 1)
      ([eg Field.disableDeblockingFilterIdc x.deblockingIdc] ++
        when (x.deblockingIdc ≠ 1)
          [eg Field.sliceAlphaC0OffsetDiv2 x.alphaOffset, eg Field.sliceBetaOffsetDiv2 x.betaOffset])))))))))))

/-- The elements of a slice header, part by part. -/
theorem sliceSyntax_elems_eq (x : SliceSyntax) (S : SpsPart) (P : PpsPart) (nri t : Nat) :
    x.elems S P nri t = sliceFrontElems x S P nri t ++
      when (hasChangeCycle P) [eu Field.sliceGroupChangeCycle x.changeCycleWidth x.changeCycle] := by
  unfold SliceSyntax.elems sliceFrontElems
  by_cases hP : x.cls ∈ [0, 1, 3]
  · simp only [hP, decide_true, when, if_true, List.append_assoc, List.cons_append, List.nil_append]
  · have hB : x.cls ≠ 1 := fun h => hP (by simp [h])
    simp only [hP, hB, decide_false, when, Bool.false_eq_true, if_false, List.append_assoc, List.cons_append,
      List.nil_append]

/-- The lists of the weight table have the lengths their counts say (R197). -/
theorem weights_length (hx : x.listsFit P) (htable : hasWeightTable P x.cls = true) :
    x.weights0.length =
        (if x.cls ∈ [0, 1, 3] ∧ x.override = 1 then x.numRefIdxL0 else P.numRefIdxL0DefaultActiveMinus1.toNat) + 1 ∧
      (x.cls = 1 → x.weights1.length =
        (if x.cls = 1 ∧ x.override = 1 then x.numRefIdxL1 else P.numRefIdxL1DefaultActiveMinus1.toNat) + 1) := by
  obtain ⟨-, -, hweights⟩ := hx
  obtain ⟨h0, h1⟩ := hweights htable
  have hcls : x.cls ∈ [0, 1, 3] := by
    have := (hasWeightTable_iff x.cls).mp htable
    simp
    tauto
  exact ⟨by simp [h0, hcls], fun hc => by simp [h1 hc, hc]⟩

/-- The parts of a slice header after the parse-order check (R191 to R200). -/
theorem sliceHeader_of_valid {c : Ctx H264State} (hs : c.env.spsValid = true) (hp : c.env.ppsValid = true)
    {nri t : Nat} {l : List Elem} {k : Parse H264State Unit}
    (h : ReadsThen F (do
      let cls ← sliceStart
      let field ← sliceFrame c.env.sps
      slicePoc c.env.sps c.env.pps t field
      let (n0, n1) ← sliceRefIdx c.env.pps cls
      sliceRplm cls
      slicePredWeight c.env.sps c.env.pps cls n0 n1
      sliceMarking nri t
      sliceQp c.env.pps cls
      sliceChangeCycle c.env.sps c.env.pps) l k) : ReadsAt F c (sliceHeader nri t) l k := by
  refine ReadsAt.of_run (getEnv_run c) ?_
  rw [if_pos ⟨hs, hp⟩]
  exact h c

/-- Everything a slice header reads before slice_group_change_cycle (R191 to R199). -/
theorem readsAt_sliceHeader_front {c : Ctx H264State} (hs : c.env.spsValid = true) (hp : c.env.ppsValid = true)
    {nri t : Nat} (htype : x.sliceType ≤ 9) (hlists : x.listsFit c.env.pps) {l : List Elem} {k : Parse H264State Unit}
    (hcycle : ReadsThen F (sliceChangeCycle c.env.sps c.env.pps) l k) :
    ReadsAt F c (sliceHeader nri t) (sliceFrontElems x c.env.sps c.env.pps nri t ++ l) k := by
  have hweights := weights_length hlists
  obtain ⟨hmods, hmmcos, -⟩ := hlists
  obtain ⟨hmods0, hmods1⟩ := List.forall_mem_append.mp hmods
  refine sliceHeader_of_valid hs hp ?_
  refine .congr (.append (reads_sliceStart htype) <| .append (reads_sliceFrame (x := x)) <|
    .append (reads_slicePoc (x := x) t) <| .append (reads_sliceRefIdx (x := x)) <| .append (reads_sliceRplm hmods0 hmods1) <|
    .append (reads_slicePredWeight (fun h => (hweights h).1) fun h => (hweights h).2) <|
    .append (reads_sliceMarking hmmcos nri t) <| .append (reads_sliceQp (x := x)) hcycle) ?_ rfl
  simp only [sliceFrontElems, List.append_assoc]

/-- A slice header reads its elements (R190 to R200). -/
theorem readsAt_sliceHeader {c : Ctx H264State} (hs : c.env.spsValid = true) (hp : c.env.ppsValid = true)
    {nri t : Nat} (hx : x.fits c.env.sps c.env.pps nri t) :
    ReadsAt F c (sliceHeader nri t) (x.elems c.env.sps c.env.pps nri t) (pure ()) := by
  obtain ⟨-, htype, hlists, hcycle⟩ := hx
  rw [sliceSyntax_elems_eq]
  exact readsAt_sliceHeader_front hs hp htype hlists (reads_sliceChangeCycle hcycle)

/-- A slice header whose slice_type is above 9 (R191). -/
theorem sliceHeader_raises_of_type {c : Ctx H264State} (hs : c.env.spsValid = true) (hp : c.env.ppsValid = true)
    {nri t : Nat} (htype : 9 < x.sliceType) :
    ReadsAt F c (sliceHeader nri t) ((x.elems c.env.sps c.env.pps nri t).take 2) (raise .malformed) := by
  have htake : (x.elems c.env.sps c.env.pps nri t).take 2 =
      [eg Field.firstMbInSlice x.firstMb, eg Field.sliceType x.sliceType] := by
    rw [sliceSyntax_elems_eq]; rfl
  rw [htake]
  exact sliceHeader_of_valid hs hp (sliceStart_raises htype).bind_raise

/-- A slice header whose slice_group_change_cycle is wider than 32 bits (R200). -/
theorem sliceHeader_raises_of_width {c : Ctx H264State} (hs : c.env.spsValid = true) (hp : c.env.ppsValid = true)
    {nri t : Nat} (htype : x.sliceType ≤ 9) (hlists : x.listsFit c.env.pps) (hcycle : hasChangeCycle c.env.pps = true)
    (hwidth : isChangeCycleWidth c.env.sps c.env.pps x.changeCycleWidth) (hlarge : 32 < x.changeCycleWidth) :
    ReadsAt F c (sliceHeader nri t) (x.elems c.env.sps c.env.pps nri t).dropLast (raise .malformed) := by
  have hdrop : (x.elems c.env.sps c.env.pps nri t).dropLast = sliceFrontElems x c.env.sps c.env.pps nri t ++ [] := by
    rw [sliceSyntax_elems_eq, hcycle, List.append_nil]
    exact List.dropLast_concat
  rw [hdrop]
  exact readsAt_sliceHeader_front hs hp htype hlists (sliceChangeCycle_raises hcycle hwidth hlarge)

end

end Sys2Proof.Machine
end

section
/-! The H.264 commands down to the procedure that parses a body (spec/41_h264.md R160 to R168): `RunsBody` names that
point, and every statement about a parameter set or a slice header starts from it. -/

namespace Sys2Proof.Machine

open Sys2Proof.Safety

/-! ## Runs of the command procedures -/

/-- What follows the header of a NAL unit of `n` bytes (R167). -/
def nalDispatch (n nri t : Nat) : Parse H264State Unit :=
  if t = 7 then spsProc
  else if t = 8 then ppsProc
  else if t = 1 ∨ t = 5 then markKeyframe t >>= fun _ => sliceHeader nri t
  else emit Field.nalLength n >>= fun _ => emit Field.notDecoded Region.opaqueNal.code

theorem parseNal_run (epb : Bool) (B : List Byte) (c : Ctx H264State) :
    parseNal epb B c = nalDispatch B.length (byteAt B 0 / 32 % 4) (byteAt B 0 % 32)
      { c.addRecs (nalHeaderRecs c.unit (byteAt B 0)) with rd := Reader.ofBytes (rbsp epb B) } := by
  rw [parseNal, Parse.bind_ok (nalHeader_run (byteAt_lt B 0) c)]
  rfl

/-- What follows the header byte of a payload (R160). -/
def payloadDispatch (epb : Bool) (S : List Byte) (nri t : Nat) : Parse H264State Unit :=
  if t = 24 then stapA epb S else if t = 28 then fuA epb S nri else opaqueSingle S

theorem h264PayloadProc_run {epb : Bool} {S : List Byte} (hS : 0 < S.length) (env : H264State) :
    h264PayloadProc epb S (Ctx.start env) = payloadDispatch epb S (byteAt S 0 / 32 % 4) (byteAt S 0 % 32)
      ((Ctx.start env).addRecs (videoRec :: nalHeaderRecs 0 (byteAt S 0))) := by
  rw [h264PayloadProc, if_neg (by omega), Parse.bind_ok (emit_eq _ _ _ _ _ _),
    Parse.bind_ok (nalHeader_run (byteAt_lt S 0) _), Ctx.addRecs_addRecs]
  rfl

theorem h264NalProc_run {epb : Bool} {B : List Byte} (hB : 0 < B.length) (env : H264State) :
    h264NalProc epb B (Ctx.start env) = parseNal epb B ((Ctx.start env).addRecs [videoRec]) := by
  rw [h264NalProc, if_neg (by omega), Parse.bind_ok (emit_eq _ _ _ _ _ _)]
  rfl

/-- What follows the five FU records (R164). -/
def fuDispatch (epb : Bool) (S : List Byte) (nri fh : Nat) : Parse H264State Unit :=
  if fh / 128 = 1 ∧ (fh % 32 = 1 ∨ fh % 32 = 5) then
    markKeyframe (fh % 32) >>= fun _ => setReader (Reader.ofBytes (nalBody epb (S.drop 2))) >>= fun _ =>
      sliceHeader nri (fh % 32)
  else emit Field.notDecoded Region.fuaFragment.code

theorem fuA_run {epb : Bool} {S : List Byte} {nri : Nat} {c : Ctx H264State} (hS : 1 < S.length) (hc : c.unit = 0) :
    fuA epb S nri c = fuDispatch epb S nri (byteAt S 1) (c.addRecs (fuRecs (byteAt S 1) S.length)) := by
  have hlt := byteAt_lt S 1
  have h7 : fieldOf (byteAt S 1) 7 7 = byteAt S 1 / 128 := by unfold fieldOf; norm_num; omega
  have h6 : fieldOf (byteAt S 1) 6 6 = byteAt S 1 / 64 % 2 := by unfold fieldOf; norm_num
  have h5 : fieldOf (byteAt S 1) 5 5 = byteAt S 1 / 32 % 2 := by unfold fieldOf; norm_num
  have h0 : fieldOf (byteAt S 1) 4 0 = byteAt S 1 % 32 := by unfold fieldOf; norm_num
  rw [fuA, if_neg (by omega), h7, h6, h5, h0]
  iterate 5 rw [Parse.bind_ok (emit_eq _ _ _ _ _ _)]
  simp only [Ctx.addRecs_addRecs, Ctx.addRecs_unit, hc]
  rfl

/-! ## From a command to the body it parses -/

/-- The context in which a body is parsed: after the records `start` at unit 0. -/
def bodyCtx (env : H264State) (start : List Record) (body : List Byte) : Ctx H264State :=
  { env := env, rd := Reader.ofBytes body, unit := 0, recs := start }

/-- The command `i` comes down to the procedure `p` on `body`, after the records `start`. -/
def RunsBody (s : State) (i : Instr) (p : Parse H264State Unit) (start : List Record) (body : List Byte) : Prop :=
  exec i s = .next (runParser i.opcode s s.h264 State.withH264 fun _ => p (bodyCtx s.h264 start body))

variable {s : State} {len : Half} {i : Instr} {p : Parse H264State Unit} {start : List Record} {body : List Byte}

theorem RunsBody.ok (h : RunsBody s i p start body) {c : Ctx H264State} (hp : p (bodyCtx s.h264 start body) = .ok () c) :
    exec i s = .next (finished (s.withH264 c.env) i.opcode 0 c.recs) :=
  h.trans (congrArg _ (runParser_finished (p := fun _ => p (bodyCtx s.h264 start body)) hp))

theorem RunsBody.raised (h : RunsBody s i p start body) {c : Ctx H264State} {st : Status}
    (hp : p (bodyCtx s.h264 start body) = .error st c) (hst : st ≠ .ok) :
    exec i s = .next (finished (s.withH264 c.env) i.opcode st.code (c.recs ++ [errRec st.code])) :=
  h.trans (congrArg _ (runParser_raised (p := fun _ => p (bodyCtx s.h264 start body)) hp hst))

/-- A parser command depends on its procedure's run alone (R362). -/
theorem runParser_congr {σ : Type} {opc : Byte} {env : σ} {put : State → σ → State} {p q : Parse σ Unit}
    (h : p (Ctx.start env) = q (Ctx.start env)) : runParser opc s env put p = runParser opc s env put q := by
  rw [runParser, h, runParser]

theorem exec_h264Nal (s : State) (len : Half) :
    exec (.h264Nal len) s = .next (runParser (Instr.h264Nal len).opcode s s.h264 State.withH264
      (h264NalProc s.cfg.epbStrip (inputBytes s len))) := by
  rw [← State.input_eq]; rfl

theorem exec_h264Payload (s : State) (len : Half) :
    exec (.h264Payload len) s = .next (runParser (Instr.h264Payload len).opcode s s.h264 State.withH264
      (h264PayloadProc s.cfg.epbStrip (inputBytes s len))) := by
  rw [← State.input_eq]; rfl

/-- H264_NAL on a unit (R166, R167). -/
theorem runsBody_nal (hlen : 0 < len.toNat) :
    RunsBody s (.h264Nal len)
      (nalDispatch len.toNat (byteAt (inputBytes s len) 0 / 32 % 4) (byteAt (inputBytes s len) 0 % 32))
      (videoRec :: nalHeaderRecs 0 (byteAt (inputBytes s len) 0)) (nalBody s.cfg.epbStrip ((inputBytes s len).drop 1)) := by
  have hB : 0 < (inputBytes s len).length := by rwa [inputBytes_length]
  have hrun := h264NalProc_run (epb := s.cfg.epbStrip) hB s.h264
  rw [parseNal_run, inputBytes_length] at hrun
  rw [RunsBody, exec_h264Nal]
  exact congrArg _ (runParser_congr hrun)

/-- H264_PAYLOAD on the first fragment of a slice (R160, R164). -/
theorem runsBody_fragment {t : Nat} (hlen : 1 < len.toNat) (h28 : byteAt (inputBytes s len) 0 % 32 = 28)
    (hstart : byteAt (inputBytes s len) 1 / 128 = 1) (ht : byteAt (inputBytes s len) 1 % 32 = t) (hs : t ∈ [1, 5]) :
    RunsBody s (.h264Payload len) (sliceHeader (byteAt (inputBytes s len) 0 / 32 % 4) t)
      (videoRec :: nalHeaderRecs 0 (byteAt (inputBytes s len) 0) ++ fuRecs (byteAt (inputBytes s len) 1) len.toNat ++
        keyframeRecs t)
      (nalBody s.cfg.epbStrip ((inputBytes s len).drop 2)) := by
  have hS : 1 < (inputBytes s len).length := by rwa [inputBytes_length]
  have hrun := h264PayloadProc_run (epb := s.cfg.epbStrip) (Nat.lt_of_succ_lt hS) s.h264
  rw [h28, payloadDispatch, if_neg (by decide), if_pos rfl, fuA_run hS rfl, fuDispatch,
    if_pos ⟨hstart, by simpa [ht] using hs⟩, ht, Parse.bind_ok (markKeyframe_run t _ rfl),
    Parse.bind_ok (setReader_run _ _), inputBytes_length] at hrun
  rw [RunsBody, exec_h264Payload]
  exact congrArg _ (runParser_congr (hrun.trans (by simp only [Ctx.addRecs_addRecs]; rfl)))

/-- A slice header of a unit or of a first fragment is parsed after its records (R167, R168, R164). -/
theorem runsBody_slice {t nri : Nat} (h : SliceInput s len t nri i start body) :
    RunsBody s i (sliceHeader nri t) start body := by
  cases h with
  | unit h hh hlen ht hs hn =>
    subst hh ht hn
    have hrun := runsBody_nal (s := s) hlen
    have h15 : byteAt (inputBytes s len) 0 % 32 = 1 ∨ byteAt (inputBytes s len) 0 % 32 = 5 := by simpa using hs
    rw [nalDispatch, if_neg (by omega), if_neg (by omega), if_pos h15] at hrun
    exact hrun.trans (congrArg _ (runParser_congr (Parse.bind_ok (markKeyframe_run _ _ rfl))))
  | fragment h fh hh hf hlen h28 hstart ht hs hn =>
    subst hh hf hn
    exact runsBody_fragment hlen h28 hstart ht hs

/-! ## Bodies that carry their elements -/

/-- The body carries the elements: the command records them and goes on as `k`. -/
theorem RunsBody.of_elems {F : ReadFail} {elems : List Elem} {k : Parse H264State Unit} (h : RunsBody s i p start body)
    (hp : ReadsAt F (bodyCtx s.h264 start body) p elems k) (hfit : ∀ e ∈ elems, e.fits)
    (hbits : BitsAt body (8 * body.length) 0 (elemBits elems)) :
    RunsBody s i (fun _ => k ((bodyCtx s.h264 start body).read elems)) start body := by
  unfold RunsBody
  rw [h, hp.1 (elemsAt_ofBytes hfit hbits)]

/-- The body fails inside an element: the command raises after the records of those before, and commits nothing. -/
theorem RunsBody.of_failure {F : ReadFail} {elems front back : List Elem} {e : Elem} {k : Parse H264State Unit}
    (h : RunsBody s i p start body) (hp : ReadsAt F (bodyCtx s.h264 start body) p elems k)
    (hl : elems = front ++ e :: back) (hfront : ElemsAt (Reader.ofBytes body) front)
    (hfail : FailsAt F ((Reader.ofBytes body).skip (elemBits front).length) e) :
    exec i s = .next (finished s i.opcode F.status.code (start ++ front.map Elem.record ++ [errRec F.status.code])) :=
  h.raised (hp.2 front e back hl hfront hfail) (by cases F <;> nofun)

theorem reads_spsProc {F : ReadFail} {x : SpsSyntax} (hx : x.fits) : ReadsThen F spsProc x.elems (spsCommit x.part) := by
  obtain ⟨-, hscaling, hlog, hpoc⟩ := hx
  exact .last (reads_spsFields hscaling hlog hpoc) .refl

/-- A sequence whose first part reads, and goes on. -/
theorem ReadsThen.bind_after {σ α β : Type} {F : ReadFail} {q k : Parse σ α} {f : α → Parse σ β} {l : List Elem}
    (hq : ReadsThen F q l k) : ReadsThen F (q >>= f) l (k >>= f) :=
  fun c => ⟨fun h => by rw [Parse.bind_run, Parse.bind_run, (hq c).1 h],
    fun front e back hl h hfail => Parse.bind_error ((hq c).2 front e back hl h hfail)⟩

/-- A PPS after an SPS, up to the extension tag (R181 to R185). -/
theorem readsAt_ppsProc {F : ReadFail} {c : Ctx H264State} {x : PpsSyntax} (hs : c.env.spsValid = true) (hx : x.fits) :
    ReadsAt F c ppsProc x.elems ((ppsExtension >>= fun _ => pure x.part) >>= ppsCommit) := by
  refine ReadsAt.of_run (getEnv_run c) ?_
  rw [if_pos hs]
  exact (reads_ppsFields hx).bind_after c

/-- Every input of `SyntaxInput` is read by some procedure. -/
theorem exists_readsAt_of_syntaxInput {elems : List Elem} (h : SyntaxInput s len i start body elems) :
    ∃ p, RunsBody s i p start body ∧ (∀ e ∈ elems, e.fits) ∧
      ∀ F, ∃ k, ReadsAt F (bodyCtx s.h264 start body) p elems k := by
  cases h with
  | sps h x hh hlen ht hx =>
    subst hh
    have hrun := runsBody_nal (s := s) hlen
    rw [ht, nalDispatch, if_pos rfl] at hrun
    exact ⟨_, hrun, hx.1, fun F => ⟨_, reads_spsProc hx _⟩⟩
  | pps h x hh hlen ht hs hx =>
    subst hh
    have hrun := runsBody_nal (s := s) hlen
    rw [ht, nalDispatch, if_neg (by decide), if_pos rfl] at hrun
    exact ⟨_, hrun, hx.1, fun F => ⟨_, readsAt_ppsProc hs hx⟩⟩
  | slice t nri x i start body hi hs hp hx =>
    exact ⟨_, runsBody_slice hi, hx.1, fun F => ⟨_, readsAt_sliceHeader hs hp hx⟩⟩

end Sys2Proof.Machine
end

section
/-! The statements about H264_NAL and H264_PAYLOAD on one unit or fragment (spec/41_h264.md). -/

namespace Sys2Proof.Machine

open Sys2Proof.Safety

variable {s : State} {len : Half}

/-! ## What is read back -/

/-- Settles O30: the SPS parser reads the elements and commits their part. -/
theorem spsReadsBack : Obligations.SpsReadsBack := by
  intro s len x hlen ht hx hbits
  have hrun := runsBody_nal (s := s) hlen
  rw [ht, nalDispatch, if_pos rfl] at hrun
  exact (hrun.of_elems (reads_spsProc (F := .oob) hx _) hx.1 hbits).ok rfl

/-- The extension tag, and which one it is (R184). -/
theorem ppsExtension_run (c : Ctx H264State) (hc : c.unit = 0) :
    ∃ ext, ppsExtension c = .ok () (c.addRecs ext) ∧
      (ext = [mkRec Field.notDecoded 6] ∧ (∃ q, c.rd.pos < q ∧ q < c.rd.len ∧ streamBit c.rd.data q = true) ∨
        ext = [] ∧ ∀ q, c.rd.pos < q → q < c.rd.len → streamBit c.rd.data q = false) := by
  rw [ppsExtension, Parse.bind_ok (getReader_run c)]
  by_cases h : c.rd.moreRbspData = true
  · refine ⟨[mkRec Field.notDecoded 6], ?_, .inl ⟨rfl, moreRbspData_eq_true.mp h⟩⟩
    rw [if_pos h, emit_eq, hc]
    rfl
  · refine ⟨[], by rw [if_neg h, Ctx.addRecs_nil, Parse.pure_run], .inr ⟨rfl, fun q hq hlt => ?_⟩⟩
    rw [moreRbspData_eq_true, not_exists] at h
    have := h q
    simp_all

/-- Settles O31: the PPS parser reads the elements, then tests for more data, and commits their part. -/
theorem ppsReadsBack : Obligations.PpsReadsBack := by
  intro s len x hlen ht hs hx hbits
  have hrun := runsBody_nal (s := s) hlen
  rw [ht, nalDispatch, if_neg (by decide), if_pos rfl] at hrun
  have hread := hrun.of_elems (readsAt_ppsProc (F := .oob) hs hx) hx.1 hbits
  obtain ⟨ext, hext, hcases⟩ := ppsExtension_run
    ((bodyCtx s.h264 (videoRec :: nalHeaderRecs 0 (byteAt (inputBytes s len) 0))
      (nalBody s.cfg.epbStrip ((inputBytes s len).drop 1))).read x.elems) rfl
  have hcommit := Parse.bind_ok (f := ppsCommit) ((Parse.bind_ok (f := fun _ => pure x.part) hext).trans (Parse.pure_run _ _))
  exact ⟨ext, hread.ok hcommit, by simpa [bodyCtx] using hcases⟩

/-- Settles O32: the slice header parser reads the elements that the stored parameter sets call for. -/
theorem sliceHeaderReadsBack : Obligations.SliceHeaderReadsBack := by
  intro s len x t nri hs hp ht hx hn
  have hread {i : Instr} {start : List Record} {body : List Byte} (hi : SliceInput s len t nri i start body)
      (hbits : BitsAt body (8 * body.length) 0 (elemBits (x.elems s.h264.sps s.h264.pps nri t))) :
      exec i s = .next (finished s i.opcode 0 (start ++ (x.elems s.h264.sps s.h264.pps nri t).map Elem.record)) :=
    ((runsBody_slice hi).of_elems (readsAt_sliceHeader (F := .oob) hs hp hx) hx.1 hbits).ok rfl
  exact ⟨fun hlen h0 => hread (.unit _ rfl hlen h0 ht hn),
    fun hlen h28 hstart h1 => hread (.fragment _ _ rfl rfl hlen h28 hstart h1 ht hn)⟩

/-! ## What fails -/

/-- A body that carries its elements up to a raise. -/
theorem RunsBody.of_raise {i : Instr} {p : Parse H264State Unit} {start : List Record} {body : List Byte}
    {l : List Elem} {st : Status} (h : RunsBody s i p start body)
    (hp : ReadsAt .oob (bodyCtx s.h264 start body) p l (raise st)) (hst : st ≠ .ok) (hfit : ∀ e ∈ l, e.fits)
    (hbits : BitsAt body (8 * body.length) 0 (elemBits l)) :
    exec i s = .next (finished s i.opcode st.code (start ++ l.map Elem.record ++ [errRec st.code])) :=
  (h.of_elems hp hfit hbits).raised rfl hst

theorem spsProc_raises {F : ReadFail} {l : List Elem} {st : Status} (h : ReadsThen F spsFields l (raise st)) :
    ReadsThen F spsProc l (raise st) := by
  rw [spsProc]
  exact h.bind_raise

/-- Settles O33: each of the four checks raises as soon as its element is read. -/
theorem h264RangeChecks : Obligations.H264RangeChecks := by
  refine fun s len => ⟨fun x front back f v body hlen hbody ht hscaling hx hv hf hfit hbits => ?_,
    fun x t nri i start body l hi hs hp hl hfit hbits => ?_⟩
  · subst hbody
    have hrun := runsBody_nal (s := s) hlen
    rw [ht, nalDispatch, if_pos rfl] at hrun
    have hraise : ReadsThen .oob spsFields (front ++ [eg f v]) (raise .malformed) := by
      obtain rfl | ⟨rfl, hlog⟩ := hf
      · exact spsFields_raises_of_frameNum hscaling hx hv
      · exact spsFields_raises_of_pocLsb hscaling hlog hx hv
    exact hrun.of_raise (spsProc_raises hraise _) nofun hfit hbits
  · have hrun := runsBody_slice hi
    have hraise : ReadsAt .oob (bodyCtx s.h264 start body) (sliceHeader nri t) l (raise .malformed) := by
      obtain ⟨htype, hl⟩ | ⟨htype, hlists, hcycle, hwidth, hlarge, hl⟩ := hl
      · rw [hl]
        exact sliceHeader_raises_of_type hs hp htype
      · rw [hl]
        exact sliceHeader_raises_of_width hs hp htype hlists hcycle hwidth hlarge
    exact hrun.of_raise hraise nofun hfit hbits

/-- Settles O35: an Exp-Golomb element with 64 zeros fails, and a procedure that reads it raises there. -/
theorem h264LongCodesFail : Obligations.H264LongCodesFail := by
  intro s len i start body elems front code hinput hlong
  obtain ⟨p, hrun, hfit, hread⟩ := exists_readsAt_of_syntaxInput hinput
  obtain ⟨F, e, back, rfl, hl, hfront, hfail⟩ := failsAt_of_longCodeAfter hfit hlong
  obtain ⟨k, hk⟩ := hread F
  exact hrun.of_failure hk hl hfront hfail

/-- The H.264 part of O34: a body that ends inside an element (R127). -/
theorem exec_of_cutAfter {i : Instr} {start : List Record} {body : List Byte} {elems front : List Elem}
    (hinput : SyntaxInput s len i start body elems) (hcut : CutAfter body elems front) :
    exec i s = .next (finished s i.opcode 2 (start ++ front.map Elem.record ++ [errRec 2])) := by
  obtain ⟨p, hrun, hfit, hread⟩ := exists_readsAt_of_syntaxInput hinput
  obtain ⟨e, back, hl, hfront, hfail⟩ := failsAt_of_cutAfter hfit hcut
  obtain ⟨k, hk⟩ := hread .oob
  exact hrun.of_failure hk hl hfront hfail

/-- A PPS before any SPS (R180). -/
theorem ppsProc_of_invalid {c : Ctx H264State} (h : c.env.spsValid = false) : ppsProc c = .error .outOfOrderState c := by
  rw [ppsProc, Parse.bind_ok (getEnv_run c), if_neg (by simp [h]), raise_run]

/-- A slice before both parameter sets (R190). -/
theorem sliceHeader_of_invalid {c : Ctx H264State} {nri t : Nat} (h : c.env.spsValid = false ∨ c.env.ppsValid = false) :
    sliceHeader nri t c = .error .outOfOrderState c := by
  rw [sliceHeader, Parse.bind_ok (getEnv_run c), if_neg (by simpa [or_iff_not_imp_left] using h), raise_run]

/-- Settles O29: both parsers test the validity bits before they read a bit. -/
theorem h264ParseOrder : Obligations.H264ParseOrder := by
  refine fun s len hvalid => ⟨fun hlen ht hs => ?_, fun t nri i start body hi => ?_⟩
  · have hrun := runsBody_nal (s := s) hlen
    rw [ht, nalDispatch, if_neg (by decide), if_pos rfl] at hrun
    exact hrun.raised (ppsProc_of_invalid hs) nofun
  · exact (runsBody_slice hi).raised (sliceHeader_of_invalid hvalid) nofun

/-! ## Units and fragments that are not parsed -/

/-- Settles O28: neither dispatch finds a parser. -/
theorem h264OpaqueUnits : Obligations.H264OpaqueUnits := by
  refine fun s len hlen => ⟨fun ht => ?_, fun ht => ?_⟩
  · rw [exec_h264Nal, runParser_finished ((h264NalProc_run (by rwa [inputBytes_length]) _).trans (parseNal_opaque _ ht))]
    rfl
  · simp only [List.mem_cons, List.not_mem_nil, or_false, not_or] at ht
    have hrun := h264PayloadProc_run (epb := s.cfg.epbStrip) (S := inputBytes s len) (by rwa [inputBytes_length]) s.h264
    rw [payloadDispatch, if_neg ht.1, if_neg ht.2, opaqueSingle, Parse.bind_ok (emit_eq _ _ _ _ _ _), emit_eq] at hrun
    rw [exec_h264Payload, runParser_finished hrun]
    simp only [Ctx.addRecs_addRecs]
    rfl

/-- Settles O38: an FU-A is recorded and not parsed. -/
theorem fuAContinuation : Obligations.FuAContinuation := by
  refine fun s len h28 => ⟨fun hlen => ?_, fun hlen hcont => ?_⟩ <;>
    have hrun := h264PayloadProc_run (epb := s.cfg.epbStrip) (S := inputBytes s len)
      (by rw [inputBytes_length]; omega) s.h264 <;>
    rw [h28, payloadDispatch, if_neg (by decide), if_pos rfl] at hrun
  · rw [fuA, if_pos (by rw [inputBytes_length]; omega), raise_run] at hrun
    rw [exec_h264Payload, runParser_raised hrun nofun]
    rfl
  · rw [fuA_run (by rwa [inputBytes_length]) rfl, fuDispatch, if_neg (by simp at hcont; omega), emit_eq,
      inputBytes_length] at hrun
    rw [exec_h264Payload, runParser_finished hrun]
    simp only [Ctx.addRecs_addRecs]
    rfl

/-! ## Commits -/

/-- What one NAL unit of type `t` may do to ParserState, with its outcome (R175, R185, R368). -/
inductive NalCommits (t : Nat) (h : H264State) : Status → H264State → Prop where
  | kept (st : Status) : NalCommits t h st h
  | sps (x : SpsPart) (ht : t = 7) : NalCommits t h .ok { h with sps := x, spsValid := true }
  | pps (x : PpsPart) (ht : t = 8) : NalCommits t h .ok { h with pps := x, ppsValid := true }

/-- A procedure's outcome and the state it leaves are among those of a unit of type `t`. -/
def CommitsAs (t : Nat) (p : Parse H264State Unit) : Prop :=
  ∀ c, (∀ c', p c = .ok () c' → NalCommits t c.env .ok c'.env) ∧
    ∀ st c', p c = .error st c' → NalCommits t c.env st c'.env

theorem commitsAs_of_keeps {t : Nat} {p : Parse H264State Unit} (h : p.Keeps h264Errors fun _ => True) :
    CommitsAs t p := fun c =>
  ⟨fun c' hp => by rw [((h c).1 () c' hp).1]; exact .kept _, fun st c' hp => by rw [((h c).2 st c' hp).1]; exact .kept _⟩

theorem commitsAs_nalDispatch (n nri t : Nat) : CommitsAs t (nalDispatch n nri t) := by
  unfold nalDispatch
  split_ifs with h7 h8 h15
  · refine fun c => ⟨fun c' hp => ?_, fun st c' hp => by rw [spsProc_error hp]; exact .kept _⟩
    obtain h | ⟨x, -, h⟩ := ((does_spsProc c).1 () c' hp).1 <;> rw [h]
    · exact .kept _
    · exact .sps x h7
  · refine fun c => ⟨fun c' hp => ?_, fun st c' hp => by rw [ppsProc_error hp]; exact .kept _⟩
    obtain h | ⟨-, x, h⟩ := ((does_ppsProc c).1 () c' hp).1 <;> rw [h]
    · exact .kept _
    · exact .pps x h8
  · exact commitsAs_of_keeps ((keeps_markKeyframe t).bind fun _ _ => keeps_sliceHeader nri t)
  · exact commitsAs_of_keeps (Parse.Keeps.bind (Q := fun _ => True) (keeps_emit trivial) fun _ _ => keeps_emit trivial)

/-- What H264_NAL may do to ParserState, with its status. -/
theorem exec_h264Nal_commits {t : State} (h : exec (.h264Nal len) s = .next t) :
    ∃ st, t.status = st.code ∧ NalCommits (byteAt (inputBytes s len) 0 % 32) s.h264 st t.h264 := by
  by_cases hlen : 0 < len.toNat
  · have hrun := runsBody_nal (s := s) hlen
    have hcommits := commitsAs_nalDispatch len.toNat (byteAt (inputBytes s len) 0 / 32 % 4)
      (byteAt (inputBytes s len) 0 % 32) (bodyCtx s.h264 (videoRec :: nalHeaderRecs 0 (byteAt (inputBytes s len) 0))
        (nalBody s.cfg.epbStrip ((inputBytes s len).drop 1)))
    rw [hrun] at h
    obtain rfl := Host.Outcome.next.inj h
    unfold runParser
    split <;> rename_i hp
    · exact ⟨.ok, by simp, by simpa [bodyCtx] using hcommits.1 _ hp⟩
    · exact ⟨_, by simp; rfl, by simpa [bodyCtx] using hcommits.2 _ _ hp⟩
  · rw [exec_h264Nal] at h
    obtain rfl := Host.Outcome.next.inj h
    have hrun : h264NalProc s.cfg.epbStrip (inputBytes s len) (Ctx.start s.h264) = .error .truncated (Ctx.start s.h264) := by
      rw [h264NalProc, if_pos (by rw [inputBytes_length]; omega), raise_run]
    rw [runParser_error hrun]
    exact ⟨.truncated, by simp, by simpa [Ctx.start] using NalCommits.kept _⟩

/-- Settles O36: of the three parsers of a unit, only an SPS and a PPS that complete commit, each its own part. -/
theorem parserStateCommitsWhole : Obligations.ParserStateCommitsWhole := by
  intro s t len h
  obtain ⟨st, hst, hcommits⟩ := exec_h264Nal_commits h
  rw [hst]
  generalize t.h264 = h' at hcommits
  cases hcommits with
  | kept => simp
  | sps x ht => simp [ht, Status.code]
  | pps x ht => simp [ht, Status.code]

/-! ## Emulation prevention -/

/-- After the same number of zeros, removal takes back what insertion put in (R136). -/
theorem epbStripFrom_epbInsertFrom (z : Nat) (B : List Byte) : epbStripFrom z (epbInsertFrom z B) = B := by
  induction B generalizing z with
  | nil => rfl
  | cons x rest ih =>
    rw [epbInsertFrom]
    split
    · rename_i h
      rw [epbStripFrom, if_pos ⟨h.1, rfl⟩, epbStripFrom, if_neg (by omega), ih]
    · rename_i h
      have hx : ¬ (z ≥ 2 ∧ x = 0x03) := fun ⟨hz, hx⟩ => h ⟨hz, by rw [hx]; decide⟩
      rw [epbStripFrom, if_neg hx, ih]

/-- Settles O41. -/
theorem epbStripUndoesInsertion : Obligations.EpbStripUndoesInsertion :=
  ⟨epbStripFrom_epbInsertFrom 0, epbStripFrom_length 0⟩

end Sys2Proof.Machine
end

section
/-! The AV1 sequence header reads its elements, part by part (spec/42_av1.md section 3). -/

namespace Sys2Proof.Machine

open Sys2Proof.Safety

/-! ## uvlc -/

theorem reads_fieldUvlc {g : Half} {v : Nat} (hv : v < 2 ^ 32 - 1) :
    Reads .oob (fieldOfRead Reader.uvlc g : Parse Unit Nat) [eg g v] v := by
  refine reads_of_elem (fun c _ hbits => ?_) fun c hfail => fieldOfRead_fails (hfail.2 rfl hv)
  rw [fieldOfRead_ok (Reader.uvlc_at hv hbits)]
  simp [Ctx.read, eg, Elem.bits, Reader.skip, Elem.recordAt, mkRec, Nat.add_assoc]

/-- A `uvlc()` value at its cap: 32 zeros or more (R133). -/
theorem Reader.uvlc_capped {r : Reader} {z : Nat} (hz : 32 ≤ z)
    (h : BitsAt r.data r.len r.pos (List.replicate z false ++ [true])) :
    r.uvlc = .ok (2 ^ 32 - 1, r.skip (z + 1)) := by
  obtain ⟨hzeros, hone⟩ := bitsAt_append.mp h
  have hin := hone.1
  have h1 := hone.2 0 (by simp)
  simp only [List.length_replicate, List.length_singleton, Nat.add_zero] at hin h1
  have hrun : zeroRun r.data r.pos (r.len - r.pos) = z :=
    zeroRun_eq (by omega) (streamBit_of_bitsAt_replicate hzeros) fun _ => h1
  rw [Reader.uvlc, hrun]
  dsimp only
  rw [if_neg (by omega), if_pos (by omega)]
  rfl

theorem reads_fieldUvlc_capped {g : Half} {z : Nat} :
    Reads .oob (fieldOfRead Reader.uvlc g : Parse Unit Nat) [.capped g z] (2 ^ 32 - 1) := by
  refine reads_of_elem (fun c hfit hbits => ?_) fun c hfail => fieldOfRead_fails hfail.2
  rw [fieldOfRead_ok (Reader.uvlc_capped hfit hbits)]
  simp [Ctx.read, Elem.bits, Elem.recordAt, mkRec]

/-! ## The parts of a sequence header -/

variable {x : SeqSyntax}

/-- The values that decide more than one test are flags. -/
structure SeqFlags (x : SeqSyntax) : Prop where
  reduced : x.reduced < 2
  monoChrome : x.profile ≠ 1 → x.monoChrome < 2

theorem seqFlags_of_fits (hx : x.fits) : SeqFlags x := by
  obtain ⟨hfit, -⟩ := hx
  refine ⟨(hfit (eu Field.reducedStillPictureHeader 1 x.reduced) (by simp [SeqSyntax.elems])).2, fun hp => ?_⟩
  exact (hfit (eu Field.monoChrome 1 x.monoChrome) (by simp [SeqSyntax.elems, SeqSyntax.colourElems, when, hp])).2

theorem reads_seqDecoderModelInfo :
    Reads .oob seqDecoderModelInfo
      [eu Field.bufferDelayLengthMinus1 5 x.bufferDelayLength, eu Field.numUnitsInDecodingTick 32 x.unitsDecodingTick,
        eu Field.bufferRemovalTimeLengthMinus1 5 x.removalTimeLength,
        eu Field.framePresentationTimeLengthMinus1 5 x.presentationTimeLength] (x.bufferDelayLength + 1) :=
  .cons reads_fieldU <| .cons reads_fieldU <| .cons reads_fieldU <| .cons reads_fieldU .refl

/-- The element of a ticksPerPicture that is present, at its cap or below (R242, R133). -/
theorem reads_ticksPerPicture (hx : x.ticksPerPicture ≤ 2 ^ 32 - 1) :
    ∃ v, Reads .oob (fieldOfRead Reader.uvlc Field.numTicksPerPictureMinus1 : Parse Unit Nat)
      [if x.ticksPerPicture = 2 ^ 32 - 1 then .capped Field.numTicksPerPictureMinus1 x.ticksZeros
        else eg Field.numTicksPerPictureMinus1 x.ticksPerPicture] v := by
  split
  · exact ⟨_, reads_fieldUvlc_capped⟩
  · exact ⟨_, reads_fieldUvlc (by omega)⟩

/-- The elements of the timing info (R242, R243). -/
def seqTimingElems (x : SeqSyntax) : List Elem :=
  eu Field.timingInfoPresentFlag 1 x.timingInfo ::
    when (x.timingInfo = 1)
      (eu Field.numUnitsInDisplayTick 32 x.unitsDisplayTick :: eu Field.timeScale 32 x.timeScale ::
        eu Field.equalPictureInterval 1 x.equalInterval ::
        (when (x.equalInterval = 1)
          [if x.ticksPerPicture = 2 ^ 32 - 1 then .capped Field.numTicksPerPictureMinus1 x.ticksZeros
            else eg Field.numTicksPerPictureMinus1 x.ticksPerPicture] ++
        (eu Field.decoderModelInfoPresentFlag 1 x.decoderModel ::
          when (x.decoderModel = 1)
            [eu Field.bufferDelayLengthMinus1 5 x.bufferDelayLength,
              eu Field.numUnitsInDecodingTick 32 x.unitsDecodingTick,
              eu Field.bufferRemovalTimeLengthMinus1 5 x.removalTimeLength,
              eu Field.framePresentationTimeLengthMinus1 5 x.presentationTimeLength])))

/-- decoder_model_info_present_flag and the length of the delays, 0 when absent (R242, R243). -/
def seqModelValue (x : SeqSyntax) : Nat × Nat :=
  if x.timingInfo = 1 then (if x.decoderModel = 1 then (1, x.bufferDelayLength + 1) else (0, 0)) else (0, 0)

theorem seqModelValue_fst : (seqModelValue x).1 = 1 ↔ x.dmi = true := by
  unfold seqModelValue SeqSyntax.dmi; split_ifs <;> simp_all

theorem seqModelValue_snd (h : x.dmi = true) : (seqModelValue x).2 = x.bufferDelayLength + 1 := by
  simp only [SeqSyntax.dmi, decide_eq_true_eq] at h
  rw [seqModelValue, if_pos h.1, if_pos h.2]

theorem reads_seqTimingInfo (hx : x.equalInterval = 1 → x.ticksPerPicture ≤ 2 ^ 32 - 1) :
    Reads .oob seqTimingInfo (seqTimingElems x) (seqModelValue x) := by
  refine .cons reads_fieldU <| .opt_value (by simp) (fun _ => ?_) fun _ => .refl
  refine .cons reads_fieldU <| .cons reads_fieldU <| .cons reads_fieldU <| .opt (by simp) ?_ fun hrest heq => ?_
  · refine .cons reads_fieldU <| .opt_value (by simp) (fun _ => ?_) fun _ => .refl
    exact .last reads_seqDecoderModelInfo .refl
  · obtain ⟨v, hv⟩ := reads_ticksPerPicture (hx heq)
    exact .cons hv hrest

theorem reads_seqOperatingPoint {dmi nbd : Nat} (hdmi : dmi = 1 ↔ x.dmi = true)
    (hnbd : x.dmi = true → nbd = x.bufferDelayLength + 1) (i : Nat) (o : SeqOpSyntax) :
    Reads .oob (seqOperatingPoint dmi nbd x.displayDelayPresent i) (o.elems x i) () := by
  unfold SeqOpSyntax.elems
  simp only [List.append_assoc]
  refine .cons reads_fieldU <| .cons reads_fieldU <| .opt (by simp) ?_ fun hrest _ => .cons reads_fieldU hrest
  refine .opt hdmi.symm ?_ fun hrest hmodel => ?_
  · refine .opt_last (by simp) (fun _ => ?_) fun _ => .refl
    exact .cons reads_fieldU <| .opt_last (by simp) (fun _ => .cons reads_fieldU .refl) fun _ => .refl
  · rw [hnbd (hdmi.mp hmodel), List.append_assoc]
    refine .cons reads_fieldU <| .opt (by simp) hrest fun hrest _ => ?_
    exact .cons reads_fieldU <| .cons reads_fieldU <| .cons reads_fieldU hrest

theorem seqOpElems_eq (x : SeqSyntax) :
    x.opElems = seqTimingElems x ++ (eu Field.initialDisplayDelayPresentFlag 1 x.displayDelayPresent ::
      eu Field.operatingPointsCntMinus1 5 (x.ops.length - 1) :: (x.ops.mapIdx (fun i o => o.elems x i)).flatten) := by
  simp only [SeqSyntax.opElems, seqTimingElems, List.append_assoc, List.cons_append, List.nil_append]

theorem reads_seqFullOps (hx : x.equalInterval = 1 → x.ticksPerPicture ≤ 2 ^ 32 - 1) (hops : 1 ≤ x.ops.length) :
    Reads .oob seqFullOps x.opElems () := by
  rw [seqOpElems_eq]
  refine .append (reads_seqTimingInfo hx) <| .cons reads_fieldU <| .cons reads_fieldU ?_
  exact reads_forRange x.ops (by omega) fun i o _ => reads_seqOperatingPoint seqModelValue_fst seqModelValue_snd i o

theorem reads_seqFrameSize :
    Reads .oob seqFrameSize
      [eu Field.frameWidthBitsMinus1 4 x.widthBits, eu Field.frameHeightBitsMinus1 4 x.heightBits,
        eu Field.maxFrameWidthMinus1 (x.widthBits + 1) x.width,
        eu Field.maxFrameHeightMinus1 (x.heightBits + 1) x.height] () :=
  .cons reads_fieldU <| .cons reads_fieldU <| .cons reads_fieldU <| .cons reads_fieldU .refl

theorem reads_seqFrameId :
    Reads .oob (seqFrameId x.reduced)
      (when (x.reduced = 0)
        (eu Field.frameIdNumbersPresentFlag 1 x.frameIds ::
          when (x.frameIds = 1)
            [eu Field.deltaFrameIdLengthMinus2 4 x.deltaFrameId,
              eu Field.additionalFrameIdLengthMinus1 3 x.additionalFrameId])) () := by
  refine .opt_last (by simp) (fun _ => ?_) fun _ => .refl
  exact .cons reads_fieldU <| .opt_last (by simp) (fun _ => .cons reads_fieldU <| .cons reads_fieldU .refl) fun _ => .refl

theorem reads_seqTools :
    Reads .oob (seqTools x.reduced)
      (eu Field.use128x128Superblock 1 x.superblock128 :: eu Field.enableFilterIntra 1 x.filterIntra ::
        eu Field.enableIntraEdgeFilter 1 x.intraEdge ::
        when (x.reduced = 0)
          (eu Field.enableInterintraCompound 1 x.interintra :: eu Field.enableMaskedCompound 1 x.masked ::
            eu Field.enableWarpedMotion 1 x.warped :: eu Field.enableDualFilter 1 x.dualFilter ::
            eu Field.enableOrderHint 1 x.orderHint ::
            when (x.orderHint = 1) [eu Field.enableJntComp 1 x.jntComp, eu Field.enableRefFrameMvs 1 x.refFrameMvs]))
      (if x.reduced = 0 then x.orderHint else 0) := by
  refine .cons reads_fieldU <| .cons reads_fieldU <| .cons reads_fieldU <| .opt_value (by simp) (fun _ => ?_) fun _ => .refl
  refine .cons reads_fieldU <| .cons reads_fieldU <| .cons reads_fieldU <| .cons reads_fieldU <| .cons reads_fieldU ?_
  exact .opt_last (by simp) (fun _ => .cons reads_fieldU <| .cons reads_fieldU .refl) fun _ => .refl

theorem when_of_true {on : Bool} {l : List Elem} (h : on = true) : when on l = l := if_pos h

theorem when_of_false {on : Bool} {l : List Elem} (h : on = false) : when on l = [] := by
  rw [h]; rfl

theorem reads_seqScreenContent {oh : Nat} (hoh : x.reduced = 0 → oh = x.orderHint) :
    Reads .oob (seqScreenContent x.reduced oh)
      (when (x.reduced = 0)
        (eu Field.seqChooseScreenContentTools 1 x.chooseScreen ::
          (when (x.chooseScreen ≠ 1) [eu Field.seqForceScreenContentTools 1 x.forceScreen] ++
          (when x.screen
            (eu Field.seqChooseIntegerMv 1 x.chooseIntegerMv ::
              when (x.chooseIntegerMv = 0) [eu Field.seqForceIntegerMv 1 x.forceIntegerMv]) ++
          when (x.orderHint = 1) [eu Field.orderHintBitsMinus1 3 x.orderHintBits])))) () := by
  refine .opt_last (by simp) (fun hred => ?_) fun _ => .refl
  rw [hoh hred]
  have hforce : Reads .oob (if x.chooseScreen = 1 then pure 2 else fieldU Field.seqForceScreenContentTools 1 : Parse Unit Nat)
      (when (x.chooseScreen ≠ 1) [eu Field.seqForceScreenContentTools 1 x.forceScreen])
      (if x.chooseScreen = 1 then 2 else x.forceScreen) := by
    by_cases h : x.chooseScreen = 1
    · rw [when_of_false (by simpa using h), if_pos h, if_pos h]
      exact .refl
    · rw [when_of_true (by simpa using h), if_neg h, if_neg h]
      exact reads_fieldU
  refine .cons reads_fieldU <| .append hforce <| .opt ?_ ?_ fun hrest _ => ?_
  · unfold SeqSyntax.screen; split <;> simp_all
  · exact .opt_last (by simp) (fun _ => .cons reads_fieldU .refl) fun _ => .refl
  · exact .cons reads_fieldU <| .opt (by simp) hrest fun hrest _ => .cons reads_fieldU hrest

theorem reads_seqFilters :
    Reads .oob seqFilters
      [eu Field.enableSuperres 1 x.superres, eu Field.enableCdef 1 x.cdef, eu Field.enableRestoration 1 x.restoration]
      () :=
  .cons reads_fieldU <| .cons reads_fieldU <| .cons reads_fieldU .refl

/-! ## color_config -/

/-- BitDepth (R250). -/
def seqDepth (x : SeqSyntax) : Nat :=
  if x.profile = 2 ∧ x.highBitdepth = 1 then (if x.twelveBit = 1 then 12 else 10) else if x.highBitdepth = 1 then 10 else 8

theorem seqDepth_eq_twelve : seqDepth x = 12 ↔ x.depth12 = true := by
  unfold seqDepth SeqSyntax.depth12
  split_ifs <;> simp_all

theorem reads_seqBitDepth :
    Reads .oob (seqBitDepth x.profile)
      (eu Field.highBitdepth 1 x.highBitdepth ::
        (when (x.profile = 2 ∧ x.highBitdepth = 1) [eu Field.twelveBit 1 x.twelveBit] ++
        when (x.profile ≠ 1) [eu Field.monoChrome 1 x.monoChrome]))
      (seqDepth x, if x.profile ≠ 1 then x.monoChrome else 0) := by
  refine .cons reads_fieldU <| .append (.opt_value (by simp) (fun _ => .cons reads_fieldU .refl) fun _ => .refl) ?_
  exact .last (.opt_value (by simp) (fun _ => reads_fieldU) fun _ => .refl) .refl

/-- The colour description, 2 where absent (R251). -/
def seqColourValue (x : SeqSyntax) : Nat × Nat × Nat :=
  if x.colourDescription = 1 then (x.primaries, x.transfer, x.matrix) else (2, 2, 2)

theorem seqColourValue_iff :
    (seqColourValue x).1 = 1 ∧ (seqColourValue x).2.1 = 13 ∧ (seqColourValue x).2.2 = 0 ↔ x.srgb = true := by
  unfold seqColourValue SeqSyntax.srgb
  split <;> simp_all

theorem reads_seqColourDescription :
    Reads .oob seqColourDescription
      (eu Field.colorDescriptionPresentFlag 1 x.colourDescription ::
        when (x.colourDescription = 1)
          [eu Field.colorPrimaries 8 x.primaries, eu Field.transferCharacteristics 8 x.transfer,
            eu Field.matrixCoefficients 8 x.matrix])
      (seqColourValue x) := by
  refine .cons reads_fieldU <| .opt_value (by simp) (fun _ => ?_) fun _ => .refl
  exact .cons reads_fieldU <| .cons reads_fieldU <| .cons reads_fieldU .refl

/-- subsampling_x and subsampling_y, read or inferred (R252). -/
def seqSubsamplingValue (x : SeqSyntax) : Nat × Nat :=
  if x.profile = 0 then (1, 1)
  else if x.profile = 1 then (0, 0)
  else if seqDepth x = 12 then (if x.subsamplingX = 1 then (x.subsamplingX, x.subsamplingY) else (x.subsamplingX, 0))
  else (1, 0)

theorem seqSubsamplingValue_iff :
    (seqSubsamplingValue x).1 = 1 ∧ (seqSubsamplingValue x).2 = 1 ↔ x.sub420 = true := by
  unfold seqSubsamplingValue SeqSyntax.sub420
  simp only [seqDepth_eq_twelve]
  split_ifs <;> simp_all

theorem reads_seqSubsampling :
    Reads .oob (seqSubsampling x.profile (seqDepth x))
      (when (x.profile ≠ 0 ∧ x.profile ≠ 1 ∧ x.depth12)
        (eu Field.subsamplingX 1 x.subsamplingX :: when (x.subsamplingX = 1) [eu Field.subsamplingY 1 x.subsamplingY]))
      (seqSubsamplingValue x) := by
  unfold seqSubsampling seqSubsamplingValue
  by_cases h0 : x.profile = 0
  · simpa [h0, when] using ReadsThen.refl
  by_cases h1 : x.profile = 1
  · simpa [h1, when] using ReadsThen.refl
  rw [if_neg h0, if_neg h0, if_neg h1, if_neg h1]
  refine .opt_value (by simp [h0, h1, seqDepth_eq_twelve]) (fun _ => ?_) fun _ => .refl
  exact .cons reads_fieldU <| .opt_value (by simp) (fun _ => .cons reads_fieldU .refl) fun _ => .refl

theorem reads_seqColourRange {mono cp tc mc : Nat} (hmono : mono = 1 ↔ x.mono = true)
    (hsrgb : cp = 1 ∧ tc = 13 ∧ mc = 0 ↔ x.srgb = true) :
    Reads .oob (seqColourRange x.profile (seqDepth x) mono cp tc mc)
      (when (x.mono ∨ ¬ x.srgb) [eu Field.colorRange 1 x.colourRange] ++
        when (¬ x.mono ∧ ¬ x.srgb)
          (when (x.profile ≠ 0 ∧ x.profile ≠ 1 ∧ x.depth12)
            (eu Field.subsamplingX 1 x.subsamplingX ::
              when (x.subsamplingX = 1) [eu Field.subsamplingY 1 x.subsamplingY]) ++
          when x.sub420 [eu Field.chromaSamplePosition 2 x.chromaPosition])) () := by
  unfold seqColourRange
  simp only [hmono, hsrgb]
  by_cases hm : x.mono = true
  · rw [if_pos hm, when_of_true (by simp [hm]), when_of_false (l := when _ _ ++ _) (by simp [hm])]
    exact .cons reads_fieldU .refl
  by_cases hs : x.srgb = true
  · rw [if_neg hm, if_pos hs, when_of_false (l := [_]) (by simp [hm, hs]),
      when_of_false (l := when _ _ ++ _) (by simp [hs])]
    exact .refl
  rw [if_neg hm, if_neg hs, when_of_true (l := [_]) (by simp [hs]), when_of_true (l := when _ _ ++ _) (by simp [hm, hs]),
    List.singleton_append]
  refine .cons reads_fieldU <| .append (reads_seqSubsampling (x := x)) ?_
  exact .opt_last seqSubsamplingValue_iff.symm (fun _ => .cons reads_fieldU .refl) fun _ => .refl

theorem seqColourElems_eq (x : SeqSyntax) :
    x.colourElems =
      (eu Field.highBitdepth 1 x.highBitdepth ::
        (when (x.profile = 2 ∧ x.highBitdepth = 1) [eu Field.twelveBit 1 x.twelveBit] ++
        when (x.profile ≠ 1) [eu Field.monoChrome 1 x.monoChrome])) ++
      ((eu Field.colorDescriptionPresentFlag 1 x.colourDescription ::
        when (x.colourDescription = 1)
          [eu Field.colorPrimaries 8 x.primaries, eu Field.transferCharacteristics 8 x.transfer,
            eu Field.matrixCoefficients 8 x.matrix]) ++
      ((when (x.mono ∨ ¬ x.srgb) [eu Field.colorRange 1 x.colourRange] ++
        when (¬ x.mono ∧ ¬ x.srgb)
          (when (x.profile ≠ 0 ∧ x.profile ≠ 1 ∧ x.depth12)
            (eu Field.subsamplingX 1 x.subsamplingX ::
              when (x.subsamplingX = 1) [eu Field.subsamplingY 1 x.subsamplingY]) ++
          when x.sub420 [eu Field.chromaSamplePosition 2 x.chromaPosition])) ++
      when (¬ x.mono) [eu Field.separateUvDeltaQ 1 x.separateUvDeltaQ])) := by
  simp only [SeqSyntax.colourElems, List.append_assoc, List.cons_append, List.nil_append]

theorem reads_seqColourConfig (hx : SeqFlags x) : Reads .oob (seqColourConfig x.profile) x.colourElems () := by
  have hmono : (if x.profile ≠ 1 then x.monoChrome else 0) = 1 ↔ x.mono = true := by
    unfold SeqSyntax.mono; split <;> simp_all
  have hcolour : (if x.profile ≠ 1 then x.monoChrome else 0) = 0 ↔ ¬ x.mono = true := by
    have := hx.monoChrome
    rw [← hmono]
    split
    · have := this ‹_›
      omega
    · simp
  rw [seqColourElems_eq]
  exact .append (reads_seqBitDepth (x := x)) <| .append (reads_seqColourDescription (x := x)) <|
    .append (reads_seqColourRange hmono seqColourValue_iff) <|
    .opt_last (by rw [decide_eq_true_iff]; exact hcolour.symm) (fun _ => .cons reads_fieldU .refl) fun _ => .refl

/-- Two ways to read, before one continuation. -/
theorem ReadsThen.ite_append {σ α β : Type} {F : ReadFail} {P : Prop} [Decidable P] {p q : Parse σ α}
    {f : α → Parse σ β} {l₁ l₁' l₂ : List Elem} {a : α} {m : Parse σ β} (hp : P → Reads F p l₁ a)
    (hq : ¬ P → Reads F q l₁' a) (hf : ReadsThen F (f a) l₂ m) :
    ReadsThen F (if P then p >>= f else q >>= f) ((if P then l₁ else l₁') ++ l₂) m := by
  split
  · exact .append (hp ‹_›) hf
  · exact .append (hq ‹_›) hf

/-- The elements of a sequence header, part by part. -/
theorem seqSyntax_elems_eq (x : SeqSyntax) :
    x.elems =
      eu Field.seqProfile 3 x.profile :: eu Field.stillPicture 1 x.stillPicture ::
      eu Field.reducedStillPictureHeader 1 x.reduced ::
      ((if x.reduced = 1 then [eu Field.seqLevelIdx 5 x.reducedLevel] else x.opElems) ++
      ([eu Field.frameWidthBitsMinus1 4 x.widthBits, eu Field.frameHeightBitsMinus1 4 x.heightBits,
        eu Field.maxFrameWidthMinus1 (x.widthBits + 1) x.width,
        eu Field.maxFrameHeightMinus1 (x.heightBits + 1) x.height] ++
      (when (x.reduced = 0)
        (eu Field.frameIdNumbersPresentFlag 1 x.frameIds ::
          when (x.frameIds = 1)
            [eu Field.deltaFrameIdLengthMinus2 4 x.deltaFrameId,
              eu Field.additionalFrameIdLengthMinus1 3 x.additionalFrameId]) ++
      ((eu Field.use128x128Superblock 1 x.superblock128 :: eu Field.enableFilterIntra 1 x.filterIntra ::
        eu Field.enableIntraEdgeFilter 1 x.intraEdge ::
        when (x.reduced = 0)
          (eu Field.enableInterintraCompound 1 x.interintra :: eu Field.enableMaskedCompound 1 x.masked ::
            eu Field.enableWarpedMotion 1 x.warped :: eu Field.enableDualFilter 1 x.dualFilter ::
            eu Field.enableOrderHint 1 x.orderHint ::
            when (x.orderHint = 1) [eu Field.enableJntComp 1 x.jntComp, eu Field.enableRefFrameMvs 1 x.refFrameMvs])) ++
      (when (x.reduced = 0)
        (eu Field.seqChooseScreenContentTools 1 x.chooseScreen ::
          (when (x.chooseScreen ≠ 1) [eu Field.seqForceScreenContentTools 1 x.forceScreen] ++
          (when x.screen
            (eu Field.seqChooseIntegerMv 1 x.chooseIntegerMv ::
              when (x.chooseIntegerMv = 0) [eu Field.seqForceIntegerMv 1 x.forceIntegerMv]) ++
          when (x.orderHint = 1) [eu Field.orderHintBitsMinus1 3 x.orderHintBits]))) ++
      ([eu Field.enableSuperres 1 x.superres, eu Field.enableCdef 1 x.cdef, eu Field.enableRestoration 1 x.restoration] ++
      (x.colourElems ++ [eu Field.filmGrainParamsPresent 1 x.filmGrain]))))))) := by
  by_cases h : x.reduced = 0 <;>
    simp only [SeqSyntax.elems, h, decide_true, decide_false, when_of_true, when_of_false, List.append_assoc,
      List.cons_append, List.nil_append]

/-- A sequence header reads its elements (R240 to R253). -/
theorem reads_seqHeader (hx : x.fits) : Reads .oob seqHeader x.elems () := by
  have hflags := seqFlags_of_fits hx
  obtain ⟨-, hops, hticks⟩ := hx
  have hfull (h : ¬ x.reduced = 1) : Reads .oob seqFullOps x.opElems () :=
    reads_seqFullOps hticks (hops (by have := hflags.reduced; omega)).1
  rw [seqSyntax_elems_eq]
  exact .cons reads_fieldU <| .cons reads_fieldU <| .cons reads_fieldU <|
    .ite_append (fun _ => .cons reads_fieldU .refl) hfull <|
    .append (reads_seqFrameSize (x := x)) <| .append (reads_seqFrameId (x := x)) <|
    .append (reads_seqTools (x := x)) <| .append (reads_seqScreenContent (x := x) fun h => if_pos h) <|
    .append (reads_seqFilters (x := x)) <| .append (reads_seqColourConfig hflags) <| .cons reads_fieldU .refl

end Sys2Proof.Machine
end

section
/-! leb128 values and OBUs in a byte string: what `leb128()` and `parse_obu` answer on a whole one and on one that cannot be
read (spec/40_bitreader.md R134, spec/42_av1.md section 2). -/

namespace Sys2Proof.Machine

open Sys2Proof.Safety

/-! ## leb128 -/

@[simp] theorem leb128Value_nil : leb128Value [] = 0 := rfl

theorem leb128Value_cons (b : Byte) (l : List Byte) :
    leb128Value (b :: l) = b.toNat % 128 + 128 * leb128Value l := by
  have hshift : (l.mapIdx fun i b => b.toNat % 128 * 128 ^ (i + 1)) =
      (l.mapIdx fun i b => b.toNat % 128 * 128 ^ i).map (128 * ·) := by
    refine List.ext_getElem (by simp) fun i _ _ => ?_
    simp only [List.getElem_mapIdx, List.getElem_map, Nat.pow_succ]
    ring
  rw [leb128Value, List.mapIdx_cons, hshift, List.sum_cons, List.sum_map_mul_left, Nat.pow_zero, Nat.mul_one, List.map_id']
  rfl

/-- A 7-bit group is put above the bits before it (R134). -/
theorem leb128_group {value b i : Nat} (hv : value < 128 ^ i) :
    value ||| ((b &&& 0x7F) <<< (7 * i)) = value + 128 ^ i * (b % 128) := by
  have h128 : 128 ^ i = 2 ^ (7 * i) := by rw [Nat.pow_mul]
  rw [h128] at hv ⊢
  rw [Nat.or_comm, ← Nat.shiftLeft_add_eq_or_of_lt hv, show 0x7F = 2 ^ 7 - 1 from rfl, Nat.and_two_pow_sub_one_eq_mod,
    Nat.shiftLeft_eq, Nat.mul_comm, Nat.add_comm]

/-- The reader over `D` with `k` bytes read. -/
def Reader.atByte (D : List Byte) (k : Nat) : Reader := (Reader.ofBytes D).skip (8 * k)

@[simp] theorem Reader.atByte_zero (D : List Byte) : Reader.atByte D 0 = Reader.ofBytes D := rfl

@[simp] theorem Reader.atByte_bytePos (D : List Byte) (k : Nat) : (Reader.atByte D k).bytePos = k := by
  simp only [Reader.atByte, Reader.bytePos, Reader.skip_pos, Reader.ofBytes_pos]
  omega

theorem byteAt_append_cons (pre post : List Byte) (b : Byte) : byteAt (pre ++ b :: post) pre.length = b.toNat := by
  simp [byteAt]

/-- The next byte of an aligned reader (R65). -/
theorem Reader.u_byte (pre post : List Byte) (b : Byte) :
    (Reader.atByte (pre ++ b :: post) pre.length).u 8 =
      .ok (b.toNat, Reader.atByte (pre ++ b :: post) (pre.length + 1)) := by
  have hpos : (Reader.atByte (pre ++ b :: post) pre.length).pos = 8 * pre.length := Nat.zero_add _
  rw [Reader.u_ok (by rw [hpos]; simp [Reader.atByte]; omega), hpos]
  simp only [Reader.atByte, Reader.skip_data, Reader.ofBytes_data, bits_byte, byteAt_append_cons]
  simp [Reader.skip, Reader.ofBytes, Nat.mul_add]

theorem Reader.u_byte_end (D : List Byte) : (Reader.atByte D D.length).u 8 = .error .oob :=
  Reader.u_oob (by simp [Reader.atByte])

/-- One byte of a leb128 value (R134). -/
theorem Reader.leb128From_byte {f i value : Nat} {b : Byte} (pre post : List Byte) (hv : value < 128 ^ i) :
    Reader.leb128From (f + 1) i value (Reader.atByte (pre ++ b :: post) pre.length) =
      if b.toNat < 128 then
        .ok ((value + 128 ^ i * (b.toNat % 128), i + 1), Reader.atByte (pre ++ b :: post) (pre.length + 1))
      else Reader.leb128From f (i + 1) (value + 128 ^ i * (b.toNat % 128))
        (Reader.atByte (pre ++ b :: post) (pre.length + 1)) := by
  rw [Reader.leb128From, Reader.u_byte]
  simp only [leb128_group hv]

theorem leb128_bound {value b i : Nat} (hv : value < 128 ^ i) : value + 128 ^ i * (b % 128) < 128 ^ (i + 1) := by
  have hb : b % 128 ≤ 127 := Nat.le_of_lt_succ (Nat.mod_lt _ (by decide))
  have hmul : 128 ^ i * (b % 128) ≤ 128 ^ i * 127 := Nat.mul_le_mul_left _ hb
  rw [Nat.pow_succ]
  omega

/-- From byte `i` on, the rest `l` of a leb128 value is read (R134). -/
theorem Reader.leb128From_run {l : List Byte} (pre post : List Byte) {i value : Nat} (hlen : i + l.length ≤ 8)
    (hne : 1 ≤ l.length) (hcont : ∀ j < l.length - 1, 128 ≤ byteAt l j)
    (hlast : i + l.length = 8 ∨ byteAt l (l.length - 1) < 128) (hv : value < 128 ^ i) :
    Reader.leb128From (8 - i) i value (Reader.atByte (pre ++ l ++ post) pre.length) =
      .ok ((value + 128 ^ i * leb128Value l, i + l.length), Reader.atByte (pre ++ l ++ post) (pre.length + l.length)) := by
  induction l generalizing pre i value with
  | nil => simp at hne
  | cons b rest ih =>
    rw [List.length_cons] at hlen
    rw [show 8 - i = (8 - (i + 1)) + 1 by omega, List.append_assoc, List.cons_append, Reader.leb128From_byte pre _ hv]
    cases rest with
    | nil =>
      have hvalue : leb128Value [b] = b.toNat % 128 := by simp [leb128Value_cons]
      rw [hvalue]
      split
      · rfl
      · rename_i hb
        obtain h8 | hlt := hlast
        · rw [show 8 - (i + 1) = 0 by simp at h8; omega]
          rfl
        · exact absurd hlt hb
    | cons b' rest =>
      have hb : 128 ≤ b.toNat := hcont 0 (by simp)
      rw [if_neg (by omega)]
      have hread := ih (pre ++ [b]) (i := i + 1) (value := value + 128 ^ i * (b.toNat % 128)) (by omega) (by simp)
        (fun j hj => by
          have := hcont (j + 1) (by simp at hj ⊢; omega)
          simpa [byteAt] using this)
        (hlast.imp (fun h => by rw [List.length_cons] at h; omega) fun h => by simpa [byteAt] using h) (leb128_bound hv)
      rw [List.length_append, List.length_singleton, List.append_assoc, List.append_assoc] at hread
      rw [leb128Value_cons]
      refine hread.trans (congrArg Except.ok (Prod.ext (Prod.ext ?_ ?_) (congrArg (Reader.atByte _) ?_)))
      · simp only [Nat.pow_succ]
        ring
      · simp only [List.length_cons]
        omega
      · simp only [List.length_cons]
        omega

/-- A whole leb128 value (R134). -/
theorem Reader.leb128_run {l : List Byte} (pre post : List Byte) (h : IsLeb128 l) :
    (Reader.atByte (pre ++ l ++ post) pre.length).leb128 =
      .ok ((leb128Value l, l.length), Reader.atByte (pre ++ l ++ post) (pre.length + l.length)) := by
  obtain ⟨hne, hlen, hcont, hlast⟩ := h
  have hrun := Reader.leb128From_run pre post (i := 0) (value := 0) (by omega) hne hcont (by simpa using hlast) (by simp)
  rw [Reader.leb128, show Config.leb128MaxBytes = 8 - 0 from rfl, hrun]
  simp

/-- A leb128 value that the bytes cut (R134, R127). -/
theorem Reader.leb128From_cut {l : List Byte} (pre : List Byte) {i value : Nat} (hlen : i + l.length < 8)
    (hcont : ∀ b ∈ l, 128 ≤ b.toNat) (hv : value < 128 ^ i) :
    Reader.leb128From (8 - i) i value (Reader.atByte (pre ++ l) pre.length) = .error .oob := by
  induction l generalizing pre i value with
  | nil =>
    rw [show 8 - i = (8 - (i + 1)) + 1 by simp at hlen; omega, Reader.leb128From, List.append_nil, Reader.u_byte_end]
  | cons b rest ih =>
    have hb := hcont b (by simp)
    rw [List.length_cons] at hlen
    rw [show 8 - i = (8 - (i + 1)) + 1 by omega, Reader.leb128From_byte pre _ hv, if_neg (by omega)]
    have hread := ih (pre ++ [b]) (i := i + 1) (value := value + 128 ^ i * (b.toNat % 128)) (by omega)
      (fun b' hb' => hcont b' (by simp [hb'])) (leb128_bound hv)
    simpa using hread

theorem Reader.leb128_cut {l : List Byte} (pre : List Byte) (h : IsLeb128Start l) :
    (Reader.atByte (pre ++ l) pre.length).leb128 = .error .oob :=
  Reader.leb128From_cut pre (i := 0) (by simpa using h.1) h.2 (by simp)

/-! ## Bytes as bits -/

theorem natBits_add (m n v : Nat) : natBits (m + n) v = natBits m (v / 2 ^ n) ++ natBits n (v % 2 ^ n) := by
  refine List.ext_getElem (by simp) fun j hj _ => ?_
  rw [natBits_length] at hj
  simp only [natBits, List.getElem_map, List.getElem_range, List.getElem_append, List.length_map, List.length_range]
  split
  · rw [Nat.testBit_div_two_pow]
    congr 1
    omega
  · rw [Nat.testBit_mod_two_pow]
    simp only [show n - 1 - (j - m) < n by omega, decide_true, Bool.true_and]
    congr 1
    omega

/-- The bits of a byte stand at its place. -/
theorem bitsAt_byte (pre post : List Byte) (b : Byte) :
    BitsAt (pre ++ b :: post) (8 * (pre ++ b :: post).length) (8 * pre.length) (natBits 8 b.toNat) := by
  refine ⟨by simp; omega, fun j hj => ?_⟩
  rw [natBits_length] at hj
  rw [natBits_getD _ _ _ hj, streamBit, show (8 * pre.length + j) / 8 = pre.length by omega,
    show (8 * pre.length + j) % 8 = j by omega, List.getD_append_right _ _ _ _ (by simp), BitVec.getLsbD]
  simp

/-! ## The OBU header -/

/-- The elements of an OBU header byte (R235). -/
def obuHeaderElems (h : Nat) : List Elem :=
  [eu Field.obuForbiddenBit 1 (h / 128), eu Field.obuType 4 (h / 8 % 16), eu Field.obuExtensionFlag 1 (h / 4 % 2),
    eu Field.obuHasSizeField 1 (h / 2 % 2), eu Field.obuReserved1bit 1 (h % 2)]

/-- The elements of an OBU extension byte (R235). -/
def obuExtensionElems (e : Nat) : List Elem :=
  [eu Field.temporalId 3 (e / 32), eu Field.spatialId 2 (e / 8 % 4), eu Field.extensionHeaderReserved3bits 3 (e % 8)]

theorem elemBits_obuHeader (h : Nat) : elemBits (obuHeaderElems h) = natBits 8 h := by
  rw [show natBits 8 h = natBits (1 + (4 + (1 + (1 + 1)))) h from rfl]
  simp only [natBits_add, obuHeaderElems, eu, elemBits_cons, elemBits_nil, Elem.bits, List.append_nil]
  norm_num [Nat.mod_mod_of_dvd, ← Nat.mod_mul_right_div_self]

theorem elemBits_obuExtension (e : Nat) : elemBits (obuExtensionElems e) = natBits 8 e := by
  rw [show natBits 8 e = natBits (3 + (2 + 3)) e from rfl]
  simp only [natBits_add, obuExtensionElems, eu, elemBits_cons, elemBits_nil, Elem.bits, List.append_nil]
  norm_num [Nat.mod_mod_of_dvd, ← Nat.mod_mul_right_div_self]

/-- The elements of the header and of the extension, if there is one (R235). -/
def obuHeadElems (o : Obu) : List Elem :=
  obuHeaderElems o.header.toNat ++ when o.hasExtension (obuExtensionElems o.extension.toNat)

theorem obuHeadElems_fit (o : Obu) : ∀ e ∈ obuHeadElems o, e.fits := by
  have hh := o.header.isLt
  have he := o.extension.isLt
  intro e hmem
  simp only [obuHeadElems, obuHeaderElems, obuExtensionElems, when, List.mem_append, List.mem_cons, List.not_mem_nil,
    or_false] at hmem
  obtain (rfl | rfl | rfl | rfl | rfl) | hmem := hmem
  any_goals simp only [eu, Elem.fits]; omega
  split at hmem
  · simp only [List.mem_cons, List.not_mem_nil, or_false] at hmem
    obtain rfl | rfl | rfl := hmem <;> simp only [eu, Elem.fits] <;> omega
  · cases hmem

theorem obuHeadElems_recs (o : Obu) (u : Nat) : (obuHeadElems o).map (Elem.recordAt u) = o.headRecs u := by
  unfold obuHeadElems Obu.headRecs when
  split <;> rfl

theorem obuHead_bits_length (o : Obu) : (elemBits (obuHeadElems o)).length = 8 * o.head.length := by
  rw [obuHeadElems, elemBits_append, elemBits_obuHeader]
  unfold when Obu.head
  split
  · rw [elemBits_obuExtension]; simp
  · simp

/-- The header's elements stand at the start of the OBU. -/
theorem elemsAt_obuHead (o : Obu) (rest : List Byte) :
    ElemsAt (Reader.ofBytes (o.head ++ rest)) (obuHeadElems o) := by
  refine elemsAt_ofBytes (obuHeadElems_fit o) ?_
  rw [obuHeadElems, elemBits_append, elemBits_obuHeader]
  unfold when Obu.head
  split
  · rw [elemBits_obuExtension]
    exact bitsAt_append.mpr ⟨bitsAt_byte [] ([o.extension] ++ rest) o.header, by
      simpa using bitsAt_byte [o.header] rest o.extension⟩
  · simpa using bitsAt_byte [] rest o.header

theorem reads_obuHeader (o : Obu) :
    Reads .oob obuHeader (obuHeadElems o) (o.header.toNat / 8 % 16, o.header.toNat / 2 % 2) := by
  refine .cons reads_fieldU <| .cons reads_fieldU <| .cons reads_fieldU <| .cons reads_fieldU <| .cons reads_fieldU ?_
  refine .opt_last (by simp [Obu.hasExtension]) (fun _ => ?_) fun _ => .refl
  exact .cons reads_fieldU <| .cons reads_fieldU <| .cons reads_fieldU .refl

/-! ## Procedures that record and return -/

/-- From `c` the procedure returns `a` after the records `l`, with some reader in use (R125). -/
def Yields {σ α : Type} (p : Parse σ α) (c : Ctx σ) (a : α) (l : List Record) : Prop :=
  ∃ r, p c = .ok a { c.addRecs l with rd := r }

/-- From `c` the procedure is TRUNCATED after the records `l`. -/
def Truncates {σ α : Type} (p : Parse σ α) (c : Ctx σ) (l : List Record) : Prop :=
  ∃ r, p c = .error .truncated { c.addRecs l with rd := r }

section
variable {σ α β : Type} {p : Parse σ α} {f : α → Parse σ β} {c : Ctx σ} {a : α} {b : β} {l m : List Record}

theorem Yields.bind (hp : Yields p c a l) (hf : ∀ r, Yields (f a) { c.addRecs l with rd := r } b m) :
    Yields (p >>= f) c b (l ++ m) := by
  obtain ⟨r, hp⟩ := hp
  obtain ⟨r', hf⟩ := hf r
  exact ⟨r', by rw [Parse.bind_ok hp, hf]; simp [Ctx.addRecs]⟩

theorem Yields.bind_truncates (hp : Yields p c a l) (hf : ∀ r, Truncates (f a) { c.addRecs l with rd := r } m) :
    Truncates (p >>= f) c (l ++ m) := by
  obtain ⟨r, hp⟩ := hp
  obtain ⟨r', hf⟩ := hf r
  exact ⟨r', by rw [Parse.bind_ok hp, hf]; simp [Ctx.addRecs]⟩

theorem Truncates.bind (hp : Truncates p c l) : Truncates (p >>= f) c l := by
  obtain ⟨r, hp⟩ := hp
  exact ⟨r, Parse.bind_error hp⟩

theorem yields_emit {g : Half} {v : Nat} : Yields (emit g v : Parse σ Unit) c () [mkRec g v c.unit] := ⟨c.rd, rfl⟩

theorem yields_pure : Yields (pure a : Parse σ α) c a [] := ⟨c.rd, by rw [Ctx.addRecs_nil]; rfl⟩

theorem truncates_raise : Truncates (raise .truncated : Parse σ α) c [] := ⟨c.rd, by rw [Ctx.addRecs_nil]; rfl⟩

/-- A part of the stream is read with a reader of its own. -/
theorem Yields.of_setReader {S : List Byte} {g : Parse σ α} (h : Yields g { c with rd := Reader.ofBytes S } a l) :
    Yields (setReader (Reader.ofBytes S) >>= fun _ => g) c a l := h

end

/-! ## The extent -/

/-- The bytes before the payload. -/
def obuFront (o : Obu) : List Byte := o.head ++ if o.hasSize then o.size else []

theorem obuBytes_eq (o : Obu) : o.bytes = obuFront o ++ o.payload := by
  rw [Obu.bytes, obuFront]

theorem obuHead_pos (o : Obu) : 0 < o.head.length := by simp [Obu.head]

theorem obuBytes_pos (o : Obu) : 0 < o.bytes.length := by
  have := obuHead_pos o
  rw [Obu.bytes, List.length_append, List.length_append]
  omega

theorem hasSize_iff (o : Obu) : o.header.toNat / 2 % 2 = 1 ↔ o.hasSize = true := by simp [Obu.hasSize]

/-- The context after the header of `E` has been read. -/
def obuHeadCtx (c : Ctx Unit) (E : List Byte) (o : Obu) : Ctx Unit :=
  { c.addRecs (o.headRecs c.unit) with rd := Reader.atByte E o.head.length }

/-- The header and the extension (R235). -/
theorem obuHeader_run {E rest : List Byte} {o : Obu} (hE : E = o.head ++ rest) (c : Ctx Unit) :
    obuHeader { c with rd := Reader.ofBytes E } =
      .ok (o.header.toNat / 8 % 16, o.header.toNat / 2 % 2) (obuHeadCtx c E o) := by
  subst hE
  rw [(reads_obuHeader o { c with rd := Reader.ofBytes (o.head ++ rest) }).1 (elemsAt_obuHead o rest), Parse.pure_run]
  simp only [Ctx.read, obuHead_bits_length, obuHeadElems_recs]
  rfl

/-- `obu_extent` after the header `head` in `E`: the size read, or the rest (R236). -/
theorem obuExtent_size {E l rest : List Byte} {o : Obu} (hE : E = o.head ++ l ++ rest) (hl : IsLeb128 l)
    (c : Ctx Unit) (complete : Bool) :
    obuExtent E 1 complete (obuHeadCtx c E o) =
      (if o.head.length + l.length + leb128Value l > E.length then
          if complete then raise .truncated else pure (o.head.length + l.length, E.length - (o.head.length + l.length))
        else pure (o.head.length + l.length, leb128Value l) : Parse Unit (Nat × Nat))
        { (obuHeadCtx c E o).addRecs [mkRec Field.obuSize (leb128Value l) c.unit] with
          rd := Reader.atByte E (o.head.length + l.length) } := by
  subst hE
  have hread : liftRead Reader.leb128 (obuHeadCtx c (o.head ++ l ++ rest) o) = _ :=
    liftRead_ok (Reader.leb128_run o.head rest hl)
  rw [obuExtent, if_pos rfl, Parse.bind_ok hread]
  dsimp only
  rw [Parse.bind_ok (emit_eq _ _ _ _ _ _), Parse.bind_ok (getReader_run _)]
  simp only [Ctx.addRecs_rd, Reader.atByte_bytePos]
  rfl

theorem obuExtent_rest {E : List Byte} {o : Obu} {hs : Nat} (hhs : hs ≠ 1) (c : Ctx Unit) (complete : Bool) :
    obuExtent E hs complete (obuHeadCtx c E o) = .ok (o.head.length, E.length - o.head.length) (obuHeadCtx c E o) := by
  rw [obuExtent, if_neg hhs, Parse.bind_ok (getReader_run _)]
  simp only [obuHeadCtx, Reader.atByte_bytePos]
  rfl

/-- How `parse_obu` finds the payload of `o` at the start of `E`, which `rest` follows: its size says so, or nothing
follows, or it is not complete and its size says more than there is (R236). -/
def ExtentFits (o : Obu) (rest : List Byte) (complete : Bool) : Prop :=
  (o.hasSize = true ∨ rest = []) ∧
    (o.sizeFits ∨ complete = false ∧ IsLeb128 o.size ∧ o.payload.length < leb128Value o.size ∧ rest = [])

/-- The context after the size. -/
def obuExtentCtx (c : Ctx Unit) (E : List Byte) (o : Obu) : Ctx Unit :=
  { c.addRecs (o.headRecs c.unit ++ o.sizeRecs c.unit) with rd := Reader.atByte E (obuFront o).length }

theorem obuExtent_run {E rest : List Byte} {o : Obu} {complete : Bool} (hE : E = o.bytes ++ rest)
    (h : ExtentFits o rest complete) (c : Ctx Unit) :
    obuExtent E (o.header.toNat / 2 % 2) complete (obuHeadCtx c E o) =
      .ok ((obuFront o).length, o.payload.length) (obuExtentCtx c E o) := by
  obtain ⟨hend, hsize⟩ := h
  cases hs : o.hasSize with
  | false =>
    have hrest : rest = [] := hend.resolve_left (by simp [hs])
    subst hrest
    rw [obuExtent_rest (by rw [ne_eq, hasSize_iff, hs]; decide)]
    simp [hE, obuBytes_eq, obuHeadCtx, obuExtentCtx, obuFront, Obu.sizeRecs, hs]
  | true =>
    have hleb : IsLeb128 o.size := hsize.elim (fun h => (h hs).1) fun h => h.2.1
    have hfront : obuFront o = o.head ++ o.size := by simp [obuFront, hs]
    have hlen : E.length = o.head.length + o.size.length + (o.payload.length + rest.length) := by
      rw [hE, obuBytes_eq, hfront]; simp; omega
    rw [(hasSize_iff o).mpr hs, obuExtent_size (l := o.size) (rest := o.payload ++ rest)
      (by rw [hE, obuBytes_eq, hfront, List.append_assoc]) hleb, hfront, List.length_append]
    have hctx : ({ (obuHeadCtx c E o).addRecs [mkRec Field.obuSize (leb128Value o.size) c.unit] with
        rd := Reader.atByte E (o.head.length + o.size.length) } : Ctx Unit) = obuExtentCtx c E o := by
      simp [obuHeadCtx, obuExtentCtx, Obu.sizeRecs, hs, hfront, Ctx.addRecs]
    rw [hctx]
    obtain hfits | ⟨rfl, -, hlong, rfl⟩ := hsize
    · have hvalue := (hfits hs).2
      rw [if_neg (by omega), hvalue]
      rfl
    · rw [if_pos (by simp at hlen; omega), if_neg (by decide),
        show E.length - (o.head.length + o.size.length) = o.payload.length by simp at hlen; omega]
      rfl

/-! ## parse_obu -/

/-- `parse_obu` up to the body (R235, R236). -/
theorem parseObu_run {E rest : List Byte} {o : Obu} {complete : Bool} (hE : E = o.bytes ++ rest)
    (h : ExtentFits o rest complete) (c : Ctx Unit) :
    parseObu E complete c =
      (obuBody o.payload (o.header.toNat / 8 % 16) o.payload.length complete >>= fun _ => pure o.bytes.length)
        { c.addRecs (o.extentRecs c.unit) with rd := Reader.atByte E (obuFront o).length } := by
  have hhead : E = o.head ++ ((if o.hasSize then o.size else []) ++ o.payload ++ rest) := by
    rw [hE, Obu.bytes]; simp
  have hpayload : slice E (obuFront o).length o.payload.length = o.payload := by
    rw [hE, obuBytes_eq, List.append_assoc, slice, List.drop_left, List.take_left]
  rw [parseObu, Parse.bind_ok (setReader_run _ _), Parse.bind_ok (obuHeader_run hhead c)]
  dsimp only
  rw [Parse.bind_ok (obuExtent_run hE h c)]
  dsimp only
  rw [Parse.bind_ok (emit_eq _ _ _ _ _ _), hpayload, obuBytes_eq, List.length_append]
  simp only [obuExtentCtx, Ctx.addRecs, Obu.extentRecs, List.append_assoc]

/-- A whole OBU (R235 to R237). -/
theorem parseObu_whole {o : Obu} {rest : List Byte} (ho : o.whole) (hend : o.hasSize = true ∨ rest = []) (c : Ctx Unit) :
    Yields (parseObu (o.bytes ++ rest) true) c o.bytes.length (o.recs c.unit) := by
  obtain ⟨hsize, hseq⟩ := ho
  rw [Yields, parseObu_run rfl ⟨hend, .inl hsize⟩, Obu.recs]
  unfold obuBody
  rw [if_neg (by decide)]
  cases hx : o.sequence with
  | none =>
    rw [hx] at hseq
    rw [if_neg hseq]
    dsimp only
    split
    · exact ⟨_, by rw [Parse.bind_ok (emit_eq _ _ _ _ _ _)]; simp [Ctx.addRecs]; exact ⟨rfl, rfl⟩⟩
    · exact ⟨_, by rw [List.append_nil]; rfl⟩
  | some x =>
    rw [hx] at hseq
    obtain ⟨ht, hfits, hbits⟩ := hseq
    rw [if_pos ht]
    have hread := (reads_seqHeader hfits { c.addRecs (o.extentRecs c.unit) with rd := Reader.ofBytes o.payload }).1
      (elemsAt_ofBytes hfits.1 hbits)
    exact ⟨_, by
      rw [Parse.bind_ok ((Parse.bind_ok (setReader_run _ _)).trans hread)]
      simp [Ctx.addRecs, Ctx.read]; rfl⟩

/-- An OBU that the next packet continues (R237). -/
theorem parseObu_start {o : Obu} {rest : List Byte} (h : ExtentFits o rest false) (c : Ctx Unit) :
    Yields (parseObu (o.bytes ++ rest) false) c o.bytes.length
      (o.extentRecs c.unit ++ [mkRec Field.notDecoded 5 c.unit]) := by
  rw [Yields, parseObu_run rfl h, obuBody, if_pos rfl, Parse.bind_ok (emit_eq _ _ _ _ _ _)]
  exact ⟨_, by simp [Ctx.addRecs]; exact ⟨rfl, rfl⟩⟩

/-- An OBU whose header or size field the bytes cut (R235, R236). -/
theorem parseObu_headCut {E : List Byte} {recs : List Record} (c : Ctx Unit) (complete : Bool)
    (h : ObuHeadCut E c.unit recs) : Truncates (parseObu E complete) c recs := by
  obtain ⟨o, ⟨hext, rfl, rfl⟩ | ⟨hsize, hcut, rfl, rfl⟩⟩ := h
  · have hhead : obuHeadElems o = obuHeaderElems o.header.toNat ++ eu Field.temporalId 3 (o.extension.toNat / 32) ::
        [eu Field.spatialId 2 (o.extension.toNat / 8 % 4),
          eu Field.extensionHeaderReserved3bits 3 (o.extension.toNat % 8)] := by
      rw [obuHeadElems, hext]; rfl
    have hfront : ElemsAt (Reader.ofBytes [o.header]) (obuHeaderElems o.header.toNat) := by
      refine elemsAt_ofBytes (fun e he => obuHeadElems_fit o e (by rw [obuHeadElems]; simp [he])) ?_
      rw [elemBits_obuHeader]
      simpa using bitsAt_byte [] [] o.header
    have hrun := (reads_obuHeader o { c with rd := Reader.ofBytes [o.header] }).2 _ _ _ hhead hfront
      ⟨rfl, Reader.u_oob (by rw [elemBits_obuHeader]; simp)⟩
    rw [Truncates, parseObu, Parse.bind_ok (setReader_run _ _), Parse.bind_error hrun]
    exact ⟨_, rfl⟩
  · have hread : liftRead Reader.leb128 (obuHeadCtx c (o.head ++ o.size) o) = _ :=
      liftRead_oob (Reader.leb128_cut o.head hcut)
    rw [Truncates, parseObu, Parse.bind_ok (setReader_run _ _), Parse.bind_ok (obuHeader_run rfl c)]
    dsimp only
    rw [Parse.bind_error (by rw [obuExtent, if_pos ((hasSize_iff o).mpr hsize), Parse.bind_error hread])]
    exact ⟨_, rfl⟩

/-- Bytes that no whole OBU can be read from (R235 to R237). -/
theorem parseObu_cut {E : List Byte} {recs : List Record} (c : Ctx Unit) (h : ObuCut E c.unit recs) :
    Truncates (parseObu E true) c recs := by
  obtain h | ⟨o, ⟨hs, hleb, hlong, rfl, rfl⟩ | ⟨front, rest, ⟨hsize, ht, x, hfits, hcut⟩, hend, rfl, rfl⟩⟩ := h
  · exact parseObu_headCut c true h
  · have hfront : obuFront o = o.head ++ o.size := by simp [obuFront, hs]
    rw [Truncates, parseObu, Parse.bind_ok (setReader_run _ _),
      Parse.bind_ok (obuHeader_run (o := o) (rest := o.size ++ o.payload) (by simp [Obu.bytes, hs]) c)]
    dsimp only
    rw [(hasSize_iff o).mpr hs]
    have hextent := obuExtent_size (E := o.bytes) (rest := o.payload) (o := o) (by rw [obuBytes_eq, hfront]) hleb c true
    rw [if_pos (by rw [obuBytes_eq, hfront]; simp; omega), if_pos rfl, raise_run] at hextent
    rw [Parse.bind_error hextent]
    exact ⟨_, by simp [obuHeadCtx, Obu.sizeRecs, hs, Ctx.addRecs]; rfl⟩
  · obtain ⟨e, back, hl, hfront, hfail⟩ := failsAt_of_cutAfter hfits.1 hcut
    have hread := (reads_seqHeader hfits { c.addRecs (o.extentRecs c.unit) with rd := Reader.ofBytes o.payload }).2
      front e back hl hfront hfail
    rw [Truncates, parseObu_run rfl ⟨hend, .inl hsize⟩, obuBody, if_neg (by decide), if_pos ht,
      Parse.bind_error ((Parse.bind_ok (setReader_run _ _)).trans hread)]
    exact ⟨_, by simp [Ctx.addRecs, Ctx.read, ReadFail.status]; rfl⟩

/-- No OBU in no bytes (R235). -/
theorem parseObu_nil (c : Ctx Unit) (complete : Bool) : Truncates (parseObu [] complete) c [] := by
  have hread : (fieldU Field.obuForbiddenBit 1 : Parse Unit Nat) { c with rd := Reader.ofBytes [] } = _ :=
    fieldOfRead_oob (Reader.u_oob (by simp))
  rw [Truncates, parseObu, Parse.bind_ok (setReader_run _ _),
    Parse.bind_error (by rw [obuHeader, Parse.bind_error hread])]
  exact ⟨_, by rw [Ctx.addRecs_nil]⟩

end Sys2Proof.Machine
end

section
/-! AV1_OBUS, AV1_PAYLOAD and AV1_LEB128 over whole inputs (spec/42_av1.md section 1). -/

namespace Sys2Proof.Machine

open Sys2Proof.Safety

variable {s : State} {len : Half}

/-! ## Commands -/

theorem exec_av1Obus (s : State) (len : Half) :
    exec (.av1Obus len) s = .next (runParser 0x21 s () putNothing (av1ObusProc (inputBytes s len))) := by
  rw [← State.input_eq]; rfl

theorem exec_av1Payload (s : State) (len : Half) :
    exec (.av1Payload len) s = .next (runParser 0x20 s () putNothing (av1PayloadProc (inputBytes s len))) := by
  rw [← State.input_eq]; rfl

/-- A parser without a state that completes (R362). -/
theorem runParser_of_yields {opc : Byte} {p : Parse Unit Unit} {l : List Record}
    (h : Yields p (Ctx.start ()) () l) : runParser opc s () putNothing p = finished s opc 0 l := by
  obtain ⟨r, h⟩ := h
  exact runParser_finished h

/-- A parser without a state that is TRUNCATED (R362). -/
theorem runParser_of_truncates {opc : Byte} {p : Parse Unit Unit} {l : List Record}
    (h : Truncates p (Ctx.start ()) l) : runParser opc s () putNothing p = finished s opc 2 (l ++ [errRec 2]) := by
  obtain ⟨r, h⟩ := h
  exact runParser_raised h nofun

/-! ## AV1_LEB128 -/

theorem byteAt_take {S : List Byte} {n i : Nat} (h : i < n) : byteAt (S.take n) i = byteAt S i := by
  simp [byteAt, h]

/-- The first bytes of the input are one leb128 value (R134). -/
theorem isLeb128_take {S : List Byte} {n : Nat} (h1 : 1 ≤ n) (h8 : n ≤ 8) (hS : n ≤ S.length)
    (hcont : ∀ i < n - 1, 128 ≤ byteAt S i) (hlast : n = 8 ∨ byteAt S (n - 1) < 128) : IsLeb128 (S.take n) := by
  have hlen : (S.take n).length = n := List.length_take_of_le hS
  unfold IsLeb128
  rw [hlen]
  refine ⟨h1, h8, fun i hi => ?_, hlast.imp_right fun h => ?_⟩
  · rw [byteAt_take (by omega)]
    exact hcont i hi
  · rwa [byteAt_take (by omega)]

theorem isLeb128Start_of_forall {S : List Byte} {n : Nat} (hS : S.length = n) (h8 : n < 8)
    (hcont : ∀ i < n, 128 ≤ byteAt S i) : IsLeb128Start S := by
  refine ⟨by omega, fun b hb => ?_⟩
  obtain ⟨i, hi, rfl⟩ := List.mem_iff_getElem.mp hb
  simpa [byteAt, hi] using hcont i (by omega)

theorem exec_av1Leb128 (s : State) (len : Half) :
    exec (.av1Leb128 len) s = .next (runParser 0x22 s (s.result, s.result2) State.withResults
      (av1Leb128Proc (inputBytes s len))) := by
  rw [← State.input_eq]; rfl

/-- The procedure from its read on (R234). -/
theorem av1Leb128Proc_run (S : List Byte) (c : Ctx (Long × Word)) :
    av1Leb128Proc S c = (liftRead Reader.leb128 >>= fun x => emit Field.leb128Value x.1 >>= fun _ =>
      emit Field.leb128Bytes x.2 >>= fun _ => commit (BitVec.ofNat 64 x.1, BitVec.ofNat 32 x.2))
      { c with rd := Reader.ofBytes S } := rfl

/-- Settles O42. -/
theorem Av1.leb128Value : Obligations.Leb128Value := by
  refine fun s len n => ⟨fun h1 h8 hlen hcont hlast => ?_, fun hlen h8 hcont => ?_⟩
  · have hleb := isLeb128_take h1 h8 (by rwa [inputBytes_length]) hcont hlast
    have hread := Reader.leb128_run [] ((inputBytes s len).drop n) hleb
    rw [List.nil_append, List.take_append_drop, List.length_take_of_le (by rwa [inputBytes_length])] at hread
    have hrun := av1Leb128Proc_run (inputBytes s len) (Ctx.start (s.result, s.result2))
    rw [Parse.bind_ok (liftRead_ok hread)] at hrun
    rw [exec_av1Leb128, runParser_finished hrun]
    simp [Ctx.start]
    rfl
  · have hread := Reader.leb128_cut [] (isLeb128Start_of_forall ((inputBytes_length s len).trans hlen) h8 hcont)
    have hrun := av1Leb128Proc_run (inputBytes s len) (Ctx.start (s.result, s.result2))
    rw [Parse.bind_error (liftRead_oob hread)] at hrun
    rw [exec_av1Leb128, runParser_raised hrun nofun]
    rfl

/-! ## AV1_OBUS -/

/-- The context at unit `u` after some records, with some reader in use. -/
def Ctx.moved {σ : Type} (c : Ctx σ) (l : List Record) (r : Reader) (u : Nat) : Ctx σ :=
  { c.addRecs l with rd := r, unit := u }

/-- One pass over a whole OBU (R233). -/
theorem obusFrom_whole {S pre rest : List Byte} {o : Obu} {f el : Nat} (ho : o.whole)
    (hend : o.hasSize = true ∨ rest = []) (hS : S = pre ++ o.bytes ++ rest) (c : Ctx Unit) :
    ∃ r, obusFrom S (f + 1) pre.length el c =
      obusFrom S f (pre ++ o.bytes).length (el + 1) (c.moved (o.recs el) r el) := by
  have hpos := obuBytes_pos o
  have hdrop : S.drop pre.length = o.bytes ++ rest := by rw [hS, List.append_assoc, List.drop_left]
  obtain ⟨r, hr⟩ := parseObu_whole ho hend { c with unit := el }
  refine ⟨r, ?_⟩
  rw [obusFrom, if_pos (by rw [hS]; simp; omega), Parse.bind_ok (setUnit_run _ _), hdrop, Parse.bind_ok hr,
    List.length_append]
  rfl

/-- Passes over any number of whole OBUs (R233). Each consumes a byte, so the pass count is not reached (log entry 7). -/
theorem obusFrom_wholes {S tail : List Byte} (obus : List Obu) (hobus : ∀ o ∈ obus, o.whole ∧ o.hasSize = true)
    (pre : List Byte) (f el : Nat) (c : Ctx Unit) (hS : S = pre ++ (obus.map Obu.bytes).flatten ++ tail)
    (hf : tail.length + (obus.map Obu.bytes).flatten.length < f) :
    ∃ g r u, tail.length < g ∧ obusFrom S f pre.length el c =
      obusFrom S g (pre ++ (obus.map Obu.bytes).flatten).length (el + obus.length)
        (c.moved (obus.mapIdx fun i o => o.recs (el + i)).flatten r u) := by
  induction obus generalizing pre f el c with
  | nil => exact ⟨f, c.rd, c.unit, by simpa using hf, by simp [Ctx.moved, Ctx.addRecs]⟩
  | cons o obus ih =>
    obtain ⟨⟨ho, hsize⟩, hrest⟩ := List.forall_mem_cons.mp hobus
    rw [List.map_cons, List.flatten_cons, List.length_append] at hf
    have hpos := obuBytes_pos o
    obtain ⟨f, rfl⟩ : ∃ f', f = f' + 1 := ⟨f - 1, by omega⟩
    rw [List.map_cons, List.flatten_cons] at hS
    obtain ⟨r, hr⟩ := obusFrom_whole (S := S) (pre := pre) (f := f) (el := el) ho (.inl hsize)
      (rest := (obus.map Obu.bytes).flatten ++ tail) (by rw [hS]; simp) c
    obtain ⟨g, r', u, hg, hrun⟩ := ih hrest (pre ++ o.bytes) f (el + 1) (c.moved (o.recs el) r el)
      (by rw [hS]; simp) (by omega)
    refine ⟨g, r', u, hg, ?_⟩
    rw [hr, hrun]
    simp [Ctx.moved, Ctx.addRecs, Nat.add_assoc, Nat.add_comm 1]

/-- The end of the stream (R233). -/
theorem obusFrom_end {S : List Byte} {f el : Nat} (c : Ctx Unit) : obusFrom S (f + 1) S.length el c = .ok () c := by
  rw [obusFrom, if_neg (by omega), Parse.pure_run]

theorem obuHeadCut_pos {E : List Byte} {u : Nat} {recs : List Record} (h : ObuHeadCut E u recs) : 0 < E.length := by
  obtain ⟨o, ⟨-, rfl, -⟩ | ⟨-, -, rfl, -⟩⟩ := h
  · simp
  · have := obuHead_pos o
    rw [List.length_append]
    omega

theorem obuCut_pos {E : List Byte} {u : Nat} {recs : List Record} (h : ObuCut E u recs) : 0 < E.length := by
  obtain h | ⟨o, ⟨-, -, -, rfl, -⟩ | ⟨front, rest, -, -, rfl, -⟩⟩ := h
  · exact obuHeadCut_pos h
  · exact obuBytes_pos o
  · have := obuBytes_pos o
    rw [List.length_append]
    omega

/-- Settles O43: the passes over the whole OBUs, then what stands after them. -/
theorem av1ObusInOrder : Obligations.Av1ObusInOrder := by
  intro s len obus tail front hobus hS hfront
  subst hfront
  obtain ⟨g, r, u, hg, hrun⟩ := obusFrom_wholes obus hobus [] ((inputBytes s len).length + 1) 0
    ((Ctx.start ()).addRecs [videoRec]) (S := inputBytes s len) (tail := tail) (by rw [hS]; rfl)
    (by rw [hS, List.length_append]; omega)
  obtain ⟨g, rfl⟩ : ∃ g', g = g' + 1 := ⟨g - 1, by omega⟩
  rw [List.nil_append, Nat.zero_add] at hrun
  simp only [Nat.zero_add] at hrun
  have hproc : av1ObusProc (inputBytes s len) (Ctx.start ()) = _ := (Parse.bind_ok (emit_eq _ _ _ _ _ _)).trans hrun
  refine ⟨fun htail => ?_, fun o ho hsize htail => ?_, fun recs hcut => ?_⟩
  · subst htail
    rw [List.append_nil] at hS
    rw [← hS, obusFrom_end] at hproc
    rw [exec_av1Obus, runParser_finished hproc]
    rfl
  · subst htail
    have hpos := obuBytes_pos o
    obtain ⟨g, rfl⟩ : ∃ g', g = g' + 1 := ⟨g - 1, by omega⟩
    obtain ⟨r', hr'⟩ := obusFrom_whole (f := g + 1) (el := obus.length) ho (.inr rfl) (rest := [])
      (S := inputBytes s len) (pre := (obus.map Obu.bytes).flatten) (by rw [hS, List.append_nil])
      (((Ctx.start ()).addRecs [videoRec]).moved (obus.mapIdx Obu.recs).flatten r u)
    rw [hr', ← hS, obusFrom_end] at hproc
    rw [exec_av1Obus, runParser_finished hproc]
    simp [Ctx.moved, Ctx.addRecs, Ctx.start]
  · obtain ⟨r', hr'⟩ := parseObu_cut
      { (((Ctx.start ()).addRecs [videoRec]).moved (obus.mapIdx Obu.recs).flatten r u) with unit := obus.length } hcut
    have htail := obuCut_pos hcut
    rw [obusFrom, if_pos (by rw [hS, List.length_append]; omega), Parse.bind_ok (setUnit_run _ _), hS,
      List.drop_left, Parse.bind_error hr', ← hS] at hproc
    rw [exec_av1Obus, runParser_raised hproc nofun]
    simp [Ctx.moved, Ctx.addRecs, Ctx.start]
    rfl

end Sys2Proof.Machine
end

section
/-! AV1_PAYLOAD over its elements (spec/42_av1.md section 1). -/

namespace Sys2Proof.Machine

open Sys2Proof.Safety

variable {s : State} {len : Half} {S : List Byte} {Z Y W f pos el : Nat} {c : Ctx Unit}

/-! ## The aggregation header -/

/-- The aggregation header (R231). -/
theorem aggHeader_run {a : Nat} (ha : a < 256) (c : Ctx Unit) :
    aggHeader a c = .ok (a / 128, a / 64 % 2, a / 16 % 4, a / 8 % 2)
      (c.addRecs [mkRec Field.aggZ (a / 128) c.unit, mkRec Field.aggY (a / 64 % 2) c.unit,
        mkRec Field.aggW (a / 16 % 4) c.unit, mkRec Field.aggN (a / 8 % 2) c.unit,
        mkRec Field.aggReserved (a % 8) c.unit]) := by
  have h7 : fieldOf a 7 7 = a / 128 := by rw [fieldOf_bit]; omega
  have h54 : fieldOf a 5 4 = a / 16 % 4 := by simp [fieldOf]
  have h6 : fieldOf a 6 6 = a / 64 % 2 := fieldOf_bit a 6
  have h3 : fieldOf a 3 3 = a / 8 % 2 := fieldOf_bit a 3
  have h20 : fieldOf a 2 0 = a % 8 := fieldOf_low a 2
  rw [aggHeader, h7, h6, h54, h3, h20]
  simp only [Parse.bind_ok (emit_eq _ _ _ _ _ _), Parse.pure_run, Ctx.addRecs, List.append_assoc]
  rfl

/-- The command up to its elements (R230, R231, R254). -/
theorem av1PayloadProc_run {a : Byte} {rest : List Byte} (hS : S = a :: rest) :
    av1PayloadProc S (Ctx.start ()) =
      elementsFrom S (a.toNat / 128) (a.toNat / 64 % 2) (a.toNat / 16 % 4) (S.length + 4) 1 0
        ((Ctx.start ()).addRecs (videoRec :: aggRecs a.toNat)) := by
  have hbyte : byteAt S 0 = a.toNat := by rw [hS]; rfl
  rw [av1PayloadProc, if_neg (by rw [hS]; simp), Parse.bind_ok (emit_eq _ _ _ _ _ _), hbyte,
    Parse.bind_ok (aggHeader_run a.isLt _)]
  dsimp only
  rw [aggRecs]
  split
  · rw [Parse.bind_ok (emit_eq _ _ _ _ _ _)]; rfl
  · rfl

/-! ## One pass -/

theorem not_decide_eq_false {p : Prop} [Decidable p] : (!decide p) = false ↔ p := by
  rw [Bool.not_eq_false', decide_eq_true_iff]

/-- What a pass does with the bytes `E` of its element (R232). -/
def elementBody (Z el : Nat) (complete : Bool) (E : List Byte) : Parse Unit Unit :=
  if el = 0 ∧ Z = 1 then emit Field.notDecoded Region.obuFragment.code
  else parseObu E complete >>= fun _ => pure ()

/-- An element that ends at `next` is the last of the packet (R232). -/
abbrev lastElement (S : List Byte) (W el next : Nat) : Prop := if W = 0 then next = S.length else el + 1 = W

/-- A pass that finds an element: its length is read, then what the bytes of that length hold (R232). -/
theorem elementsFrom_element {p L : Nat} {l : List Record} (hpos : pos < S.length) (hel : W = 0 ∨ el < W)
    (hlen : Yields (elementLength S W el pos) { c with unit := el } (L, p) l) {complete : Bool}
    (hcomplete : complete = false ↔ lastElement S W el (p + L) ∧ Y = 1) :
    ∃ r, elementsFrom S Z Y W (f + 1) pos el c =
      (if p + L > S.length then raise .truncated
        else elementBody Z el complete (slice S p L) >>= fun _ => elementsFrom S Z Y W f (p + L) (el + 1))
        (c.moved l r el) := by
  obtain ⟨r, hlen⟩ := hlen
  refine ⟨r, ?_⟩
  rw [elementsFrom, if_neg (by omega), if_neg (by omega), if_neg (by omega), Parse.bind_ok (setUnit_run _ _),
    Parse.bind_ok hlen]
  have hflag : (!decide ((if W = 0 then p + L = S.length else el + 1 = W) ∧ Y = 1)) = complete := by
    by_cases h : lastElement S W el (p + L) ∧ Y = 1
    · rw [hcomplete.mpr h]
      exact congrArg not (decide_eq_true h)
    · rw [eq_true_of_ne_false (mt hcomplete.mp h)]
      exact congrArg not (decide_eq_false h)
  dsimp only
  rw [hflag, elementBody]
  split
  · rfl
  · split
    · rfl
    · rw [bind_assoc]
      rfl

/-! ## Lengths and bodies of elements -/

/-- A length in front of its element (R232). -/
theorem elementLength_prefix {pre l post : List Byte} (hS : S = pre ++ l ++ post) (hel : W = 0 ∨ el + 1 < W)
    (hl : IsLeb128 l) (c : Ctx Unit) :
    Yields (elementLength S W el pre.length) c (leb128Value l, (pre ++ l).length)
      [mkRec Field.obuElementLength (leb128Value l) c.unit] := by
  have hread := Reader.leb128_run [] post hl
  rw [Yields, elementLength, if_pos hel, hS, List.append_assoc, List.drop_left, Parse.bind_ok (setReader_run _ _)]
  exact ⟨_, by rw [Parse.bind_ok (liftRead_ok hread)]; simp; rfl⟩

/-- A length that the payload cuts (R232, R127). -/
theorem elementLength_cut {pre l : List Byte} (hS : S = pre ++ l) (hel : W = 0 ∨ el + 1 < W) (hl : IsLeb128Start l)
    (c : Ctx Unit) : Truncates (elementLength S W el pre.length) c [] := by
  have hread := Reader.leb128_cut [] hl
  rw [Truncates, elementLength, if_pos hel, hS, List.drop_left, Parse.bind_ok (setReader_run _ _)]
  exact ⟨_, by rw [Parse.bind_error (liftRead_oob hread), Ctx.addRecs_nil]⟩

/-- The last of W elements takes the rest (R232). -/
theorem elementLength_rest {pre E : List Byte} (hS : S = pre ++ E) (hel : el + 1 = W) (c : Ctx Unit) :
    Yields (elementLength S W el pre.length) c (E.length, pre.length) [] := by
  have hrest : S.length - pre.length = E.length := by rw [hS, List.length_append]; omega
  rw [elementLength, if_neg (by omega), hrest]
  exact yields_pure

theorem slice_mid (pre E rest : List Byte) : slice (pre ++ E ++ rest) pre.length E.length = E := by
  rw [slice, List.append_assoc, List.drop_left, List.take_left]

/-- An element in its place is recorded (R232, R235 to R237). -/
theorem elementBody_yields {n : Nat} {e : Av1Element} {complete : Bool} (he : e.standsAt Z Y n el)
    (hcomplete : complete = false ↔ el + 1 = n ∧ Y = 1) (c : Ctx Unit) :
    Yields (elementBody Z el complete e.bytes) c () (e.recs c.unit) := by
  unfold elementBody
  cases e with
  | continuation b =>
    obtain ⟨hel, hZ, -⟩ := he
    rw [if_pos ⟨hel, hZ⟩]
    exact yields_emit
  | whole o rest =>
    obtain ⟨hfirst, hlast, ho, hend⟩ := he
    rw [if_neg hfirst, eq_true_of_ne_false (mt hcomplete.mp hlast), ← List.append_nil (Av1Element.recs _ _)]
    exact (parseObu_whole ho hend c).bind fun _ => yields_pure
  | start o rest =>
    obtain ⟨hfirst, hlast, hsize, hend⟩ := he
    rw [if_neg hfirst, hcomplete.mpr hlast, ← List.append_nil (Av1Element.recs _ _)]
    refine (parseObu_start ⟨hend, hsize.imp_right fun h => ?_⟩ c).bind fun _ => yields_pure
    exact ⟨rfl, h⟩

theorem standsAt_bytes_pos {n : Nat} {e : Av1Element} (he : e.standsAt Z Y n el) : 0 < e.bytes.length := by
  cases e with
  | continuation b => exact List.length_pos_iff.mpr he.2.2
  | whole o rest => exact (obuBytes_pos o).trans_le (by simp [Av1Element.bytes])
  | start o rest => exact (obuBytes_pos o).trans_le (by simp [Av1Element.bytes])

/-! ## Elements with their lengths before them -/

/-- Where `k` elements from element `el` on stand before `tail` in a packet that `n` elements end: with W = 0 they are
the last ones exactly when nothing follows, else at least one more is to come (R232). -/
def BeforeTail (W n el k : Nat) (tail : List Byte) : Prop :=
  if W = 0 then (tail = [] → n = el + k) ∧ (tail ≠ [] → el + k < n) else el + k < W ∧ el + k < n

/-- One pass over an element with its length before it (R232). -/
theorem elementsFrom_prefixed {n : Nat} {pre rest : List Byte} {p : PrefixedElement} (hp : p.fits)
    (he : p.element.standsAt Z Y n el) (hW : W = 0 ∨ el + 1 < W)
    (hlast : lastElement S W el (pre ++ p.prefixBytes ++ p.element.bytes).length ↔ el + 1 = n)
    (hS : S = pre ++ p.prefixBytes ++ p.element.bytes ++ rest) (c : Ctx Unit) :
    ∃ r, elementsFrom S Z Y W (f + 1) pre.length el c =
      elementsFrom S Z Y W f (pre ++ p.prefixBytes ++ p.element.bytes).length (el + 1)
        (c.moved (mkRec Field.obuElementLength (leb128Value p.prefixBytes) el :: p.element.recs el) r el) := by
  obtain ⟨hleb, hvalue⟩ := hp
  have hpos := standsAt_bytes_pos he
  have hlen := elementLength_prefix (hS.trans (List.append_assoc _ _ _)) hW hleb { c with unit := el }
  rw [hvalue] at hlen
  rw [List.length_append] at hlast
  obtain ⟨r, hr⟩ := elementsFrom_element (Z := Z) (f := f) (complete := !decide (el + 1 = n ∧ Y = 1))
    (by rw [hS]; simp; omega) (by omega) hlen (not_decide_eq_false.trans (and_congr_left' hlast.symm))
  obtain ⟨r', hr'⟩ := elementBody_yields (complete := !decide (el + 1 = n ∧ Y = 1)) he not_decide_eq_false (c.moved
    [mkRec Field.obuElementLength p.element.bytes.length el] r el)
  refine ⟨r', ?_⟩
  rw [hr, if_neg (by rw [hS]; simp; omega), hS, slice_mid, Parse.bind_ok hr', hvalue, List.length_append]
  simp [Ctx.moved, Ctx.addRecs, Nat.add_assoc]

@[simp] theorem prefixedBytes_cons (p : PrefixedElement) (els : List PrefixedElement) :
    prefixedBytes (p :: els) = p.prefixBytes ++ p.element.bytes ++ prefixedBytes els := rfl

theorem prefixedBytes_pos {els : List PrefixedElement} (hfits : ∀ p ∈ els, p.fits) (hne : els ≠ []) :
    0 < (prefixedBytes els).length := by
  obtain ⟨p, els, rfl⟩ := List.exists_cons_of_ne_nil hne
  have := (hfits p List.mem_cons_self).1.1
  rw [prefixedBytes_cons, List.length_append, List.length_append]
  omega

/-- An element with its length before it is the last of the packet exactly when it is number `n` (R232). -/
theorem lastElement_iff {n : Nat} {front tail : List Byte} {els : List PrefixedElement} (hfits : ∀ p ∈ els, p.fits)
    (hB : BeforeTail W n el (els.length + 1) tail) (hS : S = front ++ (prefixedBytes els ++ tail)) :
    lastElement S W el front.length ↔ el + 1 = n := by
  have hpos := prefixedBytes_pos hfits
  have hlen : S.length = front.length + ((prefixedBytes els).length + tail.length) := by rw [hS]; simp
  unfold lastElement
  unfold BeforeTail at hB
  split
  next hW =>
    rw [if_pos hW] at hB
    obtain rfl | hels := eq_or_ne els []
    · obtain rfl | htail := eq_or_ne tail []
      · have hn := hB.1 rfl
        simp [hlen, prefixedBytes, hn]
      · have hn := hB.2 htail
        have := List.length_pos_iff.mpr htail
        simp only [List.length_nil] at hn
        omega
    · have := hpos hels
      have := List.length_pos_iff.mpr hels
      obtain rfl | htail := eq_or_ne tail []
      · have := hB.1 rfl
        omega
      · have := hB.2 htail
        omega
  next hW =>
    rw [if_neg hW] at hB
    omega

theorem BeforeTail.lt {n k : Nat} {tail : List Byte} (h : BeforeTail W n el (k + 1) tail) : W = 0 ∨ el + 1 < W := by
  unfold BeforeTail at h
  split at h <;> omega

theorem BeforeTail.next {n k : Nat} {tail : List Byte} (h : BeforeTail W n el (k + 1) tail) :
    BeforeTail W n (el + 1) k tail := by
  unfold BeforeTail at h ⊢
  rwa [Nat.add_right_comm, Nat.add_assoc]

/-- Passes over any number of elements with their lengths before them (R232). Each consumes a byte, so the pass count is
not reached (log entry 7). -/
theorem elementsFrom_prefixeds {n : Nat} {tail : List Byte} (els : List PrefixedElement) (hfits : ∀ p ∈ els, p.fits)
    (pre : List Byte) (f el : Nat)
    (hstand : ∀ (i : Nat) (p : PrefixedElement), els[i]? = some p → p.element.standsAt Z Y n (el + i))
    (hB : BeforeTail W n el els.length tail) (hS : S = pre ++ prefixedBytes els ++ tail)
    (hf : (prefixedBytes els ++ tail).length + 2 < f) (c : Ctx Unit) :
    ∃ g r u, tail.length + 2 < g ∧ elementsFrom S Z Y W f pre.length el c =
      elementsFrom S Z Y W g (pre ++ prefixedBytes els).length (el + els.length)
        (c.moved (els.mapIdx fun i p =>
          mkRec Field.obuElementLength (leb128Value p.prefixBytes) (el + i) :: p.element.recs (el + i)).flatten r u) := by
  induction els generalizing pre f el c with
  | nil => exact ⟨f, c.rd, c.unit, by simpa [prefixedBytes] using hf, by simp [prefixedBytes, Ctx.moved, Ctx.addRecs]⟩
  | cons p els ih =>
    obtain ⟨hp, hrest⟩ := List.forall_mem_cons.mp hfits
    have hfront : S = pre ++ p.prefixBytes ++ p.element.bytes ++ (prefixedBytes els ++ tail) := by rw [hS]; simp
    have hpos := hp.1.1
    rw [prefixedBytes_cons] at hf
    obtain ⟨f, rfl⟩ : ∃ f', f = f' + 1 := ⟨f - 1, by omega⟩
    obtain ⟨r, hr⟩ := elementsFrom_prefixed (f := f) (el := el) hp (hstand 0 p rfl) hB.lt
      (lastElement_iff hrest hB hfront) hfront c
    obtain ⟨g, r', u, hg, hrun⟩ := ih hrest (pre ++ p.prefixBytes ++ p.element.bytes) f (el + 1)
      (fun i q hq => by simpa [Nat.add_assoc, Nat.add_comm 1] using hstand (i + 1) q hq) hB.next (by rw [hfront]; simp)
      (by simp at hf ⊢; omega)
      (c.moved (mkRec Field.obuElementLength (leb128Value p.prefixBytes) el :: p.element.recs el) r el)
    refine ⟨g, r', u, hg, ?_⟩
    rw [hr, hrun]
    simp [Ctx.moved, Ctx.addRecs, Nat.add_assoc, Nat.add_comm 1]

/-! ## Ends of a packet -/

/-- From `c` the procedure completes after the records `l`, with some reader in use at some unit. -/
def Completes (p : Parse Unit Unit) (c : Ctx Unit) (l : List Record) : Prop := ∃ r u, p c = .ok () (c.moved l r u)

/-- From `c` the procedure is TRUNCATED after the records `l`, at some unit. -/
def Stops (p : Parse Unit Unit) (c : Ctx Unit) (l : List Record) : Prop := ∃ r u, p c = .error .truncated (c.moved l r u)

theorem Ctx.moved_nil (c : Ctx Unit) (u : Nat) : c.moved [] c.rd u = { c with unit := u } := by
  simp [Ctx.moved, Ctx.addRecs]

/-- The end of the packet, or of its W elements (R232). -/
theorem elementsFrom_done (h : W = 0 ∧ pos = S.length ∨ 0 < W ∧ el = W) (c : Ctx Unit) :
    elementsFrom S Z Y W (f + 1) pos el c = .ok () { c with unit := 0 } := by
  rw [elementsFrom]
  obtain h | ⟨hW, hel⟩ := h
  · rw [if_pos h, setUnit_run]
  · rw [if_neg (by omega), if_pos ⟨hW, hel⟩, setUnit_run]

theorem elementsFrom_completes_end (hW : W = 0) (hpos : pos = S.length) (c : Ctx Unit) :
    Completes (elementsFrom S Z Y W (f + 1) pos el) c [] :=
  ⟨c.rd, 0, by rw [elementsFrom_done (.inl ⟨hW, hpos⟩), Ctx.moved_nil]⟩

/-- The last of W elements, which has no length before it (R232). -/
theorem elementsFrom_completes_last {pre : List Byte} {e : Av1Element} (he : e.standsAt Z Y W el)
    (hW : el + 1 = W) (hS : S = pre ++ e.bytes) (c : Ctx Unit) :
    Completes (elementsFrom S Z Y W (f + 2) pre.length el) c (e.recs el) := by
  have hpos := standsAt_bytes_pos he
  obtain ⟨r, hr⟩ := elementsFrom_element (Z := Z) (Y := Y) (f := f + 1) (complete := !decide (el + 1 = W ∧ Y = 1))
    (by rw [hS]; simp; omega) (by omega) (elementLength_rest hS hW { c with unit := el })
    (by rw [not_decide_eq_false, lastElement, if_neg (by omega)])
  obtain ⟨r', hr'⟩ := elementBody_yields (complete := !decide (el + 1 = W ∧ Y = 1)) he not_decide_eq_false
    (c.moved [] r el)
  have hslice := slice_mid pre e.bytes []
  rw [List.append_nil, ← hS] at hslice
  refine ⟨r', 0, ?_⟩
  rw [hr, if_neg (by rw [hS]; simp), hslice, Parse.bind_ok hr', elementsFrom_done (.inr ⟨by omega, hW⟩)]
  simp [Ctx.moved, Ctx.addRecs]

/-- An element is missing (R232). -/
theorem elementsFrom_stops_missing (hel : el < W) (hpos : pos = S.length) (c : Ctx Unit) :
    Stops (elementsFrom S Z Y W (f + 1) pos el) c [] := by
  refine ⟨c.rd, c.unit, ?_⟩
  rw [elementsFrom, if_neg (by omega), if_neg (by omega), if_pos hpos, raise_run, Ctx.moved_nil]

/-- The length of an element is cut (R232). -/
theorem elementsFrom_stops_cut {pre l : List Byte} (hS : S = pre ++ l) (hW : W = 0 ∨ el + 1 < W)
    (hl : IsLeb128Start l) (hne : l ≠ []) (c : Ctx Unit) : Stops (elementsFrom S Z Y W (f + 1) pre.length el) c [] := by
  have hpos : pre.length < S.length := by rw [hS, List.length_append]; have := List.length_pos_iff.mpr hne; omega
  obtain ⟨r, hr⟩ := elementLength_cut hS hW hl { c with unit := el }
  refine ⟨r, el, ?_⟩
  rw [elementsFrom, if_neg (by omega), if_neg (by omega), if_neg (by omega), Parse.bind_ok (setUnit_run _ _),
    Parse.bind_error hr]
  rfl

/-- An element longer than the rest of the packet (R232). -/
theorem elementsFrom_stops_long {pre l rest : List Byte} (hS : S = pre ++ l ++ rest) (hW : W = 0 ∨ el + 1 < W)
    (hl : IsLeb128 l) (hlong : rest.length < leb128Value l) (c : Ctx Unit) :
    Stops (elementsFrom S Z Y W (f + 1) pre.length el) c [mkRec Field.obuElementLength (leb128Value l) el] := by
  have hpos := hl.1
  obtain ⟨r, hr⟩ := elementsFrom_element (Z := Z) (Y := Y) (f := f) (by rw [hS]; simp; omega) (by omega)
    (elementLength_prefix hS hW hl { c with unit := el }) not_decide_eq_false
  exact ⟨r, el, by rw [hr, if_pos (by simp [hS]; omega), raise_run]⟩

/-- An element that no OBU can be read from (R232, R235 to R237). -/
theorem elementsFrom_stops_body {p L : Nat} {E : List Byte} {l recs : List Record} (hpos : pos < S.length)
    (hel : W = 0 ∨ el < W) (hlen : Yields (elementLength S W el pos) { c with unit := el } (L, p) l)
    (hfits : p + L ≤ S.length) (hE : slice S p L = E) (hfirst : ¬ (el = 0 ∧ Z = 1))
    (hcut : (E = [] ∧ recs = []) ∨ ObuCut E el recs ∧ ¬ (lastElement S W el (p + L) ∧ Y = 1) ∨ ObuHeadCut E el recs) :
    Stops (elementsFrom S Z Y W (f + 1) pos el) c (l ++ recs) := by
  obtain ⟨r, hr⟩ := elementsFrom_element (Z := Z) (Y := Y) (f := f) hpos hel hlen not_decide_eq_false
  have hbody : Truncates (parseObu E (!decide (lastElement S W el (p + L) ∧ Y = 1))) (c.moved l r el) recs := by
    obtain ⟨rfl, rfl⟩ | ⟨hcut, hlast⟩ | hcut := hcut
    · exact parseObu_nil _ _
    · rw [decide_eq_false hlast]
      exact parseObu_cut _ hcut
    · exact parseObu_headCut _ _ hcut
  obtain ⟨r', hr'⟩ := hbody
  refine ⟨r', el, ?_⟩
  rw [hr, if_neg (by omega), hE, elementBody, if_neg hfirst, bind_assoc, Parse.bind_error hr']
  simp [Ctx.moved, Ctx.addRecs]

/-! ## Whole packets -/

/-- A packet starts with the aggregation header `a` and the elements `els`, of `n`, before `tail` (R230 to R232). -/
structure PayloadFront (S : List Byte) (a : Byte) (els : List PrefixedElement) (tail : List Byte) (n : Nat) : Prop where
  bytes : S = a :: prefixedBytes els ++ tail
  fits : ∀ p ∈ els, p.fits
  stand : ElementsStand (a.toNat / 128) (a.toNat / 64 % 2) n (els.map (·.element))
  before : BeforeTail (a.toNat / 16 % 4) n 0 els.length tail

/-- The records of the aggregation header and the elements. -/
def payloadFrontRecs (a : Byte) (els : List PrefixedElement) : List Record :=
  videoRec :: aggRecs a.toNat ++ prefixedRecs els

/-- The passes over the elements at the start of a packet (R232). -/
theorem av1PayloadProc_front {a : Byte} {els : List PrefixedElement} {tail : List Byte} {n : Nat}
    (h : PayloadFront S a els tail n) :
    ∃ g r u, av1PayloadProc S (Ctx.start ()) =
      elementsFrom S (a.toNat / 128) (a.toNat / 64 % 2) (a.toNat / 16 % 4) (g + 2) (a :: prefixedBytes els).length els.length
        ((Ctx.start ()).moved (payloadFrontRecs a els) r u) := by
  obtain ⟨g, r, u, hg, hrun⟩ := elementsFrom_prefixeds els h.fits [a] (S.length + 4) 0
    (fun i p hp => by simpa using h.stand i p.element (by simp [hp])) h.before h.bytes (by rw [h.bytes]; simp)
    ((Ctx.start ()).addRecs (videoRec :: aggRecs a.toNat))
  obtain ⟨g, rfl⟩ : ∃ g', g = g' + 2 := ⟨g - 2, by omega⟩
  refine ⟨g, r, u, ?_⟩
  rw [av1PayloadProc_run h.bytes]
  simpa [Ctx.moved, Ctx.addRecs, payloadFrontRecs, prefixedRecs] using hrun

theorem exec_av1Payload_completes {a : Byte} {els : List PrefixedElement} {tail : List Byte} {n : Nat}
    {recs : List Record} (h : PayloadFront (inputBytes s len) a els tail n)
    (hend : ∀ f c, Completes (elementsFrom (inputBytes s len) (a.toNat / 128) (a.toNat / 64 % 2) (a.toNat / 16 % 4) (f + 2)
      (a :: prefixedBytes els).length els.length) c recs) :
    exec (.av1Payload len) s = .next (finished s 0x20 0 (payloadFrontRecs a els ++ recs)) := by
  obtain ⟨g, r, u, hrun⟩ := av1PayloadProc_front h
  obtain ⟨r', u', hend⟩ := hend g ((Ctx.start ()).moved (payloadFrontRecs a els) r u)
  rw [exec_av1Payload, runParser_finished (hrun.trans hend)]
  rfl

theorem exec_av1Payload_stops {a : Byte} {els : List PrefixedElement} {tail : List Byte} {n : Nat}
    {recs : List Record} (h : PayloadFront (inputBytes s len) a els tail n)
    (hend : ∀ f c, Stops (elementsFrom (inputBytes s len) (a.toNat / 128) (a.toNat / 64 % 2) (a.toNat / 16 % 4) (f + 2)
      (a :: prefixedBytes els).length els.length) c recs) :
    exec (.av1Payload len) s = .next (finished s 0x20 2 (payloadFrontRecs a els ++ recs ++ [errRec 2])) := by
  obtain ⟨g, r, u, hrun⟩ := av1PayloadProc_front h
  obtain ⟨r', u', hend⟩ := hend g ((Ctx.start ()).moved (payloadFrontRecs a els) r u)
  rw [exec_av1Payload, runParser_raised (hrun.trans hend) nofun]
  rfl

theorem beforeTail_end (k : Nat) : BeforeTail 0 k 0 k [] := ⟨fun _ => (Nat.zero_add k).symm, fun h => absurd rfl h⟩

theorem beforeTail_count {k : Nat} {tail : List Byte} (h : k < W) : BeforeTail W W 0 k tail := by
  rw [BeforeTail, if_neg (by omega)]
  omega

theorem beforeTail_next {k : Nat} {tail : List Byte} (h : W = 0 ∧ tail ≠ [] ∨ k < W) : BeforeTail W (k + 1) 0 k tail := by
  unfold BeforeTail
  split
  · exact ⟨fun ht => absurd ht (h.resolve_right (by omega)).2, fun _ => by omega⟩
  · omega

theorem ElementsStand.front {n : Nat} {els : List Av1Element} {e : Av1Element} (h : ElementsStand Z Y n (els ++ [e])) :
    ElementsStand Z Y n els := fun i p hp => h i p (by rw [List.getElem?_append_left (List.getElem?_eq_some_iff.mp hp).1, hp])

theorem ElementsStand.last {n : Nat} {els : List Av1Element} {e : Av1Element} (h : ElementsStand Z Y n (els ++ [e])) :
    e.standsAt Z Y n els.length := h els.length e (by simp)

/-- An element with its length before it that no OBU can be read from (R232). -/
theorem elementsFrom_stops_prefixed {pre l E rest : List Byte} {recs : List Record} (hS : S = pre ++ l ++ E ++ rest)
    (hW : W = 0 ∨ el + 1 < W) (hl : IsLeb128 l) (hvalue : leb128Value l = E.length) (hfirst : ¬ (el = 0 ∧ Z = 1))
    (hcut : (E = [] ∧ recs = []) ∨ ObuCut E el recs ∧ (W ≠ 0 ∨ rest ≠ [] ∨ Y ≠ 1) ∨ ObuHeadCut E el recs)
    (c : Ctx Unit) :
    Stops (elementsFrom S Z Y W (f + 1) pre.length el) c
      (mkRec Field.obuElementLength (leb128Value l) el :: recs) := by
  have hpos := hl.1
  have hlen := elementLength_prefix (hS.trans (List.append_assoc _ _ _)) hW hl { c with unit := el }
  refine elementsFrom_stops_body (by rw [hS]; simp; omega) (by omega) hlen (by simp [hS]; omega)
    (by rw [hS, hvalue, slice_mid]) hfirst (hcut.imp_right <| Or.imp_left <| And.imp_right fun h hlast => ?_)
  obtain ⟨hlast, hY⟩ := hlast
  unfold lastElement at hlast
  split at hlast
  next hW0 =>
    have hrest : rest.length = 0 := by simp [hS] at hlast; omega
    exact h.elim (· hW0) (·.elim (· (List.length_eq_zero_iff.mp hrest)) (· hY))
  next hW0 => omega

/-- The last of W elements, that no OBU can be read from (R232). -/
theorem elementsFrom_stops_last {pre E : List Byte} {recs : List Record} (hS : S = pre ++ E) (hpos : 0 < E.length)
    (hW : el + 1 = W) (hfirst : ¬ (el = 0 ∧ Z = 1))
    (hcut : ObuCut E el recs ∧ Y ≠ 1 ∨ ObuHeadCut E el recs)
    (c : Ctx Unit) :
    Stops (elementsFrom S Z Y W (f + 1) pre.length el) c recs := by
  have hslice := slice_mid pre E []
  rw [List.append_nil, ← hS] at hslice
  exact elementsFrom_stops_body (by rw [hS]; simp; omega) (by omega) (elementLength_rest hS hW { c with unit := el })
    (by simp [hS]) hslice hfirst (.inr (hcut.imp_left <| And.imp_right fun h hlast => h hlast.2))

/-- Settles O46: the passes over the elements before `tail`, then what `tail` holds. -/
theorem av1PayloadElements : Obligations.Av1PayloadElements := by
  intro s len a els tail Z Y W front hZ hY hW hfits hS hfront
  subst hZ hY hW hfront
  have hpayload : ∀ n, ElementsStand (a.toNat / 128) (a.toNat / 64 % 2) n (els.map (·.element)) →
      BeforeTail (a.toNat / 16 % 4) n 0 els.length tail → PayloadFront (inputBytes s len) a els tail n :=
    fun n hstand hbefore => ⟨hS, hfits, hstand, hbefore⟩
  have hnot : els ≠ [] ∨ a.toNat / 128 = 0 → ¬ (els.length = 0 ∧ a.toNat / 128 = 1) := by
    rw [ne_eq, ← List.length_eq_zero_iff]
    omega
  refine ⟨fun hW htail hstand => ?_, fun e hW htail hstand => ?_, fun hW htail hstand => ?_,
    fun l rest hW htail hstand => ⟨fun hl hne hrest => ?_, fun hl hbad => ?_⟩,
    fun E recs hfirst hstand => ⟨fun l rest hW htail hl hvalue hcut => ?_, fun hW htail hcut => ?_⟩⟩
  · subst htail
    have h := hpayload els.length hstand (by rw [hW]; exact beforeTail_end _)
    rw [exec_av1Payload_completes h fun f c => elementsFrom_completes_end hW (by rw [hS, List.append_nil]) c,
      List.append_nil]
    rfl
  · subst htail
    have h := hpayload _ (ElementsStand.front hstand) (beforeTail_count (by omega))
    have hlast := ElementsStand.last hstand
    rw [List.length_map] at hlast
    exact exec_av1Payload_completes h fun f c => elementsFrom_completes_last hlast hW.symm hS c
  · subst htail
    have h := hpayload _ hstand (beforeTail_count hW)
    rw [exec_av1Payload_stops h fun f c => elementsFrom_stops_missing hW (by rw [hS, List.append_nil]) c,
      List.append_nil]
    rfl
  · subst htail hrest
    rw [List.append_nil] at hS hpayload
    have h := hpayload _ hstand (beforeTail_next (hW.imp (⟨·, hne⟩) (by omega)))
    rw [exec_av1Payload_stops h fun f c => elementsFrom_stops_cut hS hW hl hne c, List.append_nil]
    rfl
  · subst htail
    have hne := List.length_pos_iff.mp hl.1
    have h := hpayload _ hstand (beforeTail_next (hW.imp (⟨·, by simp [hne]⟩) (by omega)))
    rw [← List.append_assoc] at hS
    refine (exec_av1Payload_stops (recs := [mkRec Field.obuElementLength (leb128Value l) els.length]) h
      fun f c => ?_).trans (by simp [payloadFrontRecs])
    obtain hlong | ⟨hzero, hfirst⟩ := hbad
    · exact elementsFrom_stops_long hS hW hl hlong c
    · exact elementsFrom_stops_prefixed (E := []) (rest := rest) (hS.trans (by simp)) hW hl hzero (hnot hfirst)
        (.inl ⟨rfl, rfl⟩) c
  · subst htail
    have hne := List.length_pos_iff.mp hl.1
    have h := hpayload _ hstand (beforeTail_next (hW.imp (⟨·, by simp [hne]⟩) (by omega)))
    rw [← List.append_assoc, ← List.append_assoc] at hS
    refine (exec_av1Payload_stops (recs := mkRec Field.obuElementLength (leb128Value l) els.length :: recs) h
      fun f c => elementsFrom_stops_prefixed hS hW hl hvalue (hnot hfirst) (.inr ?_) c).trans
      (by simp [payloadFrontRecs])
    exact hcut.imp_left (And.imp_right (Or.imp_right (Or.imp_right (by omega))))
  · subst htail
    have h := hpayload _ hstand (beforeTail_next (.inr (by omega)))
    have hpos : 0 < tail.length := hcut.elim (fun h => obuCut_pos h.1) obuHeadCut_pos
    refine exec_av1Payload_stops h fun f c => elementsFrom_stops_last hS hpos hW.symm (hnot hfirst) ?_ c
    exact hcut.imp_left (And.imp_right (by omega))

end Sys2Proof.Machine
end

section
/-! The statements about sequence headers and single elements, from those about lists of OBUs and elements. -/

namespace Sys2Proof.Machine

open Sys2Proof.Safety

variable {s : State} {len : Half}

theorem mapIdx_obuRecs_append (pre post : List Obu) (o : Obu) :
    ((pre ++ o :: post).mapIdx Obu.recs).flatten =
      (pre.mapIdx Obu.recs).flatten ++ o.recs pre.length ++
        (post.mapIdx fun u p => p.recs (pre.length + 1 + u)).flatten := by
  simp [List.mapIdx_append, Nat.add_comm, Nat.add_left_comm]

theorem obuRecs_of_sequence {o : Obu} {x : SeqSyntax} (hx : o.sequence = some x) (u : Nat) :
    o.recs u = o.extentRecs u ++ x.elems.map (Elem.recordAt u) := by
  rw [Obu.recs, hx]

theorem elementsStand_nil (Z Y n : Nat) : ElementsStand Z Y n ([].map PrefixedElement.element) :=
  fun _ _ h => by simp at h

/-- AV1_PAYLOAD on one element without a length (R230 to R232). -/
theorem exec_av1Payload_one {a : Byte} {e : Av1Element} (hW : a.toNat / 16 % 4 = 1)
    (he : e.standsAt (a.toNat / 128) (a.toNat / 64 % 2) 1 0) (hS : inputBytes s len = a :: e.bytes) :
    exec (.av1Payload len) s = .next (finished s 0x20 0 (videoRec :: aggRecs a.toNat ++ e.recs 0)) := by
  have h := (av1PayloadElements s len a [] e.bytes _ _ _ _ rfl rfl rfl nofun hS rfl).2.1 e hW rfl
  rw [hW] at h
  simpa [prefixedRecs] using h fun i e' hi => by
    rw [List.map_nil, List.nil_append] at hi
    obtain ⟨hlt, rfl⟩ := List.getElem?_eq_some_iff.mp hi
    obtain rfl : i = 0 := by simpa using hlt
    exact he

/-- Settles O44, from O43 and O46. -/
theorem sequenceHeaderReadsBack : Obligations.SequenceHeaderReadsBack := by
  refine fun s len o x ho hx => ⟨fun pre post hwhole hend hS => ?_, fun a rest hZY hW hend hS => ?_⟩
  · have hrecs := obuRecs_of_sequence hx pre.length
    cases hs : o.hasSize with
    | true =>
      have h := (av1ObusInOrder s len (pre ++ o :: post) [] _ (fun p hp => by
          obtain hp | rfl | hp := by simpa using hp
          · exact hwhole p (by simp [hp])
          · exact ⟨ho, hs⟩
          · exact hwhole p (by simp [hp])) (by simpa using hS) rfl).1 rfl
      rw [h, mapIdx_obuRecs_append, hrecs]
      simp
    | false =>
      obtain rfl := hend.resolve_left (by simp [hs])
      have h := (av1ObusInOrder s len pre o.bytes _ (fun p hp => hwhole p (by simp [hp])) (by simpa using hS) rfl).2.1
        o ho hs rfl
      rw [h, hrecs]
      simp
  · have h := exec_av1Payload_one (s := s) (len := len) (a := a) (e := .whole o rest) hW
      ⟨by omega, by omega, ho, hend⟩ hS
    rw [h, Av1Element.recs, obuRecs_of_sequence hx]
    simp
    rfl

/-- AV1_PAYLOAD on an aggregation header alone (R232). -/
theorem exec_av1Payload_none {a : Byte} (hS : inputBytes s len = [a]) :
    (a.toNat / 16 % 4 = 0 → exec (.av1Payload len) s = .next (finished s 0x20 0 (videoRec :: aggRecs a.toNat))) ∧
    (a.toNat / 16 % 4 ≠ 0 →
      exec (.av1Payload len) s = .next (finished s 0x20 2 (videoRec :: aggRecs a.toNat ++ [errRec 2]))) := by
  have h := av1PayloadElements s len a [] [] _ _ _ _ rfl rfl rfl nofun hS rfl
  refine ⟨fun hW => ?_, fun hW => ?_⟩
  · simpa [prefixedRecs] using h.1 hW rfl (elementsStand_nil _ _ _)
  · simpa [prefixedRecs] using h.2.2.1 (Nat.pos_of_ne_zero hW) rfl (elementsStand_nil _ _ _)

/-- An OBU without extension and size field, of which the header says nothing more. -/
def plainObu (header : Byte) (payload : List Byte) : Obu := ⟨header, 0, [], payload, none⟩

theorem plainObu_facts {header : Byte} {payload : List Byte} (h : header.toNat / 2 % 4 = 0) :
    (plainObu header payload).hasSize = false ∧ (plainObu header payload).bytes = header :: payload ∧
      (∀ u, (plainObu header payload).extentRecs u =
        obuHeaderRecs u header.toNat ++ [mkRec Field.obuPayloadLength payload.length u]) := by
  have hbit2 : header.toNat / 4 % 2 = 0 := by omega
  have hbit1 : header.toNat / 2 % 2 = 0 := by omega
  have hext : (plainObu header payload).hasExtension = false := by simp [plainObu, Obu.hasExtension, hbit2]
  have hsize : (plainObu header payload).hasSize = false := by simp [plainObu, Obu.hasSize, hbit1]
  refine ⟨hsize, ?_, fun u => ?_⟩
  · simp [Obu.bytes, Obu.head, hext, hsize]
    exact ⟨rfl, rfl⟩
  · simp [Obu.extentRecs, Obu.headRecs, Obu.sizeRecs, hext, hsize]
    exact ⟨rfl, rfl⟩

/-- Settles O45, from O46. -/
theorem av1PayloadOneElement : Obligations.Av1PayloadOneElement := by
  intro s len a ha
  have hlen := inputBytes_length s len
  generalize hS : inputBytes s len = S at ha hlen
  refine ⟨fun h1 hW => ?_, fun h1 hW => ?_, fun h1 hZ hW => ?_, fun h1 hZ hW hbyte => ?_⟩
  · obtain ⟨b, rfl⟩ := List.length_eq_one_iff.mp (hlen.trans h1)
    subst ha
    exact (exec_av1Payload_none hS).1 hW
  · obtain ⟨b, rfl⟩ := List.length_eq_one_iff.mp (hlen.trans h1)
    subst ha
    exact (exec_av1Payload_none hS).2 hW
  · match S with
    | [] | [_] => simp at hlen; omega
    | b :: b' :: rest =>
      subst ha
      exact exec_av1Payload_one (e := .continuation (b' :: rest)) hW ⟨rfl, hZ, nofun⟩ hS
  · match S with
    | [] | [_] => simp at hlen; omega
    | b :: b' :: rest =>
      obtain rfl : b.toNat = a := ha
      have hb' : byteAt (b :: b' :: rest) 1 = b'.toNat := rfl
      rw [hb'] at hbyte ⊢
      obtain ⟨hsize, hbytes, hrecs⟩ := plainObu_facts (payload := rest) hbyte
      have hrest : len.toNat - 2 = rest.length := by simp at hlen; omega
      rw [hrest]
      refine ⟨fun hY => ?_, fun hY ht => ?_⟩
      · rw [exec_av1Payload_one (e := .start (plainObu b' rest) []) hW
          ⟨by omega, ⟨rfl, hY⟩, .inl (by simp [Obu.sizeFits, hsize]), .inr rfl⟩
          (by rw [hS, Av1Element.bytes, hbytes]; simp)]
        simp [Av1Element.recs, hrecs]
      · rw [exec_av1Payload_one (e := .whole (plainObu b' rest) []) hW
          ⟨by omega, by omega, ⟨by simp [Obu.sizeFits, hsize], ht⟩, .inr rfl⟩
          (by rw [hS, Av1Element.bytes, hbytes]; simp)]
        have hlen2 : len.toNat = 2 ↔ ¬ 0 < rest.length := by omega
        simp only [Av1Element.recs, Obu.recs, hrecs, hlen2, ite_not, List.append_assoc]
        rfl

/-- Settles O34: the H.264 part from the reading of the elements, the AV1 part from O43 and O46. -/
theorem cutSyntaxIsTruncated : Obligations.CutSyntaxIsTruncated := by
  refine fun s len front => ⟨fun i start body elems hin hcut => exec_of_cutAfter hin hcut, fun o rest ho hend =>
    ⟨fun pre hpre hS => ?_, fun a hZY hW hS => ?_⟩⟩
  · have h := (av1ObusInOrder s len pre (o.bytes ++ rest) _ hpre (by simpa using hS) rfl).2.2 _
      (.inr ⟨o, .inr ⟨front, rest, ho, hend, rfl, rfl⟩⟩)
    simpa using h
  · rw [show front.map Elem.record = front.map (Elem.recordAt 0) from rfl]
    have h := ((av1PayloadElements s len a [] (o.bytes ++ rest) _ _ _ _ rfl rfl rfl nofun hS rfl).2.2.2.2
      (o.bytes ++ rest) (o.extentRecs 0 ++ front.map (Elem.recordAt 0)) (.inr (by omega)) (elementsStand_nil _ _ _)).2
      hW rfl (.inl ⟨.inr ⟨o, .inr ⟨front, rest, ho, hend, rfl, rfl⟩⟩, by omega⟩)
    simpa [prefixedRecs] using h

end Sys2Proof.Machine
end

section
/-! STAP-A (spec/41_h264.md R163): a unit parsed as number `k` records what it records alone, at unit `k`. -/

namespace Sys2Proof.Machine

open Sys2Proof.Safety

/-! ## Procedures that record at the unit in force -/

/-- The context of unit `k` after the records `start`, for a context of unit 0. -/
def Ctx.shift {σ : Type} (start : List Record) (k : Nat) (c : Ctx σ) : Ctx σ :=
  { c with unit := k, recs := start ++ c.recs.map (atUnit k) }

/-- A result with its context at unit `k` after the records `start`. -/
def shiftResult {σ α : Type} (start : List Record) (k : Nat) :
    EStateM.Result Status (Ctx σ) α → EStateM.Result Status (Ctx σ) α
  | .ok a c => .ok a (c.shift start k)
  | .error st c => .error st (c.shift start k)

/-- From a context of unit 0 and from the same at unit `k` after other records, the procedure does the same, with its
records at unit `k` (R90). -/
def AtUnits {σ α : Type} (p : Parse σ α) : Prop :=
  ∀ (c : Ctx σ) (start : List Record) (k : Nat), c.unit = 0 →
    (∀ a c', p c = .ok a c' → c'.unit = 0) ∧ p (c.shift start k) = shiftResult start k (p c)

section
variable {σ α β : Type} {p : Parse σ α} {f : α → Parse σ β} {g : Half}

theorem AtUnits.bind (hp : AtUnits p) (hf : ∀ a, AtUnits (f a)) : AtUnits (p >>= f) := by
  intro c start k hc
  obtain ⟨hunit, hshift⟩ := hp c start k hc
  rw [Parse.bind_run, Parse.bind_run, hshift]
  cases h : p c with
  | ok a c' => exact hf a c' start k (hunit a c' h)
  | error st c' => exact ⟨nofun, rfl⟩

theorem atUnits_pure (a : α) : AtUnits (pure a : Parse σ α) :=
  fun _ _ _ hc => ⟨fun _ _ h => by cases h; exact hc, rfl⟩

theorem atUnits_raise (st : Status) : AtUnits (raise st : Parse σ α) := fun _ _ _ _ => ⟨nofun, rfl⟩

theorem atUnit_mkRec (hg : g ≠ Field.error) (v u i j k l : Nat) : atUnit l (mkRec g v u i j k) = mkRec g v l i j k :=
  if_neg hg

theorem atUnits_emit (hg : g ≠ Field.error) (v i j k : Nat) : AtUnits (emit g v i j k : Parse σ Unit) :=
  fun c start l hc => ⟨fun _ _ h => by cases h; exact hc, by
    rw [emit_eq, emit_eq, shiftResult, Ctx.addRecs, Ctx.addRecs, Ctx.shift, Ctx.shift, List.map_append, List.map_singleton,
      atUnit_mkRec hg, List.append_assoc]⟩

theorem atUnits_setReader (r : Reader) : AtUnits (setReader r : Parse σ Unit) :=
  fun _ _ _ hc => ⟨fun _ _ h => by cases h; exact hc, rfl⟩

theorem atUnits_getReader : AtUnits (getReader : Parse σ Reader) :=
  fun _ _ _ hc => ⟨fun _ _ h => by cases h; exact hc, rfl⟩

theorem atUnits_getEnv : AtUnits (getEnv : Parse σ σ) :=
  fun _ _ _ hc => ⟨fun _ _ h => by cases h; exact hc, rfl⟩

theorem atUnits_commit (e : σ) : AtUnits (commit e : Parse σ Unit) :=
  fun _ _ _ hc => ⟨fun _ _ h => by cases h; exact hc, rfl⟩

theorem atUnits_liftRead (r : Reader → Except ReadFail (α × Reader)) : AtUnits (liftRead r : Parse σ α) := by
  intro c start k hc
  cases h : r c.rd with
  | ok x =>
    rw [liftRead_ok (c := c) h, liftRead_ok (c := c.shift start k) h]
    exact ⟨fun _ _ h => by cases h; exact hc, rfl⟩
  | error e =>
    cases e with
    | oob => rw [liftRead_oob h, liftRead_oob (c := c.shift start k) h]; exact ⟨nofun, rfl⟩
    | malformed => rw [liftRead_malformed h, liftRead_malformed (c := c.shift start k) h]; exact ⟨nofun, rfl⟩

theorem atUnits_fieldOfRead (hg : g ≠ Field.error) (r : Reader → Except ReadFail (Nat × Reader)) (i j k : Nat) :
    AtUnits (fieldOfRead r g i j k : Parse σ Nat) :=
  (atUnits_liftRead r).bind fun v => (atUnits_emit hg v i j k).bind fun _ => atUnits_pure v

theorem atUnits_forRange {body : Nat → Parse σ Unit} (hbody : ∀ i, AtUnits (body i)) (n start : Nat) :
    AtUnits (forRange n start body) := by
  induction n generalizing start with
  | zero => exact atUnits_pure ()
  | succ n ih => exact (hbody start).bind fun _ => ih (start + 1)

theorem atUnits_repeatUntil {body : Nat → Parse σ Bool} (hbody : ∀ i, AtUnits (body i)) (n start : Nat) :
    AtUnits (repeatUntil n start body) := by
  induction n generalizing start with
  | zero => exact atUnits_raise _
  | succ n ih =>
    refine (hbody start).bind fun stop => ?_
    split
    · exact atUnits_pure ()
    · exact ih (start + 1)

end

/-! ## The H.264 parsers -/

theorem atUnits_scalingListFrom (i n j last next : Nat) : AtUnits (scalingListFrom i n j last next) := by
  induction n generalizing j last next with
  | zero => exact atUnits_pure ()
  | succ n ih =>
    unfold scalingListFrom
    split
    · exact ih _ _ _
    · exact (atUnits_fieldOfRead (by decide) _ _ _ _).bind fun _ => ih _ _ _

theorem atUnits_spsScalingEntry (i : Nat) : AtUnits (spsScalingEntry i) := by
  unfold spsScalingEntry scalingList
  repeat' first
    | exact atUnits_pure _
    | exact atUnits_fieldOfRead (by decide) _ _ _ _
    | exact atUnits_scalingListFrom _ _ _ _ _
    | refine AtUnits.bind ?_ fun _ => ?_
    | split

theorem atUnits_spsHighProfile (prof : Nat) : AtUnits (spsHighProfile prof) := by
  unfold spsHighProfile
  repeat' first
    | exact atUnits_pure _
    | exact atUnits_fieldOfRead (by decide) _ _ _ _
    | exact atUnits_forRange atUnits_spsScalingEntry _ _
    | refine AtUnits.bind ?_ fun _ => ?_
    | split

theorem atUnits_spsPoc (poc : Nat) : AtUnits (spsPoc poc) := by
  unfold spsPoc spsLog2
  repeat' first
    | exact atUnits_pure _
    | exact atUnits_fieldOfRead (by decide) _ _ _ _
    | exact atUnits_raise _
    | refine atUnits_forRange (fun _ => ?_) _ _
    | refine AtUnits.bind ?_ fun _ => ?_
    | split

theorem atUnits_spsProc : AtUnits (spsProc) := by
  unfold spsProc spsFields spsStart spsLog2 spsSize spsEnd spsCropping spsCommit
  repeat' first
    | exact atUnits_pure _
    | exact atUnits_fieldOfRead (by decide) _ _ _ _
    | exact atUnits_spsHighProfile _
    | exact atUnits_spsPoc _
    | exact atUnits_raise _
    | exact atUnits_emit (by decide) _ _ _ _
    | exact atUnits_getEnv
    | exact atUnits_commit _
    | refine AtUnits.bind ?_ fun _ => ?_
    | split

theorem atUnits_ppsMapFields (ng mt : Nat) : AtUnits (ppsMapFields ng mt) := by
  unfold ppsMapFields
  repeat' first
    | exact atUnits_pure _
    | exact atUnits_fieldOfRead (by decide) _ _ _ _
    | refine atUnits_forRange (fun _ => ?_) _ _
    | refine AtUnits.bind ?_ fun _ => ?_
    | split

theorem atUnits_ppsProc : AtUnits (ppsProc) := by
  unfold ppsProc ppsFields ppsStart ppsSliceGroups ppsExtension ppsCommit
  repeat' first
    | exact atUnits_pure _
    | exact atUnits_fieldOfRead (by decide) _ _ _ _
    | exact atUnits_ppsMapFields _ _
    | exact atUnits_raise _
    | exact atUnits_emit (by decide) _ _ _ _
    | exact atUnits_getEnv
    | exact atUnits_getReader
    | exact atUnits_commit _
    | refine AtUnits.bind ?_ fun _ => ?_
    | split

theorem atUnits_sliceRplm (c : Nat) : AtUnits (sliceRplm c) := by
  unfold sliceRplm rplmList rplmLoop rplmEntry
  repeat' first
    | exact atUnits_pure _
    | exact atUnits_fieldOfRead (by decide) _ _ _ _
    | exact atUnits_getReader
    | refine atUnits_repeatUntil (fun _ => ?_) _ _
    | refine AtUnits.bind ?_ fun _ => ?_
    | split

theorem atUnits_slicePredWeight (S : SpsPart) (P : PpsPart) (c n0 n1 : Nat) : AtUnits (slicePredWeight S P c n0 n1) := by
  unfold slicePredWeight weightEntry chromaWeightEntry
  repeat' first
    | exact atUnits_pure _
    | exact atUnits_fieldOfRead (by decide) _ _ _ _
    | refine atUnits_forRange (fun _ => ?_) _ _
    | refine AtUnits.bind ?_ fun _ => ?_
    | split

theorem atUnits_sliceMarking (nri t : Nat) : AtUnits (sliceMarking nri t) := by
  unfold sliceMarking mmcoEntry
  repeat' first
    | exact atUnits_pure _
    | exact atUnits_fieldOfRead (by decide) _ _ _ _
    | exact atUnits_getReader
    | refine atUnits_repeatUntil (fun _ => ?_) _ _
    | refine AtUnits.bind ?_ fun _ => ?_
    | split

theorem atUnits_slicePoc (S : SpsPart) (P : PpsPart) (t field : Nat) : AtUnits (slicePoc S P t field) := by
  unfold slicePoc
  repeat' first
    | exact atUnits_pure _
    | exact atUnits_fieldOfRead (by decide) _ _ _ _
    | refine AtUnits.bind ?_ fun _ => ?_
    | split

theorem atUnits_sliceQp (P : PpsPart) (c : Nat) : AtUnits (sliceQp P c) := by
  unfold sliceQp
  repeat' first
    | exact atUnits_pure _
    | exact atUnits_fieldOfRead (by decide) _ _ _ _
    | refine AtUnits.bind ?_ fun _ => ?_
    | split

theorem atUnits_sliceHeader (nri t : Nat) : AtUnits (sliceHeader nri t) := by
  unfold sliceHeader sliceStart sliceFrame sliceRefIdx sliceChangeCycle
  repeat' first
    | exact atUnits_pure _
    | exact atUnits_fieldOfRead (by decide) _ _ _ _
    | exact atUnits_slicePoc _ _ _ _
    | exact atUnits_sliceRplm _
    | exact atUnits_slicePredWeight _ _ _ _ _
    | exact atUnits_sliceMarking _ _
    | exact atUnits_sliceQp _ _
    | exact atUnits_raise _
    | exact atUnits_emit (by decide) _ _ _ _
    | exact atUnits_getEnv
    | refine AtUnits.bind ?_ fun _ => ?_
    | split

theorem atUnits_nalDispatch (n nri t : Nat) : AtUnits (nalDispatch n nri t) := by
  unfold nalDispatch markKeyframe
  repeat' first
    | exact atUnits_pure _
    | exact atUnits_spsProc
    | exact atUnits_ppsProc
    | exact atUnits_sliceHeader _ _
    | exact atUnits_emit (by decide) _ _ _ _
    | refine AtUnits.bind ?_ fun _ => ?_
    | split

/-! ## One unit, alone and in a STAP-A -/

@[simp] theorem atUnit_atUnit (k l : Nat) (r : Record) : atUnit k (atUnit l r) = atUnit k r := by
  unfold atUnit
  by_cases h : r.field = Field.error
  · simp [h]
  · simp [h]

@[simp] theorem atUnit_errRec (k : Nat) (code : Byte) : atUnit k (errRec code) = errRec code := if_pos rfl

theorem nalHeaderRecs_atUnit (k h : Nat) : (nalHeaderRecs 0 h).map (atUnit k) = nalHeaderRecs k h := by
  simp only [nalHeaderRecs, List.map_cons, List.map_nil]
  rw [atUnit_mkRec (by decide), atUnit_mkRec (by decide), atUnit_mkRec (by decide)]

/-- `parse_nal` from any context does what it does at the start of a command, at its unit and after its records (R167). -/
theorem parseNal_shift (epb : Bool) (B : List Byte) (c : Ctx H264State) :
    parseNal epb B c = shiftResult c.recs c.unit (parseNal epb B (Ctx.start c.env)) := by
  rw [parseNal_run, parseNal_run, ← (atUnits_nalDispatch _ _ _ _ c.recs c.unit rfl).2]
  simp only [Ctx.shift, Ctx.addRecs, Ctx.start, List.nil_append, nalHeaderRecs_atUnit]

/-- What `parse_nal` does with the unit `B` alone. -/
def nalAlone (s : State) (B : List Byte) : EStateM.Result Status (Ctx H264State) Unit :=
  parseNal s.cfg.epbStrip B (Ctx.start s.h264)

theorem parseNal_of_alone {s : State} {B : List Byte} {c : Ctx H264State} (hc : c.env = s.h264) :
    parseNal s.cfg.epbStrip B c = shiftResult c.recs c.unit (nalAlone s B) := by
  rw [parseNal_shift, hc]
  rfl

section
variable {s : State} {B : List Byte} {c : Ctx H264State} {st : Status} (hB : B ≠ []) (hlen : B.length ≤ 65535)
include hB hlen

/-- H264_NAL on the unit written to an empty IBUF (R166). -/
theorem nalRun_eq : nalRun s B =
    runParser 0x11 { s with ibuf := Memory.writeBytes [] 0 B } s.h264 State.withH264 fun _ =>
      shiftResult [videoRec] 0 (nalAlone s B) := by
  have hinput : inputBytes { s with ibuf := Memory.writeBytes [] 0 B } (BitVec.ofNat 16 B.length) = B :=
    inputBytes_writeBytes State.reset_ibuf_wf hlen rfl
  unfold nalRun
  rw [exec_h264Nal, hinput]
  refine runParser_congr ?_
  rw [h264NalProc_run (List.length_pos_iff.mpr hB), parseNal_shift]
  rfl

theorem nalRun_of_ok (h : nalAlone s B = .ok () c) :
    nalRun s B = finished (({ s with ibuf := Memory.writeBytes [] 0 B } : State).withH264 c.env) 0x11 0
      (videoRec :: c.recs.map (atUnit 0)) := by
  rw [nalRun_eq hB hlen, h]
  exact runParser_finished (c := c.shift [videoRec] 0) rfl

theorem nalRun_of_error (h : nalAlone s B = .error st c) (hst : st ≠ .ok) :
    nalRun s B = finished (({ s with ibuf := Memory.writeBytes [] 0 B } : State).withH264 c.env) 0x11 st.code
      (videoRec :: c.recs.map (atUnit 0) ++ [errRec st.code]) := by
  rw [nalRun_eq hB hlen, h]
  exact runParser_raised (c := c.shift [videoRec] 0) rfl hst

/-- A unit that completes, alone and as number `k` (R163). -/
theorem nalRun_facts_of_ok (h : nalAlone s B = .ok () c) :
    (nalRun s B).status = 0 ∧ (nalRun s B).h264 = c.env ∧ (nalRun s B).cfg = s.cfg ∧
      ∀ k, stapUnitRecs s k B = mkRec Field.naluSize B.length k :: c.recs.map (atUnit k) := by
  rw [nalRun_of_ok hB hlen h]
  refine ⟨rfl, rfl, rfl, fun k => ?_⟩
  rw [stapUnitRecs, nalRun_of_ok hB hlen h]
  simp [finished, Function.comp_def]

/-- A unit that fails, alone and as number `k` (R163). -/
theorem nalRun_facts_of_error (h : nalAlone s B = .error st c) (hst : st ≠ .ok) :
    (nalRun s B).status = st.code ∧
      ∀ k, stapUnitRecs s k B = mkRec Field.naluSize B.length k :: c.recs.map (atUnit k) ++ [errRec st.code] := by
  rw [nalRun_of_error hB hlen h hst]
  refine ⟨rfl, fun k => ?_⟩
  rw [stapUnitRecs, nalRun_of_error hB hlen h hst]
  simp [finished, Function.comp_def]

end

theorem nalAlone_error_ne_ok {s : State} {B : List Byte} {c : Ctx H264State} {st : Status}
    (h : nalAlone s B = .error st c) : st ≠ .ok := by
  have hst := ((does_parseNal _ _ _).2 st c h).2
  rintro rfl
  exact absurd hst (by decide)

/-- A unit that fails commits nothing (R185, R368). -/
theorem nalAlone_error_env {s : State} {B : List Byte} {c : Ctx H264State} {st : Status} (h : nalAlone s B = .error st c) :
    c.env = s.h264 := by
  have hst := nalAlone_error_ne_ok h
  rw [nalAlone, parseNal_run] at h
  have hcommits := (commitsAs_nalDispatch _ _ _ _).2 st c h
  generalize c.env = env at hcommits
  cases hcommits with
  | kept => rfl
  | sps => exact absurd rfl hst
  | pps => exact absurd rfl hst

theorem Status.code_ne_zero {st : Status} (h : st ≠ .ok) : st.code ≠ 0 := by
  cases st with
  | ok => exact absurd rfl h
  | _ => decide

/-- A unit that completes OK in its turn. -/
theorem exists_nalAlone_ok {s : State} {B : List Byte} (hB : B ≠ []) (hlen : B.length ≤ 65535)
    (h : (nalRun s B).status = 0) : ∃ c, nalAlone s B = .ok () c := by
  cases hrun : nalAlone s B with
  | ok a c => exact ⟨c, rfl⟩
  | error st c =>
    have hst := nalAlone_error_ne_ok hrun
    rw [(nalRun_facts_of_error hB hlen hrun hst).1] at h
    exact absurd h (Status.code_ne_zero hst)

theorem exists_nalAlone_error {s : State} {B : List Byte} (hB : B ≠ []) (hlen : B.length ≤ 65535)
    (h : (nalRun s B).status ≠ 0) : ∃ st c, nalAlone s B = .error st c := by
  cases hrun : nalAlone s B with
  | ok a c => exact absurd (nalRun_facts_of_ok hB hlen hrun).1 h
  | error st c => exact ⟨st, c, rfl⟩

/-! ## Passes of STAP-A -/

theorem be16Bytes_length (n : Nat) : (be16Bytes n).length = 2 := rfl

theorem beAt_append_two (pre tail : List Byte) : beAt (pre ++ tail) pre.length 2 = beAt tail 0 2 := by
  simp [beAt_two, byteAt, List.getElem?_append_right]

theorem beAt_be16Bytes {n : Nat} (hn : n < 65536) (post : List Byte) : beAt (be16Bytes n ++ post) 0 2 = n := by
  rw [beAt_two]
  show 256 * (BitVec.ofNat 8 (n / 256)).toNat + (BitVec.ofNat 8 n).toNat = n
  rw [BitVec.toNat_ofNat, BitVec.toNat_ofNat]
  omega

section
variable {epb : Bool} {S pre : List Byte} {f k : Nat} {c : Ctx H264State}

/-- The context in which a unit of `n` bytes is parsed as number `k` (R163). -/
def stapCtx (c : Ctx H264State) (n k : Nat) : Ctx H264State :=
  { c with unit := k, recs := c.recs ++ [mkRec Field.naluSize n k] }

/-- A pass from a size on (R163). -/
theorem stapAFrom_size {tail : List Byte} (hS : S = pre ++ tail) (htail : 2 ≤ tail.length) :
    stapAFrom epb S (f + 1) pre.length k c =
      (if beAt tail 0 2 = 0 then raise .malformed
        else if tail.length - 2 < beAt tail 0 2 then raise .truncated
        else parseNal epb (slice S (pre.length + 2) (beAt tail 0 2)) >>= fun _ =>
          stapAFrom epb S f (pre.length + 2 + beAt tail 0 2) (k + 1)) (stapCtx c (beAt tail 0 2) (k + 1)) := by
  have hlen : S.length = pre.length + tail.length := by rw [hS, List.length_append]
  have hsize : beAt S pre.length 2 = beAt tail 0 2 := by rw [hS, beAt_append_two]
  rw [stapAFrom, if_pos (by omega), if_neg (by omega), Parse.bind_ok (setUnit_run _ _),
    Parse.bind_ok (emit_eq _ _ _ _ _ _), hsize]
  split
  · rfl
  · simp only [show pre.length + 2 + beAt tail 0 2 > S.length ↔ tail.length - 2 < beAt tail 0 2 by omega]
    rfl

/-- A pass over a unit that is there (R163). -/
theorem stapAFrom_unit {B rest : List Byte} (hS : S = pre ++ (be16Bytes B.length ++ B) ++ rest) (hB : B ≠ [])
    (hlen : B.length ≤ 65535) :
    stapAFrom epb S (f + 1) pre.length k c =
      (parseNal epb B >>= fun _ => stapAFrom epb S f (pre ++ (be16Bytes B.length ++ B)).length (k + 1))
        (stapCtx c B.length (k + 1)) := by
  have hpos := List.length_pos_iff.mpr hB
  have hsize : beAt (be16Bytes B.length ++ (B ++ rest)) 0 2 = B.length := beAt_be16Bytes (by omega) _
  have hslice : slice S (pre.length + 2) B.length = B := by
    have := slice_mid (pre ++ be16Bytes B.length) B rest
    rwa [List.length_append, be16Bytes_length, List.append_assoc pre, ← hS] at this
  rw [stapAFrom_size (tail := be16Bytes B.length ++ (B ++ rest)) (by rw [hS]; simp) (by simp [be16Bytes_length]), hsize,
    if_neg (by omega), if_neg (by simp [be16Bytes_length]), hslice]
  simp [be16Bytes_length, Nat.add_assoc]

end

@[simp] theorem stapBytes_cons (B : List Byte) (nals : List (List Byte)) :
    stapBytes (B :: nals) = be16Bytes B.length ++ B ++ stapBytes nals := rfl

@[simp] theorem nalsRun_cons (s : State) (B : List Byte) (nals : List (List Byte)) :
    nalsRun s (B :: nals) = nalsRun (nalRun s B) nals := rfl

theorem nalsComplete_cons {s : State} {B : List Byte} {nals : List (List Byte)} (h : NalsComplete s (B :: nals)) :
    (nalRun s B).status = 0 ∧ NalsComplete (nalRun s B) nals :=
  ⟨h 0 (Nat.succ_pos _), fun k hk => h (k + 1) (Nat.succ_lt_succ hk)⟩

/-- The context after the units `nals` of a STAP-A, from unit `k` on. -/
def stapUnitsCtx (s : State) (k : Nat) (nals : List (List Byte)) (start : List Record) (r : Reader) (u : Nat) :
    Ctx H264State :=
  { env := (nalsRun s nals).h264, rd := r, unit := u, recs := start ++ stapUnitsRecs s k nals }

/-- Passes over any number of units that complete (R163): each does to ParserState what H264_NAL does, and records what it
records under its own number. Each consumes a byte, so the pass count is not reached (log entry 7). -/
theorem stapAFrom_units {s : State} {S tail : List Byte} (nals : List (List Byte))
    (hnals : ∀ B ∈ nals, B ≠ [] ∧ B.length ≤ 65535) (hok : NalsComplete s nals) (pre : List Byte) (f k : Nat)
    (c : Ctx H264State) (hc : c.env = s.h264) (hS : S = pre ++ stapBytes nals ++ tail)
    (hf : tail.length + (stapBytes nals).length < f) :
    ∃ g r u, tail.length < g ∧ stapAFrom s.cfg.epbStrip S f pre.length k c =
      stapAFrom s.cfg.epbStrip S g (pre ++ stapBytes nals).length (k + nals.length)
        (stapUnitsCtx s (k + 1) nals c.recs r u) ∧ (nalsRun s nals).cfg = s.cfg := by
  induction nals generalizing s pre f k c with
  | nil =>
    refine ⟨f, c.rd, c.unit, by simpa [stapBytes] using hf, ?_, rfl⟩
    simp [stapBytes, stapUnitsCtx, stapUnitsRecs, nalsRun, ← hc]
  | cons B nals ih =>
    obtain ⟨⟨hB, hlen⟩, hrest⟩ := List.forall_mem_cons.mp hnals
    obtain ⟨hstatus, hok⟩ := nalsComplete_cons hok
    obtain ⟨c', hrun⟩ := exists_nalAlone_ok hB hlen hstatus
    obtain ⟨-, henv, hcfg, hrecs⟩ := nalRun_facts_of_ok hB hlen hrun
    rw [stapBytes_cons, List.length_append, List.length_append] at hf
    obtain ⟨f, rfl⟩ : ∃ f', f = f' + 1 := ⟨f - 1, by omega⟩
    have hS' : S = pre ++ (be16Bytes B.length ++ B) ++ (stapBytes nals ++ tail) := by rw [hS]; simp
    have hparse := parseNal_of_alone (B := B) (c := stapCtx c B.length (k + 1)) hc
    rw [hrun] at hparse
    obtain ⟨g, r, u, hg, hnext, hcfg'⟩ := ih hrest hok (pre ++ (be16Bytes B.length ++ B)) f (k + 1)
      (c'.shift (c.recs ++ [mkRec Field.naluSize B.length (k + 1)]) (k + 1)) henv.symm (by rw [hS']; simp)
      (by rw [be16Bytes_length] at hf; omega)
    rw [hcfg] at hnext hcfg'
    refine ⟨g, r, u, hg, ?_, hcfg'⟩
    rw [stapAFrom_unit hS' hB hlen, Parse.bind_ok hparse]
    refine hnext.trans ?_
    simp [stapUnitsCtx, stapUnitsRecs, hrecs, Ctx.shift, Nat.add_assoc, Nat.add_comm 1]

/-- A unit of a STAP-A is no longer than its size says (R163). -/
theorem length_le_of_mem_stap {s : State} {len : Half} {h : Byte} {nals : List (List Byte)} {tail B : List Byte}
    (hS : inputBytes s len = h :: stapBytes nals ++ tail) (hB : B ∈ nals) : B.length ≤ 65535 := by
  have hlen : (inputBytes s len).length ≤ 65535 := by rw [inputBytes_length]; have := len.isLt; omega
  have hsub : B.length ≤ (stapBytes nals).length := by
    obtain ⟨l, l', rfl⟩ := List.append_of_mem hB
    simp [stapBytes]
    omega
  rw [hS, List.length_append, List.length_cons] at hlen
  omega

/-- H264_PAYLOAD on a STAP-A, down to what follows the units that complete (R160, R163). -/
theorem exec_stapA {s : State} {len : Half} {h : Byte} {nals : List (List Byte)} {tail : List Byte}
    (hh : h.toNat % 32 = 24) (hnals : ∀ B ∈ nals, B ≠ []) (hok : NalsComplete s nals)
    (hS : inputBytes s len = h :: stapBytes nals ++ tail) :
    ∃ g r u run, tail.length < g ∧ (nalsRun s nals).cfg = s.cfg ∧
      run = stapAFrom s.cfg.epbStrip (inputBytes s len) g (h :: stapBytes nals).length nals.length
        (stapUnitsCtx s 1 nals (videoRec :: nalHeaderRecs 0 h.toNat) r u) ∧
      (∀ c, run = .ok () c → exec (.h264Payload len) s = .next (finished (s.withH264 c.env) 0x10 0 c.recs)) ∧
      ∀ st c, run = .error st c → st ≠ .ok →
        exec (.h264Payload len) s = .next (finished (s.withH264 c.env) 0x10 st.code (c.recs ++ [errRec st.code])) := by
  have hpos : 0 < (inputBytes s len).length := by rw [hS]; simp
  have hbytes : ∀ B ∈ nals, B ≠ [] ∧ B.length ≤ 65535 := fun B hB => ⟨hnals B hB, length_le_of_mem_stap hS hB⟩
  obtain ⟨g, r, u, hg, hrun, hcfg⟩ := stapAFrom_units (s := s) (tail := tail) nals hbytes hok [h]
    ((inputBytes s len).length + 1) 0 ((Ctx.start s.h264).addRecs (videoRec :: nalHeaderRecs 0 h.toNat)) rfl hS
    (by rw [hS]; simp; omega)
  have hbyte : byteAt (inputBytes s len) 0 = h.toNat := by rw [hS]; rfl
  have hproc : h264PayloadProc s.cfg.epbStrip (inputBytes s len) (Ctx.start s.h264) = _ := h264PayloadProc_run hpos _
  rw [hbyte, hh, payloadDispatch, if_pos rfl] at hproc
  refine ⟨g, r, u, _, hg, hcfg, rfl, fun c hc => ?_, fun st c hc hst => ?_⟩
  · rw [exec_h264Payload, runParser_finished (hproc.trans (hrun.trans (by simpa [Ctx.start] using hc)))]
    rfl
  · rw [exec_h264Payload, runParser_raised (hproc.trans (hrun.trans (by simpa [Ctx.start] using hc))) hst]
    rfl

/-- Settles O40: the passes over the units that complete, then what stands after them. -/
theorem stapAParsesItsUnits : Obligations.StapAParsesItsUnits := by
  intro s len h nals tail hh hnals hok hS t front ht hfront
  subst ht hfront
  obtain ⟨g, r, u, run, hg, hcfg, hrun, hcompletes, hraises⟩ := exec_stapA hh hnals hok hS
  obtain ⟨g, rfl⟩ : ∃ g', g = g' + 1 := ⟨g - 1, by omega⟩
  have hlen : (inputBytes s len).length = (h :: stapBytes nals).length + tail.length := by rw [hS, List.length_append]
  refine ⟨fun htail => ?_, fun htail => ?_, fun htail hsize => ?_, fun htail hsize => ?_, fun B rest hB htail hfail => ?_⟩
  · have hend : tail.length = 0 := by rw [htail]; rfl
    rw [stapAFrom, if_neg (by omega), setUnit_run] at hrun
    exact hcompletes _ hrun
  · rw [stapAFrom, if_pos (by omega), if_pos (by omega), raise_run] at hrun
    exact hraises _ _ hrun nofun
  · rw [stapAFrom_size hS htail, if_pos hsize, raise_run] at hrun
    rw [hraises _ _ hrun nofun]
    simp [stapCtx, stapUnitsCtx, hsize]
    rfl
  · rw [stapAFrom_size hS htail, if_neg (by omega), if_pos hsize, raise_run] at hrun
    rw [hraises _ _ hrun nofun]
    simp [stapCtx, stapUnitsCtx]
    rfl
  · have hBlen : B.length ≤ 65535 := by
      rw [inputBytes_length, htail] at hlen
      have := len.isLt
      simp at hlen
      omega
    obtain ⟨st, c, hfails⟩ := exists_nalAlone_error hB hBlen hfail
    have hst := nalAlone_error_ne_ok hfails
    obtain ⟨hcode, hrecs⟩ := nalRun_facts_of_error hB hBlen hfails hst
    have hparse := parseNal_of_alone (s := nalsRun s nals) (B := B)
      (c := stapCtx (stapUnitsCtx s 1 nals (videoRec :: nalHeaderRecs 0 h.toNat) r u) B.length (nals.length + 1)) rfl
    rw [hfails, hcfg] at hparse
    rw [stapAFrom_unit (rest := rest) (by rw [hS, htail]; simp) hB hBlen, Parse.bind_error hparse] at hrun
    rw [hraises _ _ hrun hst, hcode, hrecs]
    simp [Ctx.shift, stapCtx, stapUnitsCtx, State.withH264, nalAlone_error_env hfails]

/-! ## Units without a parser -/

theorem opaqueRecs_atUnit (k : Nat) (B : List Byte) : (opaqueRecs 0 B).map (atUnit k) = opaqueRecs k B := by
  simp only [opaqueRecs, List.map_append, nalHeaderRecs_atUnit, List.map_cons, List.map_nil]
  rw [atUnit_mkRec (by decide), atUnit_mkRec (by decide)]

/-- A unit without a parser completes, commits nothing, and is recorded opaque under its number (R167, R169). -/
theorem nalRun_opaque {s : State} {B : List Byte} (hB : B ≠ []) (hlen : B.length ≤ 65535)
    (hopaque : byteAt B 0 % 32 ∉ [1, 5, 7, 8]) :
    (nalRun s B).status = 0 ∧ (nalRun s B).h264 = s.h264 ∧
      ∀ k, stapUnitRecs s k B = mkRec Field.naluSize B.length k :: opaqueRecs k B := by
  have hrun : nalAlone s B = _ := parseNal_opaque (Ctx.start s.h264) hopaque
  obtain ⟨hstatus, henv, -, hrecs⟩ := nalRun_facts_of_ok hB hlen hrun
  exact ⟨hstatus, henv, fun k => (hrecs k).trans (congrArg _ (opaqueRecs_atUnit k B))⟩

theorem nalsRun_opaque {s : State} (nals : List (List Byte))
    (hnals : ∀ B ∈ nals, B ≠ [] ∧ B.length ≤ 65535 ∧ byteAt B 0 % 32 ∉ [1, 5, 7, 8]) :
    NalsComplete s nals ∧ (nalsRun s nals).h264 = s.h264 ∧
      ∀ k, stapUnitsRecs s k nals =
        (nals.mapIdx fun i B => mkRec Field.naluSize B.length (k + i) :: opaqueRecs (k + i) B).flatten := by
  induction nals generalizing s with
  | nil => exact ⟨nofun, rfl, fun k => rfl⟩
  | cons B nals ih =>
    obtain ⟨⟨hB, hlen, hopaque⟩, hrest⟩ := List.forall_mem_cons.mp hnals
    obtain ⟨hstatus, henv, hrecs⟩ := nalRun_opaque (s := s) hB hlen hopaque
    obtain ⟨hok, henvs, hrecss⟩ := ih (s := nalRun s B) hrest
    refine ⟨fun k hk => ?_, henvs.trans henv, fun k => ?_⟩
    · cases k with
      | zero => exact hstatus
      | succ k => exact hok k (Nat.lt_of_succ_lt_succ hk)
    · rw [stapUnitsRecs, hrecs, hrecss]
      simp [Nat.add_assoc, Nat.add_comm 1]

/-- Settles O39, from O40. -/
theorem stapAUnitsInOrder : Obligations.StapAUnitsInOrder := by
  intro s len h nals tail hh hnals hS
  obtain ⟨hok, henv, hrecs⟩ := nalsRun_opaque (s := s) nals fun B hB =>
    ⟨(hnals B hB).1, length_le_of_mem_stap hS hB, (hnals B hB).2⟩
  have hmain := stapAParsesItsUnits s len h nals tail hh (fun B hB => (hnals B hB).1) hok hS s _ (by rw [henv]) rfl
  have hstap : stapUnitsRecs s 1 nals = stapRecs nals := by simp only [hrecs 1, stapRecs, Nat.add_comm 1]
  rw [hstap] at hmain
  obtain ⟨hend, hlone, hzero, hlong, -⟩ := hmain
  exact ⟨hend, hlone, by simpa using hzero, by simpa using hlong⟩

end Sys2Proof.Machine
end

section
/-! Opus code 3 (spec/43_opus.md R287 to R290). -/

namespace Sys2Proof.Machine

open Sys2Proof.Safety

variable {S : List Byte} {pos P M fc : Nat} {c : Ctx Unit}

/-! ## Layouts -/

/-- The model's layout is the statements' (R289, R290). -/
theorem opusLayFrames_eq_layout (o : Nat) (lens : List Nat) : opusLayFrames o lens = layout o lens := by
  induction lens generalizing o with
  | nil => rfl
  | cons l lens ih =>
    rw [opusLayFrames, ih]
    simp [layout, List.mapIdx_cons, Nat.add_assoc]

/-! ## Padding lengths -/

theorem opusPaddingFrom_run {k fuel P0 : Nat} (h255 : ∀ i < k, byteAt S (pos + i) = 255) (hlast : byteAt S (pos + k) < 255)
    (hend : pos + k < S.length) (hfuel : k < fuel) :
    opusPaddingFrom S fuel pos P0 c = .ok (P0 + 254 * k + byteAt S (pos + k), pos + k + 1) c := by
  induction k generalizing fuel pos P0 with
  | zero =>
    obtain ⟨f, rfl⟩ : ∃ f, fuel = f + 1 := ⟨fuel - 1, by omega⟩
    rw [opusPaddingFrom, if_neg (by omega), if_neg (by simpa using hlast.ne), Parse.pure_run]
    rfl
  | succ k ih =>
    obtain ⟨f, rfl⟩ : ∃ f, fuel = f + 1 := ⟨fuel - 1, by omega⟩
    have hstep : ∀ i, pos + 1 + i = pos + (i + 1) := fun i => by omega
    rw [opusPaddingFrom, if_neg (by omega), if_pos (by simpa using h255 0 (Nat.succ_pos k)),
      ih (fun i hi => by rw [hstep]; exact h255 (i + 1) (by omega)) (by rwa [hstep]) (by omega) (by omega), hstep]
    congr 2
    omega

theorem opusPaddingFrom_cut {fuel P0 : Nat} (h255 : ∀ a, pos ≤ a → a < S.length → byteAt S a = 255) :
    opusPaddingFrom S fuel pos P0 c = .error .truncated c := by
  induction fuel generalizing pos P0 with
  | zero => rfl
  | succ f ih =>
    rw [opusPaddingFrom]
    split
    · rfl
    · next hpos =>
      rw [if_pos (h255 pos le_rfl (by omega))]
      exact ih fun a ha => h255 a (by omega)

/-- The padding lengths of a packet (R288). -/
theorem opusPadding_run (h : OpusPaddingIs S pos P) (c : Ctx Unit) :
    opusPadding S (byteAt S 1 / 64 % 2) 2 c = .ok (P, pos) c := by
  obtain ⟨hflag, rfl, rfl⟩ | ⟨hflag, hend, k, rfl, h255, hlast, rfl⟩ := h
  · rw [opusPadding, hflag, if_neg (by decide), Parse.pure_run]
  · rw [opusPadding, if_pos hflag, opusPaddingFrom_run h255 hlast (by omega) (by omega), Nat.zero_add]
    congr 2
    omega

/-! ## Lists of lengths -/

theorem byteAt_drop (S : List Byte) (pos i : Nat) : byteAt (S.drop pos) i = byteAt S (pos + i) := by
  simp [byteAt]

/-- A length that is there, as the bytes that say it (R283). -/
theorem opusLengthIs_of_bytes {l : Nat} {rest : List Byte} (hl : l ≤ 1275) (h : S.drop pos = opusLengthBytes l ++ rest) :
    OpusLengthIs S pos l (opusLengthBytes l).length := by
  have h0 := byteAt_drop S pos 0
  have h1 := byteAt_drop S pos 1
  rw [h] at h0 h1
  unfold opusLengthBytes at h0 h1 ⊢
  unfold OpusLengthIs
  split
  next hsmall =>
    rw [if_pos hsmall] at h0
    have hb : byteAt ([BitVec.ofNat 8 l] ++ rest) 0 = l := Nat.mod_eq_of_lt (by omega)
    rw [Nat.add_zero] at h0
    exact .inl ⟨by omega, rfl, by omega⟩
  next hlarge =>
    rw [if_neg hlarge] at h0 h1
    have hb0 : byteAt ([BitVec.ofNat 8 (252 + l % 4), BitVec.ofNat 8 ((l - 252) / 4)] ++ rest) 0 = 252 + l % 4 :=
      Nat.mod_eq_of_lt (by omega)
    have hb1 : byteAt ([BitVec.ofNat 8 (252 + l % 4), BitVec.ofNat 8 ((l - 252) / 4)] ++ rest) 1 = (l - 252) / 4 :=
      Nat.mod_eq_of_lt (by omega)
    rw [Nat.add_zero] at h0
    exact .inr ⟨by omega, rfl, by omega⟩

theorem opusSd_of_bytes {l : Nat} {rest : List Byte} (hl : l ≤ 1275) (h : S.drop pos = opusLengthBytes l ++ rest)
    (c : Ctx Unit) : opusSd S pos c = .ok (l, (opusLengthBytes l).length) c := by
  have hlen := congrArg List.length h
  have hpos : 0 < (opusLengthBytes l).length := by unfold opusLengthBytes; split <;> simp
  rw [List.length_drop, List.length_append] at hlen
  rw [opusSd_run (opusLengthIs_of_bytes hl h), if_pos (by omega)]

/-- The bytes of some lengths (R283). -/
def opusLengthsBytes (lens : List Nat) : List Byte := (lens.map opusLengthBytes).flatten

theorem drop_opusLengths {l : Nat} {lens : List Nat} {rest : List Byte} (h : S.drop pos = opusLengthsBytes (l :: lens) ++ rest) :
    S.drop pos = opusLengthBytes l ++ (opusLengthsBytes lens ++ rest) ∧
      S.drop (pos + (opusLengthBytes l).length) = opusLengthsBytes lens ++ rest := by
  have hfirst : S.drop pos = opusLengthBytes l ++ (opusLengthsBytes lens ++ rest) := by
    rw [h, opusLengthsBytes, List.map_cons, List.flatten_cons, List.append_assoc]
    rfl
  exact ⟨hfirst, by rw [← List.drop_drop, hfirst, List.drop_left]⟩

/-- Lengths that are there read back (R290). -/
theorem opusSdList_run {rest : List Byte} (lens : List Nat) (hlens : ∀ l ∈ lens, l ≤ 1275)
    (h : S.drop pos = opusLengthsBytes lens ++ rest) :
    opusSdList S lens.length pos c = .ok (lens, pos + (opusLengthsBytes lens).length) c := by
  induction lens generalizing pos with
  | nil => rfl
  | cons l lens ih =>
    obtain ⟨hl, hrest⟩ := List.forall_mem_cons.mp hlens
    obtain ⟨hfirst, hnext⟩ := drop_opusLengths h
    rw [List.length_cons, opusSdList, Parse.bind_ok (opusSd_of_bytes hl hfirst c)]
    dsimp only
    rw [Parse.bind_ok (ih hrest hnext), Parse.pure_run]
    simp [opusLengthsBytes, Nat.add_assoc]

/-- One more length that is not there, or of which the second byte is not (R290, R283). -/
theorem opusSd_cut {cut : List Byte} (hcut : cut = [] ∨ ∃ b : Byte, cut = [b] ∧ 251 < b.toNat) (h : S.drop pos = cut)
    (c : Ctx Unit) : opusSd S pos c = .error .truncated c := by
  have hlen := congrArg List.length h
  rw [List.length_drop] at hlen
  obtain rfl | ⟨b, rfl, hb⟩ := hcut
  · rw [opusSd, if_pos (by simp at hlen; omega), raise_run]
  · have hbyte := byteAt_drop S pos 0
    rw [h, Nat.add_zero] at hbyte
    rw [opusSd_run (.inr ⟨by rw [← hbyte]; exact hb, rfl, rfl⟩), if_neg (by simp at hlen; omega)]

theorem opusSdList_cut {cut : List Byte} (hcut : cut = [] ∨ ∃ b : Byte, cut = [b] ∧ 251 < b.toNat) (lens : List Nat)
    (hlens : ∀ l ∈ lens, l ≤ 1275) (h : S.drop pos = opusLengthsBytes lens ++ cut) {n : Nat} (hn : lens.length < n) :
    opusSdList S n pos c = .error .truncated c := by
  obtain ⟨n, rfl⟩ : ∃ m, n = m + 1 := ⟨n - 1, by omega⟩
  induction lens generalizing pos n with
  | nil => rw [opusSdList, Parse.bind_error (opusSd_cut hcut h c)]
  | cons l lens ih =>
    obtain ⟨hl, hrest⟩ := List.forall_mem_cons.mp hlens
    obtain ⟨hfirst, hnext⟩ := drop_opusLengths h
    rw [List.length_cons] at hn
    obtain ⟨n, rfl⟩ : ∃ m, n = m + 1 := ⟨n - 1, by omega⟩
    rw [opusSdList, Parse.bind_ok (opusSd_of_bytes hl hfirst c)]
    dsimp only
    rw [Parse.bind_error (ih hrest hnext n (by omega))]

/-! ## Code 3 -/

theorem opusFrames_three (S : List Byte) : opusFrames S 3 = opusCode3 S := rfl

/-- What follows the padding lengths (R289, R290). -/
def opusBody (S : List Byte) (v pos P M : Nat) : Parse Unit (List (Nat × Nat)) :=
  if v = 0 then opusCbr S pos P M else opusVbr S pos P M

/-- `code3()` after the frame-count byte (R287). -/
theorem opusCode3_run (hS : 2 ≤ S.length) (hfc : byteAt S 1 = fc) (hc : c.unit = 0) :
    opusCode3 S c =
      (if fc % 64 = 0 then raise .malformed
        else opusPadding S (fc / 64 % 2) 2 >>= fun x => emit Field.paddingLength x.1 >>= fun _ =>
          opusBody S (fc / 128) x.2 x.1 (fc % 64)) (c.addRecs (opusCountRecs fc)) := by
  have hlt : fc < 256 := hfc ▸ byteAt_lt S 1
  have h7 : fieldOf fc 7 7 = fc / 128 := by rw [fieldOf_bit]; omega
  have h6 : fieldOf fc 6 6 = fc / 64 % 2 := fieldOf_bit fc 6
  have h50 : fieldOf fc 5 0 = fc % 64 := fieldOf_low fc 5
  rw [opusCode3, if_neg (by omega), hfc, h7, h6, h50, Parse.bind_ok (emit_eq _ _ _ _ _ _),
    Parse.bind_ok (emit_eq _ _ _ _ _ _), Parse.bind_ok (emit_eq _ _ _ _ _ _)]
  simp only [Ctx.addRecs_addRecs, Ctx.addRecs_unit, hc]
  rfl

/-- `code3()` after the padding lengths (R287, R288). -/
theorem opusCode3_padded (hS : 2 ≤ S.length) (hfc : byteAt S 1 = fc) (hc : c.unit = 0) (hM : fc % 64 ≠ 0)
    (hP : OpusPaddingIs S pos P) :
    opusCode3 S c =
      opusBody S (fc / 128) pos P (fc % 64) (c.addRecs (opusCountRecs fc ++ [mkRec Field.paddingLength P])) := by
  have hpadding := opusPadding_run hP (c.addRecs (opusCountRecs fc))
  rw [hfc] at hpadding
  rw [opusCode3_run hS hfc hc, if_neg hM, Parse.bind_ok hpadding, Parse.bind_ok (emit_eq _ _ _ _ _ _), Ctx.addRecs_addRecs,
    Ctx.addRecs_unit, hc]

theorem opusCbr_run (h : pos + P ≤ S.length ∧ (S.length - pos - P) % M = 0) :
    opusCbr S pos P M c = .ok (layout pos (List.replicate M ((S.length - pos - P) / M))) c := by
  rw [opusCbr, if_neg (by omega), if_neg (by omega), Parse.pure_run, opusLayFrames_eq_layout]

theorem opusCbr_raises (h : S.length < pos + P ∨ (S.length - pos - P) % M ≠ 0) :
    opusCbr S pos P M c = .error .malformed c := by
  rw [opusCbr]
  split
  · rfl
  · rw [if_pos (h.resolve_left (by omega)), raise_run]

/-- `vbr` after its lengths (R290). -/
theorem opusVbr_run {lens : List Nat} {rest : List Byte} (hlens : ∀ l ∈ lens, l ≤ 1275)
    (h : S.drop pos = opusLengthsBytes lens ++ rest) {o : Nat} (ho : o = pos + (opusLengthsBytes lens).length) :
    opusVbr S pos P (lens.length + 1) c =
      if o + P + lens.sum ≤ S.length then .ok (layout o (lens ++ [S.length - o - P - lens.sum])) c
      else .error .malformed c := by
  rw [opusVbr, Nat.add_sub_cancel, Parse.bind_ok (opusSdList_run lens hlens h), ← ho]
  dsimp only
  by_cases hfits : o + P + lens.sum ≤ S.length
  · rw [if_pos hfits, if_neg (by omega), if_neg (by omega), Parse.pure_run, opusLayFrames_eq_layout]
  · rw [if_neg hfits]
    split
    · rfl
    · rw [if_pos (by omega), raise_run]

section
variable {s : State} {len : Half} {t : Nat} {recs : List Record}

theorem exec_opusPacket_of_code3 {frames : List (Nat × Nat)} (hlen : 0 < len.toNat)
    (ht : byteAt (inputBytes s len) 0 = t) (hcode : t % 4 = 3)
    (h : opusCode3 (inputBytes s len) (opusTocCtx t) = .ok frames ((opusTocCtx t).addRecs recs)) :
    exec (.opusPacket len) s = .next (finished s 0x30 0 (opusTocRecs t ++ recs ++ opusFrameRecs frames)) :=
  execOpusPacket_of_frames hlen ht (by rw [hcode, opusFrames_three, h])

theorem exec_opusPacket_of_code3_raise {st : Status} (hlen : 0 < len.toNat) (ht : byteAt (inputBytes s len) 0 = t)
    (hcode : t % 4 = 3) (h : opusCode3 (inputBytes s len) (opusTocCtx t) = .error st ((opusTocCtx t).addRecs recs))
    (hst : st ≠ .ok) :
    exec (.opusPacket len) s = .next (finished s 0x30 st.code (opusTocRecs t ++ recs ++ [errRec st.code])) :=
  execOpusPacket_of_raise hlen ht hst (by rw [hcode, opusFrames_three, h])

end

/-- Settles O49. -/
theorem opusCode3Cbr : Obligations.OpusCode3Cbr := by
  intro s len t fc pos P hlen ht hcode hfc hv
  have hS : 2 ≤ (inputBytes s len).length := by rwa [inputBytes_length]
  refine ⟨fun hM => ?_, fun hM hP => ⟨fun hfits => ?_, fun hbad => ?_⟩⟩
  · have hrun := opusCode3_run hS hfc (c := opusTocCtx t) rfl
    rw [if_pos hM, raise_run] at hrun
    rw [exec_opusPacket_of_code3_raise (by omega) ht hcode hrun nofun]
    rfl
  · have hrun := opusCode3_padded hS hfc (c := opusTocCtx t) rfl hM hP
    rw [hv, opusBody, if_pos rfl, opusCbr_run (by simpa using hfits), inputBytes_length] at hrun
    rw [exec_opusPacket_of_code3 (by omega) ht hcode hrun]
    simp
  · have hrun := opusCode3_padded hS hfc (c := opusTocCtx t) rfl hM hP
    rw [hv, opusBody, if_pos rfl, opusCbr_raises (by simpa using hbad)] at hrun
    rw [exec_opusPacket_of_code3_raise (by omega) ht hcode hrun nofun]
    simp
    rfl

/-- Settles O50. -/
theorem opusCode3Vbr : Obligations.OpusCode3Vbr := by
  intro s len t fc pos P o lens hlen ht hcode hfc hv hM hlens hP ho hslice
  have hS : 2 ≤ (inputBytes s len).length := by rwa [inputBytes_length]
  have hdrop : (inputBytes s len).drop pos = opusLengthsBytes lens ++
      ((inputBytes s len).drop pos).drop (opusLengthsBytes lens).length := by
    conv_lhs => rw [← List.take_append_drop (opusLengthsBytes lens).length ((inputBytes s len).drop pos)]
    exact congrArg (· ++ _) hslice
  have hrun := opusCode3_padded hS hfc (c := opusTocCtx t) rfl (by omega) hP
  rw [hv, opusBody, if_neg (by decide), hM, opusVbr_run hlens hdrop ho, inputBytes_length] at hrun
  refine ⟨fun hfits => ?_, fun hlong => ?_⟩
  · rw [if_pos hfits] at hrun
    rw [exec_opusPacket_of_code3 (by omega) ht hcode hrun]
    simp
  · rw [if_neg (by omega)] at hrun
    rw [exec_opusPacket_of_code3_raise (by omega) ht hcode hrun nofun]
    simp
    rfl

/-- Settles O51. -/
theorem opusCode3Cut : Obligations.OpusCode3Cut := by
  intro s len t fc ht hcode hfc
  refine ⟨fun hlen => ?_, fun hlen hM hp h255 => ?_, fun pos P lens cut hlen hv hP hM hlens hcut hdrop => ?_⟩
  · have hrun : opusCode3 (inputBytes s len) (opusTocCtx t) = .error .truncated ((opusTocCtx t).addRecs []) := by
      rw [opusCode3, if_pos (by simp; omega), raise_run, Ctx.addRecs_nil]
    rw [exec_opusPacket_of_code3_raise (by omega) ht hcode hrun nofun, List.append_nil]
    rfl
  · have hrun := opusCode3_run (by rwa [inputBytes_length]) hfc (c := opusTocCtx t) rfl
    rw [if_neg hM, Parse.bind_error (by
      rw [opusPadding, if_pos hp, opusPaddingFrom_cut fun a ha ha' => h255 a ha (by simpa using ha')])] at hrun
    rw [exec_opusPacket_of_code3_raise (by omega) ht hcode hrun nofun]
    rfl
  · have hrun := opusCode3_padded (by rwa [inputBytes_length]) hfc (c := opusTocCtx t) rfl (by omega) hP
    rw [hv, opusBody, if_neg (by decide), opusVbr,
      Parse.bind_error (opusSdList_cut hcut lens hlens hdrop (by omega))] at hrun
    rw [exec_opusPacket_of_code3_raise (by omega) ht hcode hrun nofun]
    simp
    rfl

end Sys2Proof.Machine
end

section
/-! The mask of a FlexFEC payload and FEC_MASK (spec/44_flexfec.md section 4). -/

namespace Sys2Proof.Machine

open Sys2Proof.Safety

variable {σ : Type} {F : List Byte} {c : Ctx σ}

/-! ## Mask words as bits -/

/-- A big-endian value is the bits of its bytes (R8, R9). -/
theorem beAt_eq_bits (F : List Byte) (a n : Nat) : beAt F a n = bits F (8 * a) (8 * n) := by
  induction n with
  | zero => rfl
  | succ n ih =>
    rw [beAt, ih, Nat.mul_succ, bits_add, ← Nat.mul_add, bits_byte]
    ring

/-- The bits of a value from the most significant on (R126). -/
theorem testBit_bits {p n j : Nat} (hj : j < n) : (bits F p n).testBit (n - 1 - j) = streamBit F (p + j) := by
  have hsplit : bits F p n = bits F p (j + 1) * 2 ^ (n - 1 - j) + bits F (p + (j + 1)) (n - 1 - j) := by
    rw [← bits_add]
    congr 1
    omega
  rw [Nat.testBit_eq_decide_div_mod_eq, hsplit, Nat.mul_comm, Nat.mul_add_div (by positivity),
    Nat.div_eq_of_lt (bits_lt _ _ _), Nat.add_zero, bits, Nat.mul_add_mod, bit_eq]
  cases streamBit F (p + j) <;> rfl

/-- The offsets that the mask bits from bit `p` on select (R317). -/
def tierOffsets (F : List Byte) (first p width : Nat) : List Nat :=
  ((List.range width).filter fun j => streamBit F (p + j)).map (first + ·)

/-- The records of one tier (R317). -/
def tierRecs (F : List Byte) (tier p width : Nat) : List Record :=
  [mkRec Field.fecK (bitsSum F p 1) 0 tier, mkRec Field.fecMaskTier (bitsSum F (p + 1) width) 0 tier]

theorem maskOffsets_bits (first p width : Nat) :
    maskOffsets first width (bits F p width) = tierOffsets F first p width := by
  unfold maskOffsets tierOffsets
  congr 1
  exact List.filter_congr fun j hj => testBit_bits (List.mem_range.mp hj)

/-- One tier is read (R317, R318). -/
theorem fecMaskTier_run {tier a n first width : Nat} (hwidth : 8 * n = width + 1) (hc : c.unit = 0) :
    fecMaskTier F tier a n first c =
      .ok ((streamBit F (8 * a)).toNat, tierOffsets F first (8 * a + 1) width) (c.addRecs (tierRecs F tier (8 * a) width)) := by
  have hword : beAt F a n = bits F (8 * a) 1 * 2 ^ width + bits F (8 * a + 1) width := by
    rw [beAt_eq_bits, ← bits_add, hwidth, Nat.add_comm]
  have hk : beAt F a n / 2 ^ width = bits F (8 * a) 1 := by
    rw [hword, Nat.mul_comm, Nat.mul_add_div (by positivity), Nat.div_eq_of_lt (bits_lt _ _ _), Nat.add_zero]
  have hmask : beAt F a n % 2 ^ width = bits F (8 * a + 1) width := by
    rw [hword, Nat.mul_comm, Nat.mul_add_mod, Nat.mod_eq_of_lt (bits_lt _ _ _)]
  have hbit : bits F (8 * a) 1 = (streamBit F (8 * a)).toNat := by
    rw [bits, bits, bit_eq, Nat.mul_zero, Nat.zero_add, Nat.add_zero]
  rw [fecMaskTier, show 8 * n - 1 = width by omega, hk, hmask, Parse.bind_ok (emit_eq _ _ _ _ _ _),
    Parse.bind_ok (emit_eq _ _ _ _ _ _), Parse.pure_run, maskOffsets_bits, Ctx.addRecs_addRecs, Ctx.addRecs_unit, hc,
    tierRecs, ← bits_eq_sum, ← bits_eq_sum, hbit]
  rfl

/-! ## The protected sequence numbers -/

theorem tierOffsets_append (q : Nat → Bool) (m n : Nat) :
    (List.range (m + n)).filter q =
      (List.range m).filter q ++ ((List.range n).filter fun j => q (m + j)).map (m + ·) := by
  rw [List.range_add, List.filter_append, List.filter_map]
  rfl

/-- The offsets of the tiers read are those of the mask bits (R317, R318). -/
theorem tierOffsets_one (F : List Byte) : (List.range 15).filter (fecMaskBit F) = tierOffsets F 0 145 15 := by
  unfold tierOffsets
  simp only [Nat.zero_add, List.map_id']
  exact List.filter_congr fun j hj => by rw [fecMaskBit, if_pos (List.mem_range.mp hj)]

theorem tierOffsets_two (F : List Byte) :
    (List.range 46).filter (fecMaskBit F) = tierOffsets F 0 145 15 ++ tierOffsets F 15 161 31 := by
  rw [tierOffsets_append (fecMaskBit F) 15 31, tierOffsets_one]
  refine congrArg (fun l => tierOffsets F 0 145 15 ++ l.map (15 + ·)) (List.filter_congr fun j hj => ?_)
  have := List.mem_range.mp hj
  rw [fecMaskBit, if_neg (by omega), if_pos (by omega), Nat.add_sub_cancel_left]

theorem tierOffsets_three (F : List Byte) :
    (List.range 109).filter (fecMaskBit F) =
      tierOffsets F 0 145 15 ++ (tierOffsets F 15 161 31 ++ tierOffsets F 46 193 63) := by
  rw [tierOffsets_append (fecMaskBit F) 46 63, tierOffsets_two, List.append_assoc]
  refine congrArg (fun l => tierOffsets F 0 145 15 ++ (tierOffsets F 15 161 31 ++ l.map (46 + ·)))
    (List.filter_congr fun j hj => ?_)
  rw [fecMaskBit, if_neg (by omega), if_neg (by omega), Nat.add_sub_cancel_left]

/-- The offsets of the protected packets (R319). -/
def fecOffsets (F : List Byte) : List Nat := (List.range ([0, 15, 46, 109].getD (fecTiers F) 0)).filter (fecMaskBit F)

theorem fecSeqs_eq (F : List Byte) :
    fecSeqs F = (fecOffsets F).map fun o => BitVec.ofNat 16 (beAt F 16 2) + BitVec.ofNat 16 o := by
  refine List.map_congr_left fun o _ => ?_
  rw [BitVec.ofNat_add]

/-! ## parse_mask -/

theorem fecEmitSeqs_run (seqs : List Half) (n : Nat) (hc : c.unit = 0) :
    fecEmitSeqs n seqs c = .ok () (c.addRecs (seqs.mapIdx fun i q => mkRec Field.fecProtectedSeq q.toNat 0 (n + i))) := by
  induction seqs generalizing n c with
  | nil => rw [fecEmitSeqs, Parse.pure_run, List.mapIdx_nil, Ctx.addRecs_nil]
  | cons q seqs ih =>
    rw [fecEmitSeqs, Parse.bind_ok (emit_eq _ _ _ _ _ _), ih (n + 1) (by exact hc), Ctx.addRecs_addRecs, List.mapIdx_cons, hc]
    simp [Nat.add_assoc, Nat.add_comm 1]

/-- The end of `parse_mask`, with the offsets and the header length (R318, R319). -/
def fecMaskEnd (F : List Byte) (x : List Nat × Nat) : Parse σ (List Half × Nat × Half) := do
  emit Field.fecHeaderLength x.2
  if x.1.isEmpty then raise .malformed
  else do
    fecEmitSeqs 0 (x.1.map fun o => BitVec.ofNat 16 (beAt F 16 2) + BitVec.ofNat 16 o)
    emit Field.fecKey ((x.1.map fun o => BitVec.ofNat 16 (beAt F 16 2) + BitVec.ofNat 16 o).getLastD 0).toNat
    pure (x.1.map fun o => BitVec.ofNat 16 (beAt F 16 2) + BitVec.ofNat 16 o, x.2,
      (x.1.map fun o => BitVec.ofNat 16 (beAt F 16 2) + BitVec.ofNat 16 o).getLastD 0)

theorem fecMaskEnd_run (hc : c.unit = 0) :
    fecMaskEnd F (fecOffsets F, fecHeaderLen F) c =
      if fecSeqs F = [] then .error .malformed (c.addRecs [mkRec Field.fecHeaderLength (fecHeaderLen F)])
      else .ok (fecSeqs F, fecHeaderLen F, fecKeyOf F)
        (c.addRecs (mkRec Field.fecHeaderLength (fecHeaderLen F) :: fecSeqRecs F)) := by
  have hempty : (fecOffsets F).isEmpty = true ↔ fecSeqs F = [] := by
    rw [List.isEmpty_iff, fecSeqs_eq, List.map_eq_nil_iff]
  rw [fecMaskEnd, Parse.bind_ok (emit_eq _ _ _ _ _ _), hc]
  by_cases h : fecSeqs F = []
  · rw [if_pos h, if_pos (hempty.mpr h), raise_run]
  · rw [if_neg h, if_neg (mt hempty.mp h), ← fecSeqs_eq, Parse.bind_ok (fecEmitSeqs_run _ _ (by exact hc)),
      Parse.bind_ok (emit_eq _ _ _ _ _ _), Parse.pure_run]
    simp [Ctx.addRecs_addRecs, fecSeqRecs, fecKeyOf, hc]

/-- The tiers after the first (R318). -/
theorem fecLaterTiers_run (hc : c.unit = 0) :
    fecLaterTiers F c =
      if F.length < 24 then .error .truncated c
      else if streamBit F 160 then .ok (tierOffsets F 15 161 31, 24) (c.addRecs (tierRecs F 1 160 31))
      else if F.length < 32 then .error .truncated (c.addRecs (tierRecs F 1 160 31))
      else .ok (tierOffsets F 15 161 31 ++ tierOffsets F 46 193 63, 32)
        (c.addRecs (tierRecs F 1 160 31 ++ tierRecs F 2 192 63)) := by
  unfold fecLaterTiers
  by_cases h24 : F.length < 24
  · rw [if_pos h24, if_pos h24, raise_run]
  · rw [if_neg h24, if_neg h24, Parse.bind_ok (fecMaskTier_run (width := 31) rfl hc)]
    dsimp only
    cases streamBit F 160 with
    | true => rw [if_pos rfl]; rfl
    | false =>
      rw [if_pos Bool.toNat_false, if_neg Bool.false_ne_true]
      by_cases h32 : F.length < 32
      · rw [if_pos h32, if_pos h32, raise_run]
      · rw [if_neg h32, if_neg h32, Parse.bind_ok (fecMaskTier_run (width := 63) rfl (by exact hc)), Ctx.addRecs_addRecs]
        rfl

/-- The offsets and the header length, with all tiers that the K bits call for (R317, R318). -/
def fecTiersProc (F : List Byte) : Parse σ (List Nat × Nat) :=
  if (streamBit F 144).toNat = 0 then fecLaterTiers F >>= fun x => pure (tierOffsets F 0 145 15 ++ x.1, x.2)
  else pure (tierOffsets F 0 145 15, 20)

/-- The context after the sequence number base and the first tier. -/
def fecTierCtx (F : List Byte) (c : Ctx σ) : Ctx σ := c.addRecs (mkRec Field.fecSnBase (beAt F 16 2) :: tierRecs F 0 144 15)

/-- `parse_mask` after its first tier (R318). -/
theorem fecParseMask_run (hF : 20 ≤ F.length) (hc : c.unit = 0) :
    fecParseMask F c = (fecTiersProc F >>= fecMaskEnd F) (fecTierCtx F c) := by
  have hbase : (BitVec.ofNat 16 (beAt F 16 2)).toNat = beAt F 16 2 := Nat.mod_eq_of_lt (beAt_lt F 16 2)
  rw [fecParseMask, if_neg (by omega), Parse.bind_ok (emit_eq _ _ _ _ _ _), hbase,
    Parse.bind_ok (fecMaskTier_run (width := 15) rfl (by exact hc)), Ctx.addRecs_addRecs, hc]
  rfl

/-! The number of tiers, by the K bits (R318). -/

theorem fecTiers_eq_one (h : streamBit F 144 = true) : fecTiers F = 1 := if_pos h

theorem fecTiers_eq_two (h : streamBit F 144 = false) (h2 : streamBit F 160 = true) : fecTiers F = 2 := by
  rw [fecTiers, h, h2]; rfl

theorem fecTiers_eq_three (h : streamBit F 144 = false) (h2 : streamBit F 160 = false) : fecTiers F = 3 := by
  rw [fecTiers, h, h2]; rfl

theorem fecTierCtx_unit (hc : c.unit = 0) : (fecTierCtx F c).unit = 0 := hc

/-- All tiers that the K bits call for are there (R318). -/
theorem fecTiersProc_run (hH : fecHeaderLen F ≤ F.length) (hc : c.unit = 0) :
    fecTiersProc F (fecTierCtx F c) = .ok (fecOffsets F, fecHeaderLen F)
      (c.addRecs (mkRec Field.fecSnBase (beAt F 16 2) :: fecTierRecs F (fecTiers F))) := by
  unfold fecTiersProc
  unfold fecHeaderLen at hH ⊢
  unfold fecOffsets
  cases h1 : streamBit F 144 with
  | true =>
    rw [fecTiers_eq_one h1]
    simp only [List.getD_cons_succ, List.getD_cons_zero]
    rw [if_neg (by decide), Parse.pure_run, tierOffsets_one]
    rfl
  | false =>
    cases h2 : streamBit F 160 with
    | true =>
      rw [fecTiers_eq_two h1 h2] at hH ⊢
      simp only [List.getD_cons_succ, List.getD_cons_zero] at hH ⊢
      rw [if_pos Bool.toNat_false, Parse.bind_ok ((fecLaterTiers_run (fecTierCtx_unit hc)).trans
        (by rw [if_neg (by omega), if_pos h2])), Parse.pure_run, tierOffsets_two, fecTierCtx, Ctx.addRecs_addRecs]
      rfl
    | false =>
      rw [fecTiers_eq_three h1 h2] at hH ⊢
      simp only [List.getD_cons_succ, List.getD_cons_zero] at hH ⊢
      rw [if_pos Bool.toNat_false, Parse.bind_ok ((fecLaterTiers_run (fecTierCtx_unit hc)).trans
        (by rw [if_neg (by omega), if_neg (by simp [h2]), if_neg (by omega)])), Parse.pure_run, tierOffsets_three, fecTierCtx,
        Ctx.addRecs_addRecs]
      rfl

/-- A later tier is cut (R318). -/
theorem fecTiersProc_cut {n : Nat} (h : n = 1 ∧ F.length < 24 ∧ 2 ≤ fecTiers F ∨
      n = 2 ∧ 24 ≤ F.length ∧ F.length < 32 ∧ fecTiers F = 3) (hc : c.unit = 0) :
    fecTiersProc F (fecTierCtx F c) = .error .truncated
      (c.addRecs (mkRec Field.fecSnBase (beAt F 16 2) :: fecTierRecs F n)) := by
  have h1 : streamBit F 144 = false := by
    rw [← Bool.not_eq_true]
    intro h1
    rw [fecTiers_eq_one h1] at h
    omega
  unfold fecTiersProc
  rw [h1, if_pos Bool.toNat_false]
  obtain ⟨rfl, hlen, -⟩ | ⟨rfl, hlen, hlen', h3⟩ := h
  · rw [Parse.bind_error ((fecLaterTiers_run (fecTierCtx_unit hc)).trans (if_pos hlen))]
    rfl
  · have h2 : streamBit F 160 = false := by
      rw [← Bool.not_eq_true]
      intro h2
      rw [fecTiers_eq_two h1 h2] at h3
      omega
    rw [Parse.bind_error ((fecLaterTiers_run (fecTierCtx_unit hc)).trans
      (by rw [if_neg (by omega), if_neg (by simp [h2]), if_pos hlen'])), fecTierCtx, Ctx.addRecs_addRecs]
    rfl

/-- `parse_mask` on a mask that is there (R317 to R319). -/
theorem fecParseMask_whole (hF : 20 ≤ F.length) (hH : fecHeaderLen F ≤ F.length) (hc : c.unit = 0) :
    fecParseMask F c =
      if fecSeqs F = [] then .error .malformed (c.addRecs (fecMaskRecs F))
      else .ok (fecSeqs F, fecHeaderLen F, fecKeyOf F) (c.addRecs (fecMaskRecs F ++ fecSeqRecs F)) := by
  rw [fecParseMask_run hF hc, Parse.bind_ok (fecTiersProc_run hH hc), fecMaskEnd_run (by exact hc)]
  simp [Ctx.addRecs_addRecs, fecMaskRecs]

theorem fecParseMask_cut (hF : 20 ≤ F.length) {n : Nat} (h : n = 1 ∧ F.length < 24 ∧ 2 ≤ fecTiers F ∨
      n = 2 ∧ 24 ≤ F.length ∧ F.length < 32 ∧ fecTiers F = 3) (hc : c.unit = 0) :
    fecParseMask F c = .error .truncated (c.addRecs (mkRec Field.fecSnBase (beAt F 16 2) :: fecTierRecs F n)) := by
  rw [fecParseMask_run hF hc, Parse.bind_error (fecTiersProc_cut h hc)]

/-! ## FEC_MASK -/

section
variable {s : State} {len : Half}

theorem exec_fecMask (s : State) (len : Half) :
    exec (.fecMask len) s = .next (runParser 0x42 s () putNothing (fecMaskProc (inputBytes s len))) := by
  rw [← State.input_eq]; rfl

theorem fecMaskProc_error {F : List Byte} {c c' : Ctx Unit} {st : Status} (h : fecParseMask F c = .error st c') :
    fecMaskProc F c = .error st c' := Parse.bind_error h

/-- Settles O54. -/
theorem fecMaskDecodes : Obligations.FecMaskDecodes := by
  intro s len F hF hlen
  have hlength : F.length = len.toNat := by rw [hF, inputBytes_length]
  rw [exec_fecMask, ← hF]
  refine ⟨fun hH hne => ?_, fun hH hnil => ?_, fun h24 h2 => ?_, fun h24 h32 h3 => ?_⟩
  · have hrun := fecParseMask_whole (F := F) (c := Ctx.start ()) (by omega) (by omega) rfl
    rw [if_neg hne] at hrun
    rw [runParser_finished (by rw [fecMaskProc, Parse.bind_ok hrun, Parse.pure_run])]
    rfl
  · have hrun := fecParseMask_whole (F := F) (c := Ctx.start ()) (by omega) (by omega) rfl
    rw [if_pos hnil] at hrun
    rw [runParser_raised (fecMaskProc_error hrun) nofun]
    rfl
  · have hrun := fecParseMask_cut (F := F) (c := Ctx.start ()) (by omega) (.inl ⟨rfl, by omega, h2⟩) rfl
    rw [runParser_raised (fecMaskProc_error hrun) nofun]
    rfl
  · have hrun := fecParseMask_cut (F := F) (c := Ctx.start ()) (by omega) (.inr ⟨rfl, by omega, by omega, h3⟩) rfl
    rw [runParser_raised (fecMaskProc_error hrun) nofun]
    rfl

/-- `parse_mask` with K = 1 in tier 1 stops there (R318). -/
theorem fecParseMask_short {F : List Byte} (hF : 20 ≤ F.length) (hk : beAt F 18 2 / 2 ^ 15 ≠ 0) (c : Ctx σ) :
    fecParseMask F c =
      fecMaskEnd F (maskOffsets 0 15 (beAt F 18 2 % 2 ^ 15), 20)
        ((c.addRecs [mkRec Field.fecSnBase (beAt F 16 2) c.unit]).addRecs
          [mkRec Field.fecK (beAt F 18 2 / 2 ^ 15) c.unit 0, mkRec Field.fecMaskTier (beAt F 18 2 % 2 ^ 15) c.unit 0]) := by
  have hbase : (BitVec.ofNat 16 (beAt F 16 2)).toNat = beAt F 16 2 := Nat.mod_eq_of_lt (beAt_lt F 16 2)
  have htier : ∀ c : Ctx σ, fecMaskTier F 0 18 2 0 c = .ok (beAt F 18 2 / 2 ^ 15, maskOffsets 0 15 (beAt F 18 2 % 2 ^ 15))
      (c.addRecs [mkRec Field.fecK (beAt F 18 2 / 2 ^ 15) c.unit 0,
        mkRec Field.fecMaskTier (beAt F 18 2 % 2 ^ 15) c.unit 0]) := fun c => by
    rw [fecMaskTier, Parse.bind_ok (emit_eq _ _ _ _ _ _), Parse.bind_ok (emit_eq _ _ _ _ _ _), Parse.pure_run,
      Ctx.addRecs_addRecs]
    rfl
  rw [fecParseMask, if_neg (by omega), Parse.bind_ok (emit_eq _ _ _ _ _ _), hbase, Parse.bind_ok (htier _)]
  dsimp only
  rw [if_neg hk]
  rfl

/-- `parse_mask` with K = 1 in tier 1 depends on bytes 16 to 19 alone (R318). -/
theorem fecParseMask_congr {F G : List Byte} (hF : 20 ≤ F.length) (hG : 20 ≤ G.length)
    (h : ∀ a < 20, byteAt F a = byteAt G a) (hk : 128 ≤ byteAt F 18) (c : Ctx σ) : fecParseMask F c = fecParseMask G c := by
  have h16 : beAt F 16 2 = beAt G 16 2 := by rw [beAt_two, beAt_two, h 16 (by decide), h 17 (by decide)]
  have h18 : beAt F 18 2 = beAt G 18 2 := by rw [beAt_two, beAt_two, h 18 (by decide), h 19 (by decide)]
  have hne : beAt F 18 2 / 2 ^ 15 ≠ 0 := by rw [beAt_two]; omega
  rw [fecParseMask_short hF hne, fecParseMask_short hG (h18 ▸ hne), fecMaskEnd, fecMaskEnd, h16, h18]

theorem byteAt_inputBytes {a : Nat} (h : a < len.toNat) : byteAt (inputBytes s len) a = (s.ibuf.read a).toNat := by
  simp [byteAt, inputBytes, h]

/-- Settles O55. -/
theorem fecMaskShortCircuit : Obligations.FecMaskShortCircuit := by
  intro s len len' m hlen hlen' hread hk
  have hproc : ∀ c, fecMaskProc (inputBytes { s with ibuf := m } len') c = fecMaskProc (inputBytes s len) c := by
    intro c
    unfold fecMaskProc
    rw [Parse.bind_run, Parse.bind_run, fecParseMask_congr (G := inputBytes s len) (by rwa [inputBytes_length])
      (by rwa [inputBytes_length]) (fun a ha => ?_) ?_]
    · rw [byteAt_inputBytes (by omega)]
      exact hk.trans_eq (congrArg _ (hread 18 (by decide)).symm)
    · rw [byteAt_inputBytes (by omega), byteAt_inputBytes (by omega)]
      exact congrArg _ (hread a ha)
  refine ⟨_, exec_fecMask s len, ?_⟩
  rw [exec_fecMask, runParser_congr (hproc _)]
  exact congrArg _ (runParser_ibuf_comm s m 0x42 () putNothing _ (fun _ => rfl) fun _ => rfl).2

end

end Sys2Proof.Machine
end

section
/-! The stores and the recovery of FlexFEC (spec/44_flexfec.md sections 2, 3 and 5). -/

namespace Sys2Proof.Machine

open Sys2Proof.Safety

/-! ## store_put -/

/-- `store_put` commits the store with the entry put, and records an eviction (R311). -/
theorem storePut_run {cap : Nat} {key ev : Half} {b : List Byte} {c : Ctx Store} (hc : c.unit = 0) :
    storePut cap key b ev c =
      .ok () { c.addRecs (evictRecs cap c.env key ev) with env := putEntry cap c.env key b } := by
  rw [storePut, Parse.bind_ok (getEnv_run c)]
  unfold putEntry evictRecs
  by_cases hkey : key ∈ c.env.map (·.key)
  · rw [if_pos (Store.has_eq_true.mpr hkey), if_pos hkey, if_pos (.inl hkey), Ctx.addRecs_nil]
    simp [Store.remove]
    rfl
  · rw [if_neg (by simpa using Store.has_eq_false.mpr hkey), if_neg hkey]
    by_cases hcap : c.env.length = cap
    · rw [if_pos hcap, if_pos hcap, if_neg (by simp [hkey, hcap])]
      cases henv : c.env with
      | nil => dsimp only; rw [commit_run]; simp [Ctx.addRecs]
      | cons oldest rest => dsimp only; rw [Parse.bind_ok (emit_eq _ _ _ _ _ _), commit_run, hc]; rfl
    · rw [if_neg hcap, if_neg hcap, if_pos (.inr hcap), commit_run, Ctx.addRecs_nil]

theorem exec_fecMedia (s : State) (len : Half) :
    exec (.fecMedia len) s = .next (runParser 0x40 s s.media State.withMedia (fecMediaProc s.cfg s.fec (inputBytes s len))) := by
  rw [← State.input_eq]; rfl

theorem fecMediaProc_run {cfg : Params} {fec media : Store} {m : List Byte} (hm : 12 ≤ m.length) {q : Half}
    (hq : q = BitVec.ofNat 16 (beAt m 2 2)) :
    fecMediaProc cfg fec m (Ctx.start media) =
      .ok () { (Ctx.start media).addRecs ([mkRec Field.mediaSeq q.toNat, mkRec Field.mediaLength m.length] ++
        (if q ∈ fec.map (·.key) then [mkRec Field.fecKeyHit q.toNat] else []) ++
          evictRecs cfg.mediaCap media q Field.mediaEvicted) with env := putEntry cfg.mediaCap media q m } := by
  rw [fecMediaProc, if_neg (by omega), ← hq, Parse.bind_ok (emit_eq _ _ _ _ _ _), Parse.bind_ok (emit_eq _ _ _ _ _ _)]
  by_cases hkey : q ∈ fec.map (·.key)
  · rw [if_pos (Store.has_eq_true.mpr hkey), if_pos hkey, Parse.bind_ok (emit_eq _ _ _ _ _ _)]
    refine (storePut_run (by rfl)).trans ?_
    simp only [Ctx.addRecs_addRecs, List.append_assoc]
    rfl
  · rw [if_neg (by simpa using Store.has_eq_false.mpr hkey), if_neg hkey]
    refine (storePut_run (by rfl)).trans ?_
    simp only [Ctx.addRecs_addRecs, List.append_assoc]
    rfl

/-- Settles O53. -/
theorem fecMediaInserts : Obligations.FecMediaInserts := by
  intro s len q hlen hq
  rw [exec_fecMedia, runParser_finished (fecMediaProc_run (by rwa [inputBytes_length]) hq), inputBytes_length]
  rfl

/-! ## FEC_PACKET down to the recovery -/

section
variable {cfg : Params} {media : Store} {F : List Byte} {c : Ctx Store}

/-- R0F0 after the common header (R312, R315). -/
theorem fecVariantProc_R0F0 (hv : byteAt F 0 / 64 = 0) (hF : 20 ≤ F.length) (hc : c.unit = 0) :
    fecVariantProc cfg media F c = fecR0F0 cfg media F (c.addRecs (fecCommonRecs F)) := by
  rw [fecVariantProc, if_neg (by omega), if_neg (by omega),
    Parse.bind_ok ((fecCommonR0_run hc).trans (if_neg (by omega))), if_neg (by omega)]

/-- The context of the recovery: the payload is stored (R312, R321). -/
def storedCtx (cfg : Params) (fec : Store) (F : List Byte) : Ctx Store :=
  { (Ctx.start fec).addRecs (fecStoredRecs cfg.fecCap fec F) with env := putEntry cfg.fecCap fec (fecKeyOf F) F }

/-- A whole R0F0 payload is stored, then recovery starts (R312, R321). -/
theorem fecPacketProc_stored {fec : Store} (hF : 20 ≤ F.length) (hv : byteAt F 0 / 64 = 0)
    (hH : fecHeaderLen F ≤ F.length) (hne : fecSeqs F ≠ []) :
    fecPacketProc cfg media F (Ctx.start fec) =
      fecRecover media F (fecSeqs F) (fecHeaderLen F) (storedCtx cfg fec F) := by
  have hmask := fecParseMask_whole (c := (fecVariantCtx fec F).addRecs (fecCommonRecs F)) hF hH rfl
  rw [if_neg hne] at hmask
  rw [fecPacketProc_run (by omega), fecVariantProc_R0F0 hv hF rfl, fecR0F0, Parse.bind_ok hmask]
  dsimp only
  rw [Parse.bind_ok (emit_eq _ _ _ _ _ _), Parse.bind_ok (storePut_run (by rfl))]
  simp only [Ctx.addRecs_addRecs, fecVariantCtx, storedCtx, fecStoredRecs, List.append_assoc]
  rfl

/-- An R0F0 payload whose mask raises is not stored (R312). -/
theorem fecPacketProc_mask_raises {fec : Store} {st : Status} {recs : List Record} (hF : 20 ≤ F.length)
    (hv : byteAt F 0 / 64 = 0)
    (hmask : ∀ c : Ctx Store, c.unit = 0 → fecParseMask F c = .error st (c.addRecs recs)) :
    fecPacketProc cfg media F (Ctx.start fec) =
      .error st ((Ctx.start fec).addRecs (fecVariantRecs F ++ fecCommonRecs F ++ recs)) := by
  rw [fecPacketProc_run (by omega), fecVariantProc_R0F0 hv hF rfl, fecR0F0, Parse.bind_error (hmask _ rfl)]
  simp only [fecVariantCtx, Ctx.addRecs_addRecs]

theorem exec_fecPacket (s : State) (len : Half) :
    exec (.fecPacket len) s =
      .next (runParser 0x41 s s.fec State.withFec (fecPacketProc s.cfg s.media (inputBytes s len))) := by
  rw [← State.input_eq]; rfl

/-! ## Recovery -/

/-- The protected numbers that MEDIA does not have (R322). -/
theorem missingSeqs_eq (media : Store) (seqs : List Half) :
    missingSeqs media seqs = seqs.filter fun q => q ∉ media.map (·.key) := by
  refine List.filter_congr fun q _ => ?_
  by_cases h : q ∈ media.map (·.key)
  · simp only [Store.has_eq_true.mpr h, h, not_true_eq_false, decide_false, Bool.not_true]
  · simp only [Store.has_eq_false.mpr h, h, not_false_eq_true, decide_true, Bool.not_false]

theorem fecRecover_none {seqs : List Half} {H : Nat} (hc : c.unit = 0)
    (hmissing : seqs.filter (fun q => q ∉ media.map (·.key)) = []) :
    fecRecover media F seqs H c = .ok () (c.addRecs [mkRec Field.recoveryMissingCount 0]) := by
  rw [fecRecover, missingSeqs_eq, hmissing, Parse.bind_ok (emit_eq _ _ _ _ _ _), hc]
  rfl

theorem fecRecover_many {seqs : List Half} {H n : Nat} (hc : c.unit = 0)
    (hmissing : (seqs.filter (fun q => q ∉ media.map (·.key))).length = n) (hn : 2 ≤ n) :
    fecRecover media F seqs H c = .error .recoveryUnavailable (c.addRecs [mkRec Field.recoveryMissingCount n]) := by
  rw [fecRecover, missingSeqs_eq, hmissing, Parse.bind_ok (emit_eq _ _ _ _ _ _), hc]
  generalize seqs.filter (fun q => q ∉ media.map (·.key)) = missing at hmissing
  match missing with
  | [] | [_] => simp at hmissing; omega
  | _ :: _ :: _ => rfl

/-- The packets that are present, as `recover` collects them (R323). -/
def presentBytes (media : Store) (seqs : List Half) (lost : Half) : List (List Byte) :=
  (seqs.filter (fun q => !(q == lost))).map media.bytesOf

/-- One packet is missing (R322 to R326). -/
theorem fecRecover_one {seqs : List Half} {H Y : Nat} {lost : Half} (hc : c.unit = 0)
    (hmissing : seqs.filter (fun q => q ∉ media.map (·.key)) = [lost])
    (hY : beAt (recoverHeader F (presentBytes media seqs lost)) 2 2 = Y) :
    fecRecover media F seqs H c =
      (if H + Y > F.length then raise .malformed
        else emit Field.recoveredLength (12 + Y) >>= fun _ =>
          fecEmitBytes 0 (recoverPacket F H (presentBytes media seqs lost) lost Y))
        (c.addRecs [mkRec Field.recoveryMissingCount 1, mkRec Field.fecLostSeq lost.toNat]) := by
  rw [fecRecover, missingSeqs_eq, hmissing, Parse.bind_ok (emit_eq _ _ _ _ _ _)]
  dsimp only
  rw [Parse.bind_ok (emit_eq _ _ _ _ _ _), Ctx.addRecs_addRecs, Ctx.addRecs_unit, hc]
  subst hY
  rfl

/-- Settles O57. -/
theorem fecPacketStoresThenCounts : Obligations.FecPacketStoresThenCounts := by
  intro s len F n hF hlen hv hH hne hn
  have hlength : F.length = len.toNat := by rw [hF, inputBytes_length]
  have hproc := fecPacketProc_stored (cfg := s.cfg) (media := s.media) (fec := s.fec) (by omega) hv (by omega) hne
  rw [exec_fecPacket, ← hF]
  refine ⟨fun h0 => ?_, fun h2 => ?_⟩
  · rw [fecRecover_none rfl (List.length_eq_zero_iff.mp (hn ▸ h0))] at hproc
    rw [runParser_finished hproc]
    rfl
  · rw [fecRecover_many rfl hn.symm h2] at hproc
    rw [runParser_raised hproc nofun]
    simp [storedCtx, Ctx.addRecs, Ctx.start]
    rfl

end

end Sys2Proof.Machine
end

section
/-! What `recover` recovers (spec/44_flexfec.md section 5): the exclusive ors of the header fields and of the payloads. -/

namespace Sys2Proof.Machine

open Sys2Proof.Safety

/-! ## Bytes -/

/-- A part of a string that is there, byte by byte (R9). -/
theorem slice_eq_map {l : List Byte} {a n : Nat} (h : a + n ≤ l.length) :
    slice l a n = (List.range n).map fun j => l.getD (a + j) 0 := by
  refine List.ext_getElem (by simp [slice]; omega) fun i hi _ => ?_
  have hlt : a + i < l.length := by simp [slice] at hi; omega
  simp [slice, hlt]

theorem xorBytes_getD {a b : List Byte} (h : a.length = b.length) (i : Nat) :
    (xorBytes a b).getD i 0 = a.getD i 0 ^^^ b.getD i 0 := by
  obtain hi | hi := Nat.lt_or_ge i a.length
  · simp [xorBytes, hi, h ▸ hi]
  · simp [xorBytes, hi, h ▸ hi]

/-- Exclusive or of two-byte values, byte by byte (R64). -/
theorem xor_two_bytes (a b x y : Byte) :
    (256 * a.toNat + b.toNat) ^^^ (256 * x.toNat + y.toNat) = 256 * (a ^^^ x).toNat + (b ^^^ y).toNat := by
  refine Nat.eq_of_testBit_eq fun i => ?_
  have h256 : 256 = 2 ^ 8 := rfl
  rw [Nat.testBit_xor, h256, Nat.testBit_two_pow_mul_add _ b.isLt, Nat.testBit_two_pow_mul_add _ y.isLt,
    Nat.testBit_two_pow_mul_add _ (b ^^^ y).isLt, BitVec.toNat_xor, BitVec.toNat_xor]
  split
  · rw [Nat.testBit_xor]
  · rw [Nat.testBit_xor]

theorem foldl_xor_two_bytes {α : Type} (f g : α → Byte) (l : List α) (x y : Byte) :
    256 * ((l.map f).foldl (· ^^^ ·) x).toNat + ((l.map g).foldl (· ^^^ ·) y).toNat =
      (l.map fun m => 256 * (f m).toNat + (g m).toNat).foldl (· ^^^ ·) (256 * x.toNat + y.toNat) := by
  induction l generalizing x y with
  | nil => rfl
  | cons m l ih =>
    rw [List.map_cons, List.map_cons, List.map_cons, List.foldl_cons, List.foldl_cons, List.foldl_cons, ih, xor_two_bytes]

theorem foldl_xor_init (l : List Byte) (x : Byte) : l.foldl (· ^^^ ·) x = x ^^^ l.foldl (· ^^^ ·) 0 := by
  induction l generalizing x with
  | nil => simp
  | cons b l ih =>
    rw [List.foldl_cons, List.foldl_cons, ih, ih (0 ^^^ b), ← BitVec.xor_assoc]
    simp

/-- The exclusive or over a group, with all but one taken out again (R323). -/
theorem foldl_xor_others {group others : List (List Byte)} {lost : List Byte} (h : group.Perm (lost :: others))
    (f : List Byte → Byte) : (others.map f).foldl (· ^^^ ·) (xorOver group f) = f lost := by
  have hgroup : xorOver group f = f lost ^^^ (others.map f).foldl (· ^^^ ·) 0 := by
    unfold xorOver
    rw [(h.map f).foldl_eq (rcomm := ⟨fun a b c => by rw [BitVec.xor_assoc, BitVec.xor_comm b, BitVec.xor_assoc]⟩),
      List.map_cons, List.foldl_cons, foldl_xor_init]
    simp
  rw [foldl_xor_init, hgroup, BitVec.xor_assoc, BitVec.xor_self, BitVec.xor_zero]

/-! ## The recovered header -/

/-- What a packet adds to the header, byte by byte (R331). -/
def headerByte (i : Nat) (m : List Byte) : Byte := (mediaHeader m).getD i 0

theorem mediaHeader_eq {m : List Byte} (hm : 8 ≤ m.length) :
    mediaHeader m = [m.getD 0 0, m.getD 1 0, BitVec.ofNat 8 ((m.length - 12) / 256), BitVec.ofNat 8 (m.length - 12),
      m.getD 4 0, m.getD 5 0, m.getD 6 0, m.getD 7 0] := by
  rw [mediaHeader, slice_eq_map (by omega), slice_eq_map (by omega)]
  rfl

/-- The recovered header, byte by byte (R323). -/
theorem recoverHeader_getD {F : List Byte} {ms : List (List Byte)} (hF : 8 ≤ F.length) (hms : ∀ m ∈ ms, 8 ≤ m.length) :
    (recoverHeader F ms).length = 8 ∧ ∀ i < 8, (recoverHeader F ms).getD i 0 =
      (ms.map (headerByte i)).foldl (· ^^^ ·) (F.getD i 0) := by
  have hfold : ∀ h : List Byte, h.length = 8 →
      (ms.foldl (fun h m => xorBytes h (mediaHeader m)) h).length = 8 ∧
        ∀ i, (ms.foldl (fun h m => xorBytes h (mediaHeader m)) h).getD i 0 =
          (ms.map (headerByte i)).foldl (· ^^^ ·) (h.getD i 0) := by
    induction ms with
    | nil => exact fun h hh => ⟨hh, fun i => rfl⟩
    | cons m ms ih =>
      obtain ⟨hm, hrest⟩ := List.forall_mem_cons.mp hms
      intro h hh
      have hlen : h.length = (mediaHeader m).length := by rw [hh, mediaHeader_eq hm]; rfl
      obtain ⟨hl, hi⟩ := ih hrest (xorBytes h (mediaHeader m)) (by simp [xorBytes, ← hlen, hh])
      refine ⟨hl, fun i => ?_⟩
      rw [List.foldl_cons, hi, xorBytes_getD hlen, List.map_cons, List.foldl_cons, headerByte]
  have hslice : (slice F 0 8).length = 8 := by simp [slice, hF]
  obtain ⟨hlen, hget⟩ := hfold _ hslice
  refine ⟨hlen, fun i hi => ?_⟩
  rw [recoverHeader, hget, slice_eq_map (by omega)]
  simp [hi]

/-- The recovered payload length (R324). -/
theorem beAt_recoverHeader {F : List Byte} {ms : List (List Byte)} (hF : 8 ≤ F.length)
    (hms : ∀ m ∈ ms, 12 ≤ m.length ∧ m.length ≤ 65535) :
    beAt (recoverHeader F ms) 2 2 = (ms.map fun m => m.length - 12).foldl (· ^^^ ·) (beAt F 2 2) := by
  have hget := (recoverHeader_getD hF fun m hm => (by omega : 8 ≤ 12).trans (hms m hm).1).2
  rw [beAt_two, beAt_two]
  unfold byteAt
  rw [hget 2 (by decide), hget 3 (by decide), foldl_xor_two_bytes]
  congr 1
  refine List.map_congr_left fun m hm => ?_
  obtain ⟨h12, hlen⟩ := hms m hm
  rw [headerByte, headerByte, mediaHeader_eq (by omega)]
  show 256 * (BitVec.ofNat 8 ((m.length - 12) / 256)).toNat + (BitVec.ofNat 8 (m.length - 12)).toNat = _
  rw [BitVec.toNat_ofNat, BitVec.toNat_ofNat]
  omega

/-! ## Stored packets -/

/-- A stored entry is what its key finds (R322). -/
theorem Store.bytesOf_of_mem {st : Store} {e : StoreEntry} (hn : (st.map (·.key)).Nodup) (he : e ∈ st) :
    st.bytesOf e.key = e.bytes := by
  induction st with
  | nil => cases he
  | cons e' st ih =>
    rw [List.map_cons, List.nodup_cons] at hn
    rw [Store.bytesOf]
    obtain rfl | he := List.mem_cons.mp he
    · rw [if_pos rfl]
    · rw [if_neg fun h : e'.key = e.key => hn.1 (h ▸ List.mem_map_of_mem he), ih hn.2 he]

theorem filter_ne_eq (q lost : Half) : (!(q == lost)) = decide (q ≠ lost) := by
  by_cases h : q = lost
  · simp [h]
  · simp [h]

/-- Settles O58. -/
theorem fecPacketFailures : Obligations.FecPacketFailures := by
  intro s len F hF hlen hv
  have hlength : F.length = len.toNat := by rw [hF, inputBytes_length]
  rw [exec_fecPacket, ← hF]
  refine ⟨fun hH hnil => ?_, fun h24 h2 => ?_, fun h24 h32 h3 => ?_,
    fun lost present Y hH hn hmissing hkeys hpresent hY hlong => ?_⟩
  · rw [runParser_raised (fecPacketProc_mask_raises (by omega) hv fun c hc =>
      (fecParseMask_whole (by omega) (by omega) hc).trans (if_pos hnil)) nofun]
    rfl
  · rw [runParser_raised (fecPacketProc_mask_raises (by omega) hv fun c hc =>
      fecParseMask_cut (by omega) (.inl ⟨rfl, by omega, h2⟩) hc) nofun]
    simp [Ctx.addRecs, Ctx.start]
    rfl
  · rw [runParser_raised (fecPacketProc_mask_raises (by omega) hv fun c hc =>
      fecParseMask_cut (by omega) (.inr ⟨rfl, by omega, by omega, h3⟩) hc) nofun]
    simp [Ctx.addRecs, Ctx.start]
    rfl
  · have hne : fecSeqs F ≠ [] := fun h => by rw [h] at hmissing; simp at hmissing
    have hbytes : presentBytes s.media (fecSeqs F) lost = present.map (·.bytes) := by
      have hfilter : (fecSeqs F).filter (fun q => !(q == lost)) = present.map (·.key) := by
        rw [hkeys]
        exact List.filter_congr fun q _ => filter_ne_eq q lost
      rw [presentBytes, hfilter, List.map_map]
      exact List.map_congr_left fun e he => Store.bytesOf_of_mem hn (hpresent e he).1
    have hlenY : beAt (recoverHeader F (presentBytes s.media (fecSeqs F) lost)) 2 2 = Y := by
      rw [hbytes, beAt_recoverHeader (by omega) (by simpa using fun e he => (hpresent e he).2), List.map_map, hY]
      rfl
    have hproc := fecPacketProc_stored (cfg := s.cfg) (media := s.media) (fec := s.fec) (by omega) hv (by omega) hne
    rw [fecRecover_one rfl hmissing hlenY, if_pos (by omega), raise_run] at hproc
    rw [runParser_raised hproc nofun]
    simp [storedCtx, Ctx.addRecs, Ctx.start]
    rfl

/-! ## The lost packet of a group -/

/-- Offsets below 2^16 give different sequence numbers (R319, R328). -/
theorem fecSeqs_nodup (F : List Byte) : (fecSeqs F).Nodup := by
  refine List.Nodup.map_on (fun a ha b hb hab => ?_) (List.nodup_range.filter _)
  have hbound : [0, 15, 46, 109].getD (fecTiers F) 0 ≤ 109 := by
    unfold fecTiers
    split_ifs <;> decide
  have ha := List.mem_range.mp (List.mem_of_mem_filter ha)
  have hb := List.mem_range.mp (List.mem_of_mem_filter hb)
  have hnat := congrArg BitVec.toNat hab
  rw [BitVec.toNat_ofNat, BitVec.toNat_ofNat] at hnat
  omega

/-- Of a group without a repeated number, all but one, and that one (R322). -/
theorem perm_lost_others {group : List (List Byte)} {key : List Byte → Half} {lost : List Byte}
    (hn : (group.map key).Nodup) (hlost : lost ∈ group) :
    group.Perm (lost :: group.filter fun m => key m ≠ key lost) := by
  have hothers : group.filter (fun m => key m ≠ key lost) = group.erase lost := by
    rw [hn.of_map.erase_eq_filter]
    refine List.filter_congr fun m hm => ?_
    have hinj : key m = key lost ↔ m = lost :=
      ⟨fun h => List.inj_on_of_nodup_map hn hm hlost h, fun h => h ▸ rfl⟩
    simp [hinj, bne, decide_not, beq_eq_decide]
  rw [hothers]
  exact List.perm_cons_erase hlost

theorem filter_singleton {l : List Half} {q : Half} (hn : l.Nodup) (hq : q ∈ l) {p : Half → Bool}
    (hp : ∀ x ∈ l, p x = true ↔ x = q) : l.filter p = [q] := by
  rw [List.filter_congr (q := (· == q)) fun x hx => by rw [Bool.eq_iff_iff, hp x hx, beq_iff_eq], List.filter_beq,
    hn.count, if_pos hq, List.replicate_one]

/-- The first byte of a packet of version 2, from its low six bits (R325). -/
theorem version_byte : ∀ b : Byte, b.toNat / 64 = 2 → (b &&& 0x3F) ||| 0x80 = b := by decide

theorem and_63_eq {a b : Byte} (h : a.toNat % 64 = b.toNat % 64) : a &&& 0x3F = b &&& 0x3F := by
  refine BitVec.eq_of_toNat_eq ?_
  rw [BitVec.toNat_and, BitVec.toNat_and]
  show a.toNat &&& (2 ^ 6 - 1) = b.toNat &&& (2 ^ 6 - 1)
  rw [Nat.and_two_pow_sub_one_eq_mod, Nat.and_two_pow_sub_one_eq_mod, h]

theorem xor_and_congr {a b x m : Byte} (h : a &&& m = b &&& m) : (a ^^^ x) &&& m = (b ^^^ x) &&& m := by
  refine BitVec.eq_of_getLsbD_eq fun i _ => ?_
  have hi := congrArg (BitVec.getLsbD · i) h
  simp only [BitVec.getLsbD_and, BitVec.getLsbD_xor] at hi ⊢
  cases hm : m.getLsbD i with
  | false => simp
  | true => simpa [hm] using hi

/-- The two bytes of a sequence number (R325). -/
theorem seq_bytes (x y : Byte) :
    (BitVec.ofNat 16 (256 * x.toNat + y.toNat)).extractLsb 15 8 = x ∧
      (BitVec.ofNat 16 (256 * x.toNat + y.toNat)).extractLsb 7 0 = y := by
  have hx := x.isLt
  have hy := y.isLt
  refine ⟨BitVec.eq_of_toNat_eq ?_, BitVec.eq_of_toNat_eq ?_⟩
  · rw [BitVec.extractLsb_toNat, BitVec.toNat_ofNat, Nat.shiftRight_eq_div_pow]
    omega
  · rw [BitVec.extractLsb_toNat, BitVec.toNat_ofNat, Nat.shiftRight_eq_div_pow]
    omega

/-- A packet by its parts (R325). -/
theorem packet_parts {m : List Byte} (h : 12 ≤ m.length) :
    m = [m.getD 0 0, m.getD 1 0] ++ [m.getD 2 0, m.getD 3 0] ++ slice m 4 4 ++ slice m 8 4 ++
      (List.range (m.length - 12)).map fun j => m.getD (12 + j) 0 := by
  have hparts : m = slice m 0 2 ++ slice m 2 2 ++ slice m 4 4 ++ slice m 8 4 ++ slice m 12 (m.length - 12) := by
    have hstep : ∀ a n, slice m a n ++ m.drop (a + n) = m.drop a := fun a n => by
      rw [slice, ← List.drop_drop, List.take_append_drop]
    have hlast : slice m 12 (m.length - 12) = m.drop 12 := by
      rw [slice, ← List.length_drop, List.take_length]
    simp only [List.append_assoc, hlast]
    rw [hstep 8 4, hstep 4 4, hstep 2 2, hstep 0 2, List.drop_zero]
  conv_lhs => rw [hparts]
  rw [slice_eq_map (a := 0) (by omega), slice_eq_map (a := 2) (by omega), slice_eq_map (a := 12) (by omega)]
  rfl

section
variable {F lost : List Byte} {group others : List (List Byte)}

/-- A header byte, from what the other packets have there (R323). -/
theorem recoverHeader_others {i : Nat} (hF : 8 ≤ F.length) (hothers : ∀ m ∈ others, 8 ≤ m.length) (hi : i < 8)
    {f : List Byte → Byte}
    (hf : ∀ m : List Byte, 8 ≤ m.length → headerByte i m = f m) :
    (recoverHeader F others).getD i 0 = (others.map f).foldl (· ^^^ ·) (F.getD i 0) := by
  rw [(recoverHeader_getD hF hothers).2 i hi, List.map_congr_left fun m hm => hf m (hothers m hm)]

/-- The lost packet is recovered byte for byte (R323 to R326). -/
theorem recoverPacket_lost (hF : 20 ≤ F.length) (hfec : IsFecOf F group) (hperm : group.Perm (lost :: others))
    (hsize : ∀ m ∈ group, 12 ≤ m.length ∧ m.length ≤ 65535) (hversion : byteAt lost 0 / 64 = 2)
    (hssrc : slice F 12 4 = slice lost 8 4) :
    beAt (recoverHeader F others) 2 2 = lost.length - 12 ∧
      recoverPacket F (fecHeaderLen F) others (BitVec.ofNat 16 (beAt lost 2 2)) (lost.length - 12) = lost := by
  obtain ⟨-, h0, h1, h2, h3, hts, hpayload⟩ := hfec
  have hlost : lost ∈ group := hperm.mem_iff.mpr List.mem_cons_self
  obtain ⟨h12, hlen⟩ := hsize lost hlost
  have hothers : ∀ m ∈ others, 8 ≤ m.length := fun m hm => by
    have := (hsize m (hperm.mem_iff.mpr (List.mem_cons_of_mem _ hm))).1
    omega
  have hbyte : ∀ (i : Nat) (f : List Byte → Byte), i < 8 → (∀ m : List Byte, 8 ≤ m.length → headerByte i m = f m) →
      F.getD i 0 = xorOver group f → (recoverHeader F others).getD i 0 = f lost := fun i f hi hf hxor => by
    rw [recoverHeader_others (by omega) hothers hi hf, hxor, foldl_xor_others hperm]
  have hb0 : ((recoverHeader F others).getD 0 0 &&& 0x3F) ||| 0x80 = lost.getD 0 0 := by
    rw [recoverHeader_others (f := fun m => m.getD 0 0) (by omega) hothers (by decide)
      fun m hm => by rw [headerByte, mediaHeader_eq hm]; rfl]
    rw [foldl_xor_init, xor_and_congr (and_63_eq h0), ← foldl_xor_init, foldl_xor_others hperm]
    exact version_byte _ hversion
  have hb1 : (recoverHeader F others).getD 1 0 = lost.getD 1 0 :=
    hbyte 1 _ (by decide) (fun m hm => by rw [headerByte, mediaHeader_eq hm]; rfl) h1
  have hb2 : (recoverHeader F others).getD 2 0 = BitVec.ofNat 8 ((lost.length - 12) / 256) :=
    hbyte 2 _ (by decide) (fun m hm => by rw [headerByte, mediaHeader_eq hm]; rfl) h2
  have hb3 : (recoverHeader F others).getD 3 0 = BitVec.ofNat 8 (lost.length - 12) :=
    hbyte 3 _ (by decide) (fun m hm => by rw [headerByte, mediaHeader_eq hm]; rfl) h3
  have hts : slice (recoverHeader F others) 4 4 = slice lost 4 4 := by
    rw [slice_eq_map (by rw [(recoverHeader_getD (by omega) hothers).1]), slice_eq_map (by omega)]
    refine List.map_congr_left fun j hj => ?_
    have hj := List.mem_range.mp hj
    refine hbyte (4 + j) (fun m => m.getD (4 + j) 0) (by omega) (fun m hm => ?_) (hts j hj)
    rw [headerByte, mediaHeader_eq hm]
    interval_cases j <;> rfl
  have hpay : (List.range (lost.length - 12)).map (recoverPayloadByte F (fecHeaderLen F) others) =
      (List.range (lost.length - 12)).map fun j => lost.getD (12 + j) 0 := by
    refine List.map_congr_left fun j hj => ?_
    obtain ⟨-, hxor⟩ := hpayload lost hlost j (List.mem_range.mp hj)
    rw [recoverPayloadByte, hxor, ← foldl_xor_others hperm fun m => m.getD (12 + j) 0, List.foldl_map]
  refine ⟨?_, ?_⟩
  · rw [beAt_two]
    unfold byteAt
    rw [hb2, hb3, BitVec.toNat_ofNat, BitVec.toNat_ofNat]
    omega
  · obtain ⟨hq1, hq0⟩ := seq_bytes (lost.getD 2 0) (lost.getD 3 0)
    rw [beAt_two]
    conv_rhs => rw [packet_parts h12]
    rw [recoverPacket, hb0, hb1, hts, hssrc, hpay]
    unfold byteAt
    rw [hq1, hq0]

end

theorem fecEmitBytes_run (pkt : List Byte) (n : Nat) {c : Ctx Store} (hc : c.unit = 0) :
    fecEmitBytes n pkt c =
      .ok () (c.addRecs (pkt.mapIdx fun i b => mkRec Field.recoveredPacketByte b.toNat 0 (n + i))) := by
  induction pkt generalizing n c with
  | nil => rw [fecEmitBytes, Parse.pure_run, List.mapIdx_nil, Ctx.addRecs_nil]
  | cons b pkt ih =>
    rw [fecEmitBytes, Parse.bind_ok (emit_eq _ _ _ _ _ _), ih (n + 1) (by exact hc), Ctx.addRecs_addRecs, List.mapIdx_cons, hc]
    simp [Nat.add_assoc, Nat.add_comm 1]

/-- The packets of a group that MEDIA has, as `recover` collects them (R323). -/
theorem presentBytes_group {media : Store} {group : List (List Byte)} {key : List Byte → Half} {q : Half}
    (hn : (media.map (·.key)).Nodup) (hmem : ∀ m ∈ group, key m ≠ q → ⟨key m, m⟩ ∈ media) :
    presentBytes media (group.map key) q = group.filter fun m => key m ≠ q := by
  have hfilter : group.filter ((fun x => !(x == q)) ∘ key) = group.filter fun m => key m ≠ q :=
    List.filter_congr fun m _ => filter_ne_eq (key m) q
  rw [presentBytes, List.filter_map, List.map_map, hfilter]
  conv_rhs => rw [← List.map_id (group.filter fun m => key m ≠ q)]
  refine List.map_congr_left fun m hm => ?_
  obtain ⟨hm, hne⟩ := List.mem_filter.mp hm
  exact Store.bytesOf_of_mem hn (hmem m hm (of_decide_eq_true hne))

/-- Settles O59. -/
theorem fecPacketRecoversTheLostPacket : Obligations.FecPacketRecoversTheLostPacket := by
  intro s len F group lost key hF hlen hH hfec hkey hgroup hsize hn hlost hmissing hmem hversion hssrc
  have hlength : F.length = len.toNat := by rw [hF, inputBytes_length]
  have hseqs : (group.map key).Nodup := hgroup ▸ fecSeqs_nodup F
  have hone : (fecSeqs F).filter (fun q => q ∉ s.media.map (·.key)) = [key lost] := by
    refine filter_singleton (fecSeqs_nodup F) (hgroup ▸ List.mem_map_of_mem hlost) fun q hq => ?_
    rw [← hgroup] at hq
    obtain ⟨m, hm, rfl⟩ := List.mem_map.mp hq
    rw [decide_eq_true_iff]
    refine ⟨fun h => ?_, fun h => h ▸ hmissing⟩
    by_contra hne
    exact h (List.mem_map_of_mem (f := (·.key)) (hmem m hm hne))
  have hpresent : presentBytes s.media (fecSeqs F) (key lost) = group.filter fun m => key m ≠ key lost := by
    rw [← hgroup, presentBytes_group hn hmem]
  obtain ⟨hY, hpacket⟩ := recoverPacket_lost (by omega) hfec (perm_lost_others hseqs hlost) hsize hversion hssrc
  rw [← hkey lost] at hpacket
  obtain ⟨hvariant, -, -, -, -, -, hpayload⟩ := hfec
  have hfits : fecHeaderLen F + (lost.length - 12) ≤ F.length := by
    obtain hzero | hpos := Nat.eq_zero_or_pos (lost.length - 12)
    · omega
    · have := (hpayload lost hlost (lost.length - 12 - 1) (by omega)).1
      omega
  have hne : fecSeqs F ≠ [] := fun h => by rw [h] at hone; simp at hone
  have hproc := fecPacketProc_stored (cfg := s.cfg) (media := s.media) (fec := s.fec) (by omega)
    hvariant (by omega) hne
  rw [fecRecover_one rfl hone (by rw [hpresent, hY]), if_neg (by omega), hpresent, hpacket,
    Parse.bind_ok (emit_eq _ _ _ _ _ _), fecEmitBytes_run _ _ (by rfl)] at hproc
  have h12 : 12 + (lost.length - 12) = lost.length := by have := (hsize lost hlost).1; omega
  rw [exec_fecPacket, ← hF, runParser_finished hproc, h12]
  simp [storedCtx, Ctx.addRecs, Ctx.start]
  rfl

end Sys2Proof.Machine
end

section
/-! The loops that the data bound: any pass count above what is left gives the same result (log entry 7;
spec/70_reset_and_hazards.md R400). -/

namespace Sys2Proof.Machine

open Sys2Proof.Safety

/-! ## Loops over positions -/

/-- Each pass of `padding` moves on by a byte (R288). -/
theorem opusPaddingFrom_congr {S : List Byte} {f g pos : Nat} (hf : S.length - pos < f) (hg : S.length - pos < g) (P : Nat) :
    opusPaddingFrom S f pos P = opusPaddingFrom S g pos P := by
  induction f generalizing g pos P with
  | zero => omega
  | succ f ih =>
    obtain ⟨g, rfl⟩ : ∃ g', g = g' + 1 := ⟨g - 1, by omega⟩
    rw [opusPaddingFrom, opusPaddingFrom]
    split
    · rfl
    · split
      · exact ih (by omega) (by omega) _
      · rfl

/-- Each pass of STAP-A moves on by two bytes or more (R163). -/
theorem stapAFrom_congr {epb : Bool} {S : List Byte} {f g pos : Nat} (hf : S.length - pos < f) (hg : S.length - pos < g)
    (k : Nat) : stapAFrom epb S f pos k = stapAFrom epb S g pos k := by
  induction f generalizing g pos k with
  | zero => omega
  | succ f ih =>
    obtain ⟨g, rfl⟩ : ∃ g', g = g' + 1 := ⟨g - 1, by omega⟩
    rw [stapAFrom, stapAFrom]
    split
    · rw [ih (g := g) (by omega) (by omega)]
    · rfl

section
variable {σ α β : Type}

/-- Sequences whose second parts agree wherever the first part ends well. -/
theorem Parse.bind_congr {p : Parse σ α} {f g : α → Parse σ β} (c : Ctx σ)
    (h : ∀ a c', p c = .ok a c' → f a c' = g a c') : (p >>= f) c = (p >>= g) c := by
  cases hp : p c with
  | ok a c' => rw [Parse.bind_ok hp, Parse.bind_ok hp, h a c' hp]
  | error st c' => rw [Parse.bind_error hp, Parse.bind_error hp]

/-! ## Cursors move on -/

/-- Where the procedure ends well, its cursor has moved on by `n` bits or more, inside the reader (R139). -/
def Advances (n : Nat) (p : Parse σ α) : Prop :=
  ∀ c a c', p c = .ok a c' →
    c'.rd.len = c.rd.len ∧ c.rd.pos + n ≤ c'.rd.pos ∧ (c'.rd.pos = c.rd.pos ∨ c'.rd.pos ≤ c.rd.len)

theorem Advances.bind {m n : Nat} {p : Parse σ α} {f : α → Parse σ β} (hp : Advances m p) (hf : ∀ a, Advances n (f a)) :
    Advances (m + n) (p >>= f) := by
  intro c b c' h
  obtain ⟨a, c1, h1, h2⟩ := Parse.bind_eq_ok h
  have hp1 := hp c a c1 h1
  have hf2 := hf a c1 b c' h2
  omega

theorem advances_pure (a : α) : Advances 0 (pure a : Parse σ α) := fun c b c' h => by
  cases h
  exact ⟨rfl, le_rfl, .inl rfl⟩

theorem advances_emit (g : Half) (v i j k : Nat) : Advances 0 (emit g v i j k : Parse σ Unit) := fun c b c' h => by
  cases h
  exact ⟨rfl, le_rfl, .inl rfl⟩

theorem advances_liftRead {n : Nat} {r : Reader → Except ReadFail (α × Reader)}
    (hr : ∀ x a x', r x = .ok (a, x') → x'.len = x.len ∧ x.pos + n ≤ x'.pos ∧ (x'.pos = x.pos ∨ x'.pos ≤ x.len)) :
    Advances n (liftRead r : Parse σ α) := by
  intro c a c' h
  unfold liftRead at h
  split at h
  next x hx => cases h; exact hr _ _ _ hx
  · cases h
  · cases h

theorem advances_fieldU {n : Nat} (g : Half) (i j k : Nat) : Advances n (fieldU g n i j k : Parse σ Nat) := by
  refine Advances.bind (m := n) (n := 0) (advances_liftRead fun x v x' h => ?_) fun v =>
    Advances.bind (m := 0) (n := 0) (advances_emit _ _ _ _ _) fun _ => advances_pure v
  rw [Reader.u_eq] at h
  split at h
  · cases h
  · cases h
    exact ⟨rfl, le_rfl, .inr (by simp only; omega)⟩

theorem advances_fieldUe (g : Half) (i j k : Nat) : Advances 1 (fieldUe g i j k : Parse σ Nat) := by
  refine Advances.bind (m := 1) (n := 0) (advances_liftRead fun x v x' h => ?_) fun v =>
    Advances.bind (m := 0) (n := 0) (advances_emit _ _ _ _ _) fun _ => advances_pure v
  obtain ⟨-, -, hlen, hpos, hend⟩ := Reader.ue_ok h
  exact ⟨hlen, hpos, .inr hend⟩

theorem Advances.mono {m n : Nat} {p : Parse σ α} (h : Advances n p) (hm : m ≤ n) : Advances m p := fun c a c' hp => by
  have := h c a c' hp
  omega

/-! ## Loops over bits -/

/-- A loop whose passes read a bit each (R139). -/
theorem repeatUntil_congr {body : Nat → Parse σ Bool} (hbody : ∀ n, Advances 1 (body n)) {f g : Nat} (start : Nat)
    (c : Ctx σ) (hf : c.rd.len - c.rd.pos < f) (hg : c.rd.len - c.rd.pos < g) :
    repeatUntil f start body c = repeatUntil g start body c := by
  induction f generalizing g start c with
  | zero => omega
  | succ f ih =>
    obtain ⟨g, rfl⟩ : ∃ g', g = g' + 1 := ⟨g - 1, by omega⟩
    rw [repeatUntil, repeatUntil]
    refine Parse.bind_congr c fun stop c' h => ?_
    have hmoved := hbody start c stop c' h
    split
    · rfl
    · exact ih (start + 1) c' (by omega) (by omega)

end

/-- An element that is read or not before the rest (R196, R198). -/
theorem advances_optional {σ α : Type} {b : Prop} [Decidable b] {q : Parse σ α} (hq : Advances 0 q) (g : Half)
    (i j k : Nat) : Advances 0 (if b then fieldUe g i j k >>= fun _ => q else q) := by
  split
  · exact (Advances.bind (advances_fieldUe g i j k) fun _ => hq).mono (Nat.zero_le _)
  · exact hq

theorem advances_rplmEntry (L n : Nat) : Advances 1 (rplmEntry L n) := by
  refine Advances.bind (n := 0) (advances_fieldUe _ _ _ _) fun idc => ?_
  dsimp only
  split
  · exact (Advances.bind (advances_fieldUe _ _ _ _) fun _ => advances_pure _).mono (Nat.zero_le _)
  · exact advances_optional (advances_pure _) _ _ _ _

theorem advances_mmcoEntry (n : Nat) : Advances 1 (mmcoEntry n) := by
  refine Advances.bind (n := 0) (advances_fieldUe _ _ _ _) fun op => ?_
  exact advances_optional (advances_optional (advances_optional (advances_optional (advances_pure _) _ _ _ _)
    _ _ _ _) _ _ _ _) _ _ _ _

/-! ## AV1 -/

/-- A leb128 value that is read has a byte, and the cursor does not go back (R134). -/
theorem Reader.leb128From_moves {f i value : Nat} {r r' : Reader} {x : Nat × Nat}
    (h : Reader.leb128From f i value r = .ok (x, r')) : i + min f 1 ≤ x.2 ∧ r.pos ≤ r'.pos := by
  induction f generalizing i value r with
  | zero => cases h; exact ⟨le_rfl, le_rfl⟩
  | succ f ih =>
    rw [Reader.leb128From] at h
    split at h
    · cases h
    next b r1 hb =>
      have hpos := Reader.u_pos_le hb
      dsimp only at h
      split at h
      · cases h
        exact ⟨by simp only; omega, hpos⟩
      · obtain ⟨hcount, hmoved⟩ := ih h
        omega

theorem leb128_moves {σ : Type} {c c' : Ctx σ} {x : Nat × Nat} (h : (liftRead Reader.leb128 : Parse σ _) c = .ok x c') :
    1 ≤ x.2 ∧ c.rd.pos ≤ c'.rd.pos := by
  unfold liftRead at h
  split at h
  next a r hr =>
    cases h
    have hmoves := Reader.leb128From_moves hr
    rw [show min Config.leb128MaxBytes 1 = 1 from rfl] at hmoves
    omega
  · cases h
  · cases h

theorem advances_obuHeader : Advances 8 obuHeader := by
  unfold obuHeader
  refine Advances.bind (m := 1) (n := 7) (advances_fieldU _ _ _ _) fun _ => ?_
  refine Advances.bind (m := 4) (n := 3) (advances_fieldU _ _ _ _) fun t => ?_
  refine Advances.bind (m := 1) (n := 2) (advances_fieldU _ _ _ _) fun x => ?_
  refine Advances.bind (m := 1) (n := 1) (advances_fieldU _ _ _ _) fun hs => ?_
  refine Advances.bind (m := 1) (n := 0) (advances_fieldU _ _ _ _) fun _ => ?_
  split
  · refine Advances.mono (n := 3 + (2 + (3 + 0))) ?_ (Nat.zero_le _)
    exact Advances.bind (advances_fieldU _ _ _ _) fun _ => Advances.bind (advances_fieldU _ _ _ _) fun _ =>
      Advances.bind (advances_fieldU _ _ _ _) fun _ => advances_pure _
  · exact advances_pure _

/-- The payload starts after what has been read (R236). -/
theorem obuExtent_hdr {E : List Byte} {hs : Nat} {complete : Bool} {c c' : Ctx Unit} {x : Nat × Nat}
    (h : obuExtent E hs complete c = .ok x c') : c.rd.bytePos ≤ x.1 := by
  unfold obuExtent at h
  split at h
  · obtain ⟨⟨sz, n⟩, c1, hread, h⟩ := Parse.bind_eq_ok h
    obtain ⟨-, hmoved⟩ := leb128_moves hread
    dsimp only at h
    rw [Parse.bind_ok (emit_eq _ _ _ _ _ _), Parse.bind_ok (getReader_run _)] at h
    have hx : x.1 = c1.rd.bytePos := by
      split_ifs at h <;> cases h <;> rfl
    unfold Reader.bytePos at hx ⊢
    omega
  · rw [Parse.bind_ok (getReader_run _)] at h
    cases h
    exact le_rfl

/-- An OBU that is read occupies a byte or more (R235). -/
theorem parseObu_pos {E : List Byte} {complete : Bool} {c c' : Ctx Unit} {n : Nat}
    (h : parseObu E complete c = .ok n c') : 1 ≤ n := by
  rw [parseObu, Parse.bind_ok (setReader_run _ _)] at h
  obtain ⟨⟨t, hs⟩, c1, hheader, h⟩ := Parse.bind_eq_ok h
  obtain ⟨⟨hdr, sz⟩, c2, hextent, h⟩ := Parse.bind_eq_ok h
  have hmoved := advances_obuHeader _ _ _ hheader
  have hhdr := obuExtent_hdr hextent
  dsimp only at h
  rw [Parse.bind_ok (emit_eq _ _ _ _ _ _)] at h
  obtain ⟨_, c3, -, h⟩ := Parse.bind_eq_ok h
  cases h
  unfold Reader.bytePos at hhdr
  simp only [Reader.ofBytes_pos] at hmoved
  omega

/-- Each pass of AV1_OBUS moves on by a byte or more (R233). -/
theorem obusFrom_congr {S : List Byte} {f g pos : Nat} (hf : S.length - pos < f) (hg : S.length - pos < g) (el : Nat)
    (c : Ctx Unit) : obusFrom S f pos el c = obusFrom S g pos el c := by
  induction f generalizing g pos el c with
  | zero => omega
  | succ f ih =>
    obtain ⟨g, rfl⟩ : ∃ g', g = g' + 1 := ⟨g - 1, by omega⟩
    rw [obusFrom, obusFrom]
    split
    · refine Parse.bind_congr c fun _ c1 _ => Parse.bind_congr c1 fun n c2 hn => ?_
      have := parseObu_pos hn
      exact ih (by omega) (by omega) _ _
    · rfl

/-- An element of a packet that goes on has a length byte, or takes what is left (R232). -/
theorem elementLength_pos {S : List Byte} {W el pos : Nat} {c c' : Ctx Unit} {x : Nat × Nat} (hpos : pos < S.length)
    (h : elementLength S W el pos c = .ok x c') : pos < x.2 + x.1 := by
  unfold elementLength at h
  split at h
  · rw [Parse.bind_ok (setReader_run _ _)] at h
    obtain ⟨⟨L, nb⟩, c1, hread, h⟩ := Parse.bind_eq_ok h
    obtain ⟨hnb, -⟩ := leb128_moves hread
    dsimp only at h hnb
    rw [Parse.bind_ok (emit_eq _ _ _ _ _ _)] at h
    cases h
    simp only
    omega
  · cases h
    simp only
    omega

/-- Each pass of AV1_PAYLOAD moves on by a byte or more (R232). -/
theorem elementsFrom_congr {S : List Byte} {Z Y W f g pos : Nat} (hpos : pos ≤ S.length) (hf : S.length - pos < f)
    (hg : S.length - pos < g) (el : Nat) (c : Ctx Unit) :
    elementsFrom S Z Y W f pos el c = elementsFrom S Z Y W g pos el c := by
  induction f generalizing g pos el c with
  | zero => omega
  | succ f ih =>
    obtain ⟨g, rfl⟩ : ∃ g', g = g' + 1 := ⟨g - 1, by omega⟩
    rw [elementsFrom, elementsFrom]
    split
    · rfl
    split
    · rfl
    split
    · rfl
    refine Parse.bind_congr c fun _ c1 _ => Parse.bind_congr c1 fun x c2 hx => ?_
    have hnext := elementLength_pos (by omega) hx
    obtain ⟨L, p⟩ := x
    dsimp only at hnext ⊢
    split
    · rfl
    · have hrec : elementsFrom S Z Y W f (p + L) (el + 1) = elementsFrom S Z Y W g (p + L) (el + 1) :=
        funext fun c => ih (by omega) (by omega) (by omega) _ c
      rw [hrec]

/-- Settles O21. -/
theorem loopCountsNeverDecide : Obligations.LoopCountsNeverDecide := by
  refine ⟨fun epb S x => stapAFrom_congr (by omega) (by omega) 0, fun S Z Y W x hS => ?_, fun S x => ?_, fun S pos P x =>
    opusPaddingFrom_congr (by omega) (by omega) P, fun L x c => ?_, fun x c => ?_⟩
  · exact funext fun c => elementsFrom_congr hS (by omega) (by omega) 0 c
  · exact funext fun c => obusFrom_congr (by omega) (by omega) 0 c
  · exact repeatUntil_congr (advances_rplmEntry L) 0 c (by unfold readerFuel; omega) (by unfold readerFuel; omega)
  · exact repeatUntil_congr advances_mmcoEntry 0 c (by unfold readerFuel; omega) (by unfold readerFuel; omega)

end Sys2Proof.Machine
end
